-- ==== Sys2Proof/Word.lean ====
section
/-! DEFINITION. The byte, and big-endian reading of nothing more than plain arithmetic over it.
The part's ports carry 8 data bits (line summary, chapter 11). -/

namespace Sys2Proof

/-- One byte of a port, a cell, a section or a message. -/
abbrev Byte := BitVec 8

/-- Material of a service key, a sealed word or an opened word: bytes the spec never interprets. -/
abbrev Bytes := List Byte

end Sys2Proof
end

