-- ==== Sys2Proof/Syntax.lean ====
section
/-! DEFINITION. The commands of the block: one constructor of `Instr` for each row of
spec/opcode_table.json, with the operands the step has in the spec. A command row of the control
processor carries the tag and the parameter bytes of its command cell (payload bytes 0 and 2 onward:
"Command cell and reply cell payloads", 00_scope; R182). -/

namespace Sys2Proof

/-- One of the two input paths (00_scope, Terms). -/
inductive Feed where
  | f0
  | f1
deriving DecidableEq, Repr

/-- A byte at a feed port with the uncorrectable flag of its run (R1). -/
structure FeedByte where
  byte : Byte
  uncorrectable : Bool
deriving DecidableEq, Repr

/-- What START_UP finds at the part's pins (R17, R191, R192, R193): the strap (true: F1 present), the
standby-good line, the bytes the configuration memory gives (none: it does not answer), and how many
clock advances fell between the release of the reset line and the ready line (R40, R191). -/
structure StartInputs where
  strapPresent : Bool
  standbyGood : Bool
  memory : Option Bytes
  advances : Nat
deriving DecidableEq, Repr

/-- A framed cell on L (R180): the bytes that follow a frame start, up to the next one, and whether a reset was
applied while the frame was open (log entry 32). -/
structure LocalFrame where
  bytes : Bytes
  openAtReset : Bool
deriving DecidableEq, Repr

/-- The commands, in the order of spec/opcode_table.json. -/
inductive Instr where
  /-- POWER_ON (R191): power is applied with the reset line asserted or not, and standby-good at a level. -/
  | powerOn (resetAsserted standbyGood : Bool)
  /-- RESET_LINE_ASSERT (R191). -/
  | resetLineAssert
  /-- START_UP (R191): release of the reset line and the four steps to the ready line. -/
  | startUp (inputs : StartInputs)
  /-- STANDBY_GOOD_FALL (R193). -/
  | standbyGoodFall
  /-- FEED_BYTE (R1): one byte at a feed port. -/
  | feedByte (feed : Feed) (byte : FeedByte)
  /-- CONFIRM_SLOT (R5): the 128 bytes of a CONFIRM slot. -/
  | confirmSlot (feed : Feed) (bytes : List FeedByte)
  /-- LOCKED_SLOT (R6): the 128 bytes of a LOCKED slot. -/
  | lockedSlot (feed : Feed) (bytes : List FeedByte)
  /-- LOCK_LINE_CHANGE (R3): the lock line of a feed goes to a level. -/
  | lockLineChange (feed : Feed) (high : Bool)
  /-- CLOCK_ADVANCE (R40): 1/1024 s of oscillator time. -/
  | clockAdvance
  /-- LOSS_TIMER_EXPIRY (R48). -/
  | lossTimerExpiry
  /-- SETTLE_TIMER_EXPIRY (R96). -/
  | settleTimerExpiry (feed : Feed)
  /-- LOCK_TIMER_EXPIRY (R97). -/
  | lockTimerExpiry (feed : Feed)
  /-- SYNC_TIMER_EXPIRY (R98). -/
  | syncTimerExpiry (feed : Feed)
  /-- MAP_TIMER_EXPIRY (R101). -/
  | mapTimerExpiry (feed : Feed)
  /-- KEY_WAIT_EXPIRY (R125). -/
  | keyWaitExpiry (feed : Feed)
  /-- LOCKOUT_EXPIRY (R150). -/
  | lockoutExpiry
  /-- METER_SECOND (R161). -/
  | meterSecond
  /-- PRIMING_TIMER_EXPIRY (R177). -/
  | primingTimerExpiry
  /-- SENT_PULSE (R142). -/
  | sentPulse
  /-- COLLIDED_PULSE (R143). -/
  | collidedPulse
  /-- RETURN_WAIT_EXPIRY (R143). -/
  | returnWaitExpiry
  /-- HOLD_LINE_CHANGE (R176). -/
  | holdLineChange (asserted : Bool)
  /-- OUTPUT_CELL_WRITE (R176). -/
  | outputCellWrite
  /-- LOCAL_CELL_TRANSFER (R175). -/
  | localCellTransfer
  /-- LOCAL_CELL_RECEIVE (R180): a framed cell. -/
  | localCellReceive (frame : LocalFrame)
  /-- REPLY_ENTRY_ARBITER (R184). -/
  | replyEntryArbiter
  /-- INVALID_COMMAND (R182): a command with an undefined code. -/
  | invalidCommand (tag code : Byte) (params : Bytes)
  /-- NO_OPERATION (R182). -/
  | noOperation (tag : Byte) (params : Bytes)
  /-- SOFT_RESET (R190). -/
  | softReset (tag : Byte) (params : Bytes)
  /-- CONFIGURE (R189). -/
  | configure (tag : Byte) (params : Bytes)
  /-- STATUS_READ_FEEDS (R18): STATUS READ with area 0; `more` are parameter bytes beyond the area. -/
  | statusReadFeeds (tag : Byte) (more : Bytes)
  /-- STATUS_READ_FILTER (R37): area 1. -/
  | statusReadFilter (tag : Byte) (more : Bytes)
  /-- STATUS_READ_CLOCK (R55): area 2. -/
  | statusReadClock (tag : Byte) (more : Bytes)
  /-- STATUS_READ_ACQUISITION (R111): area 3. -/
  | statusReadAcquisition (tag : Byte) (more : Bytes)
  /-- STATUS_READ_ACCESS (R127): area 4. -/
  | statusReadAccess (tag : Byte) (more : Bytes)
  /-- STATUS_READ_PURCHASES (R146): area 5. -/
  | statusReadPurchases (tag : Byte) (more : Bytes)
  /-- STATUS_READ_LIMITS (R164): area 6. -/
  | statusReadLimits (tag : Byte) (more : Bytes)
  /-- STATUS_READ_COUNTERS (R188): area 7. -/
  | statusReadCounters (tag : Byte) (more : Bytes)
  /-- FLAGS_CLEAR (R186). -/
  | flagsClear (tag : Byte) (params : Bytes)
  /-- SELECT (R90). -/
  | select (tag : Byte) (params : Bytes)
  /-- SELECT_NEXT (R93). -/
  | selectNext (tag : Byte) (params : Bytes)
  /-- SELECT_PREVIOUS (R93). -/
  | selectPrevious (tag : Byte) (params : Bytes)
  /-- PRETUNE (R94). -/
  | pretune (tag : Byte) (params : Bytes)
  /-- PARK (R95). -/
  | park (tag : Byte) (params : Bytes)
  /-- RELEASE (R108). -/
  | release (tag : Byte) (params : Bytes)
  /-- STANDBY (R109). -/
  | standby (tag : Byte) (params : Bytes)
  /-- WAKE (R109). -/
  | wake (tag : Byte) (params : Bytes)
  /-- CHANNEL_READ (R75). -/
  | channelRead (tag : Byte) (params : Bytes)
  /-- GUIDE_SEARCH (R78). -/
  | guideSearch (tag : Byte) (params : Bytes)
  /-- GUIDE_READ (R84). -/
  | guideRead (tag : Byte) (params : Bytes)
  /-- TAP_OPEN (R26). -/
  | tapOpen (tag : Byte) (params : Bytes)
  /-- TAP_CLOSE (R27). -/
  | tapClose (tag : Byte) (params : Bytes)
  /-- SET_CLOCK (R49). -/
  | setClock (tag : Byte) (params : Bytes)
  /-- PURCHASE (R131). -/
  | purchase (tag : Byte) (params : Bytes)
  /-- CANCEL_PURCHASE (R135). -/
  | cancelPurchase (tag : Byte) (params : Bytes)
  /-- PURCHASE_READ (R145). -/
  | purchaseRead (tag : Byte) (params : Bytes)
  /-- PROFILE_SELECT (R153). -/
  | profileSelect (tag : Byte) (params : Bytes)
  /-- PROFILE_WRITE (R154). -/
  | profileWrite (tag : Byte) (params : Bytes)
  /-- PROFILE_READ (R157). -/
  | profileRead (tag : Byte) (params : Bytes)
  /-- PIN_CHANGE (R151). -/
  | pinChange (tag : Byte) (params : Bytes)
deriving DecidableEq, Repr

end Sys2Proof
end

