-- ==== Sys2Proof/Config.lean ====
section
/-! DEFINITION. What the spec uses "as results" without stating the algorithm, and the free values.
Every constant here is opaque: nothing in Lean can evaluate it or prove a value of it. -/

namespace Sys2Proof

/-- A byte the spec leaves open (padding of a local cell, the payload byte of a FILL cell), one for
each value of the model's free index. Free value, log entry 8. -/
opaque Config.freeByte : Nat → Byte

/-- The unit's fixed device check of a UNIT message of kind SERVICE KEY (R35): the bytes it is taken
over, then the integrity tag. Log entry 9. -/
opaque Config.deviceCheck : Bytes → Bytes → Bool

/-- The integrity check under a service key generation (R35): the generation's material, the bytes it
is taken over, then the integrity tag. Log entry 9. -/
opaque Config.generationCheck : Bytes → Bytes → Bytes → Bool

/-- The word that a sealed word opens to under a generation's material (R121): material, then sealed
word. Opening always yields a word. Log entries 9 and 10. -/
opaque Config.openWord : Bytes → Bytes → Bytes

/-- Byte i of a payload descrambled with a word (R123): word, payload, i. Log entries 9 and 10. -/
opaque Config.descrambleByte : Bytes → Bytes → Nat → Byte

end Sys2Proof
end

