-- ==== Sys2Proof/Machine/State.lean ====
section
/-! DEFINITION. The state of the part: every block of the block overview (00_scope) with the state its
chapter gives it, the lines, and the queue of waiting commands. Plain data. Numbers are `Nat` with the
range the chapter gives in the comment; every operation that writes one clamps, wraps or saturates as
the rules say. Times are in ticks of 1/128000 s: 1 ms is 128 ticks and 1/1024 s is 125 (log entry 3). -/

namespace Sys2Proof.Machine

/-- Remaining oscillator time in ticks of 1/128000 s. -/
abbrev Ticks := Nat

/-- One thing of each feed. -/
structure PerFeed (α : Type) where
  f0 : α
  f1 : α
deriving DecidableEq, Repr

/-! ## Feed Fronts (chapter 1) -/

/-- The lock sources, with their codes 0 to 3 (R2, R11). -/
inductive LockSource where
  | tuner | sync | forced | off
deriving DecidableEq, Repr

/-- The sync states (section 1.3): n of CONFIRM and b of LOCKED are 0 to 2. -/
inductive SyncState where
  | down
  | hunt
  | confirm (n : Fin 3)
  | locked (b : Fin 3)
deriving DecidableEq, Repr

/-- The causes with which a front leaves LOCKED (R12). Cause RESET has no lasting effect (R19) and
needs no event here. -/
inductive LeaveCause where
  | sync | lock | tune | disable
deriving DecidableEq, Repr

/-- One Feed Front. -/
structure Front where
  enabled : Bool
  source : LockSource
  sync : SyncState
  /-- bytes counted since HUNT was entered: the position of the next byte (log entry 7) -/
  position : Nat
  /-- the cell slot position (CONFIRM and LOCKED) -/
  slot : Option Nat
  /-- HUNT: the last bytes, at most 5, not yet passed over; CONFIRM and LOCKED: the part of the slot received -/
  held : List FeedByte
  up : Bool
  down : Bool
  /-- the six counters of R14, each 0 to 65535 -/
  accepted : Nat
  headerErrors : Nat
  lengthErrors : Nat
  uncorrectable : Nat
  misplaced : Nat
  syncLosses : Nat
deriving DecidableEq, Repr

/-! ## Cells -/

/-- The cell kinds, codes 0 to 7 (00_scope, Cell). -/
inductive CellKind where
  | programme | sections | time | command | reply | notice | marker | fill
deriving DecidableEq, Repr

/-- A scramble phase that scrambles: A (code 1) or B (code 2). -/
inductive Phase where
  | a | b
deriving DecidableEq, Repr

/-- A cell accepted from a feed. `phase` is none for a clear cell; `padding` is carried as it arrived (R7). -/
structure Cell where
  stream : Nat
  phase : Option Phase
  unitStart : Bool
  errorMark : Bool
  continuity : Nat
  kind : CellKind
  payload : Bytes
  padding : Bytes
deriving DecidableEq, Repr

/-- The outcome codes of section 11.1. -/
inductive ReplyOutcome where
  | done | invalidCommand | badParameter | sameChannel | unknownChannel | standby | noSecondFeed
  | superseded | failed | tableFull | duplicate | notFound | tapData | wrongSource | empty
  | refusedRange | endOfList | endOfMap | hit | notSatisfied | boundMissed | limit | withdrawn
  | unknownEvent | notForSale | alreadyBought | listFull | credit | pin | lockedOut | tooLate
  | noTime | ended | blackout
deriving DecidableEq, Repr

/-- The decisions (R173). -/
inductive Decision where
  | present | preview | deny
deriving DecidableEq, Repr

/-- The reasons (R173). ENDED stands only in markers (R172). -/
inductive Reason where
  | none | signal | blackout | channelLock | rating | window | allowance | offer | notEntitled
  | noKey | changing | ended
deriving DecidableEq, Repr

/-- A cell formed by the part itself on stream 4095 (R173, R182, R185). -/
inductive LocalCell where
  | reply (tag code : Byte) (outcome : ReplyOutcome) (continuation : Nat) (results : Bytes)
  | notice (mask : BitVec 16)
  | marker (channel : Nat) (decision : Decision) (reason : Reason)
deriving DecidableEq, Repr

/-- A cell of the output queue (R175). -/
inductive OutCell where
  | programme (cell : Cell)
  | ofPart (cell : LocalCell)
deriving DecidableEq, Repr

/-! ## Stream Filter and Section Assembler (chapter 2) -/

inductive Consumer where
  | present | sections | tap
deriving DecidableEq, Repr

inductive Owner where
  | fixed | acquisition | tap
deriving DecidableEq, Repr

/-- The fields of a TAP entry: the tag of its TAP OPEN and its drop count. -/
structure TapInfo where
  tag : Byte
  drops : Nat
deriving DecidableEq, Repr

/-- One entry of the filter table (section 2.1). -/
structure FilterEntry where
  feed : Feed
  stream : Nat
  consumer : Consumer
  owner : Owner
  /-- 0 to 7, or none -/
  expected : Option Nat
  errors : Nat
  tap : Option TapInfo
deriving DecidableEq, Repr

structure Filter where
  /-- at most 24, never two with one feed and stream (R20), in the order made -/
  entries : List FilterEntry
  unmatched : PerFeed Nat
  kindMismatch : PerFeed Nat
deriving DecidableEq, Repr

/-- A section buffer that is assembling (section 2.4). -/
structure Assembly where
  feed : Feed
  stream : Nat
  consumer : Consumer
  tableKind : Nat
  declared : Nat
  bytes : Bytes
deriving DecidableEq, Repr

/-- The no-buffer counts, one per table kind. -/
structure NoBuffer where
  channelMap : Nat
  programmeMap : Nat
  guideEvents : Nat
  management : Nat
  programmeKey : Nat
  other : Nat
deriving DecidableEq, Repr

structure Assembler where
  /-- the buffers in use, at most 12; the others are free -/
  buffers : List Assembly
  abandoned : PerFeed Nat
  crcFailures : PerFeed Nat
  unknownTables : PerFeed Nat
  noBuffer : NoBuffer
  /-- the four counts of the management dispatch (section 2.5) -/
  malformed : Nat
  unknownKinds : Nat
  noKey : Nat
  integrityFailures : Nat
deriving DecidableEq, Repr

/-! ## Network Clock (chapter 3) -/

inductive ClockState where
  | unset | set | holdover
deriving DecidableEq, Repr

/-- The time sources, codes 0 to 4 (R54). -/
inductive TimeSource where
  | feed0 | feed1 | any | command | none
deriving DecidableEq, Repr

/-- Where a mark came from (R42). -/
inductive MarkSource where
  | f0 | f1 | command
deriving DecidableEq, Repr

structure Clock where
  /-- network time N, 0 to 2^42 - 1 -/
  n : Nat
  /-- pending slew S, -1024 to +1024 -/
  s : Int
  /-- correction phase K, 0 to 15 -/
  k : Nat
  state : ClockState
  stepCount : Nat
  /-- local offset, -48 to +56 quarter-hours -/
  offset : Int
  lastMinute : Option Nat
  creditedDay : Nat
  lossTimer : Option Ticks
  source : TimeSource
  threshold : Nat
  lossTime : Nat
  marksApplied : Nat
  slews : Nat
  marksIgnored : Nat
  shortCells : Nat
  lastSource : Option MarkSource
deriving DecidableEq, Repr

/-! ## Guide Store (chapter 4) -/

/-- A channel entry; `tier` none is FREE. -/
structure ChannelEntry where
  number : Nat
  carrier : Nat
  mapStream : Nat
  tier : Option Nat
  rating : Nat
  hidden : Bool
deriving DecidableEq, Repr

/-- An event record (section 4.2). -/
structure EventRecord where
  id : Nat
  channel : Nat
  start : Nat
  duration : Nat
  rating : Nat
  genre : Nat
  tier : Option Nat
  price : Option Nat
  cancelMinutes : Nat
  previewMinutes : Nat
  blackout : List Nat
  truncated : Bool
  title : Nat
  withdrawn : Bool
deriving DecidableEq, Repr

structure Guide where
  /-- in order of channel number, at most 512 -/
  channels : List ChannelEntry
  /-- in order of channel and start, at most 1024 -/
  events : List EventRecord
  watched : Option Nat
  lastEvent : Option EventRecord
  /-- the seven counts of R76 -/
  malformedMaps : Nat
  badRecords : Nat
  mapFull : Nat
  malformedGuides : Nat
  refusedEvents : Nat
  evictedEvents : Nat
  rolloverRemovals : Nat
deriving DecidableEq, Repr

/-! ## Acquisition Controller (chapter 6) -/

inductive Role where
  | present | background | none
deriving DecidableEq, Repr

inductive AcqState where
  | idle | tuning | locking | syncing | mapping | keying | presenting | ready | parked | failed
deriving DecidableEq, Repr

inductive FailCause where
  | tuner | sync | noMap | tableFull
deriving DecidableEq, Repr

/-- The timers an acquisition record runs itself. The key timer is the key slot's (R102). -/
inductive StepTimer where
  | settle | lock | sync | map
deriving DecidableEq, Repr

/-- The component kinds, codes 1 to 4 (section 6.6). -/
inductive ComponentKind where
  | video | audio | data | key
deriving DecidableEq, Repr

structure Component where
  kind : ComponentKind
  stream : Nat
deriving DecidableEq, Repr

/-- A pending reply (R89). `picked` is the channel a SELECT NEXT or PREVIOUS picked (R93). -/
inductive PendingReply where
  | none
  | awaiting (tag code : Byte) (picked : Option Nat)
  | formed (cell : LocalCell)
deriving DecidableEq, Repr

structure AcqRecord where
  role : Role
  state : AcqState
  cause : Option FailCause
  /-- the target channel, as the copy of its entry taken when the acquisition began -/
  target : Option ChannelEntry
  targetCarrier : Option Nat
  tunedCarrier : Option Nat
  attempts : Nat
  timer : Option (StepTimer × Ticks)
  pending : PendingReply
  components : List Component
  version : Option Nat
  scrambled : Bool
deriving DecidableEq, Repr

/-- The six acquisition timer fields (R110): ms, and the attempts. -/
structure TimerConfig where
  settle : Nat
  lock : Nat
  sync : Nat
  map : Nat
  key : Nat
  attempts : Nat
deriving DecidableEq, Repr

structure Acquisition where
  record : PerFeed AcqRecord
  /-- the feeds whose records hold a formed answer, in the order formed (R89) -/
  formedOrder : List Feed
  standby : Bool
  timing : TimerConfig
  malformedMaps : PerFeed Nat
  unmatchedMaps : PerFeed Nat
deriving DecidableEq, Repr

/-! ## Access Unit (chapter 7) -/

structure Entitlement where
  tier : Nat
  expiry : Nat
deriving DecidableEq, Repr

/-- A held service key generation: its number and its 16 bytes of material. -/
structure Generation where
  number : Nat
  material : Bytes
deriving DecidableEq, Repr

inductive KeyWait where
  | stopped
  | running (remaining : Ticks)
  | expired
deriving DecidableEq, Repr

/-- A key slot (section 7.4): a word is none while not valid, and its opened value while valid. -/
structure KeySlot where
  mapStream : Option Nat
  keyStream : Option Nat
  wordA : Option Bytes
  wordB : Option Bytes
  lastPhase : Option Phase
  wait : KeyWait
  misses : Nat
deriving DecidableEq, Repr

structure Access where
  /-- at most 64, one per tier, kept in order of tier -/
  entitlements : List Entitlement
  region : Nat
  group : Option Nat
  slot1 : Option Generation
  slot2 : Option Generation
  keySlot : PerFeed KeySlot
  malformed : Nat
  refused : Nat
  unmatchedKeys : Nat
  malformedKeys : Nat
  generationMisses : Nat
deriving DecidableEq, Repr

/-! ## Purchase Unit (chapter 8) -/

inductive PurchaseState where
  | provisional | committed | collected
deriving DecidableEq, Repr

structure PurchaseRecord where
  seq : Nat
  eventId : Nat
  channel : Nat
  price : Nat
  time : Nat
  deadline : Nat
  ends : Nat
  state : PurchaseState
deriving DecidableEq, Repr

inductive TxState where
  | idle | sending | waiting
deriving DecidableEq, Repr

structure Purchase where
  limit : Nat
  debt : Nat
  /-- oldest first, at most 32 -/
  records : List PurchaseRecord
  nextSeq : Nat
  /-- formed return cells of 64 bytes, at most 8 (R141) -/
  returnQueue : List Bytes
  tx : TxState
  attempts : Nat
  waitTimer : Option Ticks
  malformed : Nat
  ignoredCollects : Nat
  sent : Nat
  dropped : Nat
  spurious : Nat
deriving DecidableEq, Repr

/-! ## Limits Unit (chapter 9) -/

/-- A viewing window: weekday mask (bit 0 Monday), start minute, end minute. -/
structure Window where
  mask : BitVec 7
  first : Nat
  last : Nat
deriving DecidableEq, Repr

structure Profile where
  ceiling : Nat
  locks : List Nat
  windows : List Window
  /-- minutes; 1440 is unlimited -/
  allowance : Nat
  /-- seconds -/
  remaining : Nat
deriving DecidableEq, Repr

inductive Standing where
  | inside | outside
deriving DecidableEq, Repr

structure Limits where
  profile1 : Profile
  profile2 : Profile
  profile3 : Profile
  active : Fin 4
  pin : Option Nat
  attempts : Nat
  lockout : Option Ticks
  standing : Standing
  running : Bool
  /-- the meter's part-second, in ticks: 0 to 127999, or 128000 (1000 ms) while a subtraction is due -/
  part : Ticks
  malformed : Nat
  wrongPins : Nat
  lockouts : Nat
deriving DecidableEq, Repr

/-! ## Decision Unit and Output Composer (chapter 10) -/

structure Context where
  feed : Feed
  channel : Nat
  entry : ChannelEntry
  eventId : Option Nat
  decision : Decision
  reason : Reason
  previewEnd : Option Nat
  changing : Bool
deriving DecidableEq, Repr

structure Marker where
  channel : Nat
  decision : Decision
  reason : Reason
deriving DecidableEq, Repr

structure Output where
  context : Option Context
  pendingMarker : Option Marker
  queue : List OutCell
  /-- none is OPEN; some t is PRIMING with t remaining -/
  priming : Option Ticks
  continuity : Nat
  threshold : Nat
  timeout : Nat
  blanked : PerFeed Nat
  flushed : Nat
  overflows : Nat
  markersReplaced : Nat
deriving DecidableEq, Repr

/-! ## Command Unit (chapter 11) -/

/-- A command cell of the intake: tag, command code, parameter bytes (R182). -/
structure CommandCell where
  tag : Byte
  code : Byte
  params : Bytes
deriving DecidableEq, Repr

inductive StartKind where
  | cold | warm
deriving DecidableEq, Repr

inductive MemoryResult where
  | good | failed
deriving DecidableEq, Repr

/-- The notices with their bits 0 to 11 (00_scope, Notice payload), in bit order. -/
inductive Notice where
  | feedFault | accessChanged | offer | eventChanged | clockStepped | entitlementChanged
  | purchaseChanged | limit | guideChanged | overrun | returnFailed | configFault
deriving DecidableEq, Repr

structure CommandUnit where
  /-- true: STARTING; false: RUNNING -/
  starting : Bool
  startKind : StartKind
  memory : MemoryResult
  /-- 32 bits; 0 is unaddressed -/
  unitAddress : Nat
  intake : List CommandCell
  /-- one reply entry held for the command taken -/
  reserved : Bool
  heldReply : Option (List LocalCell)
  replyQueue : List LocalCell
  notices : BitVec 16
  noticePending : Bool
  attentionEnable : Bool
  framingDrops : Nat
  headerDrops : Nat
  streamDrops : Nat
  kindDrops : Nat
  lengthDrops : Nat
  overruns : Nat
  invalidCommands : Nat
  /-- the validity mark of the retained store (R193) -/
  retainedValid : Bool
deriving DecidableEq, Repr

/-! ## Lines -/

structure Lines where
  /-- K0 and K1: true is high -/
  lock : PerFeed Bool
  hold : Bool
  resetAsserted : Bool
  standbyGood : Bool
  /-- the carrier that T0 and T1 request, or no request -/
  tune : PerFeed (Option Nat)
  /-- the last cell written on P, 128 bytes; empty before the first (log entry 22) -/
  onP : Bytes
  /-- the last return cell handed over on U (log entry 22) -/
  onU : Option Bytes
deriving DecidableEq, Repr

end Sys2Proof.Machine

namespace Sys2Proof.Machine

/-- The whole state. -/
structure State where
  /-- commands waiting, first in first out -/
  pending : List Instr
  lines : Lines
  front : PerFeed Front
  /-- the second-feed strap as sampled (R17) -/
  f1Present : Bool
  filter : Filter
  assembler : Assembler
  clock : Clock
  guide : Guide
  acq : Acquisition
  access : Access
  purchase : Purchase
  limits : Limits
  output : Output
  command : CommandUnit
  /-- the model's own: the index of the next free byte (log entry 8) -/
  freeIndex : Nat
deriving DecidableEq, Repr

/-- The spec gives the part no stop: a bad cell is dropped and counted, a bad command is answered. No
constructor, so no step can fault (safe). -/
inductive Fault where
deriving DecidableEq, Repr

/-- Why the model has no answer. -/
inductive Refusal where
  /-- An arm of `exec` whose row has no meaning yet; no arm uses it. Safe: nothing can be proved of a
  step that stops. -/
  | notModelled (mnemonic : String)
deriving DecidableEq, Repr

/-! ## Reset values: one definition for each block, the cold start column of its reset rule -/

namespace State

/-- R19, cold start, with the enable given. -/
def coldFront (enabled : Bool) : Front :=
  { enabled, source := .tuner, sync := .down, position := 0, slot := none, held := [],
    up := false, down := false, accepted := 0, headerErrors := 0, lengthErrors := 0,
    uncorrectable := 0, misplaced := 0, syncLosses := 0 }

/-- R38: the filter table before the FIXED entries are made. -/
def coldFilter : Filter :=
  { entries := [], unmatched := ⟨0, 0⟩, kindMismatch := ⟨0, 0⟩ }

/-- R39. -/
def coldAssembler : Assembler :=
  { buffers := [], abandoned := ⟨0, 0⟩, crcFailures := ⟨0, 0⟩, unknownTables := ⟨0, 0⟩,
    noBuffer := ⟨0, 0, 0, 0, 0, 0⟩, malformed := 0, unknownKinds := 0, noKey := 0,
    integrityFailures := 0 }

/-- R56, cold start. -/
def coldClock : Clock :=
  { n := 0, s := 0, k := 0, state := .unset, stepCount := 0, offset := 0, lastMinute := none,
    creditedDay := 0, lossTimer := none, source := .any, threshold := 2048, lossTime := 60,
    marksApplied := 0, slews := 0, marksIgnored := 0, shortCells := 0, lastSource := none }

/-- R77, cold start. -/
def coldGuide : Guide :=
  { channels := [], events := [], watched := none, lastEvent := none, malformedMaps := 0,
    badRecords := 0, mapFull := 0, malformedGuides := 0, refusedEvents := 0, evictedEvents := 0,
    rolloverRemovals := 0 }

/-- R112: IDLE with role NONE. -/
def coldRecord : AcqRecord :=
  { role := .none, state := .idle, cause := none, target := none, targetCarrier := none,
    tunedCarrier := none, attempts := 0, timer := none, pending := .none, components := [],
    version := none, scrambled := false }

/-- R112, cold start; the defaults of R110. -/
def coldAcq : Acquisition :=
  { record := ⟨coldRecord, coldRecord⟩, formedOrder := [], standby := false,
    timing := ⟨40, 300, 200, 1000, 2000, 3⟩, malformedMaps := ⟨0, 0⟩, unmatchedMaps := ⟨0, 0⟩ }

/-- R120: a clear key slot; its key-miss count is given. -/
def clearSlot (misses : Nat) : KeySlot :=
  { mapStream := none, keyStream := none, wordA := none, wordB := none, lastPhase := none,
    wait := .stopped, misses }

/-- R128, cold start, with the region given. -/
def coldAccess (region : Nat) : Access :=
  { entitlements := [], region, group := none, slot1 := none, slot2 := none,
    keySlot := ⟨clearSlot 0, clearSlot 0⟩, malformed := 0, refused := 0, unmatchedKeys := 0,
    malformedKeys := 0, generationMisses := 0 }

/-- R147, cold start. -/
def coldPurchase : Purchase :=
  { limit := 0, debt := 0, records := [], nextSeq := 1, returnQueue := [], tx := .idle,
    attempts := 0, waitTimer := none, malformed := 0, ignoredCollects := 0, sent := 0,
    dropped := 0, spurious := 0 }

/-- R165, cold start: ceiling 15, no locks, no windows, allowance 1440, remaining 86400. -/
def coldProfile : Profile :=
  { ceiling := 15, locks := [], windows := [], allowance := 1440, remaining := 86400 }

/-- R165, cold start; the standing of profile 0 is INSIDE (R158). -/
def coldLimits : Limits :=
  { profile1 := coldProfile, profile2 := coldProfile, profile3 := coldProfile, active := 0,
    pin := none, attempts := 0, lockout := none, standing := .inside, running := false, part := 0,
    malformed := 0, wrongPins := 0, lockouts := 0 }

/-- R179, cold start. -/
def coldOutput : Output :=
  { context := none, pendingMarker := none, queue := [], priming := none, continuity := 0,
    threshold := 8, timeout := 50, blanked := ⟨0, 0⟩, flushed := 0, overflows := 0,
    markersReplaced := 0 }

/-- R191, R194: STARTING, before the configuration memory is read (log entry 5). -/
def coldCommand : CommandUnit :=
  { starting := true, startKind := .cold, memory := .failed, unitAddress := 0, intake := [],
    reserved := false, heldReply := none, replyQueue := [], notices := 0, noticePending := false,
    attentionEnable := true, framingDrops := 0, headerDrops := 0, streamDrops := 0, kindDrops := 0,
    lengthDrops := 0, overruns := 0, invalidCommands := 0, retainedValid := false }

/-- The pins at power-on with the reset line asserted (log entry 4). -/
def coldLines : Lines :=
  { lock := ⟨false, false⟩, hold := false, resetAsserted := true, standbyGood := true,
    tune := ⟨none, none⟩, onP := [], onU := none }

/-- The part in start-up after power-on with the standby supply lost (R191): every block at its cold
start values, nothing sampled yet. The command START_UP takes it to RUNNING (log entry 4). -/
def reset : State :=
  { pending := [], lines := coldLines, front := ⟨coldFront true, coldFront false⟩,
    f1Present := false, filter := coldFilter, assembler := coldAssembler, clock := coldClock,
    guide := coldGuide, acq := coldAcq, access := coldAccess 0, purchase := coldPurchase,
    limits := coldLimits, output := coldOutput, command := coldCommand, freeIndex := 0 }

end State

end Sys2Proof.Machine
end

