-- ==== Sys2Proof/Machine/Ops.lean ====
section
/-! DEFINITION. The named operations every block uses: the two halves of a per-feed thing, saturating
counts, clamps, oscillator time, byte order, the two CRCs, and the reply queue. -/

namespace Sys2Proof.Machine

/-! ## Per-feed things -/

/-- The thing of feed f. -/
def PerFeed.get {α : Type} (p : PerFeed α) : Feed → α
  | .f0 => p.f0
  | .f1 => p.f1

/-- p with the thing of feed f replaced. -/
def PerFeed.set {α : Type} (p : PerFeed α) (f : Feed) (x : α) : PerFeed α :=
  match f with
  | .f0 => { p with f0 := x }
  | .f1 => { p with f1 := x }

/-- p with the thing of feed f changed by g. -/
def PerFeed.modify {α : Type} (p : PerFeed α) (f : Feed) (g : α → α) : PerFeed α :=
  p.set f (g (p.get f))

/-- The other feed. -/
def otherFeed : Feed → Feed
  | .f0 => .f1
  | .f1 => .f0

/-! ## Numbers -/

/-- A counter rises by 1 and saturates at 65535 (00_scope, Conventions). -/
def bump (n : Nat) : Nat := min (n + 1) 65535

/-- A counter rises by k and saturates at 65535. -/
def bumpBy (k n : Nat) : Nat := min (n + k) 65535

/-- A value below its range is taken as the lowest value and one above it as the highest (Conventions). -/
def clampNat (lo hi n : Nat) : Nat := max lo (min hi n)

/-- Clamping of a signed value. -/
def clampInt (lo hi n : Int) : Int := max lo (min hi n)

/-- A timer value is first rounded down to its step and then clamped (Conventions). -/
def stepClamp (step lo hi n : Nat) : Nat := clampNat lo hi (n / step * step)

/-! ## Oscillator time (log entry 3) -/

/-- Ticks of 1/128000 s in ms milliseconds. -/
def msTicks (ms : Nat) : Ticks := ms * 128

/-- Whole milliseconds in a remaining time. -/
def ticksMs (t : Ticks) : Nat := t / 128

/-- Ticks in one clock advance of 1/1024 s. -/
def advanceTicks : Ticks := 125

/-- A running timer after one clock advance; with no time left it waits for its expiry to be taken. -/
def tickTimer (t : Option Ticks) : Option Ticks := t.map (· - advanceTicks)

/-- A timer has run out: it runs, and no time is left. -/
def ranOut (t : Option Ticks) : Bool := t = some 0

/-- Ticks in the 1000 ms of a second of the allowance meter (R161). -/
def secondTicks : Ticks := 128000

/-! ## Byte order: most significant byte first (Conventions) -/

/-- The k low-order bytes of n, most significant first. -/
def beBytes : Nat → Nat → Bytes
  | 0, _ => []
  | k + 1, n => BitVec.ofNat 8 (n / 256 ^ k) :: beBytes k n

/-- The number that bytes spell, most significant first. -/
def beNat (bs : Bytes) : Nat := bs.foldl (fun acc b => acc * 256 + b.toNat) 0

/-- A signed number in k bytes, two's complement. -/
def beInt (k : Nat) (i : Int) : Bytes := beBytes k (i % (256 ^ k : Nat)).toNat

/-- A byte read as a signed number. -/
def signedByte (b : Byte) : Int := b.toInt

/-! ## CRCs (00_scope, Terms; R4; R32) -/

/-- One bit of the CRC-8 with generator x^8 + x^2 + x + 1. -/
def crc8Bit (c : BitVec 8) : BitVec 8 := if c.msb then (c <<< 1) ^^^ 0x07#8 else c <<< 1

/-- One byte of the CRC-8, most significant bit first. -/
def crc8Byte (c b : BitVec 8) : BitVec 8 :=
  crc8Bit (crc8Bit (crc8Bit (crc8Bit (crc8Bit (crc8Bit (crc8Bit (crc8Bit (c ^^^ b))))))))

/-- The header check: initial value 0, no reflection, no final inversion. -/
def crc8 (bs : Bytes) : BitVec 8 := bs.foldl crc8Byte 0

/-- One bit of the CRC-16 with generator 1021h. -/
def crc16Bit (c : BitVec 16) : BitVec 16 := if c.msb then (c <<< 1) ^^^ 0x1021#16 else c <<< 1

/-- One byte of the CRC-16, most significant bit first. -/
def crc16Byte (c : BitVec 16) (b : BitVec 8) : BitVec 16 :=
  crc16Bit (crc16Bit (crc16Bit (crc16Bit (crc16Bit (crc16Bit (crc16Bit (crc16Bit
    (c ^^^ (b.zeroExtend 16 <<< 8)))))))))

/-- The section and return cell check: initial value FFFFh. -/
def crc16 (bs : Bytes) : BitVec 16 := bs.foldl crc16Byte 0xFFFF#16

/-! ## Free bytes (log entry 8) -/

/-- k bytes the spec leaves open, from free index i on. -/
def freeBytes (k i : Nat) : Bytes := (List.range k).map (fun j => Config.freeByte (i + j))

/-! ## Access to one feed's blocks -/

/-- The Feed Front of f. -/
def State.frontOf (s : State) (f : Feed) : Front := s.front.get f

/-- s with the front of f replaced. -/
def State.setFront (s : State) (f : Feed) (x : Front) : State := { s with front := s.front.set f x }

/-- The acquisition record of f. -/
def State.acqOf (s : State) (f : Feed) : AcqRecord := s.acq.record.get f

/-- s with the acquisition record of f replaced. -/
def State.setAcq (s : State) (f : Feed) (r : AcqRecord) : State :=
  { s with acq := { s.acq with record := s.acq.record.set f r } }

/-- The key slot of f. -/
def State.slotOf (s : State) (f : Feed) : KeySlot := s.access.keySlot.get f

/-- s with the key slot of f replaced. -/
def State.setSlot (s : State) (f : Feed) (k : KeySlot) : State :=
  { s with access := { s.access with keySlot := s.access.keySlot.set f k } }

/-- The part is past start-up (R191): the ready line is true. -/
def State.running (s : State) : Bool := !s.command.starting

/-- Feed f exists: F0 always, F1 as sampled from the strap (R17). -/
def State.feedPresent (s : State) (f : Feed) : Bool :=
  match f with
  | .f0 => true
  | .f1 => s.f1Present

/-- Whole seconds of N (Conventions). -/
def State.seconds (s : State) : Nat := s.clock.n / 1024

/-- Whole seconds of N, or none while the clock is UNSET (R47). -/
def State.now (s : State) : Option Nat :=
  if s.clock.state = .unset then none else some s.seconds

/-! ## The reply queue (R183) -/

/-- Entries of the reply queue that hold no cell and are not the reserved entry (R183). -/
def freeEntries (s : State) : Nat :=
  32 - s.command.replyQueue.length - (if s.command.reserved then 1 else 0)

/-- s with cells placed at the tail of the reply queue. -/
def placeCells (cells : List LocalCell) (s : State) : State :=
  { s with command := { s.command with replyQueue := s.command.replyQueue ++ cells } }

/-- s with the reservation ended (R182). -/
def endReservation (s : State) : State := { s with command := { s.command with reserved := false } }

end Sys2Proof.Machine
end

