-- ==== Sys2Proof/Machine/Operands.lean ====
section
/-! DEFINITION. The formats: cell headers and cells (00_scope, Cell), the codes of outcomes, decisions,
reasons and other coded values, the cells of the part as bytes, and the bytes of results (R182). -/

namespace Sys2Proof.Machine

/-! ## Cell headers -/

/-- The six header bytes read into fields (00_scope, Cell). -/
structure Header where
  first : Byte
  stream : Nat
  phase : Nat
  unitStart : Bool
  errorMark : Bool
  continuity : Nat
  kind : CellKind
  mustBeZero : Nat
  length : Nat
  check : Byte
deriving DecidableEq, Repr

/-- The cell kind of a code 0 to 7. -/
def kindOfCode : Nat → CellKind
  | 0 => .programme
  | 1 => .sections
  | 2 => .time
  | 3 => .command
  | 4 => .reply
  | 5 => .notice
  | 6 => .marker
  | _ => .fill

/-- The code of a cell kind. -/
def CellKind.code : CellKind → Nat
  | .programme => 0
  | .sections => 1
  | .time => 2
  | .command => 3
  | .reply => 4
  | .notice => 5
  | .marker => 6
  | .fill => 7

/-- Byte i of a list, 0 beyond its end. -/
def byteAt (bs : Bytes) (i : Nat) : Byte := bs.getD i 0

/-- The header of the cell that bytes begin. -/
def readHeader (bs : Bytes) : Header :=
  let b1 := (byteAt bs 1).toNat
  let b2 := (byteAt bs 2).toNat
  let b3 := (byteAt bs 3).toNat
  { first := byteAt bs 0
    stream := b1 * 16 + b2 / 16
    phase := b2 / 4 % 4
    unitStart := b2 / 2 % 2 = 1
    errorMark := b2 % 2 = 1
    continuity := b3 / 32
    kind := kindOfCode (b3 / 4 % 8)
    mustBeZero := b3 % 4
    length := (byteAt bs 4).toNat
    check := byteAt bs 5 }

/-- The start pattern B8h. -/
def startPattern : Byte := 0xB8#8

/-- A cell position is aligned (R4): start pattern, and header check over bytes 1 to 4. -/
def alignedBytes (bs : Bytes) : Bool :=
  byteAt bs 0 = startPattern && byteAt bs 5 = crc8 ((bs.drop 1).take 4)

/-- The scramble phase that a code scrambles with: none for 0 (clear). -/
def phaseOfCode : Nat → Option Phase
  | 1 => some .a
  | 2 => some .b
  | _ => none

/-- The code of a scramble phase. -/
def phaseCode : Option Phase → Nat
  | none => 0
  | some .a => 1
  | some .b => 2

/-- A cell as 128 bytes, with a fresh header check over bytes 1 to 4 (R8, R176). -/
def cellBytes (stream phase : Nat) (unitStart errorMark : Bool) (continuity : Nat) (kind : CellKind)
    (payload padding : Bytes) : Bytes :=
  let head : Bytes :=
    [ BitVec.ofNat 8 (stream / 16),
      BitVec.ofNat 8 (stream % 16 * 16 + phase * 4 + unitStart.toNat * 2 + errorMark.toNat),
      BitVec.ofNat 8 (continuity * 32 + kind.code * 4),
      BitVec.ofNat 8 payload.length ]
  startPattern :: head ++ crc8 head :: payload ++ padding

/-! ## Codes -/

/-- The outcome codes of section 11.1. -/
def ReplyOutcome.code : ReplyOutcome → Byte
  | .done => 0x00
  | .invalidCommand => 0x01
  | .badParameter => 0x02
  | .sameChannel => 0x03
  | .unknownChannel => 0x04
  | .standby => 0x05
  | .noSecondFeed => 0x06
  | .superseded => 0x07
  | .failed => 0x08
  | .tableFull => 0x09
  | .duplicate => 0x0A
  | .notFound => 0x0B
  | .tapData => 0x0D
  | .wrongSource => 0x0E
  | .empty => 0x0F
  | .refusedRange => 0x10
  | .endOfList => 0x11
  | .endOfMap => 0x12
  | .hit => 0x13
  | .notSatisfied => 0x14
  | .boundMissed => 0x15
  | .limit => 0x16
  | .withdrawn => 0x17
  | .unknownEvent => 0x18
  | .notForSale => 0x19
  | .alreadyBought => 0x1A
  | .listFull => 0x1B
  | .credit => 0x1C
  | .pin => 0x1D
  | .lockedOut => 0x1E
  | .tooLate => 0x1F
  | .noTime => 0x20
  | .ended => 0x21
  | .blackout => 0x22

/-- The decision codes (R173). -/
def Decision.code : Decision → Nat
  | .present => 0
  | .preview => 1
  | .deny => 2

/-- The reason codes (R173). -/
def Reason.code : Reason → Nat
  | .none => 0
  | .signal => 1
  | .blackout => 2
  | .channelLock => 3
  | .rating => 4
  | .window => 5
  | .allowance => 6
  | .offer => 7
  | .notEntitled => 8
  | .noKey => 9
  | .changing => 10
  | .ended => 11

/-- The lock source codes 0 to 3 (R11). -/
def LockSource.code : LockSource → Nat
  | .tuner => 0
  | .sync => 1
  | .forced => 2
  | .off => 3

/-- A lock source code outside 0 to 3 is clamped to the nearest (R11). -/
def lockSourceOf : Nat → LockSource
  | 0 => .tuner
  | 1 => .sync
  | 2 => .forced
  | _ => .off

/-- The time source codes 0 to 4 (R54). -/
def TimeSource.code : TimeSource → Nat
  | .feed0 => 0
  | .feed1 => 1
  | .any => 2
  | .command => 3
  | .none => 4

/-- A time source code above 4 is taken as NONE (R54). -/
def timeSourceOf : Nat → TimeSource
  | 0 => .feed0
  | 1 => .feed1
  | 2 => .any
  | 3 => .command
  | _ => .none

/-- The component kind codes 1 to 4 (section 6.6). -/
def ComponentKind.code : ComponentKind → Nat
  | .video => 1
  | .audio => 2
  | .data => 3
  | .key => 4

/-- The component kind of a code, or none outside 1 to 4. -/
def componentKindOf : Nat → Option ComponentKind
  | 1 => some .video
  | 2 => some .audio
  | 3 => some .data
  | 4 => some .key
  | _ => none

/-- The purchase state codes (R145). -/
def PurchaseState.code : PurchaseState → Nat
  | .provisional => 0
  | .committed => 1
  | .collected => 2

/-! ## Named values: the position in the list where the field is defined (R182; log entry 11) -/

def SyncState.position : SyncState → Nat
  | .down => 0
  | .hunt => 1
  | .confirm _ => 2
  | .locked _ => 3

/-- n of CONFIRM, b of LOCKED, 0 otherwise (R18). -/
def SyncState.substate : SyncState → Nat
  | .confirm n => n.val
  | .locked b => b.val
  | _ => 0

def Consumer.position : Consumer → Nat
  | .present => 0
  | .sections => 1
  | .tap => 2

def Owner.position : Owner → Nat
  | .fixed => 0
  | .acquisition => 1
  | .tap => 2

def ClockState.position : ClockState → Nat
  | .unset => 0
  | .set => 1
  | .holdover => 2

/-- F0, F1, COMMAND, or none. -/
def markSourcePosition : Option MarkSource → Nat
  | some .f0 => 0
  | some .f1 => 1
  | some .command => 2
  | none => 3

def Role.position : Role → Nat
  | .present => 0
  | .background => 1
  | .none => 2

def AcqState.position : AcqState → Nat
  | .idle => 0
  | .tuning => 1
  | .locking => 2
  | .syncing => 3
  | .mapping => 4
  | .keying => 5
  | .presenting => 6
  | .ready => 7
  | .parked => 8
  | .failed => 9

/-- TUNER, SYNC, NO MAP or TABLE FULL; none in every other state; STANDBY in an answer only. -/
def FailCause.position : FailCause → Nat
  | .tuner => 0
  | .sync => 1
  | .noMap => 2
  | .tableFull => 3

def causePosition : Option FailCause → Nat
  | some c => c.position
  | none => 4

/-- The position of the cause STANDBY that a FAILED answer may carry (R109). -/
def standbyCausePosition : Nat := 5

/-- F0 or F1. -/
def feedPosition : Feed → Nat
  | .f0 => 0
  | .f1 => 1

def Standing.position : Standing → Nat
  | .inside => 0
  | .outside => 1

def TxState.position : TxState → Nat
  | .idle => 0
  | .sending => 1
  | .waiting => 2

def StartKind.position : StartKind → Nat
  | .cold => 0
  | .warm => 1

def MemoryResult.position : MemoryResult → Nat
  | .good => 0
  | .failed => 1

/-- none, A or B (section 7.4). -/
def lastPhasePosition : Option Phase → Nat
  | none => 0
  | some .a => 1
  | some .b => 2

/-! ## Result bytes (R182; log entry 11) -/

/-- A named value in one byte. -/
def one (n : Nat) : Bytes := beBytes 1 n

/-- A two-valued result in one byte. -/
def flagByte (b : Bool) : Bytes := one b.toNat

/-- A number of k bytes that may be absent: a byte in front, 1 when present, and zero when absent. -/
def optional (k : Nat) : Option Nat → Bytes
  | some n => one 1 ++ beBytes k n
  | none => one 0 ++ beBytes k 0

/-- A remaining time of 4 bytes, in ms. -/
def remainingMs (t : Ticks) : Bytes := beBytes 4 (ticksMs t)

/-- A timer that is stopped or running with its remaining time: 0 or 1, then 4 bytes. -/
def timerBytes (t : Option Ticks) : Bytes := optional 4 (t.map ticksMs)

/-- The key-wait timer: stopped, running with its remaining time, or expired (section 7.4). -/
def keyWaitBytes : KeyWait → Bytes
  | .stopped => one 0 ++ beBytes 4 0
  | .running t => one 1 ++ remainingMs t
  | .expired => one 2 ++ beBytes 4 0

/-- The seconds left of a lockout: 1 to 900 while it runs, so rounded up, and 0 for none (chapter 9, the table of the
Limits Unit's state). One that has run out still runs until its expiry is taken (log entry 3). -/
def lockoutSeconds : Option Ticks → Nat
  | none => 0
  | some t => max 1 ((t + 127999) / 128000)

/-- The lockout's remaining time as a result (R157, R164). -/
def lockoutBytes (t : Option Ticks) : Bytes := beBytes 4 (lockoutSeconds t)

/-- A result sequence cut into pieces of 118 bytes, at least one (00_scope; R86). -/
def pieces (results : Bytes) : List Bytes :=
  (List.range (max 1 ((results.length + 117) / 118))).map (fun i => (results.drop (118 * i)).take 118)

/-- The REPLY cells of one answer, with continuation counts 0, 1, … (R182). -/
def replyCells (tag code : Byte) (outcome : ReplyOutcome) (results : Bytes) : List LocalCell :=
  (pieces results).mapIdx (fun i piece => .reply tag code outcome i piece)

/-! ## Cells of the part as bytes -/

/-- The payload of a local cell. -/
def LocalCell.payload : LocalCell → Bytes
  | .reply tag code outcome continuation results =>
      [tag, code, outcome.code, BitVec.ofNat 8 continuation] ++ results
  | .notice mask => beBytes 2 mask.toNat
  | .marker channel decision reason => beBytes 2 channel ++ one decision.code ++ one reason.code

/-- The kind of a local cell. -/
def LocalCell.kind : LocalCell → CellKind
  | .reply _ _ _ _ _ => .reply
  | .notice _ => .notice
  | .marker _ _ _ => .marker

/-- Unit-start is set on every local cell but a REPLY cell of continuation above 0 (R173, R182, R185). -/
def LocalCell.unitStart : LocalCell → Bool
  | .reply _ _ _ continuation _ => continuation = 0
  | .notice _ => true
  | .marker _ _ _ => true

/-- A NOTICE cell. -/
def LocalCell.isNotice : LocalCell → Bool
  | .notice _ => true
  | _ => false

/-- A programme cell of the output queue. -/
def OutCell.isProgramme : OutCell → Bool
  | .programme _ => true
  | .ofPart _ => false

/-- A NOTICE cell of the output queue. -/
def OutCell.isNotice : OutCell → Bool
  | .programme _ => false
  | .ofPart c => c.isNotice

/-- The programme cells in the output queue. -/
def programmeCount (s : State) : Nat := s.output.queue.countP OutCell.isProgramme

end Sys2Proof.Machine
end

