-- ==== Sys2Proof/Machine/Flags.lean ====
section
/-! DEFINITION. The notice set: raising and reporting a flag (R185), clearing flags (R186) and the
attention line (R187). -/

namespace Sys2Proof.Machine

/-- The bit of a notice in the mask (00_scope, Notice payload). -/
def Notice.bit : Notice → Nat
  | .feedFault => 0
  | .accessChanged => 1
  | .offer => 2
  | .eventChanged => 3
  | .clockStepped => 4
  | .entitlementChanged => 5
  | .purchaseChanged => 6
  | .limit => 7
  | .guideChanged => 8
  | .overrun => 9
  | .returnFailed => 10
  | .configFault => 11

/-- The mask that holds one notice. -/
def Notice.mask (n : Notice) : BitVec 16 := 1#16 <<< n.bit

/-- The flag of a notice is set. -/
def noticeSet (n : Notice) (s : State) : Bool := s.command.notices &&& n.mask ≠ 0

/-- A waiting NOTICE cell with flags added to its mask. -/
def LocalCell.addFlags (m : BitVec 16) : LocalCell → LocalCell
  | .notice x => .notice (x ||| m)
  | c => c

/-- A cell of the output queue with flags added if it is a NOTICE. -/
def OutCell.addFlags (m : BitVec 16) : OutCell → OutCell
  | .programme c => .programme c
  | .ofPart c => .ofPart (c.addFlags m)

/-- A NOTICE cell waits in the reply queue or in the output queue (R185, line 1). -/
def noticeWaits (s : State) : Bool :=
  s.command.replyQueue.any LocalCell.isNotice || s.output.queue.any OutCell.isNotice

/-- The report of a flag just raised: the four lines of R185. -/
def reportRaise (m : BitVec 16) (s : State) : State :=
  if noticeWaits s then
    { s with
      command := { s.command with replyQueue := s.command.replyQueue.map (LocalCell.addFlags m) }
      output := { s.output with queue := s.output.queue.map (OutCell.addFlags m) } }
  else if s.command.noticePending then s
  else if 0 < freeEntries s then placeCells [.notice s.command.notices] s
  else { s with command := { s.command with noticePending := true } }

/-- A notice is raised (R185). Raising a flag that is set changes nothing. -/
def raise (n : Notice) (s : State) : State :=
  if noticeSet n s then s
  else reportRaise n.mask { s with command := { s.command with notices := s.command.notices ||| n.mask } }

/-- The flags of a mask are cleared; with the set empty the notice-pending mark is cleared too (R186).
Bits 12 to 15 of the mask are ignored, and they are never set in the notice set. -/
def clearFlags (m : BitVec 16) (s : State) : State :=
  let left := s.command.notices &&& ~~~m
  { s with command :=
    { s.command with notices := left, noticePending := s.command.noticePending && left ≠ 0 } }

/-- The attention line (R187): asserted while ready, with a flag set and attention enabled. -/
def State.attention (s : State) : Bool :=
  s.running && s.command.notices ≠ 0 && s.command.attentionEnable

/-- The ready line (R191). -/
def State.ready (s : State) : Bool := s.running

end Sys2Proof.Machine
end

