-- ==== Sys2Proof/Machine/Lookups.lean ====
section
/-! DEFINITION. What one block asks of another and what changes nothing: the calendar (R50), the guide
lookups (R69, R74), the parental answers (R148), the entitlement test (R126), feed lock and lock
indication (R2), the presentation feed (R88), the service key generations (R118, R119). -/

namespace Sys2Proof.Machine

/-! ## Calendar (R50) -/

/-- Local time L: whole seconds of N plus the offset, 0 if below 0. -/
def State.localTime (s : State) : Nat := ((s.seconds : Int) + s.clock.offset * 900).toNat

/-- Local day number D. -/
def State.day (s : State) : Nat := s.localTime / 86400

/-- Minute of day, 0 to 1439. -/
def State.minuteOfDay (s : State) : Nat := s.localTime % 86400 / 60

/-- Weekday, 0 Monday to 6 Sunday. -/
def State.weekday (s : State) : Nat := s.day % 7

/-- Start of day d in network seconds. -/
def State.dayStart (s : State) (d : Nat) : Int := (d : Int) * 86400 - s.clock.offset * 900

/-- Today, or none while the clock is UNSET (R126). -/
def State.today (s : State) : Option Nat :=
  if s.clock.state = .unset then none else some s.day

/-! ## Guide lookups (R63, R69, R74) -/

/-- The end of a record: start plus duration, without wrap (R63). -/
def EventRecord.ends (e : EventRecord) : Nat := e.start + e.duration

/-- The records of channel c, in order of start: position is index (R65). -/
def eventsOf (g : Guide) (c : Nat) : List EventRecord := g.events.filter (fun e => e.channel = c)

/-- A record covers second t and is not withdrawn. -/
def EventRecord.covers (e : EventRecord) (t : Nat) : Bool :=
  !e.withdrawn && e.start ≤ t && t < e.ends

/-- The current event of channel c at second t (R69). -/
def eventAt (g : Guide) (c t : Nat) : Option EventRecord :=
  (eventsOf g c).find? (fun e => e.covers t)

/-- The current event of channel c now; none while the clock is UNSET (R69). -/
def currentEvent (s : State) (c : Nat) : Option EventRecord :=
  match s.now with
  | none => none
  | some t => eventAt s.guide c t

/-- The record with an event id (R74). -/
def eventById (g : Guide) (id : Nat) : Option EventRecord := g.events.find? (fun e => e.id = id)

/-- The channel entry of a number (R74). -/
def entryOf (g : Guide) (c : Nat) : Option ChannelEntry := g.channels.find? (fun e => e.number = c)

/-- The numbers of the entries that are not hidden, in order. -/
def visibleNumbers (g : Guide) : List Nat :=
  (g.channels.filter (fun e => !e.hidden)).map ChannelEntry.number

/-- The next channel after c: the lowest visible number above c, else the lowest visible number (R74). -/
def nextChannel (g : Guide) (c : Nat) : Option Nat :=
  match (visibleNumbers g).find? (fun n => c < n) with
  | some n => some n
  | none => (visibleNumbers g).head?

/-- The previous channel before c: the highest visible number below c, else the highest visible number (R74). -/
def previousChannel (g : Guide) (c : Nat) : Option Nat :=
  match ((visibleNumbers g).filter (fun n => n < c)).getLast? with
  | some n => some n
  | none => (visibleNumbers g).getLast?

/-! ## Parental answers (R148) -/

/-- Where a result reports profile 0, it reports these fields (section 9.1). -/
def household : Profile := { ceiling := 15, locks := [], windows := [], allowance := 1440, remaining := 86400 }

/-- The fields of profile p. -/
def profileOf (l : Limits) (p : Fin 4) : Profile :=
  match p with
  | 0 => household
  | 1 => l.profile1
  | 2 => l.profile2
  | 3 => l.profile3

/-- l with profile p (1 to 3) replaced; profile 0 holds no fields. -/
def setProfile (l : Limits) (p : Fin 4) (x : Profile) : Limits :=
  match p with
  | 0 => l
  | 1 => { l with profile1 := x }
  | 2 => { l with profile2 := x }
  | 3 => { l with profile3 := x }

/-- A profile whose daily allowance is not 1440 is metered (R148). -/
def Profile.metered (p : Profile) : Bool := p.allowance ≠ 1440

/-- The full allowance of a profile in seconds; 1440 minutes count as 86400 s (R162). -/
def Profile.full (p : Profile) : Nat := p.allowance * 60

/-- The active profile. -/
def activeProfile (s : State) : Profile := profileOf s.limits s.limits.active

/-- The parental checks apply: the active profile is 1 to 3 (R148). -/
def parental (s : State) : Bool := s.limits.active ≠ 0

/-! ## Entitlement test (R126) -/

/-- The table holds tier t with an expiry at or above day d. -/
def holdsTier (a : Access) (t d : Nat) : Bool :=
  a.entitlements.any (fun e => e.tier = t && d ≤ e.expiry)

/-- Tier t is held until today or later; fails while the clock is UNSET. -/
def tierEntitles (s : State) (t : Nat) : Bool :=
  match s.today with
  | none => false
  | some d => holdsTier s.access t d

/-- The purchase list holds a record for an event id, in any state. -/
def bought (p : Purchase) (id : Nat) : Bool := p.records.any (fun r => r.eventId = id)

/-- The four tests of R126 on channel entry e and the current event of its channel. -/
def entitled (s : State) (entry : ChannelEntry) (event : Option EventRecord) : Bool :=
  (match entry.tier with
    | none => true
    | some t => tierEntitles s t) ||
  (match event with
    | none => false
    | some e =>
      (match e.tier with
        | none => false
        | some t => tierEntitles s t) || bought s.purchase e.id)

/-! ## Feed lock and lock indication (R2) -/

/-- The front is LOCKED. -/
def SyncState.isLocked : SyncState → Bool
  | .locked _ => true
  | _ => false

/-- The front of f is LOCKED. -/
def locked (s : State) (f : Feed) : Bool := (s.frontOf f).sync.isLocked

/-- The feed is enabled and present. -/
def usable (s : State) (f : Feed) : Bool := (s.frontOf f).enabled && s.feedPresent f

/-- Feed lock (R2). -/
def feedLock (s : State) (f : Feed) : Bool :=
  usable s f && match (s.frontOf f).source with
    | .tuner => s.lines.lock.get f
    | .sync => true
    | .forced => true
    | .off => false

/-- The lock indication given to the Acquisition Controller (R2). -/
def lockIndication (s : State) (f : Feed) : Bool :=
  usable s f && match (s.frontOf f).source with
    | .tuner => s.lines.lock.get f
    | .sync => locked s f
    | .forced => true
    | .off => false

/-! ## Presentation feed (R88) -/

/-- The feed whose role is PRESENT, or F0. -/
def presentationFeed (s : State) : Feed :=
  if (s.acqOf .f0).role = .present then .f0
  else if (s.acqOf .f1).role = .present then .f1
  else .f0

/-- The feed that is not the presentation feed. -/
def backgroundFeed (s : State) : Feed := otherFeed (presentationFeed s)

/-- The feed is PRESENTING channel c (R90). -/
def presents (s : State) (f : Feed) (c : Nat) : Bool :=
  (s.acqOf f).state = .presenting && (s.acqOf f).target.any (fun e => e.number = c)

/-- The feed is READY on channel c (R90). -/
def readyOn (s : State) (f : Feed) (c : Nat) : Bool :=
  (s.acqOf f).state = .ready && (s.acqOf f).target.any (fun e => e.number = c)

/-! ## Generations (R118, R119) -/

/-- Generation a is newer than generation b (R118). -/
def newer (a b : Nat) : Bool :=
  let d := (a + 256 - b) % 256
  (1 ≤ d && d ≤ 127) || (d = 128 && b < a)

/-- The current generation (R119). -/
def currentGeneration (a : Access) : Option Generation :=
  match a.slot1, a.slot2 with
  | none, none => none
  | some g, none => some g
  | none, some g => some g
  | some g, some h => if newer g.number h.number then some g else some h

/-- The held generation with a number (R121). -/
def heldGeneration (a : Access) (n : Nat) : Option Generation :=
  match a.slot1 with
  | some g =>
    if g.number = n then some g else a.slot2.filter (fun h => h.number = n)
  | none => a.slot2.filter (fun h => h.number = n)

/-! ## Key slots -/

/-- The word of a phase. -/
def KeySlot.word (k : KeySlot) : Phase → Option Bytes
  | .a => k.wordA
  | .b => k.wordB

/-- k with the word of a phase replaced. -/
def KeySlot.setWord (k : KeySlot) (p : Phase) (w : Option Bytes) : KeySlot :=
  match p with
  | .a => { k with wordA := w }
  | .b => { k with wordB := w }

/-- The slot holds a valid word (R102, R103). -/
def KeySlot.hasWord (k : KeySlot) : Bool := k.wordA.isSome || k.wordB.isSome

end Sys2Proof.Machine
end

