-- ==== Sys2Proof/Machine/Decision.lean ====
section
/-! DEFINITION. The Decision Unit and Output Composer (chapter 10), with the two evaluations of the
Limits Unit that a decision drives: the window standing (R158) and the allowance meter (R160). -/

namespace Sys2Proof.Machine

/-! ## The meter and the window standing -/

/-- The three conditions under which the meter runs (R160). -/
def meterMayRun (s : State) : Bool :=
  (match s.output.context with
    | none => false
    | some c => c.decision ≠ .deny && !c.changing) &&
  parental s && (activeProfile s).metered && 0 < (activeProfile s).remaining

/-- The running condition is evaluated (R160): LIMIT is raised when the meter starts with 1 to 300 s left. -/
def evaluateMeter (s : State) : State :=
  if meterMayRun s then
    if s.limits.running then s
    else
      let started := { s with limits := { s.limits with running := true } }
      if (activeProfile s).remaining ≤ 300 then raise .limit started else started
  else { s with limits := { s.limits with running := false } }

/-- A window includes a weekday and a minute of day (R158, line 3). -/
def Window.opens (w : Window) (weekday minute : Nat) : Bool :=
  w.mask.getLsbD weekday && w.first ≤ minute && minute < w.last

/-- The window standing of the active profile now (R158). -/
def standingNow (s : State) : Standing :=
  if !parental s || (activeProfile s).windows = [] then .inside
  else if s.clock.state = .unset then .outside
  else if (activeProfile s).windows.any (fun w => w.opens s.weekday s.minuteOfDay) then .inside
  else .outside

/-- The standing is evaluated and held; no trigger of its own (R153, R156, R165). -/
def evaluateStanding (s : State) : State :=
  { s with limits := { s.limits with standing := standingNow s } }

/-! ## Markers and priming -/

/-- A marker is formed (R173): it replaces a pending one, takes a free reply entry, or becomes pending. -/
def placeMarker (m : Marker) (s : State) : State :=
  if s.output.pendingMarker.isSome then
    { s with output :=
      { s.output with pendingMarker := some m, markersReplaced := bump s.output.markersReplaced } }
  else if 0 < freeEntries s then placeCells [.marker m.channel m.decision m.reason] s
  else { s with output := { s.output with pendingMarker := some m } }

/-- Every programme cell in the output queue is removed and counted (R172, step 1). -/
def flushProgramme (s : State) : State :=
  { s with output :=
    { s.output with
      queue := s.output.queue.filter (fun c => !c.isProgramme)
      flushed := bumpBy (programmeCount s) s.output.flushed } }

/-- Priming is started afresh (R177). -/
def startPriming (s : State) : State :=
  { s with output := { s.output with priming := some (msTicks s.output.timeout) } }

/-- Priming ends: emission is OPEN (R177). -/
def openPriming (s : State) : State := { s with output := { s.output with priming := none } }

/-! ## The ordered decision (R168, R169) -/

/-- What a decision finds. -/
structure Verdict where
  decision : Decision
  reason : Reason
  previewEnd : Option Nat
  eventId : Option Nat
deriving DecidableEq, Repr

/-- The effective rating (R168). -/
def effectiveRating (entry : ChannelEntry) (event : Option EventRecord) : Nat :=
  match event with
  | some e => e.rating
  | none => entry.rating

/-- Checks 1 to 6 of R168: the reason of the first that denies. -/
def denyReason (s : State) (c : Context) (event : Option EventRecord) : Option Reason :=
  let p := activeProfile s
  if !(locked s c.feed) || (s.acqOf c.feed).state ≠ .presenting then some .signal
  else if event.any (fun e => e.blackout.contains s.access.region) then some .blackout
  else if parental s && p.locks.contains c.channel then some .channelLock
  else if parental s && p.ceiling < effectiveRating c.entry event then some .rating
  else if parental s && s.limits.standing = .outside then some .window
  else if parental s && p.metered && p.remaining = 0 then some .allowance
  else none

/-- The preview end of an event: start plus preview minutes. -/
def EventRecord.previewEnds (e : EventRecord) : Nat := e.start + e.previewMinutes * 60

/-- Checks 7a to 7c of R168: the programme is not entitled. -/
def notEntitledVerdict (s : State) (event : Option EventRecord) : Decision × Reason × Option Nat :=
  match event with
  | some e =>
    if e.price.isSome then
      match s.now with
      | some t =>
        if t < e.previewEnds then (.preview, .none, some e.previewEnds) else (.deny, .offer, none)
      | none => (.deny, .offer, none)
    else (.deny, .notEntitled, none)
  | none => (.deny, .notEntitled, none)

/-- The decision on a context with the changing flag clear (R168). -/
def decideOn (s : State) (c : Context) : Verdict :=
  let event := currentEvent s c.channel
  let id := event.map EventRecord.id
  match denyReason s c event with
  | some r => ⟨.deny, r, none, id⟩
  | none =>
    if entitled s c.entry event then
      if (s.acqOf c.feed).scrambled && (s.slotOf c.feed).wait = .expired then ⟨.deny, .noKey, none, id⟩
      else ⟨.present, .none, none, id⟩
    else
      match notEntitledVerdict s event with
      | (d, r, p) => ⟨d, r, p, id⟩

/-! ## The outcome of a decision (R172) -/

/-- Steps 1 to 4 of R172 for a changed decision on a channel; `moved` says the feed or channel changed. -/
def announce (channel : Nat) (d : Decision) (r : Reason) (moved : Bool) (s : State) : State :=
  let s1 := if d = .deny || moved then flushProgramme s else s
  let s2 := raise .accessChanged s1
  let s3 := if d = .deny && r = .offer then raise .offer s2 else s2
  let s4 := placeMarker ⟨channel, d, r⟩ s3
  if d = .deny then openPriming s4 else startPriming s4

/-- A verdict is taken into the context c: the comparison and the steps of R172, then the report to
the Limits Unit (R166). `created` and `moved` are the two further grounds of "changed". -/
def settle (c : Context) (v : Verdict) (created moved : Bool) (s : State) : State :=
  let c1 := { c with
    decision := v.decision, reason := v.reason, previewEnd := v.previewEnd, eventId := v.eventId }
  let s1 := { s with output := { s.output with context := some c1 } }
  let changed := created || moved || v.decision ≠ c.decision || v.reason ≠ c.reason
  let s2 :=
    if changed then announce c.channel v.decision v.reason moved s1
    else if v.decision = .deny && v.reason = .offer && v.eventId ≠ c.eventId then raise .offer s1
    else s1
  evaluateMeter s2

/-- A re-decision trigger (R171): evaluated while a context exists with the changing flag clear. -/
def trigger (s : State) : State :=
  match s.output.context with
  | none => s
  | some c => if c.changing then s else settle c (decideOn s c) false false s

/-- k triggers, one after the other. -/
def triggers : Nat → State → State
  | 0, s => s
  | k + 1, s => triggers k (trigger s)

/-- The watched channel is set to c and its current event recorded (R70). -/
def watch (c : Nat) (s : State) : State :=
  { s with guide := { s.guide with watched := some c, lastEvent := currentEvent s c } }

/-- The watched channel is set to none (R70). -/
def unwatch (s : State) : State :=
  { s with guide := { s.guide with watched := none, lastEvent := none } }

/-- The context before its first decision. -/
def freshContext (f : Feed) (entry : ChannelEntry) : Context :=
  { feed := f, channel := entry.number, entry, eventId := none, decision := .deny, reason := .none,
    previewEnd := none, changing := false }

/-- A decision step, a role swap or a failure on the feed with the PRESENT role tells the Decision Unit
(R166): the context takes the feed, channel and entry copy, the changing flag is cleared, and the
decision is made. -/
def takeContext (f : Feed) (entry : ChannelEntry) (s : State) : State :=
  match s.output.context with
  | none =>
    let c := freshContext f entry
    let s1 := watch entry.number { s with output := { s.output with context := some c } }
    settle c (decideOn s1 c) true false s1
  | some old =>
    let c := { old with feed := f, channel := entry.number, entry, changing := false }
    let s1 := { s with output := { s.output with context := some c } }
    let s2 := if old.channel = entry.number then s1 else watch entry.number s1
    settle c (decideOn s2 c) false (old.feed ≠ f || old.channel ≠ entry.number) s2

/-- A SELECT that starts an acquisition sets the changing flag of an existing context (R167). -/
def setChanging (s : State) : State :=
  match s.output.context with
  | none => s
  | some c =>
    if c.changing then s
    else settle { c with changing := true } ⟨.deny, .changing, none, c.eventId⟩ false false s

/-- The context is removed: steps 1 to 3 of R172 with DENY ENDED, priming ends, the watched channel
becomes none, and the Limits Unit is told (R172, R70, R160). -/
def removeContext (s : State) : State :=
  match s.output.context with
  | none => s
  | some c =>
    let s1 := announce c.channel .deny .ended false s
    evaluateMeter (unwatch { s1 with output := { s1.output with context := none } })

/-! ## The output queue (R174, R175) -/

/-- The four conditions of the output gate (R174). -/
def gateOpen (s : State) (f : Feed) : Bool :=
  match s.output.context with
  | none => false
  | some c =>
    c.feed = f && (s.acqOf f).state = .presenting && !c.changing && c.decision ≠ .deny

/-- A passed programme cell enters the queue, or is discarded as an overflow (R175); reaching the
priming threshold opens emission (R177). -/
def enqueueProgramme (c : Cell) (s : State) : State :=
  if programmeCount s < 60 && s.output.queue.length < 64 then
    let s1 := { s with output := { s.output with queue := s.output.queue ++ [.programme c] } }
    if s1.output.priming.isSome && s1.output.threshold ≤ programmeCount s1 then openPriming s1 else s1
  else { s with output := { s.output with overflows := bump s.output.overflows } }

/-- A programme cell at the output gate with the name of its feed (R174). -/
def outputGate (f : Feed) (c : Cell) (s : State) : State :=
  if gateOpen s f then enqueueProgramme c s
  else { s with output := { s.output with blanked := s.output.blanked.modify f bump } }

end Sys2Proof.Machine
end

