-- ==== Sys2Proof/Machine/Filter.lean ====
section
/-! DEFINITION. The filter table (section 2.1), abandoning assemblies (R31), and what a Feed Front does
to both when it leaves LOCKED (R12, R25) or is told to tune (R10). -/

namespace Sys2Proof.Machine

/-! ## The filter table -/

/-- An entry is of a feed and stream. -/
def FilterEntry.isAt (e : FilterEntry) (f : Feed) (stream : Nat) : Bool :=
  e.feed = f && e.stream = stream

/-- The entry with a feed and stream number. -/
def entryAt (s : State) (f : Feed) (stream : Nat) : Option FilterEntry :=
  s.filter.entries.find? (fun e => e.isAt f stream)

/-- Free entries of the table (R20). -/
def freeFilterEntries (s : State) : Nat := 24 - s.filter.entries.length

/-- A new entry: expectation none, continuity error count 0 (R20). -/
def newEntry (f : Feed) (stream : Nat) (consumer : Consumer) (owner : Owner) (tap : Option TapInfo) :
    FilterEntry :=
  { feed := f, stream, consumer, owner, expected := none, errors := 0, tap }

/-- An entry is made. The table never holds more than 24 entries, nor two with one feed and stream
(R20): every caller has checked, and the check stands here too. It goes to the end (log entry 26). -/
def addEntry (e : FilterEntry) (s : State) : State :=
  if s.filter.entries.length < 24 && (entryAt s e.feed e.stream).isNone then
    { s with filter := { s.filter with entries := s.filter.entries ++ [e] } }
  else s

/-- Entries made one after the other. -/
def addEntries : List FilterEntry → State → State
  | [], s => s
  | e :: es, s => addEntries es (addEntry e s)

/-- An assembly is on feed f and a stream that p names. -/
def Assembly.isOn (a : Assembly) (f : Feed) (p : Nat → Bool) : Bool := a.feed = f && p a.stream

/-- The assemblies of feed f on the streams that p names are abandoned: buffers freed, the abandoned
count of the feed raised by 1 for each (R31). -/
def abandon (f : Feed) (p : Nat → Bool) (s : State) : State :=
  let gone := s.assembler.buffers.countP (fun a => a.isOn f p)
  { s with assembler :=
    { s.assembler with
      buffers := s.assembler.buffers.filter (fun a => !a.isOn f p)
      abandoned := s.assembler.abandoned.modify f (bumpBy gone) } }

/-- The entries of feed f that p names are removed, and any assembly on them is abandoned (R20). -/
def removeEntries (f : Feed) (p : FilterEntry → Bool) (s : State) : State :=
  let gone := s.filter.entries.filter (fun e => e.feed = f && p e)
  let kept := s.filter.entries.filter (fun e => !(e.feed = f && p e))
  abandon f (fun stream => gone.any (fun e => e.stream = stream))
    { s with filter := { s.filter with entries := kept } }

/-- All ACQUISITION entries of feed f are removed (R21). -/
def removeAcqEntries (f : Feed) (s : State) : State :=
  removeEntries f (fun e => e.owner = .acquisition) s

/-- The three FIXED entries of a feed (R16, R20, R38). -/
def fixedEntries (f : Feed) : List FilterEntry :=
  [newEntry f 1 .sections .fixed none, newEntry f 2 .sections .fixed none,
   newEntry f 3 .sections .fixed none]

/-- The three answers to a request for a set of entries (R21). -/
inductive FilterAnswer where
  | duplicate | tableFull | installed
deriving DecidableEq, Repr

/-- The answer as an outcome code (log entry 12). -/
def FilterAnswer.outcome : FilterAnswer → ReplyOutcome
  | .duplicate => .duplicate
  | .tableFull => .tableFull
  | .installed => .done

/-- A pair that appears twice is taken once, with the first consumer named (R21). -/
def distinctPairs : List (Nat × Consumer) → List (Nat × Consumer)
  | [] => []
  | p :: ps => p :: (distinctPairs ps).filter (fun q => q.1 ≠ p.1)

/-- The answer to a request for distinct pairs on a feed (R21). -/
def filterAnswer (f : Feed) (pairs : List (Nat × Consumer)) (s : State) : FilterAnswer :=
  if pairs.any (fun p => (entryAt s f p.1).isSome) then .duplicate
  else if freeFilterEntries s < pairs.length then .tableFull
  else .installed

/-- A set of ACQUISITION entries is installed whole or not at all (R21). -/
def requestEntries (f : Feed) (pairs : List (Nat × Consumer)) (s : State) : FilterAnswer × State :=
  let wanted := distinctPairs pairs
  match filterAnswer f wanted s with
  | .installed =>
    (.installed, addEntries (wanted.map (fun p => newEntry f p.1 p.2 .acquisition none)) s)
  | refusal => (refusal, s)

/-! ## A front leaves LOCKED, or is told to tune -/

/-- The expectation of every entry of feed f becomes none (R25). -/
def forgetExpectations (f : Feed) (s : State) : State :=
  let entries := s.filter.entries.map (fun e => if e.feed = f then { e with expected := none } else e)
  { s with filter := { s.filter with entries := entries } }

/-- The front of f has left LOCKED: DOWN flag, expectations, assemblies (R12, R13, R25, R31). -/
def leaveLocked (f : Feed) (s : State) : State :=
  abandon f (fun _ => true)
    (forgetExpectations f (s.setFront f { s.frontOf f with down := true }))

/-- The front gives up its alignment and hunts from the next byte on (R10); positions are counted
afresh (log entry 7). -/
def Front.rehunt (x : Front) : Front := { x with sync := .hunt, position := 0, slot := none, held := [] }

/-- A tune request reaches the front (R10). Leaving LOCKED has cause TUNE, which the record, then in
TUNING, does not act on (R105). -/
def tuneFront (f : Feed) (s : State) : State :=
  match (s.frontOf f).sync with
  | .down => s
  | .hunt => s.setFront f (s.frontOf f).rehunt
  | .confirm _ => s.setFront f (s.frontOf f).rehunt
  | .locked _ => leaveLocked f (s.setFront f (s.frontOf f).rehunt)

end Sys2Proof.Machine
end

