-- ==== Sys2Proof/Machine/Acquisition.lean ====
section
/-! DEFINITION. The Acquisition Controller (chapter 6): answers, the steps of an acquisition, programme
maps, lock loss, release. The commands that drive it stand in Selecting.lean. -/

namespace Sys2Proof.Machine

/-! ## Small changes of a record or a key slot -/

/-- The record of f changed by g. -/
def State.changeAcq (s : State) (f : Feed) (g : AcqRecord → AcqRecord) : State :=
  s.setAcq f (g (s.acqOf f))

/-- The key slot of f is cleared; its key-miss count is kept (R120). -/
def clearKeySlot (f : Feed) (s : State) : State := s.setSlot f (State.clearSlot (s.slotOf f).misses)

/-- The key-wait timer of f is started with the key timeout (R125). -/
def startKeyWait (f : Feed) (s : State) : State :=
  s.setSlot f { s.slotOf f with wait := .running (msTicks s.acq.timing.key) }

/-! ## Answers (R89; layout: log entry 12) -/

/-- The channel a SELECT NEXT or PREVIOUS picked, for answers that do not carry it otherwise (R93). -/
def pickedBytes : Option Nat → Bytes
  | some c => beBytes 2 c
  | none => []

/-- The channel picked that a pending reply remembers. -/
def PendingReply.picked : PendingReply → Option Nat
  | .awaiting _ _ p => p
  | _ => Option.none

/-- A reply is awaited. -/
def PendingReply.isAwaiting : PendingReply → Bool
  | .awaiting _ _ _ => true
  | _ => false

/-- The awaiting pending reply of f, if any, is answered: formed at once, and placed if an entry is
free, or waiting, formed, in the record (R89). Every answer carries the feed concerned. -/
def answerPending (f : Feed) (outcome : ReplyOutcome) (results : Bytes) (s : State) : State :=
  match (s.acqOf f).pending with
  | .awaiting tag code _ =>
    let cell := LocalCell.reply tag code outcome 0 (one (feedPosition f) ++ results)
    if 0 < freeEntries s then placeCells [cell] (s.changeAcq f (fun r => { r with pending := .none }))
    else
      let s1 := s.changeAcq f (fun r => { r with pending := .formed cell })
      { s1 with acq := { s1.acq with formedOrder := s1.acq.formedOrder ++ [f] } }
  | _ => s

/-- The awaiting pending reply of f, if any, is answered SUPERSEDED. -/
def supersede (f : Feed) (s : State) : State :=
  answerPending f .superseded (pickedBytes (s.acqOf f).pending.picked) s

/-! ## Failure, parking, the decision step -/

/-- The results of a FAILED answer: cause, channel or carrier, attempt count, and for TABLE FULL what
the filter table answered (R104). -/
def failedResults (r : AcqRecord) (cause : FailCause) (answer : FilterAnswer) : Bytes :=
  one cause.position ++
  (match r.target with
    | some e => beBytes 2 e.number
    | none => one (r.targetCarrier.getD 0)) ++
  one r.attempts ++
  (if cause = .tableFull then [answer.outcome.code] else [])

/-- On a feed with the PRESENT role the Decision Unit is told with the record's target (R103, R104). -/
def tellDecision (f : Feed) (s : State) : State :=
  match (s.acqOf f).target with
  | some e => takeContext f e s
  | none => s

/-- An acquisition ends FAILED (R104). The rule names the installed map version neither among what is cleared nor
among what is kept: that it stands is the model's choice (log entry 38). -/
def fail (f : Feed) (cause : FailCause) (answer : FilterAnswer) (s : State) : State :=
  let r := s.acqOf f
  let s1 := clearKeySlot f (removeAcqEntries f s)
  let s2 := s1.changeAcq f (fun r =>
    { r with state := .failed, cause := some cause, timer := none, components := [] })
  let s3 := raise .feedFault (answerPending f .failed (failedResults r cause answer) s2)
  if r.role = .present then tellDecision f s3 else s3

/-- A PARK acquisition becomes PARKED and is answered DONE with the carrier (R95). -/
def enterParked (f : Feed) (s : State) : State :=
  let s1 := s.changeAcq f (fun r => { r with state := .parked, timer := none })
  answerPending f .done (one ((s.acqOf f).targetCarrier.getD 0)) s1

/-- The decision and reason that the context holds. -/
def contextVerdict (s : State) : Bytes :=
  match s.output.context with
  | some c => one c.decision.code ++ one c.reason.code
  | none => one 0 ++ one 0

/-- The target channel's number in 2 bytes. -/
def targetBytes (r : AcqRecord) : Bytes := beBytes 2 ((r.target.map ChannelEntry.number).getD 0)

/-- The decision step ends a channel acquisition (R103). -/
def decisionStep (f : Feed) (s : State) : State :=
  let r := s.acqOf f
  if r.role = .present then
    let s1 := tellDecision f (s.changeAcq f (fun r => { r with state := .presenting, timer := none }))
    answerPending f .done (targetBytes r ++ contextVerdict s1 ++ flagByte r.scrambled) s1
  else
    let s1 := s.changeAcq f (fun r => { r with state := .ready, timer := none })
    answerPending f .done
      (targetBytes r ++ flagByte true ++ flagByte r.scrambled ++ flagByte (s.slotOf f).hasWord) s1

/-- On entry to KEYING (R102). -/
def enterKeying (f : Feed) (s : State) : State :=
  let s1 := s.changeAcq f (fun r => { r with state := .keying, timer := none })
  if (s.slotOf f).hasWord || (s.slotOf f).wait = .expired then decisionStep f s1
  else if (s.slotOf f).wait = .stopped then startKeyWait f s1
  else s1

/-! ## The steps up to MAPPING -/

/-- The feed holds an ACQUISITION entry on a stream. -/
def holdsAcqEntry (s : State) (f : Feed) (stream : Nat) : Bool :=
  (entryAt s f stream).any (fun e => e.owner = .acquisition)

/-- On entry to MAPPING: the map timer, then the map stream (R98). -/
def enterMapping (f : Feed) (entry : ChannelEntry) (s : State) : State :=
  let s1 := s.changeAcq f (fun r =>
    { r with state := .mapping, timer := some (.map, msTicks s.acq.timing.map) })
  if holdsAcqEntry s1 f entry.mapStream then s1
  else
    match requestEntries f [(entry.mapStream, .sections)] s1 with
    | (.installed, s2) => s2
    | (refusal, s2) => fail f .tableFull refusal s2

/-- The step that follows SYNCING: MAPPING for a channel acquisition, PARKED for a PARK (R92, R98). -/
def afterSyncing (f : Feed) (s : State) : State :=
  match (s.acqOf f).target with
  | some e => enterMapping f e s
  | none => enterParked f s

/-- On entry to SYNCING (R98). -/
def enterSyncing (f : Feed) (s : State) : State :=
  let s1 := s.changeAcq f (fun r =>
    { r with state := .syncing, timer := some (.sync, msTicks s.acq.timing.sync) })
  if locked s1 f then afterSyncing f s1 else s1

/-- On entry to LOCKING (R97). -/
def enterLocking (f : Feed) (s : State) : State :=
  let s1 := s.changeAcq f (fun r =>
    { r with state := .locking, timer := some (.lock, msTicks s.acq.timing.lock) })
  if lockIndication s1 f then enterSyncing f s1 else s1

/-- On entry to TUNING: the tune request, unless the feed is disabled or absent, and the settle timer (R96). -/
def enterTuning (f : Feed) (s : State) : State :=
  let s1 := s.changeAcq f (fun r =>
    { r with state := .tuning, timer := some (.settle, msTicks s.acq.timing.settle) })
  if usable s f then
    let s2 := s1.changeAcq f (fun r => { r with tunedCarrier := r.targetCarrier })
    tuneFront f { s2 with lines :=
      { s2.lines with tune := s2.lines.tune.set f (s.acqOf f).targetCarrier } }
  else s1

/-- A retry or the failure when the lock or sync timer expires (R97, R98). -/
def retryOrFail (f : Feed) (cause : FailCause) (s : State) : State :=
  if (s.acqOf f).attempts < s.acq.timing.attempts then
    enterTuning f (s.changeAcq f (fun r => { r with attempts := r.attempts + 1 }))
  else fail f cause .installed s

/-! ## Events from the front (R12, R97, R98, R105, R106) -/

/-- The lock indication of f became true: a LOCKING step passes (R97). -/
def indicationTrue (f : Feed) (s : State) : State :=
  if (s.acqOf f).state = .locking then enterSyncing f s else s

/-- The lock indication stood at `before`; a change to true is delivered (R12). A change to false is
acted on by no step. -/
def deliverIndication (f : Feed) (before : Bool) (s : State) : State :=
  if !before && lockIndication s f then indicationTrue f s else s

/-- The front of f entered LOCKED: a SYNCING step passes (R98). -/
def enteredLocked (f : Feed) (s : State) : State :=
  if (s.acqOf f).state = .syncing then afterSyncing f s else s

/-- A lock loss while PRESENTING, READY or PARKED (R105). -/
def lockLoss (f : Feed) (s : State) : State :=
  let s1 := raise .feedFault (enterLocking f (s.changeAcq f (fun r => { r with attempts := 1 })))
  if (s.acqOf f).role = .present then trigger s1 else s1

/-- The front of f left LOCKED with a cause, as the record acts on it (R105, R106). -/
def recordLeftLocked (f : Feed) (cause : LeaveCause) (s : State) : State :=
  if cause = .sync || cause = .lock then
    match (s.acqOf f).state with
    | .presenting => lockLoss f s
    | .ready => lockLoss f s
    | .parked => lockLoss f s
    | .mapping => enterLocking f s
    | .keying => enterLocking f s
    | _ => s
  else s

/-- The left-LOCKED event whole: filter, assembler, Acquisition Controller (R12). -/
def leftLocked (f : Feed) (cause : LeaveCause) (s : State) : State :=
  recordLeftLocked f cause (leaveLocked f s)

/-! ## Programme maps (R99 to R101, R107) -/

/-- The components that bytes of 3 each spell; none if a kind is not 1 to 4. -/
def readComponents : Bytes → Option (List Component)
  | k :: h :: l :: rest =>
    match componentKindOf k.toNat, readComponents rest with
    | some kind, some cs => some (⟨kind, beNat [h, l]⟩ :: cs)
    | _, _ => none
  | [] => some []
  | _ => none

/-- No stream number stands twice. -/
def distinctStreams : List Component → Bool
  | [] => true
  | c :: cs => !cs.any (fun d => d.stream = c.stream) && distinctStreams cs

/-- The component list of a PROGRAMME MAP body of good shape (R99). -/
def programmeMap (key : Nat) (body : Bytes) : Option (List Component) :=
  match body with
  | [] => none
  | count :: rest =>
    if 1 ≤ count.toNat && count.toNat ≤ 8 && rest.length = 3 * count.toNat then
      match readComponents rest with
      | none => none
      | some cs =>
        if cs.all (fun c => 16 ≤ c.stream && c.stream ≤ 4093 && c.stream ≠ key) && distinctStreams cs
            && cs.countP (fun c => c.kind = .key) ≤ 1
        then some cs else none
    else none

/-- The consumer of a component by its kind (R100). -/
def ComponentKind.consumer : ComponentKind → Consumer
  | .key => .sections
  | _ => .present

/-- The filter pair of a component. -/
def Component.pair (c : Component) : Nat × Consumer := (c.stream, c.kind.consumer)

/-- The stream of the KEY component, or none. -/
def keyStreamOf (cs : List Component) : Option Nat :=
  (cs.find? (fun c => c.kind = .key)).map Component.stream

/-- The feed holds an ACQUISITION entry for a pair. -/
def holdsPair (s : State) (f : Feed) (p : Nat × Consumer) : Bool :=
  (entryAt s f p.1).any (fun e => e.owner = .acquisition && e.consumer = p.2)

/-- The entries of held components that do not stand in the new list are removed (R100, step 1). -/
def dropComponents (f : Feed) (new : List Component) (s : State) : State :=
  let gone := (s.acqOf f).components.filter (fun c => !(new.map Component.pair).contains c.pair)
  removeEntries f (fun e => e.owner = .acquisition && gone.any (fun c => c.stream = e.stream)) s

/-- The map stream and key stream given to the key slot (R100, step 3). -/
def giveStreams (f : Feed) (new : List Component) (s : State) : State :=
  s.setSlot f { s.slotOf f with
    mapStream := (s.acqOf f).target.map ChannelEntry.mapStream, keyStream := keyStreamOf new }

/-- The INSTALLED outcome of R100: the record takes the list, and the key slot follows. -/
def takeComponents (f : Feed) (new : List Component) (version : Nat) (s : State) : State :=
  let old := keyStreamOf (s.acqOf f).components
  let s1 := s.changeAcq f (fun r =>
    { r with components := new, version := some version, scrambled := (keyStreamOf new).isSome })
  giveStreams f new (if keyStreamOf new = old then s1 else clearKeySlot f s1)

/-- The procedure of R100: true when INSTALLED, false when the acquisition ended FAILED. -/
def installComponents (f : Feed) (new : List Component) (version : Nat) (s : State) : Bool × State :=
  let s1 := dropComponents f new s
  let wanted := (new.map Component.pair).filter (fun p => !holdsPair s1 f p)
  match requestEntries f wanted s1 with
  | (.installed, s2) => (true, takeComponents f new version s2)
  | (refusal, s2) => (false, fail f .tableFull refusal s2)

/-- The components stand in MAPPING: the map timer stops and the acquisition goes on (R101). -/
def mapStands (f : Feed) (s : State) : State :=
  if (s.acqOf f).scrambled then enterKeying f s else decisionStep f s

/-- A matching map taken in MAPPING (R101). -/
def mapInMapping (f : Feed) (new : List Component) (version : Nat) (s : State) : State :=
  if (s.acqOf f).components = [] || (s.acqOf f).version ≠ some version then
    match installComponents f new version s with
    | (true, s1) => mapStands f s1
    | (false, s1) => s1
  else mapStands f s

/-- What follows an INSTALLED new version, by the state the record was in (R107). -/
def afterNewVersion (f : Feed) (state : AcqState) (s : State) : State :=
  match state with
  | .presenting => trigger s
  | .keying =>
    if (s.acqOf f).scrambled then
      if (s.slotOf f).wait = .stopped then startKeyWait f s else s
    else decisionStep f s
  | _ => s

/-- A matching map taken in KEYING, PRESENTING or READY (R107). -/
def newMapVersion (f : Feed) (new : List Component) (version : Nat) (s : State) : State :=
  if (s.acqOf f).version = some version then s
  else
    match installComponents f new version s with
    | (true, s1) => afterNewVersion f (s.acqOf f).state s1
    | (false, s1) => s1

/-- A map of good shape matches the record of its feed (R99). -/
def mapMatches (r : AcqRecord) (key : Nat) : Bool :=
  (match r.state with
    | .mapping => true
    | .keying => true
    | .presenting => true
    | .ready => true
    | _ => false) && r.target.any (fun e => e.mapStream = key)

/-- A good PROGRAMME MAP section with its feed (R99). -/
def programmeMapSection (f : Feed) (version key : Nat) (body : Bytes) (s : State) : State :=
  match programmeMap key body with
  | none => { s with acq := { s.acq with malformedMaps := s.acq.malformedMaps.modify f bump } }
  | some new =>
    if mapMatches (s.acqOf f) key then
      if (s.acqOf f).state = .mapping then mapInMapping f new version s
      else newMapVersion f new version s
    else { s with acq := { s.acq with unmatchedMaps := s.acq.unmatchedMaps.modify f bump } }

/-! ## Starting and releasing (R92, R108) -/

/-- Steps 1 to 4 of R92 on the record, its entries and its key slot, with the pending reply it is to
hold; the scrambled flag is left as it stands (log entry 21). -/
def beginRecord (f : Feed) (role : Role) (target : Option ChannelEntry) (carrier : Nat)
    (pending : PendingReply) (s : State) : State :=
  let s1 := clearKeySlot f (removeAcqEntries f s)
  s1.changeAcq f (fun r =>
    { r with role, cause := none, target, targetCarrier := some carrier, timer := none, pending,
             components := [], version := none })

/-- The tuned carrier is the target carrier and the front is LOCKED (R92, step 6). -/
def alreadyThere (s : State) (f : Feed) (carrier : Nat) : Bool :=
  (s.acqOf f).tunedCarrier = some carrier && locked s f

/-- Steps 6 and 7 of R92. -/
def proceed (f : Feed) (carrier : Nat) (s : State) : State :=
  let s1 := s.changeAcq f (fun r => { r with attempts := 1 })
  if alreadyThere s f carrier then afterSyncing f s1 else enterTuning f s1

/-- Steps 1 to 3 of R108; an awaiting pending reply is kept for the answer that follows. -/
def releaseRecord (f : Feed) (s : State) : State :=
  let s1 := clearKeySlot f (removeAcqEntries f s)
  let s2 := s1.changeAcq f (fun r =>
    { r with role := .none, state := .idle, cause := none, target := none, targetCarrier := none,
             attempts := 0, timer := none, components := [], version := none })
  if (s.acqOf f).role = .present then removeContext s2 else s2

end Sys2Proof.Machine
end

