-- ==== Sys2Proof/Machine/Replies.lean ====
section
/-! DEFINITION. How a command taken is answered (R182): in its reserved entry, as a held reply, or later
by the acquisition it starts. -/

namespace Sys2Proof.Machine

/-- The answer of several cells: placed together when k - 1 entries are free besides the reserved one,
and held until then (R182, R184). One cell fills the reserved entry. -/
def answerCells (cells : List LocalCell) (s : State) : State :=
  if cells.length - 1 ≤ freeEntries s then placeCells cells (endReservation s)
  else { s with command := { s.command with heldReply := some cells } }

/-- The answer of one cell with its results. -/
def answer (c : CommandCell) (outcome : ReplyOutcome) (results : Bytes) (s : State) : State :=
  placeCells [.reply c.tag c.code outcome 0 results] (endReservation s)

/-- A refusal without results. -/
def refuse (c : CommandCell) (outcome : ReplyOutcome) (s : State) : State := answer c outcome [] s

/-- BAD PARAMETER, with no results (R182). -/
def badParameter (c : CommandCell) (s : State) : State := refuse c .badParameter s

/-- The answer of a result sequence cut into cells (R86, R182). -/
def answerLong (c : CommandCell) (outcome : ReplyOutcome) (results : Bytes) (s : State) : State :=
  answerCells (replyCells c.tag c.code outcome results) s

/-- The command cell carries at least k parameter bytes. -/
def CommandCell.carries (c : CommandCell) (k : Nat) : Bool := k ≤ c.params.length

/-- The number in k parameter bytes from position i on. -/
def CommandCell.number (c : CommandCell) (i k : Nat) : Nat := beNat ((c.params.drop i).take k)

/-- Parameter byte i. -/
def CommandCell.byte (c : CommandCell) (i : Nat) : Byte := byteAt c.params i

/-- Reply entries the arbiter may give to the head of the intake come last (R184): a command is taken at
once only when nothing else waits for an entry and one is free. -/
def mayTake (s : State) : Bool :=
  s.command.intake = [] && s.acq.formedOrder = [] && s.command.heldReply = none &&
  s.output.pendingMarker = none && !s.command.noticePending && !s.command.reserved &&
  0 < freeEntries s

/-- One reply entry is reserved for the command taken (R182). -/
def reserve (s : State) : State := { s with command := { s.command with reserved := true } }

/-- A command cell is offered to the intake (R181). -/
def offerIntake (c : CommandCell) (s : State) : State :=
  if s.command.intake.length < 8 then
    { s with command := { s.command with intake := s.command.intake ++ [c] } }
  else raise .overrun { s with command := { s.command with overruns := bump s.command.overruns } }

/-- A command row (log entry 1): discarded while the part is in start-up (R180); taken at once, with one
entry reserved, where the arbiter would take it next; otherwise offered to the intake. -/
def commandRow (act : CommandCell → State → State) (c : CommandCell) (s : State) : State :=
  if !s.running then s
  else if mayTake s then act c (reserve s)
  else offerIntake c s

end Sys2Proof.Machine
end

