-- ==== Sys2Proof/Machine/GuideCommands.lean ====
section
/-! DEFINITION. CHANNEL READ (R75), GUIDE SEARCH (R78 to R83) and GUIDE READ (R84 to R86). -/

namespace Sys2Proof.Machine

/-! ## CHANNEL READ -/

/-- The lowest held entry above a number (R75, NEXT AFTER). -/
def entryAfter (g : Guide) (n : Nat) : Option ChannelEntry := g.channels.find? (fun e => n < e.number)

/-- The results of a DONE reply to CHANNEL READ. -/
def channelResults (s : State) (e : ChannelEntry) : Bytes :=
  beBytes 2 e.number ++ one e.carrier ++ beBytes 2 e.mapStream ++ optional 1 e.tier ++ one e.rating ++
  flagByte e.hidden ++ beBytes 2 s.guide.channels.length ++
  beBytes 2 (eventsOf s.guide e.number).length ++
  optional 2 ((currentEvent s e.number).map EventRecord.id)

/-- A lookup is answered: the entry, or an outcome with the number of entries held. -/
def answerEntry (c : CommandCell) (found : Option ChannelEntry) (missing : ReplyOutcome) (s : State) :
    State :=
  match found with
  | some e => answer c .done (channelResults s e) s
  | none => answer c missing (beBytes 2 s.guide.channels.length) s

/-- CHANNEL READ (R75). -/
def actChannelRead (c : CommandCell) (s : State) : State :=
  if c.carries 3 then
    match c.number 0 1 with
    | 0 => answerEntry c (entryOf s.guide (c.number 1 2)) .unknownChannel s
    | 1 => answerEntry c (entryAfter s.guide (c.number 1 2)) .endOfMap s
    | _ => badParameter c s
  else badParameter c s

/-! ## GUIDE SEARCH -/

/-- The parameters of GUIDE SEARCH (section 5.1). -/
structure SearchParams where
  channel : Nat
  field : Nat
  comparison : Nat
  value : Nat
  first : Nat
  last : Nat
  step : Nat
  skip : Nat
deriving DecidableEq, Repr

/-- The parameters that 14 bytes spell. -/
def readSearch (c : CommandCell) : SearchParams :=
  { channel := c.number 0 2, field := c.number 2 1, comparison := c.number 3 1, value := c.number 4 4,
    first := c.number 8 2, last := c.number 10 2, step := c.number 12 1, skip := c.number 13 1 }

/-- The parameters pass check 1 of R78. -/
def SearchParams.good (p : SearchParams) : Bool :=
  p.field ≤ 4 && p.comparison ≤ 2 && (p.step = 1 || p.step = 2) && p.skip ≤ 1

/-- The value of the named field, or none when it is absent (R82). -/
def EventRecord.fieldValue (e : EventRecord) (field : Nat) : Option Nat :=
  match field with
  | 0 => some e.start
  | 1 => some e.rating
  | 2 => some e.genre
  | 3 => e.tier
  | _ => e.price

/-- The comparison of a record value with the value (R82). -/
def comparisonHolds (comparison held value : Nat) : Bool :=
  match comparison with
  | 0 => held = value
  | 1 => held ≤ value
  | _ => value ≤ held

/-- A record that is not withdrawn satisfies the test (R82). -/
def EventRecord.satisfies (e : EventRecord) (p : SearchParams) : Bool :=
  (e.fieldValue p.field).any (fun v => comparisonHolds p.comparison v p.value)

/-- How a walk ends: outcome, index and event id as reported, examined count, WITHDRAWN SEEN (R80). -/
structure SearchEnd where
  outcome : ReplyOutcome
  index : Nat
  id : Nat
  examined : Nat
  withdrawnSeen : Bool
deriving DecidableEq, Repr

/-- The walk of R80 at index i, with the records examined so far; `fuel` bounds the indices still to be
visited, and 257 is enough, because at most 256 records are examined. -/
def walk (es : List EventRecord) (p : SearchParams) :
    (fuel i examined : Nat) → (seen : Bool) → SearchEnd
  | 0, i, examined, seen => ⟨.limit, i, 0, examined, seen⟩
  | fuel + 1, i, examined, seen =>
    if p.last < i then ⟨.boundMissed, 0, 0, examined, seen⟩
    else
      match es[i]? with
      | none => ⟨.boundMissed, 0, 0, examined, seen⟩
      | some e =>
        if examined = 256 then ⟨.limit, i, 0, examined, seen⟩
        else if e.withdrawn && p.skip = 0 then ⟨.withdrawn, i, e.id, examined + 1, seen⟩
        else if !e.withdrawn && e.satisfies p then ⟨.hit, i, e.id, examined + 1, seen⟩
        else if i = p.last then ⟨.notSatisfied, 0, 0, examined + 1, seen || e.withdrawn⟩
        else walk es p fuel (i + p.step) (examined + 1) (seen || e.withdrawn)

/-- The end of a search with good parameters (R78, checks 2 to 5). -/
def searchEnd (g : Guide) (p : SearchParams) : SearchEnd :=
  let es := eventsOf g p.channel
  if p.last < p.first then ⟨.refusedRange, 0, 0, 0, false⟩
  else if es = [] then
    if (entryOf g p.channel).isSome then ⟨.empty, 0, 0, 0, false⟩ else ⟨.unknownChannel, 0, 0, 0, false⟩
  else walk es p 257 p.first 0 false

/-- The results of GUIDE SEARCH (R83). -/
def searchResults (g : Guide) (p : SearchParams) (x : SearchEnd) : Bytes :=
  beBytes 2 x.index ++ beBytes 2 x.id ++ beBytes 2 x.examined ++
  one (x.withdrawnSeen.toNat + 2 * (entryOf g p.channel).isSome.toNat) ++
  beBytes 2 (eventsOf g p.channel).length

/-- GUIDE SEARCH (R78). -/
def actGuideSearch (c : CommandCell) (s : State) : State :=
  let p := readSearch c
  if c.carries 14 && p.good then
    let x := searchEnd s.guide p
    answer c x.outcome (searchResults s.guide p x) s
  else badParameter c s

/-! ## GUIDE READ -/

/-- A record at its index as the fields of R85. -/
def EventRecord.results (i : Nat) (e : EventRecord) : Bytes :=
  beBytes 2 i ++ beBytes 2 e.id ++ beBytes 4 e.start ++ beBytes 2 e.duration ++ one e.rating ++
  one e.genre ++
  one (e.withdrawn.toNat + 2 * e.tier.isSome.toNat + 4 * e.price.isSome.toNat + 8 * e.truncated.toNat) ++
  one (e.tier.getD 0) ++ beBytes 2 (e.price.getD 0) ++ one e.cancelMinutes ++ one e.previewMinutes ++
  beBytes 4 e.title ++ one e.blackout.length ++ e.blackout.flatMap (beBytes 2)

/-- The records returned from index i on, each with its index (R84). -/
def recordsFrom (es : List EventRecord) (i k : Nat) : Bytes :=
  (((es.drop i).take k).mapIdx (fun j e => e.results (i + j))).flatten

/-- The result sequence of a DONE reply (R85). -/
def readResults (es : List EventRecord) (i k : Nat) : Bytes :=
  beBytes 2 es.length ++ one (min k (es.length - i)) ++ recordsFrom es i k

/-- GUIDE READ of k records of a channel from index i (R84). -/
def readGuide (c : CommandCell) (channel i k : Nat) (s : State) : State :=
  let es := eventsOf s.guide channel
  if es = [] then
    if (entryOf s.guide channel).isSome then answer c .empty (beBytes 2 0) s
    else refuse c .unknownChannel s
  else if es.length ≤ i then answer c .endOfList (beBytes 2 es.length) s
  else answerLong c .done (readResults es i k) s

/-- GUIDE READ (R84). -/
def actGuideRead (c : CommandCell) (s : State) : State :=
  if c.carries 5 && 1 ≤ c.number 4 1 && c.number 4 1 ≤ 4 then
    readGuide c (c.number 0 2) (c.number 2 2) (c.number 4 1) s
  else badParameter c s

end Sys2Proof.Machine
end

