-- ==== Sys2Proof/Machine/AccessUnit.lean ====
section
/-! DEFINITION. The Access Unit (chapter 7): its management messages (R113 to R118), expiry at day rollover
(R116), programme key sections and words (R121, R122), the descrambler (R123, R124) and the key wait (R125). -/

namespace Sys2Proof.Machine

/-- A message of wrong form is counted (R113). -/
def accessMalformed (s : State) : State :=
  { s with access := { s.access with malformed := bump s.access.malformed } }

/-! ## The entitlement table (R114 to R116) -/

/-- An entry is put in order of tier (log entry 26), replacing one of its tier. -/
def putEntitlement (e : Entitlement) : List Entitlement → List Entitlement
  | [] => [e]
  | x :: xs =>
    if e.tier < x.tier then e :: x :: xs
    else if e.tier = x.tier then e :: xs
    else x :: putEntitlement e xs

/-- The entry with the earliest expiry, and of those the lowest tier (R114). -/
def earliestExpiry (es : List Entitlement) : Option Entitlement :=
  es.foldl
    (fun best e =>
      match best with
      | none => some e
      | some b =>
        if e.expiry < b.expiry || (e.expiry = b.expiry && e.tier < b.tier) then some e else some b) none

/-- A tier is held. -/
def holdsAnyDay (es : List Entitlement) (t : Nat) : Bool := es.any (fun e => e.tier = t)

/-- The table after ENTITLE, or none when the message is refused (R114). -/
def entitleTable (e : Entitlement) (es : List Entitlement) : Option (List Entitlement) :=
  if holdsAnyDay es e.tier || es.length < 64 then some (putEntitlement e es)
  else
    match earliestExpiry es with
    | none => none
    | some x =>
      if x.expiry < e.expiry then some (putEntitlement e (es.filter (fun y => y.tier ≠ x.tier)))
      else none

/-- A changed table: ENTITLEMENT CHANGED and one trigger (R114, R115, R116). -/
def entitlementsBecome (es : List Entitlement) (s : State) : State :=
  if es = s.access.entitlements then s
  else trigger (raise .entitlementChanged { s with access := { s.access with entitlements := es } })

/-- ENTITLE (R114). -/
def entitle (params : Bytes) (s : State) : State :=
  if params.length ≠ 3 then accessMalformed s
  else
    match entitleTable ⟨beNat (params.take 1), beNat (params.drop 1)⟩ s.access.entitlements with
    | some es => entitlementsBecome es s
    | none => { s with access := { s.access with refused := bump s.access.refused } }

/-- REVOKE (R115). -/
def revoke (params : Bytes) (s : State) : State :=
  if params.length ≠ 1 then accessMalformed s
  else entitlementsBecome (s.access.entitlements.filter (fun e => e.tier ≠ beNat params)) s

/-- Day rollover (R116). -/
def accessRollover (day : Nat) (s : State) : State :=
  entitlementsBecome (s.access.entitlements.filter (fun e => day ≤ e.expiry)) s

/-! ## Region, group and generations (R117, R118) -/

/-- REGION (R117). -/
def region (params : Bytes) (s : State) : State :=
  if params.length ≠ 2 then accessMalformed s
  else if beNat params = s.access.region then s
  else trigger { s with access := { s.access with region := beNat params } }

/-- GROUP ASSIGN (R113, R117). -/
def groupAssign (params : Bytes) (s : State) : State :=
  if params.length ≠ 3 then accessMalformed s
  else
    match beNat (params.take 1) with
    | 0 => { s with access := { s.access with group := none } }
    | 1 => { s with access := { s.access with group := some (beNat (params.drop 1)) } }
    | _ => accessMalformed s

/-- A generation is stored in a slot (R118; with both slots empty the first one takes it: log entry 18). -/
def storeGeneration (g : Generation) (a : Access) : Access :=
  match a.slot1, a.slot2 with
  | none, none => { a with slot1 := some g }
  | none, some y => if y.number = g.number then { a with slot2 := some g } else { a with slot1 := some g }
  | some x, none => if x.number = g.number then { a with slot1 := some g } else { a with slot2 := some g }
  | some x, some y =>
    if x.number = g.number then { a with slot1 := some g }
    else if y.number = g.number then { a with slot2 := some g }
    else if newer x.number y.number then { a with slot2 := some g }
    else { a with slot1 := some g }

/-- SERVICE KEY (R118). -/
def serviceKey (params : Bytes) (s : State) : State :=
  if params.length ≠ 17 then accessMalformed s
  else { s with access := storeGeneration ⟨beNat (params.take 1), params.drop 1⟩ s.access }

/-! ## Words (R121, R122) -/

/-- A phase is awaited: the last phase seen, or either while none was seen (R122). -/
def KeySlot.awaits (k : KeySlot) (p : Phase) : Bool := k.lastPhase = none || k.lastPhase = some p

/-- The key-wait timer of f becomes stopped (R122, step 1). -/
def stopKeyWait (f : Feed) (s : State) : State := s.setSlot f { s.slotOf f with wait := .stopped }

/-- The three things of R122. -/
def validWord (f : Feed) (s : State) : State :=
  let wasExpired := (s.slotOf f).wait = .expired
  let s1 := stopKeyWait f s
  let s2 := if (s1.acqOf f).state = .keying then decisionStep f s1 else s1
  if wasExpired && (s2.acqOf f).state = .presenting then trigger s2 else s2

/-- An opened word is stored, valid, in a phase of the slot of f (R121, step 4; R122). -/
def storeWord (f : Feed) (p : Phase) (w : Bytes) (s : State) : State :=
  let k := s.slotOf f
  let s1 := s.setSlot f (k.setWord p (some w))
  if (k.word p).isNone && k.awaits p then validWord f s1 else s1

/-- A good PROGRAMME KEY section with its feed (R121). -/
def programmeKeySection (f : Feed) (key : Nat) (body : Bytes) (s : State) : State :=
  if body.length ≠ 18 then
    { s with access := { s.access with malformedKeys := bump s.access.malformedKeys } }
  else
    match phaseOfCode (byteAt body 1).toNat with
    | none => { s with access := { s.access with malformedKeys := bump s.access.malformedKeys } }
    | some p =>
      if (s.slotOf f).keyStream ≠ some key then
        { s with access := { s.access with unmatchedKeys := bump s.access.unmatchedKeys } }
      else
        match heldGeneration s.access (byteAt body 0).toNat with
        | none => { s with access := { s.access with generationMisses := bump s.access.generationMisses } }
        | some g => storeWord f p (Config.openWord g.material (body.drop 2)) s

/-! ## The descrambler (R123, R124) -/

/-- A payload descrambled with a word (R123; log entry 10). -/
def descrambled (w : Bytes) (payload : Bytes) : Bytes :=
  (List.range payload.length).map (Config.descrambleByte w payload)

/-- A slot after a scrambled cell of phase p: a last phase other than p gives up its word (R124). -/
def KeySlot.seePhase (k : KeySlot) (p : Phase) : KeySlot :=
  match k.lastPhase with
  | none => { k with lastPhase := some p }
  | some q => { (if q = p then k else k.setWord q none) with lastPhase := some p }

/-- The phase change of R124. -/
def phaseChange (f : Feed) (p : Phase) (s : State) : State :=
  let k := s.slotOf f
  let s1 := s.setSlot f (k.seePhase p)
  if k.lastPhase ≠ some p && ((k.seePhase p).word p).isSome then validWord f s1 else s1

/-- A scrambled cell without a valid word (R123, R125). -/
def keyMiss (f : Feed) (s : State) : State :=
  let s1 := s.setSlot f { s.slotOf f with misses := bump (s.slotOf f).misses }
  if (s1.acqOf f).state = .presenting && (s1.slotOf f).wait = .stopped then startKeyWait f s1 else s1

/-- A PROGRAMME cell at the descrambler (R123). -/
def descramble (f : Feed) (c : Cell) (s : State) : State :=
  match c.phase with
  | none => outputGate f c s
  | some p =>
    let s1 := phaseChange f p s
    match (s1.slotOf f).word p with
    | some w => outputGate f { c with phase := none, payload := descrambled w c.payload } s1
    | none => keyMiss f s1

/-! ## The key wait runs out (R125) -/

/-- What the expiry of the key wait of f is reported to (R125). -/
def reportExpiry (f : Feed) (s : State) : State :=
  match (s.acqOf f).state with
  | .keying => decisionStep f s
  | .presenting => trigger s
  | _ => s

/-- The expiry of a key-wait timer of f that has run out. -/
def keyWaitOver (f : Feed) (s : State) : State :=
  if (s.slotOf f).wait = .running 0 then
    reportExpiry f (s.setSlot f { s.slotOf f with wait := .expired })
  else s

end Sys2Proof.Machine
end

