-- ==== Sys2Proof/Machine/GuideSections.lean ====
section
/-! DEFINITION. The Guide Store's tables (chapter 4): channel map sections (R57 to R60), guide sections
with upsert and eviction (R61 to R67), day rollover removal (R68), and the watched channel (R70 to R72). -/

namespace Sys2Proof.Machine

/-! ## Channel map sections -/

/-- A channel record as it stands in a section. -/
structure ChannelRecord where
  number : Nat
  carrier : Nat
  mapStream : Nat
  flags : Byte
  tier : Nat
  rating : Nat
deriving DecidableEq, Repr

/-- The record that 8 bytes spell. -/
def readChannelRecord (b : Bytes) : ChannelRecord :=
  { number := beNat (b.take 2), carrier := (byteAt b 2).toNat, mapStream := beNat ((b.drop 3).take 2),
    flags := byteAt b 5, tier := (byteAt b 6).toNat, rating := (byteAt b 7).toNat }

/-- The records of a CHANNEL MAP body, or none when its shape is wrong (R57). -/
def readChannelMap (body : Bytes) : Option (List ChannelRecord) :=
  let count := (byteAt body 0).toNat
  if count ≠ 0 && body.length = 1 + 8 * count then
    some ((List.range count).map (fun i => readChannelRecord ((body.drop (1 + 8 * i)).take 8)))
  else none

/-- Bit 0 of the flags: withdraw. -/
def ChannelRecord.withdraws (r : ChannelRecord) : Bool := r.flags.getLsbD 0

/-- A record that R58 lets through. -/
def ChannelRecord.good (r : ChannelRecord) : Bool :=
  1 ≤ r.number && r.number ≤ 9999 && (r.withdraws || (16 ≤ r.mapStream && r.mapStream ≤ 4093))

/-- The channel entry that a record without withdraw gives (R58). -/
def ChannelRecord.entry (r : ChannelRecord) : ChannelEntry :=
  { number := r.number, carrier := r.carrier, mapStream := r.mapStream,
    tier := if r.flags.getLsbD 2 then none else some r.tier, rating := min r.rating 14,
    hidden := r.flags.getLsbD 1 }

/-- An entry is inserted in channel number order, or replaces the one with its number. -/
def putEntry (e : ChannelEntry) : List ChannelEntry → List ChannelEntry
  | [] => [e]
  | x :: xs =>
    if e.number < x.number then e :: x :: xs
    else if e.number = x.number then e :: xs
    else x :: putEntry e xs

/-- One good record applied to the map (R59). -/
def applyChannelRecord (r : ChannelRecord) (g : Guide) : Guide :=
  if r.withdraws then { g with channels := g.channels.filter (fun e => e.number ≠ r.number) }
  else if (entryOf g r.number).isSome || g.channels.length < 512 then
    { g with channels := putEntry r.entry g.channels }
  else { g with mapFull := bump g.mapFull }

/-- A record checked and applied (R58, R59). -/
def takeChannelRecord (g : Guide) (r : ChannelRecord) : Guide :=
  if r.good then applyChannelRecord r g else { g with badRecords := bump g.badRecords }

/-- The two passes over the records of a section: withdrawals first (R57). -/
def takeChannelRecords (rs : List ChannelRecord) (g : Guide) : Guide :=
  let first := (rs.filter ChannelRecord.withdraws).foldl takeChannelRecord g
  (rs.filter (fun r => !r.withdraws)).foldl takeChannelRecord first

/-- A refreshed entry of the watched channel replaces the copy in the context, which decides again
(R60, R166; while the changing flag is set it is not decided: log entry 17). -/
def refreshEntry (e : ChannelEntry) (s : State) : State :=
  match s.output.context with
  | none => s
  | some c => trigger { s with output := { s.output with context := some { c with entry := e } } }

/-- The watched channel's entry, when it is held after a section and differs from the one before (R60). -/
def refreshedEntry (before after : Guide) : Option ChannelEntry :=
  match after.watched with
  | none => none
  | some w =>
    match entryOf after w with
    | none => none
    | some e => if entryOf before w = some e then none else some e

/-- The effects of a taken section as a whole (R60). -/
def channelMapEffects (before : Guide) (s : State) : State :=
  let s1 := if s.guide.channels = before.channels then s else raise .guideChanged s
  match refreshedEntry before s.guide with
  | some e => refreshEntry e s1
  | none => s1

/-- A good CHANNEL MAP section (R57). -/
def channelMapSection (body : Bytes) (s : State) : State :=
  match readChannelMap body with
  | none => { s with guide := { s.guide with malformedMaps := bump s.guide.malformedMaps } }
  | some rs => channelMapEffects s.guide { s with guide := takeChannelRecords rs s.guide }

/-! ## Event records -/

/-- The region codes that bytes spell, two bytes each. -/
def readCodes (b : Bytes) (count : Nat) : List Nat :=
  (List.range count).map (fun i => beNat ((b.drop (2 * i)).take 2))

/-- The event record that bytes begin, with the clamps of R62. -/
def readEvent (channel : Nat) (b : Bytes) : EventRecord :=
  let flags := byteAt b 10
  let price := beNat ((b.drop 12).take 2)
  let count := (byteAt b 20).toNat
  { id := beNat (b.take 2)
    channel
    start := beNat ((b.drop 2).take 4)
    duration := clampNat 60 43200 (beNat ((b.drop 6).take 2))
    rating := min (byteAt b 8).toNat 14
    genre := (byteAt b 9).toNat
    tier := if flags.getLsbD 1 then some (byteAt b 11).toNat else none
    price := if price = 0 then none else some price
    cancelMinutes := min (byteAt b 14).toNat 30
    previewMinutes := min (byteAt b 15).toNat 15
    blackout := readCodes (b.drop 21) (min count 8)
    truncated := 8 < count
    title := beNat ((b.drop 16).take 4)
    withdrawn := flags.getLsbD 0 }

/-- The bytes that an event record takes: 21, and 2 for each region code. -/
def eventLength (b : Bytes) : Nat := 21 + 2 * (byteAt b 20).toNat

/-- `count` event records that fill the bytes exactly, or none. -/
def readEvents (channel : Nat) : Nat → Bytes → Option (List EventRecord)
  | 0, [] => some []
  | 0, _ => none
  | k + 1, b =>
    if 21 ≤ b.length && eventLength b ≤ b.length then
      (readEvents channel k (b.drop (eventLength b))).map (fun es => readEvent channel b :: es)
    else none

/-- The records of a GUIDE EVENTS section, or none when its shape is wrong (R61). -/
def readGuideEvents (key : Nat) (body : Bytes) : Option (List EventRecord) :=
  let count := (byteAt body 0).toNat
  if 1 ≤ key && key ≤ 9999 && 1 ≤ count && count ≤ 8 then readEvents key count (body.drop 1) else none

/-! ## Upsert and eviction -/

/-- Two records overlap: each starts before the other ends (R63). -/
def EventRecord.overlaps (a b : EventRecord) : Bool := a.start < b.ends && b.start < a.ends

/-- A record stands before another in the table's canonical order (log entry 26). -/
def EventRecord.before (a b : EventRecord) : Bool :=
  a.channel < b.channel || (a.channel = b.channel && a.start < b.start)

/-- A record is inserted in order of channel and start (R63, step 4). -/
def insertEvent (e : EventRecord) : List EventRecord → List EventRecord
  | [] => [e]
  | x :: xs => if e.before x then e :: x :: xs else x :: insertEvent e xs

/-- A record has ended (R66). -/
def EventRecord.hasEnded (e : EventRecord) (now : Option Nat) : Bool := now.any (fun t => e.ends ≤ t)

/-- The ended record that goes first: the earliest end, and of those the lowest channel (R66, step 1). -/
def earliestEnded (now : Option Nat) (es : List EventRecord) : Option EventRecord :=
  (es.filter (fun e => e.hasEnded now)).foldl
    (fun best e =>
      match best with
      | none => some e
      | some b => if e.ends < b.ends then some e else some b) none

/-- The held record that starts latest, and of those the one on the highest channel (R66, step 2). -/
def latestStarting (es : List EventRecord) : Option EventRecord :=
  es.foldl
    (fun best e =>
      match best with
      | none => some e
      | some b => if b.start ≤ e.start then some e else some b) none

/-- The record with an event id is removed. -/
def dropEvent (id : Nat) (es : List EventRecord) : List EventRecord := es.filter (fun e => e.id ≠ id)

/-- The record that makes room for a newcomer, or none when the newcomer is refused (R66). -/
def evicted (now : Option Nat) (e : EventRecord) (es : List EventRecord) : Option EventRecord :=
  match earliestEnded now es with
  | some x => some x
  | none =>
    match latestStarting es with
    | some x => if x.start ≤ e.start then none else some x
    | none => none

/-- Steps 1 and 2 of an upsert: the record with the same id and every overlapping record on its channel
go (R63). -/
def clearPlace (e : EventRecord) (es : List EventRecord) : List EventRecord :=
  es.filter (fun x => x.id ≠ e.id && !(x.channel = e.channel && x.overlaps e))

/-- An upsert (R63) at the whole seconds `now`, or none while the clock is UNSET. -/
def upsert (now : Option Nat) (g : Guide) (e : EventRecord) : Guide :=
  let es := clearPlace e g.events
  if es.length < 1024 then { g with events := insertEvent e es }
  else
    match evicted now e es with
    | some x =>
      { g with events := insertEvent e (dropEvent x.id es), evictedEvents := bump g.evictedEvents }
    | none => { g with events := es, refusedEvents := bump g.refusedEvents }

/-! ## The watched channel -/

/-- The watched channel's current event is resolved and compared with the last (R71, R72). -/
def compareWatched (s : State) : State :=
  match s.guide.watched with
  | none => s
  | some w =>
    let found := currentEvent s w
    if found = s.guide.lastEvent then s
    else
      let s1 := raise .eventChanged s
      trigger { s1 with guide := { s1.guide with lastEvent := found } }

/-- A good GUIDE EVENTS section (R61, R67). -/
def guideEventsSection (key : Nat) (body : Bytes) (s : State) : State :=
  match readGuideEvents key body with
  | none => { s with guide := { s.guide with malformedGuides := bump s.guide.malformedGuides } }
  | some es =>
    let s1 := { s with guide := es.foldl (upsert s.now) s.guide }
    compareWatched (if s1.guide.events = s.guide.events then s1 else raise .guideChanged s1)

/-- Day rollover removal: records that ended by the start of the new day go (R68). -/
def guideRollover (dayStart : Int) (s : State) : State :=
  let kept := s.guide.events.filter (fun e => dayStart < (e.ends : Int))
  let gone := s.guide.events.length - kept.length
  if gone = 0 then s
  else
    let g := { s.guide with events := kept, rolloverRemovals := bumpBy gone s.guide.rolloverRemovals }
    compareWatched (raise .guideChanged { s with guide := g })

end Sys2Proof.Machine
end

