-- ==== Sys2Proof/Machine/Purchases.lean ====
section
/-! DEFINITION. The Purchase Unit (chapter 8): the PIN check it shares with the Limits Unit (R149),
PURCHASE, CANCEL PURCHASE and PURCHASE READ, the deadline and the event's end (R134), the headend's
messages (R137 to R140), the return queue and its transmitter (R141 to R144). -/

namespace Sys2Proof.Machine

/-! ## The PIN check (R149) -/

/-- The result of a PIN check. -/
inductive PinResult where
  | pass | wrong | lockedOut
deriving DecidableEq, Repr

/-- A lockout lasts 900 s of oscillator time (R149). -/
def lockoutTicks : Ticks := 900 * 128000

/-- A wrong attempt, and the lockout that the third one starts (R149, step 4). -/
def wrongAttempt (l : Limits) : Limits :=
  let l1 := { l with attempts := l.attempts + 1, wrongPins := bump l.wrongPins }
  if l1.attempts = 3 then { l1 with lockout := some lockoutTicks, lockouts := bump l1.lockouts } else l1

/-- The PIN check on a parameter: its result and the PIN state after it (R149). -/
def pinCheck (param : Nat) (l : Limits) : PinResult × Limits :=
  if l.lockout.isSome then (.lockedOut, l)
  else
    match l.pin with
    | none => (.pass, l)
    | some v => if param = v then (.pass, { l with attempts := 0 }) else (.wrong, wrongAttempt l)

/-- The refusal of a failed PIN check, or none when it passed. -/
def PinResult.refusal : PinResult → Option ReplyOutcome
  | .pass => none
  | .wrong => some .pin
  | .lockedOut => some .lockedOut

/-- A command goes on when its PIN check passes, and is refused otherwise; the PIN state is as the check
leaves it in both cases (R149). -/
def withPin (c : CommandCell) (param : Nat) (go : State → State) (s : State) : State :=
  let s1 := { s with limits := (pinCheck param s.limits).2 }
  match (pinCheck param s.limits).1.refusal with
  | some outcome => refuse c outcome s1
  | none => go s1

/-! ## The list and the debt -/

/-- The record counts in the debt (section 8.1). -/
def PurchaseRecord.owed (r : PurchaseRecord) : Bool := r.state ≠ .collected

/-- PURCHASE CHANGED is raised, and one re-decision trigger goes out for each of k records added or
removed (R129). -/
def purchaseChanged (k : Nat) (s : State) : State := triggers k (raise .purchaseChanged s)

/-- The sequence counter after a purchase (R133, step 5). -/
def followingSeq (n : Nat) : Nat := if n = 4294967295 then 1 else n + 1

/-- The cancel deadline of event e bought at second t (R133, step 2). -/
def cancelDeadline (e : EventRecord) (t : Nat) : Nat :=
  min (max t e.start + e.cancelMinutes * 60) e.ends

/-- The record that a PURCHASE of event e at second t, priced p, makes (R133, steps 1 to 3). -/
def newPurchase (seq : Nat) (e : EventRecord) (p t : Nat) : PurchaseRecord :=
  { seq, eventId := e.id, channel := e.channel, price := p, time := t, deadline := cancelDeadline e t,
    ends := e.ends, state := if t < cancelDeadline e t then .provisional else .committed }

/-! ## PURCHASE (R131 to R133) -/

/-- What checks 1 to 8 of R131 find: the event, its price and now, or the refusal. -/
def purchaseChecks (id : Nat) (s : State) : Except ReplyOutcome (EventRecord × Nat × Nat) :=
  match s.now with
  | none => .error .noTime
  | some t =>
    match (eventById s.guide id).filter (fun e => !e.withdrawn) with
    | none => .error .unknownEvent
    | some e =>
      match e.price with
      | none => .error .notForSale
      | some p =>
        if e.ends ≤ t then .error .ended
        else if e.blackout.contains s.access.region then .error .blackout
        else if bought s.purchase id then .error .alreadyBought
        else if 32 ≤ s.purchase.records.length then .error .listFull
        else if s.purchase.limit < s.purchase.debt + p then .error .credit
        else .ok (e, p, t)

/-- Steps 1 to 7 of R133. -/
def takePurchase (c : CommandCell) (e : EventRecord) (p t : Nat) (s : State) : State :=
  let r := newPurchase s.purchase.nextSeq e p t
  let bookkeeping := { s.purchase with
    records := s.purchase.records ++ [r], debt := s.purchase.debt + p,
    nextSeq := followingSeq s.purchase.nextSeq }
  let results := beBytes 4 r.seq ++ beBytes 2 p ++ beBytes 4 r.deadline ++ one r.state.code ++
    beBytes 2 (s.purchase.debt + p)
  answer c .done results (purchaseChanged 1 { s with purchase := bookkeeping })

/-- The PIN check of a PURCHASE applies (R132). -/
def purchaseNeedsPin (s : State) : Bool := parental s && s.limits.pin.isSome

/-- PURCHASE (R131). -/
def actPurchase (c : CommandCell) (s : State) : State :=
  if c.carries 4 then
    match purchaseChecks (c.number 0 2) s with
    | .error outcome => refuse c outcome s
    | .ok (e, p, t) =>
      if purchaseNeedsPin s then withPin c (c.number 2 2) (takePurchase c e p t) s
      else takePurchase c e p t s
  else badParameter c s

/-! ## CANCEL PURCHASE (R135) -/

/-- The record of an event id in the list. -/
def purchaseOf (p : Purchase) (id : Nat) : Option PurchaseRecord :=
  p.records.find? (fun r => r.eventId = id)

/-- A PROVISIONAL record is cancelled (R135). -/
def takeCancel (c : CommandCell) (r : PurchaseRecord) (s : State) : State :=
  let bookkeeping := { s.purchase with
    records := s.purchase.records.filter (fun x => x.eventId ≠ r.eventId)
    debt := s.purchase.debt - r.price }
  let results := beBytes 4 r.seq ++ beBytes 2 r.price ++ beBytes 2 (s.purchase.debt - r.price)
  answer c .done results (purchaseChanged 1 { s with purchase := bookkeeping })

/-- CANCEL PURCHASE (R135). -/
def actCancelPurchase (c : CommandCell) (s : State) : State :=
  if c.carries 2 then
    match purchaseOf s.purchase (c.number 0 2) with
    | none => refuse c .notFound s
    | some r =>
      if r.state ≠ .provisional then refuse c .tooLate s
      else if s.clock.state = .unset then refuse c .noTime s
      else takeCancel c r s
  else badParameter c s

/-! ## PURCHASE READ (R145) -/

/-- A record in 24 bytes. -/
def PurchaseRecord.bytes (r : PurchaseRecord) : Bytes :=
  beBytes 4 r.seq ++ beBytes 2 r.eventId ++ beBytes 2 r.channel ++ beBytes 2 r.price ++
  beBytes 4 r.time ++ beBytes 4 r.deadline ++ beBytes 5 r.ends ++ one r.state.code

/-- The head of a PURCHASE READ reply. -/
def purchaseHead (p : Purchase) : Bytes :=
  one p.records.length ++ beBytes 2 p.debt ++ beBytes 2 p.limit

/-- PURCHASE READ (R145). -/
def actPurchaseRead (c : CommandCell) (s : State) : State :=
  if c.carries 1 then
    let i := c.number 0 1
    if i < s.purchase.records.length then
      answer c .done (purchaseHead s.purchase ++
        ((s.purchase.records.drop i).take 4).flatMap PurchaseRecord.bytes) s
    else answer c .endOfList (purchaseHead s.purchase) s
  else badParameter c s

/-! ## The second boundary (R134) -/

/-- The record commits at second t. -/
def PurchaseRecord.commitsAt (r : PurchaseRecord) (t : Nat) : Bool :=
  r.state = .provisional && r.deadline ≤ t

/-- The record is removed at second t. -/
def PurchaseRecord.leavesAt (r : PurchaseRecord) (t : Nat) : Bool :=
  r.state = .collected && r.ends ≤ t

/-- A record after the boundary of second t, if it stays. -/
def PurchaseRecord.atBoundary (t : Nat) (r : PurchaseRecord) : PurchaseRecord :=
  if r.commitsAt t then { r with state := .committed } else r

/-- The Purchase Unit at a second boundary (R134). -/
def purchaseSecond (t : Nat) (s : State) : State :=
  let rs := s.purchase.records
  let gone := rs.countP (fun r => r.leavesAt t)
  let kept := (rs.filter (fun r => !r.leavesAt t)).map (PurchaseRecord.atBoundary t)
  if rs.any (fun r => r.commitsAt t || r.leavesAt t) then
    purchaseChanged gone { s with purchase := { s.purchase with records := kept } }
  else s

/-! ## Messages of the headend (R137 to R140) -/

/-- A message of wrong length is counted (R137). -/
def purchaseMalformed (s : State) : State :=
  { s with purchase := { s.purchase with malformed := bump s.purchase.malformed } }

/-- CREDIT LIMIT (R138). -/
def creditLimit (params : Bytes) (s : State) : State :=
  if params.length ≠ 2 then purchaseMalformed s
  else if beNat params = s.purchase.limit then s
  else raise .purchaseChanged { s with purchase := { s.purchase with limit := beNat params } }

/-- A slot of a return cell (00_scope, Return cell). -/
def PurchaseRecord.slot (r : PurchaseRecord) : Bytes :=
  beBytes 4 r.seq ++ beBytes 2 r.eventId ++ beBytes 2 r.channel ++ beBytes 2 r.price ++ beBytes 4 r.time

/-- A return cell that reports up to four records (R141). -/
def returnCell (address : Nat) (rs : List PurchaseRecord) : Bytes :=
  let body := beBytes 4 address ++ one 1 ++ one rs.length ++ rs.flatMap PurchaseRecord.slot ++
    List.replicate (56 - 14 * rs.length) 0
  body ++ beBytes 2 (crc16 body).toNat

/-- The records of a report in groups of up to four, one empty group when there is none (R139). -/
def reportGroups (rs : List PurchaseRecord) : List (List PurchaseRecord) :=
  (List.range (max 1 ((rs.length + 3) / 4))).map (fun i => (rs.drop (4 * i)).take 4)

/-- The head return cell is handed over on U and the transmitter enters SENDING; with an empty queue it
is IDLE. The attempt count is 0 (R142). -/
def handOver (s : State) : State :=
  match s.purchase.returnQueue with
  | [] => { s with purchase := { s.purchase with tx := .idle, attempts := 0, waitTimer := none } }
  | cell :: _ =>
    { s with
      purchase := { s.purchase with tx := .sending, attempts := 0, waitTimer := none }
      lines := { s.lines with onU := some cell } }

/-- COLLECT (R139). -/
def collect (params : Bytes) (s : State) : State :=
  if params.length ≠ 0 then purchaseMalformed s
  else if s.purchase.returnQueue ≠ [] then
    { s with purchase := { s.purchase with ignoredCollects := bump s.purchase.ignoredCollects } }
  else
    let committed := s.purchase.records.filter (fun r => r.state = .committed)
    let cells := (reportGroups committed).map (returnCell s.command.unitAddress)
    handOver { s with purchase := { s.purchase with returnQueue := cells } }

/-- A CLEAR up to sequence q settles the record (R140). -/
def PurchaseRecord.settledBy (q : Nat) (r : PurchaseRecord) : Bool := r.state = .committed && r.seq ≤ q

/-- The record has ended by the clock (R140). -/
def PurchaseRecord.over (now : Option Nat) (r : PurchaseRecord) : Bool := now.any (fun t => r.ends ≤ t)

/-- A settled record that stays becomes COLLECTED. -/
def PurchaseRecord.collect (q : Nat) (r : PurchaseRecord) : PurchaseRecord :=
  if r.settledBy q then { r with state := .collected } else r

/-- The prices of records added up. -/
def priceSum (rs : List PurchaseRecord) : Nat := (rs.map PurchaseRecord.price).sum

/-- CLEAR (R140). -/
def clearPurchases (params : Bytes) (s : State) : State :=
  if params.length ≠ 4 then purchaseMalformed s
  else
    let q := beNat params
    let rs := s.purchase.records
    let settled := rs.filter (PurchaseRecord.settledBy q)
    let leaves := fun r : PurchaseRecord => r.settledBy q && r.over s.now
    if settled = [] then s
    else
      let bookkeeping := { s.purchase with
        records := (rs.filter (fun r => !leaves r)).map (PurchaseRecord.collect q)
        debt := s.purchase.debt - priceSum settled }
      purchaseChanged (rs.countP leaves) { s with purchase := bookkeeping }

/-! ## The transmitter (R142 to R144) -/

/-- A pulse that is no outcome (R144). -/
def spuriousOutcome (s : State) : State :=
  { s with purchase := { s.purchase with spurious := bump s.purchase.spurious } }

/-- The head return cell leaves the queue. -/
def dropHead (s : State) : State :=
  { s with purchase := { s.purchase with returnQueue := s.purchase.returnQueue.tail } }

/-- A pulse on the sent line (R142, R144). -/
def sentPulse (s : State) : State :=
  if s.purchase.tx = .sending then
    handOver (dropHead { s with purchase := { s.purchase with sent := bump s.purchase.sent } })
  else spuriousOutcome s

/-- The wait after collision k, in slots of 2 ms (R143). -/
def backoffSlots (address k : Nat) : Nat := (1 + address % 8) * 2 ^ (k - 1)

/-- The transmitter after collision k of 1 to 7 (R143). -/
def startWait (k : Nat) (s : State) : State :=
  { s with purchase :=
    { s.purchase with
      tx := .waiting, attempts := k
      waitTimer := some (msTicks (2 * backoffSlots s.command.unitAddress k)) } }

/-- The eighth collision drops the head cell (R143). -/
def dropReturnCell (s : State) : State :=
  handOver (raise .returnFailed
    (dropHead { s with purchase := { s.purchase with dropped := bump s.purchase.dropped } }))

/-- A pulse on the collided line (R143, R144). -/
def collidedPulse (s : State) : State :=
  if s.purchase.tx = .sending then
    if s.purchase.attempts + 1 < 8 then startWait (s.purchase.attempts + 1) s else dropReturnCell s
  else spuriousOutcome s

/-- The expiry of a wait timer that has run out: the head cell is handed over again, with its attempt count
(R143). -/
def returnWaitOver (s : State) : State :=
  if ranOut s.purchase.waitTimer then
    { s with
      purchase := { s.purchase with tx := .sending, waitTimer := none }
      lines := { s.lines with onU := s.purchase.returnQueue.head? } }
  else s

end Sys2Proof.Machine
end

