-- ==== Sys2Proof/Machine/LimitsUnit.lean ====
section
/-! DEFINITION. The Limits Unit (chapter 9): PIN CHANGE and PIN RESET (R150 to R152), the profile commands
(R153 to R157), the window evaluation (R159), a second of allowance (R161) and the day rollover (R162). -/

namespace Sys2Proof.Machine

/-! ## PIN -/

/-- A new PIN of two bytes: 0 to 9999 sets a value, FFFFh unsets it, other values are bad (R151). -/
def newPin (n : Nat) : Option (Option Nat) :=
  if n ≤ 9999 then some (some n) else if n = 0xFFFF then some none else none

/-- PIN CHANGE (R151). -/
def actPinChange (c : CommandCell) (s : State) : State :=
  if c.carries 4 then
    match newPin (c.number 2 2) with
    | none => badParameter c s
    | some pin =>
      withPin c (c.number 0 2)
        (fun s => answer c .done (flagByte pin.isSome)
          { s with limits := { s.limits with pin, attempts := 0 } }) s
  else badParameter c s

/-- PIN RESET (R152). -/
def pinReset (params : Bytes) (s : State) : State :=
  let bad := { s with limits := { s.limits with malformed := bump s.limits.malformed } }
  if params.length ≠ 2 then bad
  else
    match newPin (beNat params) with
    | none => bad
    | some pin => { s with limits := { s.limits with pin, attempts := 0, lockout := none } }

/-- The expiry of a lockout timer that has run out (R150). -/
def lockoutOver (s : State) : State :=
  if ranOut s.limits.lockout then { s with limits := { s.limits with lockout := none, attempts := 0 } }
  else s

/-! ## PROFILE SELECT (R153) -/

/-- The profile of a byte 0 to 3. -/
def profileOfByte (n : Nat) : Option (Fin 4) := if h : n < 4 then some ⟨n, h⟩ else none

/-- Steps 1 to 4 of R153, when the profile changes. -/
def switchProfile (p : Fin 4) (s : State) : State :=
  if p = s.limits.active then s
  else trigger (evaluateMeter (evaluateStanding
    { s with limits := { s.limits with active := p, part := 0 } }))

/-- A PROFILE SELECT that passes its checks. That a PIN check it passed sets the attempt count to 0 where the profile
is the active one already, R153's "nothing changes", is DEDUCED (log entry 40). -/
def takeProfileSelect (c : CommandCell) (p : Fin 4) (s : State) : State :=
  answer c .done (one p.val) (switchProfile p s)

/-- PROFILE SELECT (R153). -/
def actProfileSelect (c : CommandCell) (s : State) : State :=
  if c.carries 3 then
    match profileOfByte (c.number 0 1) with
    | none => badParameter c s
    | some p =>
      if p = 0 then withPin c (c.number 1 2) (takeProfileSelect c p) s else takeProfileSelect c p s
  else badParameter c s

/-! ## PROFILE WRITE (R154 to R156) -/

/-- The parameters of a PROFILE WRITE. -/
structure ProfileParams where
  ceiling : Nat
  allowance : Nat
  locks : List Nat
  windows : List Window
deriving DecidableEq, Repr

/-- The window that 5 bytes spell: bit 7 of the mask is ignored, and the minutes are clamped (R155). -/
def readWindow (b : Bytes) : Window :=
  { mask := (byteAt b 0).truncate 7, first := clampNat 0 1439 (beNat ((b.drop 1).take 2)),
    last := clampNat 1 1440 (beNat ((b.drop 3).take 2)) }

/-- The lock count L. -/
def lockCount (params : Bytes) : Nat := (byteAt params 6).toNat

/-- The window count W. -/
def windowCount (params : Bytes) : Nat := (byteAt params (7 + 2 * lockCount params)).toNat

/-- The parameter bytes number exactly 8 + 2 L + 5 W (R154). -/
def profileShape (params : Bytes) : Bool :=
  params.length = 8 + 2 * lockCount params + 5 * windowCount params

/-- The fields of a PROFILE WRITE of right shape, the lists still as long as written. -/
def readProfile (params : Bytes) : ProfileParams :=
  let l := lockCount params
  { ceiling := min (byteAt params 3).toNat 15
    allowance := min (beNat ((params.drop 4).take 2)) 1440
    locks := readNumbers (params.drop 7) l
    windows := (List.range (windowCount params)).map
      (fun i => readWindow ((params.drop (8 + 2 * l + 5 * i)).take 5)) }
where
  /-- k numbers of two bytes each. -/
  readNumbers (b : Bytes) (k : Nat) : List Nat :=
    (List.range k).map (fun i => beNat ((b.drop (2 * i)).take 2))

/-- The channel numbers that are not passed over, in order (R155). -/
def keepLocks (ns : List Nat) : List Nat :=
  ns.foldl (fun kept n => if n = 0 || 9999 < n || kept.contains n then kept else kept ++ [n]) []

/-- A window whose start is at or after its end (R155). -/
def Window.isEmpty (w : Window) : Bool := w.last ≤ w.first

/-- One bit for each window position whose window is empty (R156). That position i stands in bit i, the least
significant bit first, is the model's choice (log entry 35). -/
def emptyBits (ws : List Window) : Nat :=
  ((ws.mapIdx (fun i w => if w.isEmpty then 2 ^ i else 0))).sum

/-- A profile after a write (R156). -/
def Profile.written (p : Profile) (x : ProfileParams) : Profile :=
  { ceiling := x.ceiling, locks := (keepLocks x.locks).take 16, windows := x.windows.take 4,
    allowance := x.allowance,
    remaining := if x.allowance = 1440 then 86400 else min p.remaining (x.allowance * 60) }

/-- The results of a PROFILE WRITE (R156; the passed-over count: log entry 31). -/
def profileWriteResults (x : ProfileParams) (p : Profile) : Bytes :=
  one p.ceiling ++ beBytes 2 p.allowance ++ beBytes 3 p.remaining ++ one p.locks.length ++
  one (x.locks.length - (keepLocks x.locks).length) ++ flagByte (16 < (keepLocks x.locks).length) ++
  one p.windows.length ++ flagByte (4 < x.windows.length) ++ one (emptyBits p.windows)

/-- A written active profile is evaluated again (R156). -/
def afterProfileWrite (p : Fin 4) (s : State) : State :=
  if p = s.limits.active then trigger (evaluateMeter (evaluateStanding s)) else s

/-- A PROFILE WRITE that passes its checks (R156). -/
def takeProfileWrite (c : CommandCell) (p : Fin 4) (s : State) : State :=
  let x := readProfile c.params
  let new := (profileOf s.limits p).written x
  answer c .done (profileWriteResults x new)
    (afterProfileWrite p { s with limits := setProfile s.limits p new })

/-- PROFILE WRITE (R154). -/
def actProfileWrite (c : CommandCell) (s : State) : State :=
  match profileOfByte (c.byte 0).toNat with
  | none => badParameter c s
  | some p =>
    if p ≠ 0 && profileShape c.params then withPin c (c.number 1 2) (takeProfileWrite c p) s
    else badParameter c s

/-! ## PROFILE READ (R157) -/

/-- A window in 5 bytes. -/
def Window.bytes (w : Window) : Bytes := one w.mask.toNat ++ beBytes 2 w.first ++ beBytes 2 w.last

/-- The PIN state as results: set or unset, attempt count, lockout seconds (R157, R164). -/
def pinBytes (l : Limits) : Bytes :=
  flagByte l.pin.isSome ++ one l.attempts ++ lockoutBytes l.lockout

/-- The results of PROFILE READ (R157; log entry 13). -/
def profileResults (l : Limits) (p : Fin 4) : Bytes :=
  let x := profileOf l p
  one p.val ++ one l.active.val ++ one x.ceiling ++ beBytes 2 x.allowance ++ beBytes 3 x.remaining ++
  one x.locks.length ++ x.locks.flatMap (beBytes 2) ++ one x.windows.length ++
  x.windows.flatMap Window.bytes ++ pinBytes l ++
  (if p = l.active then one l.standing.position ++ flagByte l.running else [])

/-- PROFILE READ (R157). -/
def actProfileRead (c : CommandCell) (s : State) : State :=
  if c.carries 1 then
    match profileOfByte (c.number 0 1) with
    | none => badParameter c s
    | some p => answer c .done (profileResults s.limits p) s
  else badParameter c s

/-! ## Windows, meter, rollover -/

/-- The window check at a minute boundary or a step (R159). -/
def windowCheck (s : State) : State :=
  if standingNow s = s.limits.standing then s else trigger (evaluateStanding s)

/-- One second is taken from the active profile (R161). -/
def spendSecond (l : Limits) : Limits :=
  let p := profileOf l l.active
  setProfile { l with part := 0 } l.active { p with remaining := p.remaining - 1 }

/-- A profile at the start of a new day (R162). -/
def Profile.restored (p : Profile) : Profile := { p with remaining := p.full }

/-- Day rollover (R162). -/
def limitsRollover (s : State) : State :=
  let l := s.limits
  trigger (evaluateMeter { s with limits :=
    { l with profile1 := l.profile1.restored, profile2 := l.profile2.restored,
             profile3 := l.profile3.restored, part := 0 } })

end Sys2Proof.Machine
end

