-- ==== Sys2Proof/Machine/NetworkClock.lean ====
section
/-! DEFINITION. The Network Clock (chapter 3): the advance (R40), marks (R41 to R46), boundary evaluations
and the events they deliver (R50 to R53), SET CLOCK (R49), the loss timer (R48); the oscillator time that
every running timer counts (log entry 3), and the allowance meter at its second (R161, R162). -/

namespace Sys2Proof.Machine

/-! ## Boundary events -/

/-- The Decision Unit at a second boundary: the preview end (R170), and every step (R171). -/
def decisionSecond (step : Bool) (s : State) : State :=
  let due : Bool :=
    match s.output.context with
    | none => false
    | some c => c.decision = .preview && c.previewEnd.any (fun t => t ≤ s.seconds)
  let s1 := if due then trigger s else s
  if step then trigger s1 else s1

/-- A second boundary (R51), to its subscribers in the order of R51 (log entry 14). -/
def secondBoundary (step : Bool) (s : State) : State :=
  let s1 := purchaseSecond s.seconds (compareWatched s)
  let s2 := decisionSecond step s1
  if step then windowCheck s2 else s2

/-- The local minute boundary, if it applies (R52). -/
def minuteBoundary (s : State) : State :=
  let minute := s.localTime / 60
  if s.clock.lastMinute = some minute then s
  else windowCheck { s with clock := { s.clock with lastMinute := some minute } }

/-- The day rollover, if it applies, to its subscribers in the order of R53 (log entry 14). -/
def dayRollover (s : State) : State :=
  if s.clock.creditedDay < s.day then
    let d := s.day
    let s1 := guideRollover (s.dayStart d) { s with clock := { s.clock with creditedDay := d } }
    limitsRollover (accessRollover d s1)
  else s

/-- The kinds of boundary evaluation (R50). -/
inductive Evaluation where
  | advance | step | offset
deriving DecidableEq, Repr

/-- A boundary evaluation (R50); never made while the clock is UNSET (R47). -/
def evaluateBoundary (kind : Evaluation) (s : State) : State :=
  if s.clock.state = .unset then s
  else
    let s1 :=
      match kind with
      | .advance => secondBoundary false s
      | .step => secondBoundary true s
      | .offset => s
    dayRollover (minuteBoundary s1)

/-! ## The advance (R40) -/

/-- N spans 2^42 units. -/
def clockSpan : Nat := 2 ^ 42

/-- Units added to N at an advance (R40). -/
def Clock.units (c : Clock) : Nat :=
  if c.k = 15 && 0 < c.s then 2 else if c.k = 15 && c.s < 0 then 0 else 1

/-- S after an advance (R40). -/
def Clock.drained (c : Clock) : Int :=
  if c.k = 15 && 0 < c.s then c.s - 1 else if c.k = 15 && c.s < 0 then c.s + 1 else c.s

/-- The clock after an advance (R40). -/
def Clock.advanced (c : Clock) : Clock :=
  { c with n := (c.n + c.units) % clockSpan, s := c.drained, k := (c.k + 1) % 16 }

/-- The network time advances by one step of the oscillator (R40, R47, R50). -/
def advanceClock (s : State) : State :=
  let s1 := { s with clock := s.clock.advanced }
  if s1.seconds = s.seconds then s1 else evaluateBoundary .advance s1

/-- k advances, as between the release of the reset line and the ready line (R40). -/
def advanceClockBy : Nat → State → State
  | 0, s => s
  | k + 1, s => advanceClockBy k (advanceClock s)

/-! ## Oscillator time of the timers (log entry 3) -/

/-- A record's timer after one advance. -/
def AcqRecord.ticked (r : AcqRecord) : AcqRecord :=
  { r with timer := r.timer.map (fun t => (t.1, t.2 - advanceTicks)) }

/-- A key-wait timer after one advance. -/
def KeyWait.ticked : KeyWait → KeyWait
  | .running t => .running (t - advanceTicks)
  | w => w

/-- A key slot after one advance. -/
def KeySlot.ticked (k : KeySlot) : KeySlot := { k with wait := k.wait.ticked }

/-- Every running timer counts one advance; the part-second of a running meter stands at 1000 ms until
METER_SECOND is taken (R161, R162). -/
def tickTimers (s : State) : State :=
  { s with
    clock := { s.clock with lossTimer := tickTimer s.clock.lossTimer }
    acq := { s.acq with record := ⟨s.acq.record.f0.ticked, s.acq.record.f1.ticked⟩ }
    access := { s.access with keySlot := ⟨s.access.keySlot.f0.ticked, s.access.keySlot.f1.ticked⟩ }
    purchase := { s.purchase with waitTimer := tickTimer s.purchase.waitTimer }
    limits := { s.limits with
      lockout := tickTimer s.limits.lockout
      part := if s.limits.running then min (s.limits.part + advanceTicks) secondTicks else s.limits.part }
    output := { s.output with priming := tickTimer s.output.priming } }

/-- CLOCK_ADVANCE: nothing while the reset line is asserted (R40); only the clock counts in start-up. -/
def clockAdvance (s : State) : State :=
  if s.lines.resetAsserted then s
  else if s.running then advanceClock (tickTimers s) else advanceClock s

/-! ## The allowance meter at its second (R161, R162) -/

/-- The coming clock advance brings a day rollover (R50, R53). -/
def rolloverComes (s : State) : Bool :=
  let s1 := { s with clock := s.clock.advanced }
  !s.lines.resetAsserted && s.clock.state ≠ .unset && s1.seconds ≠ s.seconds && s.clock.creditedDay < s1.day

/-- The running meter's part-second stands at 1000 ms; or the coming clock advance brings it there and a day rollover
with it: then the two fall together, and METER_SECOND before that CLOCK_ADVANCE takes the subtraction first (R162;
log entry 36). -/
def meterDue (s : State) : Bool :=
  s.limits.running && (secondTicks ≤ s.limits.part ||
    (secondTicks ≤ s.limits.part + advanceTicks && rolloverComes s))

/-- The subtraction that a part-second of 1000 ms brings while the meter runs (R161); none comes while it stands
below, as after a rollover that cleared it (R162). -/
def meterSecond (s : State) : State :=
  if meterDue s then
    let s1 := { s with limits := spendSecond s.limits }
    let left := (activeProfile s1).remaining
    if left = 0 then trigger (raise .limit (evaluateMeter s1))
    else if left = 300 then raise .limit s1
    else s1
  else s

/-- The expiry of a loss timer that has run out (R48). -/
def lossTimerOver (s : State) : State :=
  if ranOut s.clock.lossTimer then
    { s with clock := { s.clock with state := .holdover, lossTimer := none } }
  else s

/-! ## Marks -/

/-- A mark as read (R42). -/
structure Mark where
  value : Nat
  fraction : Nat
  offset : Int
  source : MarkSource
deriving DecidableEq, Repr

/-- The mark that seven bytes spell: seconds, fraction, offset (R42). -/
def readMark (b : Bytes) (source : MarkSource) : Mark :=
  let fraction := min (beNat ((b.drop 4).take 2)) 1023
  { value := beNat (b.take 4) * 1024 + fraction, fraction,
    offset := clampInt (-48) 56 (signedByte (byteAt b 6)), source }

/-- The difference E of a mark value and N, taken as a signed value (R44). -/
def markError (m n : Nat) : Int :=
  let d := (m + clockSpan - n) % clockSpan
  if d < 2 ^ 41 then (d : Int) else (d : Int) - (clockSpan : Int)

/-- The common effects of a mark on the clock's own state (R42, R46). -/
def Clock.marked (c : Clock) (m : Mark) : Clock :=
  { c with
    offset := m.offset, state := .set, lossTimer := some (msTicks (c.lossTime * 1000))
    marksApplied := bump c.marksApplied, lastSource := some m.source }

/-- A step, the first set among them (R43, R45). -/
def applyStep (m : Mark) (s : State) : State :=
  let stepped := { s.clock with n := m.value, s := 0, stepCount := bump s.clock.stepCount }
  evaluateBoundary .step (raise .clockStepped { s with clock := stepped.marked m })

/-- A slew; an offset change makes an evaluation of the offset kind (R45, R46). -/
def applySlew (m : Mark) (s : State) : State :=
  let slewed := { s.clock with
    s := clampInt (-1024) 1024 (markError m.value s.clock.n), slews := bump s.clock.slews }
  let s1 := { s with clock := slewed.marked m }
  if m.offset = s.clock.offset then s1 else evaluateBoundary .offset s1

/-- How a mark is applied. -/
inductive MarkKind where
  | firstSet | stepped | slewed
deriving DecidableEq, Repr

/-- The class of a mark (R43, R44): the threshold is inclusive for slew. -/
def markKind (m : Mark) (c : Clock) : MarkKind :=
  if c.state = .unset then .firstSet
  else if c.threshold < (markError m.value c.n).natAbs then .stepped
  else .slewed

/-- A mark is applied whole (R42 to R46). -/
def applyMark (m : Mark) (s : State) : State :=
  match markKind m s.clock with
  | .firstSet => applyStep m s
  | .stepped => applyStep m s
  | .slewed => applySlew m s

/-- The time source lets a TIME cell of feed f be a mark (R41). -/
def TimeSource.takes : TimeSource → Feed → Bool
  | .feed0, .f0 => true
  | .feed1, .f1 => true
  | .any, _ => true
  | _, _ => false

/-- The mark source of a feed. -/
def markSourceOf : Feed → MarkSource
  | .f0 => .f0
  | .f1 => .f1

/-- A TIME cell at the clock (R41). -/
def timeCell (f : Feed) (payload : Bytes) (s : State) : State :=
  if payload.length < 7 then
    { s with clock := { s.clock with shortCells := bump s.clock.shortCells } }
  else if s.clock.source.takes f then applyMark (readMark payload (markSourceOf f)) s
  else { s with clock := { s.clock with marksIgnored := bump s.clock.marksIgnored } }

/-! ## SET CLOCK (R49) -/

/-- FIRST SET, STEPPED or SLEWED. -/
def MarkKind.position : MarkKind → Nat
  | .firstSet => 0
  | .stepped => 1
  | .slewed => 2

/-- A signed number of k bytes that may be absent. -/
def optionalInt (k : Nat) : Option Int → Bytes
  | some i => one 1 ++ beInt k i
  | none => one 0 ++ beInt k 0

/-- The results of a taken SET CLOCK, from the clock before and after the mark (R49). -/
def setClockResults (m : Mark) (before after : Clock) : Bytes :=
  let kind := markKind m before
  one kind.position ++
  optionalInt 2 (if kind = .slewed then some (markError m.value before.n) else none) ++
  beInt 2 after.s ++ beBytes 2 after.stepCount ++ one before.state.position ++
  beBytes 2 m.fraction ++ beInt 1 m.offset

/-- SET CLOCK (R49). -/
def actSetClock (c : CommandCell) (s : State) : State :=
  if c.carries 7 then
    if s.clock.source = .command then
      let m := readMark c.params .command
      let s1 := applyMark m s
      answer c .done (setClockResults m s.clock s1.clock) s1
    else refuse c .wrongSource s
  else badParameter c s

end Sys2Proof.Machine
end

