-- ==== Sys2Proof/Machine/Messages.lean ====
section
/-! DEFINITION. Management messages: their layout, the dispatch and its checks (R33 to R36). -/

namespace Sys2Proof.Machine

/-- The address modes (section 2.5). -/
inductive AddressMode where
  | unit | group | all
deriving DecidableEq, Repr

/-- The nine message kinds, codes 01h to 09h (R36). -/
inductive MessageKind where
  | entitle | revoke | region | groupAssign | serviceKey | creditLimit | collect | clear | pinReset
deriving DecidableEq, Repr

/-- A message as laid out in a MANAGEMENT body. `sealedPart` are the bytes the integrity check is taken over,
`tag` the integrity tag. -/
structure Message where
  mode : AddressMode
  address : Nat
  kindCode : Nat
  params : Bytes
  sealedPart : Bytes
  tag : Bytes
deriving DecidableEq, Repr

/-- The address mode of a code. -/
def modeOfCode : Nat → Option AddressMode
  | 1 => some .unit
  | 2 => some .group
  | 3 => some .all
  | _ => none

/-- The bytes of the address field. -/
def AddressMode.addressBytes : AddressMode → Nat
  | .unit => 4
  | .group => 2
  | .all => 0

/-- The bytes of the integrity tag. -/
def AddressMode.tagBytes : AddressMode → Nat
  | .unit => 8
  | .group => 8
  | .all => 0

/-- The message kind of a code (R36). -/
def kindOfMessage : Nat → Option MessageKind
  | 1 => some .entitle
  | 2 => some .revoke
  | 3 => some .region
  | 4 => some .groupAssign
  | 5 => some .serviceKey
  | 6 => some .creditLimit
  | 7 => some .collect
  | 8 => some .clear
  | 9 => some .pinReset
  | _ => none

/-- The message of a body whose length is the sum of its field sizes, or none (R33, check 1). -/
def readMessage (body : Bytes) : Option Message :=
  match modeOfCode (byteAt body 0).toNat with
  | none => none
  | some mode =>
    let a := mode.addressBytes
    let n := (byteAt body (2 + a)).toNat
    if body.length = 3 + a + n + mode.tagBytes then
      some
        { mode, address := beNat ((body.drop 1).take a), kindCode := (byteAt body (1 + a)).toNat,
          params := (body.drop (3 + a)).take n, sealedPart := body.take (3 + a + n),
          tag := body.drop (3 + a + n) }
    else none

/-- The message is addressed to this unit (R34). -/
def addressed (m : Message) (s : State) : Bool :=
  match m.mode with
  | .unit => m.address = s.command.unitAddress && s.command.unitAddress ≠ 0
  | .group => s.access.group = some m.address
  | .all => true

/-- No service key generation is held (R119). -/
def noGeneration (a : Access) : Bool := a.slot1.isNone && a.slot2.isNone

/-- The integrity check of R35; an ALL message carries no tag and is not checked (R34). -/
def integrityPasses (m : Message) (kind : MessageKind) (s : State) : Bool :=
  if m.mode = .all then true
  else if m.mode = .unit && kind = .serviceKey then Config.deviceCheck m.sealedPart m.tag
  else
    match currentGeneration s.access with
    | none => false
    | some g => Config.generationCheck g.material m.sealedPart m.tag

/-- What the checks of R33 make of a message. -/
inductive MessageFate where
  | malformed
  | notAddressed
  | unknownKind
  | noKey
  | integrityFailure
  | taken (kind : MessageKind) (params : Bytes)
deriving DecidableEq, Repr

/-- Checks 2 to 7 of R33. -/
def messageFate (m : Message) (s : State) : MessageFate :=
  if !addressed m s then .notAddressed
  else
    match kindOfMessage m.kindCode with
    | none => .unknownKind
    | some kind =>
      if kind = .serviceKey && m.mode ≠ .unit then .malformed
      else if m.mode ≠ .all && noGeneration s.access && kind ≠ .serviceKey then .noKey
      else if !integrityPasses m kind s then .integrityFailure
      else .taken kind m.params

/-- A message is handed to the owner of its kind (R36). -/
def applyMessage (kind : MessageKind) (params : Bytes) (s : State) : State :=
  match kind with
  | .entitle => entitle params s
  | .revoke => revoke params s
  | .region => region params s
  | .groupAssign => groupAssign params s
  | .serviceKey => serviceKey params s
  | .creditLimit => creditLimit params s
  | .collect => collect params s
  | .clear => clearPurchases params s
  | .pinReset => pinReset params s

/-- The outcome of the checks: a count, nothing, or the owner's effect (R33). -/
def takeFate (fate : MessageFate) (s : State) : State :=
  let a := s.assembler
  match fate with
  | .malformed => { s with assembler := { a with malformed := bump a.malformed } }
  | .notAddressed => s
  | .unknownKind => { s with assembler := { a with unknownKinds := bump a.unknownKinds } }
  | .noKey => { s with assembler := { a with noKey := bump a.noKey } }
  | .integrityFailure => { s with assembler := { a with integrityFailures := bump a.integrityFailures } }
  | .taken kind params => applyMessage kind params s

/-- A good MANAGEMENT section (R33). -/
def managementSection (body : Bytes) (s : State) : State :=
  match readMessage body with
  | none => takeFate .malformed s
  | some m => takeFate (messageFate m s) s

end Sys2Proof.Machine
end

