-- ==== Sys2Proof/Machine/Sections.lean ====
section
/-! DEFINITION. The Section Assembler (R28 to R32): sections begun, continued, completed and handed on, and
tap data. -/

namespace Sys2Proof.Machine

/-! ## Counts -/

/-- An abandoned section of feed f is counted. -/
def countAbandoned (f : Feed) (s : State) : State :=
  { s with assembler := { s.assembler with abandoned := s.assembler.abandoned.modify f bump } }

/-- The no-buffer count of a table kind rises (R29). -/
def NoBuffer.raised (n : NoBuffer) (tableKind : Nat) : NoBuffer :=
  match tableKind with
  | 1 => { n with channelMap := bump n.channelMap }
  | 2 => { n with programmeMap := bump n.programmeMap }
  | 3 => { n with guideEvents := bump n.guideEvents }
  | 4 => { n with management := bump n.management }
  | 5 => { n with programmeKey := bump n.programmeKey }
  | _ => { n with other := bump n.other }

/-! ## Tap data (R28) -/

/-- The command code of TAP OPEN. -/
def tapOpenCode : Byte := 0x23#8

/-- The tap drop count of the entry of a feed and stream rises. -/
def countTapDrop (f : Feed) (stream : Nat) (s : State) : State :=
  let drop (e : FilterEntry) : FilterEntry :=
    if e.isAt f stream then { e with tap := e.tap.map (fun t => { t with drops := bump t.drops }) } else e
  { s with filter := { s.filter with entries := s.filter.entries.map drop } }

/-- A good section on a TAP entry is delivered whole or dropped whole (R28). -/
def tapSection (f : Feed) (stream : Nat) (bytes : Bytes) (s : State) : State :=
  match (entryAt s f stream).bind FilterEntry.tap with
  | none => s
  | some t =>
    let cells := replyCells t.tag tapOpenCode .tapData bytes
    if cells.length ≤ freeEntries s then placeCells cells s else countTapDrop f stream s

/-! ## Completed sections (R32) -/

/-- The version of a section. -/
def sectionVersion (bytes : Bytes) : Nat := (byteAt bytes 1).toNat / 16

/-- The declared total length in a section header. -/
def declaredLength (bytes : Bytes) : Nat := (byteAt bytes 1).toNat % 16 * 256 + (byteAt bytes 2).toNat

/-- The table key of a section. -/
def tableKey (bytes : Bytes) : Nat := beNat ((bytes.drop 5).take 2)

/-- The body of a section: what stands between the 7 header bytes and the trailer. -/
def sectionBody (bytes : Bytes) : Bytes := (bytes.drop 7).take (bytes.length - 9)

/-- The CRC-16 over header and body equals the trailer (R32). -/
def sectionGood (bytes : Bytes) : Bool :=
  (crc16 (bytes.take (bytes.length - 2))).toNat = beNat (bytes.drop (bytes.length - 2))

/-- A good section of a SECTIONS entry goes to the owner of its table kind (R32). -/
def handOn (f : Feed) (bytes : Bytes) (s : State) : State :=
  let body := sectionBody bytes
  match (byteAt bytes 0).toNat with
  | 1 => channelMapSection body s
  | 2 => programmeMapSection f (sectionVersion bytes) (tableKey bytes) body s
  | 3 => guideEventsSection (tableKey bytes) body s
  | 4 => managementSection body s
  | 5 => programmeKeySection f (tableKey bytes) body s
  | _ => s

/-- A complete section: its CRC is checked, and a good one is handed on (R32). -/
def completeSection (f : Feed) (stream : Nat) (consumer : Consumer) (bytes : Bytes) (s : State) : State :=
  if sectionGood bytes then
    if consumer = .tap then tapSection f stream bytes s else handOn f bytes s
  else
    { s with assembler := { s.assembler with crcFailures := s.assembler.crcFailures.modify f bump } }

/-! ## Section cells (R29, R30) -/

/-- The assembly on a feed and stream. -/
def assemblyAt (s : State) (f : Feed) (stream : Nat) : Option Assembly :=
  s.assembler.buffers.find? (fun a => a.feed = f && a.stream = stream)

/-- The assembly on a feed and stream is abandoned (R31). -/
def abandonAt (f : Feed) (stream : Nat) (s : State) : State := abandon f (fun x => x = stream) s

/-- The buffer of a feed and stream is freed without a count (R32). -/
def freeBuffer (f : Feed) (stream : Nat) (s : State) : State :=
  let left := s.assembler.buffers.filter (fun a => !a.isOn f (fun x => x = stream))
  { s with assembler := { s.assembler with buffers := left } }

/-- The table kinds that have an owner. -/
def knownTable (k : Nat) : Bool := 1 ≤ k && k ≤ 5

/-- A buffer takes the first bytes of a section, or the section is complete at once (R29). -/
def startSection (f : Feed) (entry : FilterEntry) (payload : Bytes) (s : State) : State :=
  let declared := declaredLength payload
  if declared ≤ payload.length then
    completeSection f entry.stream entry.consumer (payload.take declared) s
  else
    let a : Assembly :=
      { feed := f, stream := entry.stream, consumer := entry.consumer,
        tableKind := (byteAt payload 0).toNat, declared, bytes := payload }
    { s with assembler := { s.assembler with buffers := s.assembler.buffers ++ [a] } }

/-- The table of R29, once an assembly in progress has been abandoned. -/
def beginSection (f : Feed) (entry : FilterEntry) (c : Cell) (s : State) : State :=
  let kind := (byteAt c.payload 0).toNat
  if c.errorMark then s
  else if c.payload.length < 7 then countAbandoned f s
  else if declaredLength c.payload < 9 || 1024 < declaredLength c.payload then countAbandoned f s
  else if entry.consumer = .sections && !knownTable kind then
    { s with assembler := { s.assembler with unknownTables := s.assembler.unknownTables.modify f bump } }
  else if 12 ≤ s.assembler.buffers.length then
    { s with assembler := { s.assembler with noBuffer := s.assembler.noBuffer.raised kind } }
  else startSection f entry c.payload s

/-- An assembly with more bytes. -/
def growAssembly (f : Feed) (stream : Nat) (payload : Bytes) (s : State) : State :=
  let grow (a : Assembly) : Assembly :=
    if a.isOn f (fun x => x = stream) then { a with bytes := a.bytes ++ payload } else a
  { s with assembler := { s.assembler with buffers := s.assembler.buffers.map grow } }

/-- A SECTION cell without unit-start (R30). The error mark of R31's table is read as that of a SECTION cell at the
assembler, as R8 and R30 speak of it: DEDUCED (log entry 39). -/
def continueSection (f : Feed) (stream : Nat) (c : Cell) (s : State) : State :=
  match assemblyAt s f stream with
  | none => s
  | some a =>
    if c.errorMark then abandonAt f stream s
    else if a.declared ≤ a.bytes.length + c.payload.length then
      completeSection f stream a.consumer ((a.bytes ++ c.payload).take a.declared) (freeBuffer f stream s)
    else growAssembly f stream c.payload s

/-- A SECTION cell at the Section Assembler (R29, R30). -/
def sectionCell (f : Feed) (entry : FilterEntry) (c : Cell) (s : State) : State :=
  if c.unitStart then beginSection f entry c (abandonAt f entry.stream s)
  else continueSection f entry.stream c s

end Sys2Proof.Machine
end

