-- ==== Sys2Proof/Machine/FeedFronts.lean ====
section
/-! DEFINITION. The Stream Filter's handling of a cell (R22 to R24) and the Feed Fronts: feed lock (R3), the
sync machine (R4 to R6), the cell checks (R7 to R9), enable and disable (R15, R16). -/

namespace Sys2Proof.Machine

/-! ## The Stream Filter -/

/-- What the continuity check makes of a count (R23). -/
inductive Continuity where
  | taken | duplicate | gap
deriving DecidableEq, Repr

/-- The continuity check of count c against an expectation (R23). -/
def continuityCheck (expected : Option Nat) (c : Nat) : Continuity :=
  match expected with
  | none => .taken
  | some x => if c = x then .taken else if c = (x + 7) % 8 then .duplicate else .gap

/-- The entry of a feed and stream after it took a cell of count c (R23). -/
def moveExpectation (f : Feed) (stream c : Nat) (isGap : Bool) (s : State) : State :=
  let moved (e : FilterEntry) : FilterEntry :=
    if e.isAt f stream then
      { e with expected := some ((c + 1) % 8), errors := if isGap then bump e.errors else e.errors }
    else e
  { s with filter := { s.filter with entries := s.filter.entries.map moved } }

/-- A kind mismatch (R24). -/
def mismatch (f : Feed) (s : State) : State :=
  { s with filter := { s.filter with kindMismatch := s.filter.kindMismatch.modify f bump } }

/-- Routing by consumer and kind (R24). A cell that does not come to the Section Assembler, of another kind or a
duplicate, abandons no assembly by its error mark: DEDUCED (log entry 39). -/
def routeCell (f : Feed) (entry : FilterEntry) (c : Cell) (s : State) : State :=
  match entry.consumer, c.kind with
  | .present, .programme => descramble f c s
  | .sections, .sections => sectionCell f entry c s
  | .tap, .sections => sectionCell f entry c s
  | .sections, .time =>
    if entry.owner = .fixed && entry.stream = 1 then timeCell f c.payload s else mismatch f s
  | _, _ => mismatch f s

/-- A matched cell: continuity, then routing; a gap abandons the assembly first (R23, R31). -/
def matchedCell (f : Feed) (entry : FilterEntry) (c : Cell) (s : State) : State :=
  match continuityCheck entry.expected c.continuity with
  | .duplicate => s
  | .taken => routeCell f entry c (moveExpectation f entry.stream c.continuity false s)
  | .gap =>
    routeCell f entry c (abandonAt f entry.stream (moveExpectation f entry.stream c.continuity true s))

/-- A cell from a front at the Stream Filter (R22). -/
def filterCell (f : Feed) (c : Cell) (s : State) : State :=
  match entryAt s f c.stream with
  | none => { s with filter := { s.filter with unmatched := s.filter.unmatched.modify f bump } }
  | some entry => matchedCell f entry c s

/-! ## Feed lock (R2, R3) -/

/-- The front of f goes to DOWN with a cause; a partly received cell is discarded (R3, R15). -/
def goDown (f : Feed) (cause : LeaveCause) (s : State) : State :=
  let x := s.frontOf f
  let s1 := s.setFront f { x with sync := .down, position := 0, slot := none, held := [] }
  if x.sync.isLocked then leftLocked f cause s1 else s1

/-- Feed lock is worked out again: false takes the front to DOWN, true takes it from DOWN to HUNT (R3). -/
def reworkLock (f : Feed) (s : State) : State :=
  if feedLock s f then
    if (s.frontOf f).sync = .down then s.setFront f (s.frontOf f).rehunt else s
  else if (s.frontOf f).sync = .down then s
  else goDown f .lock s

/-- A change made by g to what feed lock or the lock indication reads: the front follows, and a lock
indication that became true is delivered (R2, R3, R12). -/
def relock (f : Feed) (g : State → State) (s : State) : State :=
  deliverIndication f (lockIndication s f) (reworkLock f (g s))

/-- The lock line of f goes to a level (R3). -/
def setLockLine (f : Feed) (high : Bool) (s : State) : State :=
  { s with lines := { s.lines with lock := s.lines.lock.set f high } }

/-- A change of level on the lock line of f: read under lock source TUNER on an enabled, present feed of a running
part, and by nothing otherwise (R2). -/
def lockLineChange (f : Feed) (high : Bool) (s : State) : State :=
  if s.running && usable s f && (s.frontOf f).source = .tuner then relock f (setLockLine f high) s
  else setLockLine f high s

/-! ## Accepted cells (R7 to R9) -/

/-- The 128 bytes of a slot as plain bytes. -/
def plainBytes (slot : List FeedByte) : Bytes := slot.map FeedByte.byte

/-- A byte of the slot arrived with the uncorrectable flag. -/
def anyUncorrectable (slot : List FeedByte) : Bool := slot.any FeedByte.uncorrectable

/-- The cell of an aligned slot, with the error mark as R8 leaves it. -/
def cellOf (h : Header) (slot : List FeedByte) : Cell :=
  { stream := h.stream, phase := phaseOfCode h.phase, unitStart := h.unitStart,
    errorMark := h.errorMark || anyUncorrectable slot, continuity := h.continuity, kind := h.kind,
    payload := ((plainBytes slot).drop 6).take h.length, padding := (plainBytes slot).drop (6 + h.length) }

/-- What the checks of R7 make of an aligned cell. -/
inductive CellFate where
  | headerError | lengthError | fill | misplaced | accepted
deriving DecidableEq, Repr

/-- The five checks of R7. -/
def cellFate (h : Header) : CellFate :=
  if h.mustBeZero ≠ 0 || h.phase = 3 then .headerError
  else if h.length = 0 || 122 < h.length then .lengthError
  else
    match h.kind with
    | .fill => .fill
    | .command => .misplaced
    | .reply => .misplaced
    | .notice => .misplaced
    | .marker => .misplaced
    | .programme => .accepted
    | .sections => .accepted
    | .time => .accepted

/-- The front after an accepted cell (R8, R9). -/
def Front.accept (x : Front) (uncorrectable : Bool) : Front :=
  { x with
    accepted := bump x.accepted
    uncorrectable := if uncorrectable then bump x.uncorrectable else x.uncorrectable }

/-- An aligned cell in LOCKED (R7). -/
def checkCell (f : Feed) (slot : List FeedByte) (s : State) : State :=
  let h := readHeader (plainBytes slot)
  let x := s.frontOf f
  match cellFate h with
  | .headerError => s.setFront f { x with headerErrors := bump x.headerErrors }
  | .lengthError => s.setFront f { x with lengthErrors := bump x.lengthErrors }
  | .fill => s
  | .misplaced => s.setFront f { x with misplaced := bump x.misplaced }
  | .accepted =>
    filterCell f (cellOf h slot) (s.setFront f (x.accept (anyUncorrectable slot)))

/-! ## The sync machine -/

/-- HUNT examines the position whose six bytes have arrived (R4): an aligned one is a candidate, and its
slot follows 128 bytes on; any other is passed over. -/
def Front.examine (x : Front) : Front :=
  if x.held.length = 6 then
    if alignedBytes (plainBytes x.held) then
      { x with sync := .confirm 0, slot := some (x.position - 6 + 128), held := [] }
    else { x with held := x.held.tail }
  else x

/-- A byte in HUNT (R4), or one that CONFIRM still passes over with the candidate cell. -/
def Front.scan (x : Front) (b : FeedByte) : Front :=
  match x.sync with
  | .hunt => { x with position := x.position + 1, held := x.held ++ [b] }.examine
  | _ => { x with position := x.position + 1 }

/-- The front goes back to HUNT, and the scan starts again at the byte after the first byte of the failed
slot (R5, R6). -/
def Front.rescan (x : Front) (slot : List FeedByte) : Front :=
  slot.tail.foldl Front.scan
    { x with sync := .hunt, position := x.slot.getD 0 + 1, slot := none, held := [] }

/-- The slot position moves on by 128 (R5, R6). -/
def Front.nextSlot (x : Front) (sync : SyncState) : Front :=
  { x with sync, position := x.slot.getD 0 + 128, slot := x.slot.map (· + 128), held := [] }

/-- The front enters LOCKED(0): UP, and the events of R12, the lock indication under SYNC among them. -/
def enterLocked (f : Feed) (s : State) : State :=
  let x := (s.frontOf f).nextSlot (.locked 0)
  deliverIndication f (lockIndication s f) (enteredLocked f (s.setFront f { x with up := true }))

/-- The 128 bytes of a CONFIRM slot are complete (R5). -/
def confirmSlot (f : Feed) (n : Fin 3) (slot : List FeedByte) (s : State) : State :=
  let x := s.frontOf f
  if alignedBytes (plainBytes slot) then
    match n with
    | 0 => s.setFront f (x.nextSlot (.confirm 1))
    | 1 => s.setFront f (x.nextSlot (.confirm 2))
    | 2 => enterLocked f s
  else s.setFront f (x.rescan slot)

/-- A bad slot in LOCKED (R6). -/
def badSlot (f : Feed) (b : Fin 3) (slot : List FeedByte) (s : State) : State :=
  let x := { s.frontOf f with headerErrors := bump (s.frontOf f).headerErrors }
  match b with
  | 0 => s.setFront f (x.nextSlot (.locked 1))
  | 1 => s.setFront f (x.nextSlot (.locked 2))
  | 2 => leftLocked f .sync (s.setFront f ({ x with syncLosses := bump x.syncLosses }.rescan slot))

/-- The 128 bytes of a LOCKED slot are complete (R6). -/
def lockedSlot (f : Feed) (b : Fin 3) (slot : List FeedByte) (s : State) : State :=
  if alignedBytes (plainBytes slot) then
    checkCell f slot (s.setFront f ((s.frontOf f).nextSlot (.locked 0)))
  else badSlot f b slot s

/-- A byte of a slot is kept, or completes it with `done`; bytes before the slot are passed over (R5). -/
def slotByte (f : Feed) (b : FeedByte) (whole : List FeedByte → State → State) (s : State) : State :=
  let x := s.frontOf f
  if x.position < x.slot.getD 0 then s.setFront f { x with position := x.position + 1 }
  else if (x.held ++ [b]).length < 128 then
    s.setFront f { x with position := x.position + 1, held := x.held ++ [b] }
  else whole (x.held ++ [b]) s

/-- One byte at a feed port of a ready part (R1). -/
def takeByte (f : Feed) (b : FeedByte) (s : State) : State :=
  match (s.frontOf f).sync with
  | .down => s
  | .hunt => s.setFront f ((s.frontOf f).scan b)
  | .confirm n => slotByte f b (confirmSlot f n) s
  | .locked n => slotByte f b (lockedSlot f n) s

/-- A byte at a feed port: discarded in start-up and on an absent F1 (R1). -/
def feedByte (f : Feed) (b : FeedByte) (s : State) : State :=
  if s.running && s.feedPresent f then takeByte f b s else s

/-- Bytes at a feed port, one after the other. -/
def feedBytes (f : Feed) (bs : List FeedByte) (s : State) : State :=
  bs.foldl (fun s b => feedByte f b s) s

/-- A whole slot arrives at the slot boundary of the front. -/
def atSlotBoundary (f : Feed) (bs : List FeedByte) (s : State) : Bool :=
  s.running && s.feedPresent f && (s.frontOf f).held = [] && bs.length = 128

/-- CONFIRM_SLOT: the slot whole where the front is in CONFIRM at a slot boundary, else its bytes one by
one (log entry 7). -/
def confirmSlotRow (f : Feed) (bs : List FeedByte) (s : State) : State :=
  match (s.frontOf f).sync with
  | .confirm n => if atSlotBoundary f bs s then confirmSlot f n bs s else feedBytes f bs s
  | _ => feedBytes f bs s

/-- LOCKED_SLOT: the slot whole where the front is LOCKED at a slot boundary, else its bytes one by one
(log entry 7). -/
def lockedSlotRow (f : Feed) (bs : List FeedByte) (s : State) : State :=
  match (s.frontOf f).sync with
  | .locked n => if atSlotBoundary f bs s then lockedSlot f n bs s else feedBytes f bs s
  | _ => feedBytes f bs s

/-! ## Lock source, enable and disable (R11, R15, R16) -/

/-- The lock source of f becomes x (R11). -/
def setSource (f : Feed) (x : LockSource) (s : State) : State :=
  s.setFront f { s.frontOf f with source := x }

/-- The enable of f is stored. -/
def setEnable (f : Feed) (on : Bool) (s : State) : State :=
  s.setFront f { s.frontOf f with enabled := on }

/-- Steps 1 to 4 of R15 but the answer SUPERSEDED, which follows the CONFIGURE's reply; the tune line
carries no request. -/
def disableFeed (f : Feed) (s : State) : State :=
  let s1 := releaseRecord f (goDown f .disable (setEnable f false s))
  let s2 := removeEntries f (fun e => e.owner = .fixed) s1
  let s3 := s2.setFront f { s2.frontOf f with up := false, down := false }
  { s3 with lines := { s3.lines with tune := s3.lines.tune.set f none } }

/-- R16: the fixed entries are added, and feed lock is worked out again. -/
def enableFeed (f : Feed) (s : State) : State :=
  relock f (fun s => setEnable f true (addEntries (fixedEntries f) s)) s

/-- The enable that a CONFIGURE asks for, as taken: F1 stays disabled while it is absent (R16). -/
def enableTaken (s : State) (f : Feed) (asked : Bool) : Bool := asked && s.feedPresent f

/-- The enable field of f takes a value; the same value changes nothing (R15, R16). -/
def configureEnable (f : Feed) (asked : Bool) (s : State) : State :=
  match (s.frontOf f).enabled, enableTaken s f asked with
  | true, false => disableFeed f s
  | false, true => enableFeed f s
  | _, _ => s

end Sys2Proof.Machine
end

