-- ==== Sys2Proof/Machine/Resets.lean ====
section
/-! DEFINITION. The resets: what each block becomes under a warm reset, a soft reset and a cold start (R19,
R38, R39, R56, R77, R112, R128, R147, R165, R179, R194), and start-up (R191 to R193). -/

namespace Sys2Proof.Machine

/-! ## What a reset keeps of each block -/

/-- A front after SOFT RESET: its enable and lock source are kept (R19). -/
def Front.softReset (x : Front) : Front := { State.coldFront x.enabled with source := x.source }

/-- The clock after a warm reset: the highest credited day is kept (R56). -/
def Clock.warmReset (c : Clock) : Clock := { State.coldClock with creditedDay := c.creditedDay }

/-- The clock after SOFT RESET: everything but the counts and the last mark source is kept (R56). -/
def Clock.softReset (c : Clock) : Clock :=
  { c with marksApplied := 0, slews := 0, marksIgnored := 0, shortCells := 0, lastSource := none }

/-- The Guide Store after SOFT RESET: both tables are kept (R77). -/
def Guide.softReset (g : Guide) : Guide :=
  { State.coldGuide with channels := g.channels, events := g.events }

/-- The Acquisition Controller after SOFT RESET: the timer configuration is kept (R112). -/
def Acquisition.softReset (a : Acquisition) : Acquisition := { State.coldAcq with timing := a.timing }

/-- The Access Unit after a warm reset or SOFT RESET: the retained values are kept (R128). -/
def Access.kept (a : Access) : Access :=
  { State.coldAccess a.region with
    entitlements := a.entitlements, group := a.group, slot1 := a.slot1, slot2 := a.slot2 }

/-- The Purchase Unit after a warm reset or SOFT RESET (R147). -/
def Purchase.kept (p : Purchase) : Purchase :=
  { State.coldPurchase with limit := p.limit, debt := p.debt, records := p.records, nextSeq := p.nextSeq }

/-- The Limits Unit after a warm reset or SOFT RESET, before the standing is evaluated (R165). -/
def Limits.kept (l : Limits) : Limits :=
  { l with running := false, part := 0, malformed := 0, wrongPins := 0, lockouts := 0 }

/-- The Output Composer after SOFT RESET: its two configuration fields are kept (R179). -/
def Output.softReset (o : Output) : Output :=
  { State.coldOutput with threshold := o.threshold, timeout := o.timeout }

/-- The Command Unit after a warm reset: what the configuration memory gave stays until it is read again,
and the validity mark stands beside the retained store (R193, R194). -/
def CommandUnit.warmReset (u : CommandUnit) : CommandUnit :=
  { State.coldCommand with
    startKind := u.startKind, memory := u.memory, unitAddress := u.unitAddress,
    retainedValid := u.retainedValid }

/-- The Command Unit after SOFT RESET, before its reply is placed (R190, R194). -/
def CommandUnit.softReset (u : CommandUnit) : CommandUnit :=
  { u.warmReset with starting := false, attentionEnable := u.attentionEnable }

/-! ## The resets of the whole part -/

/-- The tune lines carry no request, and no return cell is being handed over; P is left as it is (R112,
R147, R190). -/
def Lines.softReset (x : Lines) : Lines := { x with tune := ⟨none, none⟩, onU := none }

/-- The warm reset column of every block (R191). -/
def warmReset (s : State) : State :=
  { s with
    lines := { s.lines.softReset with onP := [] }
    front := ⟨State.coldFront true, State.coldFront s.f1Present⟩
    filter := State.coldFilter
    assembler := State.coldAssembler
    clock := s.clock.warmReset
    guide := State.coldGuide
    acq := State.coldAcq
    access := s.access.kept
    purchase := s.purchase.kept
    limits := s.limits.kept
    output := State.coldOutput
    command := s.command.warmReset }

/-- The retained values at their cold defaults, with the factory region (R193). -/
def coldRetained (factoryRegion : Nat) (s : State) : State :=
  { s with
    clock := { s.clock with creditedDay := 0 }
    access := State.coldAccess factoryRegion
    purchase := State.coldPurchase
    limits := State.coldLimits }

/-- With the validity mark clear, the start that follows is COLD, and the retained values already stand at
their cold defaults (R191, R193; the region until the configuration memory is read: log entry 27). -/
def coldIfUnmarked (s : State) : State := if s.command.retainedValid then s else coldRetained 0 s

/-- The part enters start-up: every block at the values of the kind of start that follows (R191). -/
def enterStarting (s : State) : State := coldIfUnmarked (warmReset s)

/-- The fixed entries of every enabled feed are made (R38). -/
def makeFixedEntries (s : State) : State :=
  let of (f : Feed) (s : State) : State :=
    if (s.frontOf f).enabled then addEntries (fixedEntries f) s else s
  of .f1 (of .f0 s)

/-- Both fronts work out feed lock (R19); no acquisition is under way. -/
def startFronts (s : State) : State := reworkLock .f1 (reworkLock .f0 s)

/-- What every block does when a reset is over: fixed entries, feed lock, window standing (R191, R190). -/
def takeUpWork (s : State) : State := evaluateStanding (startFronts (makeFixedEntries s))

/-- The soft reset whole, but for its reply (R190). -/
def softReset (s : State) : State :=
  takeUpWork { s with
    lines := s.lines.softReset
    front := ⟨s.front.f0.softReset, s.front.f1.softReset⟩
    filter := State.coldFilter
    assembler := State.coldAssembler
    clock := s.clock.softReset
    guide := s.guide.softReset
    acq := s.acq.softReset
    access := s.access.kept
    purchase := s.purchase.kept
    limits := s.limits.kept
    output := s.output.softReset
    command := s.command.softReset }

/-! ## Power, reset line, standby-good -/

/-- The standby-good line stands at a level; low clears the validity mark (R193). -/
def standbyLevel (good : Bool) (s : State) : State :=
  { s with
    lines := { s.lines with standbyGood := good }
    command := { s.command with retainedValid := s.command.retainedValid && good } }

/-- The reset line stands at a level. -/
def resetLine (asserted : Bool) (s : State) : State :=
  { s with lines := { s.lines with resetAsserted := asserted } }

/-- Power is applied (R191). -/
def powerOn (resetAsserted good : Bool) (s : State) : State :=
  enterStarting (standbyLevel good (resetLine resetAsserted s))

/-- The reset line is asserted (R191). -/
def assertReset (s : State) : State := enterStarting (resetLine true s)

/-- The standby-good line falls (R193): values in use by a running part are not disturbed. -/
def standbyFall (s : State) : State :=
  let s1 := standbyLevel false s
  if s.running then s1 else coldIfUnmarked s1

/-! ## START_UP -/

/-- The strap is sampled (R17). -/
def sampleStrap (present : Bool) (s : State) : State :=
  let s1 := { s with f1Present := present }
  setEnable .f1 present s1

/-- A memory that does not answer reads as bytes of FFh (R192). -/
def memoryBytes (m : Option Bytes) : Bytes := m.getD (List.replicate 7 0xFF#8)

/-- The check byte agrees (R192). -/
def memoryGood (b : Bytes) : Bool := b.length = 7 && byteAt b 6 = crc8 (b.take 6)

/-- The factory region read, 0 when the check fails (R192). -/
def factoryRegion (b : Bytes) : Nat := if memoryGood b then beNat ((b.drop 4).take 2) else 0

/-- The configuration memory is read and checked (R192). -/
def readMemory (b : Bytes) (s : State) : State :=
  if memoryGood b then
    { s with command := { s.command with memory := .good, unitAddress := beNat (b.take 4) } }
  else
    raise .configFault { s with command := { s.command with memory := .failed, unitAddress := 0 } }

/-- The retained store is examined, and the start is classed (R193). -/
def classStart (region : Nat) (s : State) : State :=
  if s.command.retainedValid then { s with command := { s.command with startKind := .warm } }
  else coldRetained region { s with command := { s.command with startKind := .cold } }

/-- The ready line goes true; the validity mark is set while standby-good is high (R191, R193). -/
def goReady (s : State) : State :=
  { s with command := { s.command with starting := false, retainedValid := s.lines.standbyGood } }

/-- START_UP (R191): nothing while the part is running. -/
def startUp (i : StartInputs) (s : State) : State :=
  if s.running then s
  else
    let b := memoryBytes i.memory
    let s1 := advanceClockBy i.advances (resetLine false s)
    let s2 := readMemory b (sampleStrap i.strapPresent s1)
    takeUpWork (goReady (classStart (factoryRegion b) (standbyLevel i.standbyGood s2)))

end Sys2Proof.Machine
end

