-- ==== Sys2Proof/Machine/Selecting.lean ====
section
/-! DEFINITION. The acquisition commands (R90 to R95, R108, R109). Result layouts: log entry 12. -/

namespace Sys2Proof.Machine

/-- The feed byte that every answer of an acquisition command begins with (R89). -/
def feedByteOf (f : Feed) : Bytes := one (feedPosition f)

/-- A pending reply that awaits the answer of a command. -/
def CommandCell.awaits (c : CommandCell) (picked : Option Nat) : PendingReply :=
  .awaiting c.tag c.code picked

/-! ## Starting an acquisition (R92) -/

/-- SELECT and PRETUNE: steps 1 to 7 of R92. The reserved entry is released first, so that the answer
SUPERSEDED can take it (R89). -/
def startChannel (f : Feed) (role : Role) (entry : ChannelEntry) (c : CommandCell) (picked : Option Nat)
    (s : State) : State :=
  let s1 := supersede f (endReservation s)
  let s2 := beginRecord f role (some entry) entry.carrier (c.awaits picked) s1
  let s3 := if role = .present then setChanging s2 else s2
  proceed f entry.carrier s3

/-- PARK: steps 1 to 7 of R92. A park that goes straight to PARKED is answered DONE in its reserved
entry, ahead of the SUPERSEDED answer (R89, R95). -/
def startPark (f : Feed) (carrier : Nat) (c : CommandCell) (s : State) : State :=
  if alreadyThere s f carrier then
    let s1 := beginRecord f .background none carrier (s.acqOf f).pending s
    let s2 := s1.changeAcq f (fun r => { r with state := .parked, attempts := 1 })
    supersede f (answer c .done (feedByteOf f ++ one carrier) s2)
  else
    let s1 := supersede f (endReservation s)
    proceed f carrier (beginRecord f .background none carrier (c.awaits none) s1)

/-- The park that STANDBY makes: no pending reply (R109, step 2). -/
def standbyPark (f : Feed) (carrier : Nat) (s : State) : State :=
  proceed f carrier (beginRecord f .background none carrier .none s)

/-! ## SELECT and the role swap -/

/-- What becomes of the old presentation feed at a role swap (R91, steps 2 and 3). -/
def AcqRecord.swappedOut (r : AcqRecord) (lockedNow : Bool) : AcqRecord :=
  let parkedOn := if lockedNow then r.tunedCarrier else none
  { r with
    role := .background
    state := if parkedOn.isSome then .parked else .idle
    cause := none, target := none, targetCarrier := parkedOn
    attempts := if parkedOn.isSome then 1 else 0
    timer := none, components := [], version := none }

/-- The READY feed takes the presentation (R91, step 4). -/
def AcqRecord.swappedIn (r : AcqRecord) : AcqRecord := { r with role := .present, state := .presenting }

/-- Steps 2 to 4 of R91. -/
def swapRoles (p r : Feed) (s : State) : State :=
  let s1 := clearKeySlot p (removeAcqEntries p s)
  let s2 := s1.changeAcq p (fun x => x.swappedOut (locked s p))
  s2.changeAcq r AcqRecord.swappedIn

/-- The role swap whole (R91): the SELECT's own answer first, then SUPERSEDED for the old feed (R89). That the feed
concerned in the SELECT's DONE is r, the new presentation feed, is the model's choice (log entry 34). -/
def roleSwap (p r : Feed) (c : CommandCell) (picked : Option Nat) (s : State) : State :=
  let s1 := tellDecision r (swapRoles p r s)
  let results := feedByteOf r ++ flagByte true ++ contextVerdict s1 ++
    flagByte (s1.acqOf r).scrambled ++ pickedBytes picked
  supersede p (answer c .done results s1)

/-- SELECT of channel n with every check of R90; `picked` is set by SELECT NEXT and PREVIOUS (R93). The feed
concerned in a refusal is taken to be the presentation feed, the model's choice (log entry 34). -/
def selectChannel (c : CommandCell) (n : Nat) (picked : Option Nat) (s : State) : State :=
  let p := presentationFeed s
  let results := feedByteOf p ++ pickedBytes picked
  if s.acq.standby then answer c .standby results s
  else
    match entryOf s.guide n with
    | none => answer c .unknownChannel results s
    | some entry =>
      if presents s p n then answer c .sameChannel results s
      else if readyOn s (otherFeed p) n then roleSwap p (otherFeed p) c picked s
      else startChannel p .present entry c picked s

/-- SELECT (R90). -/
def actSelect (c : CommandCell) (s : State) : State :=
  if c.carries 2 then selectChannel c (c.number 0 2) none s else badParameter c s

/-- The reference number of SELECT NEXT and PREVIOUS (R93). -/
def selectReference (s : State) : Nat :=
  ((s.acqOf (presentationFeed s)).target.map ChannelEntry.number).getD 0

/-- SELECT NEXT or PREVIOUS with the lookup it makes (R93); the feed concerned in a refusal as in SELECT's (log
entry 34). -/
def selectPicked (lookup : Guide → Nat → Option Nat) (c : CommandCell) (s : State) : State :=
  let results := feedByteOf (presentationFeed s)
  if s.acq.standby then answer c .standby results s
  else
    match lookup s.guide (selectReference s) with
    | none => answer c .unknownChannel results s
    | some n => selectChannel c n (some n) s

/-- SELECT NEXT (R93). -/
def actSelectNext (c : CommandCell) (s : State) : State := selectPicked nextChannel c s

/-- SELECT PREVIOUS (R93). -/
def actSelectPrevious (c : CommandCell) (s : State) : State := selectPicked previousChannel c s

/-! ## PRETUNE and PARK -/

/-- PRETUNE of channel n (R94). The rule names no results of the DONE given at once for a feed already READY on
n: the feed byte alone is the model's choice (log entry 33). R89 and R94 name no feed concerned in the refusals STANDBY,
NO SECOND FEED, UNKNOWN CHANNEL and SAME CHANNEL: the background feed in all four, even where the presentation feed is the
one that is PRESENTING n, is the model's choice (log entry 34). -/
def pretuneChannel (c : CommandCell) (n : Nat) (s : State) : State :=
  let b := backgroundFeed s
  let results := feedByteOf b
  if s.acq.standby then answer c .standby results s
  else if !usable s b then answer c .noSecondFeed results s
  else
    match entryOf s.guide n with
    | none => answer c .unknownChannel results s
    | some entry =>
      if presents s (presentationFeed s) n then answer c .sameChannel results s
      else if readyOn s b n then answer c .done results s
      else startChannel b .background entry c none s

/-- PRETUNE (R94). -/
def actPretune (c : CommandCell) (s : State) : State :=
  if c.carries 2 then pretuneChannel c (c.number 0 2) s else badParameter c s

/-- PARK on carrier k (R95). The rule names no results of the DONE given at once for a feed already PARKED on k:
the feed byte alone is the model's choice (log entry 33). That the feed concerned in a NO SECOND FEED is the background
feed is the model's choice too (log entry 34). -/
def parkCarrier (c : CommandCell) (k : Nat) (s : State) : State :=
  let b := backgroundFeed s
  let results := feedByteOf b
  if !usable s b then answer c .noSecondFeed results s
  else if (s.acqOf b).state = .parked && (s.acqOf b).targetCarrier = some k then answer c .done results s
  else startPark b k c s

/-- PARK (R95). -/
def actPark (c : CommandCell) (s : State) : State :=
  if c.carries 1 then parkCarrier c (c.number 0 1) s else badParameter c s

/-! ## RELEASE, STANDBY, WAKE -/

/-- The feed of a feed byte, or none for a byte above 1. -/
def feedOfByte : Nat → Option Feed
  | 0 => some .f0
  | 1 => some .f1
  | _ => none

/-- RELEASE (R108): DONE first, then SUPERSEDED for an awaiting reply. A RELEASE of a feed other than 0 or 1 concerns
no feed: that its BAD PARAMETER carries no feed byte is the model's choice (log entry 34). -/
def actRelease (c : CommandCell) (s : State) : State :=
  if c.carries 1 then
    match feedOfByte (c.number 0 1) with
    | some f => supersede f (answer c .done (feedByteOf f) (releaseRecord f s))
    | none => badParameter c s
  else badParameter c s

/-- Step 2 of R109: the background feed b is parked on the carrier of the released feed p. -/
def standbyBackground (p b : Feed) (s : State) : State :=
  if (s.acqOf b).state = .idle && usable s b then
    match (s.acqOf p).tunedCarrier with
    | some k => standbyPark b k s
    | none => s
  else s

/-- STANDBY (R109). The feed concerned in its own answer is taken to be the presentation feed, the model's choice
(log entry 34). R109 speaks of an awaiting reply from a SELECT only: that one from a PRETUNE or PARK, on a
presentation feed without the PRESENT role, is answered FAILED with cause STANDBY too is the model's choice (log
entry 37). -/
def actStandby (c : CommandCell) (s : State) : State :=
  let p := presentationFeed s
  if s.acq.standby then answer c .done (feedByteOf p) s
  else
    let s1 := standbyBackground p (backgroundFeed s) (releaseRecord p s)
    let s2 := { s1 with acq := { s1.acq with standby := true } }
    let s3 := answer c .done (feedByteOf p) s2
    answerPending p .failed
      (one standbyCausePosition ++ pickedBytes (s3.acqOf p).pending.picked) s3

/-- WAKE (R109). The feed concerned is taken to be the presentation feed, the model's choice (log entry 34). -/
def actWake (c : CommandCell) (s : State) : State :=
  answer c .done (feedByteOf (presentationFeed s)) { s with acq := { s.acq with standby := false } }

end Sys2Proof.Machine
end

