-- ==== Sys2Proof/Machine/Status.lean ====
section
/-! DEFINITION. The eight areas of STATUS READ (R18, R37, R55, R111, R127, R146, R164, R188). Result layout:
R182; log entry 11. -/

namespace Sys2Proof.Machine

/-- A count of 0 to 65535. -/
def count (n : Nat) : Bytes := beBytes 2 n

/-! ## FEEDS (R18) -/

/-- The results of one feed; an absent F1 reports its lock line low. -/
def feedResults (s : State) (f : Feed) : Bytes :=
  let x := s.frontOf f
  flagByte (s.feedPresent f) ++ flagByte x.enabled ++ one x.source.code ++
  flagByte (s.feedPresent f && s.lines.lock.get f) ++ flagByte (feedLock s f) ++
  flagByte (lockIndication s f) ++ one x.sync.position ++ one x.sync.substate ++
  flagByte x.up ++ flagByte x.down ++ count x.accepted ++ count x.headerErrors ++
  count x.lengthErrors ++ count x.uncorrectable ++ count x.misplaced ++ count x.syncLosses

/-- The UP and DOWN flags of f are cleared (R13). -/
def clearUpDown (f : Feed) (s : State) : State :=
  s.setFront f { s.frontOf f with up := false, down := false }

/-- STATUS READ FEEDS (R18). -/
def actStatusFeeds (c : CommandCell) (s : State) : State :=
  answer c .done (feedResults s .f0 ++ feedResults s .f1) (clearUpDown .f1 (clearUpDown .f0 s))

/-! ## FILTER (R37) -/

/-- An entry as results; a TAP entry carries its tag and drop count too. -/
def FilterEntry.results (e : FilterEntry) : Bytes :=
  one (feedPosition e.feed) ++ beBytes 2 e.stream ++ one e.consumer.position ++ one e.owner.position ++
  optional 1 e.expected ++ count e.errors ++
  (match e.tap with
    | none => []
    | some t => [t.tag] ++ count t.drops)

/-- An entry is inserted in order of feed and stream number. -/
def insertByStream (e : FilterEntry) : List FilterEntry → List FilterEntry
  | [] => [e]
  | x :: xs =>
    if feedPosition e.feed * 4096 + e.stream ≤ feedPosition x.feed * 4096 + x.stream then e :: x :: xs
    else x :: insertByStream e xs

/-- The entries in order of feed and stream number. -/
def sortedEntries (es : List FilterEntry) : List FilterEntry := es.foldr insertByStream []

/-- The per-feed counts of chapter 2. -/
def filterFeedCounts (s : State) (f : Feed) : Bytes :=
  count (s.filter.unmatched.get f) ++ count (s.filter.kindMismatch.get f) ++
  count (s.assembler.abandoned.get f) ++ count (s.assembler.crcFailures.get f) ++
  count (s.assembler.unknownTables.get f)

/-- The no-buffer counts, by table kind and then "other". -/
def NoBuffer.results (n : NoBuffer) : Bytes :=
  count n.channelMap ++ count n.programmeMap ++ count n.guideEvents ++ count n.management ++
  count n.programmeKey ++ count n.other

/-- The results of STATUS READ FILTER. -/
def filterResults (s : State) : Bytes :=
  let a := s.assembler
  one s.filter.entries.length ++ (sortedEntries s.filter.entries).flatMap FilterEntry.results ++
  one (freeFilterEntries s) ++ filterFeedCounts s .f0 ++ filterFeedCounts s .f1 ++
  a.noBuffer.results ++ count a.malformed ++ count a.unknownKinds ++ count a.noKey ++
  count a.integrityFailures ++ one a.buffers.length

/-- STATUS READ FILTER (R37). -/
def actStatusFilter (c : CommandCell) (s : State) : State := answerLong c .done (filterResults s) s

/-! ## CLOCK (R55) -/

/-- A calendar value of k bytes, unset while the clock is UNSET. -/
def calendarValue (k : Nat) (s : State) (n : Nat) : Bytes :=
  optional k (if s.clock.state = .unset then none else some n)

/-- The results of STATUS READ CLOCK. -/
def clockResults (s : State) : Bytes :=
  let c := s.clock
  one c.state.position ++ beBytes 4 s.seconds ++ beBytes 2 (c.n % 1024) ++ beInt 2 c.s ++ one c.k ++
  count c.stepCount ++ beInt 1 c.offset ++ calendarValue 5 s s.localTime ++ calendarValue 2 s s.day ++
  calendarValue 2 s s.minuteOfDay ++ calendarValue 1 s s.weekday ++ beBytes 2 c.creditedDay ++
  timerBytes c.lossTimer ++ one c.source.code ++ beBytes 2 c.threshold ++ beBytes 2 c.lossTime ++
  count c.marksApplied ++ count c.slews ++ count c.marksIgnored ++ count c.shortCells ++
  one (markSourcePosition c.lastSource)

/-- STATUS READ CLOCK (R55). -/
def actStatusClock (c : CommandCell) (s : State) : State := answer c .done (clockResults s) s

/-! ## ACQUISITION (R111) -/

/-- The position of a timer in none, settle, lock, sync, map, key. -/
def StepTimer.position : StepTimer → Nat
  | .settle => 1
  | .lock => 2
  | .sync => 3
  | .map => 4

/-- The active timer with its remaining time; in KEYING it is the key slot's key-wait timer (R102). -/
def activeTimerBytes (s : State) (f : Feed) : Bytes :=
  match (s.acqOf f).timer with
  | some (t, left) => one t.position ++ remainingMs left
  | none =>
    match (s.acqOf f).state, (s.slotOf f).wait with
    | .keying, .running left => one 5 ++ remainingMs left
    | _, _ => one 0 ++ beBytes 4 0

/-- The pending reply: none, awaiting with its tag, or formed. -/
def PendingReply.results : PendingReply → Bytes
  | .none => one 0 ++ one 0
  | .awaiting tag _ _ => one 1 ++ [tag]
  | .formed _ => one 2 ++ one 0

/-- A component with its kind and stream. -/
def Component.results (c : Component) : Bytes := one c.kind.code ++ beBytes 2 c.stream

/-- The results of one acquisition record. -/
def recordResults (s : State) (f : Feed) : Bytes :=
  let r := s.acqOf f
  one r.role.position ++ one r.state.position ++ one (causePosition r.cause) ++
  optional 2 (r.target.map ChannelEntry.number) ++ optional 1 r.targetCarrier ++
  optional 1 r.tunedCarrier ++ one r.attempts ++ activeTimerBytes s f ++ r.pending.results ++
  optional 1 r.version ++ flagByte r.scrambled ++ one r.components.length ++
  r.components.flatMap Component.results ++ count (s.acq.malformedMaps.get f) ++
  count (s.acq.unmatchedMaps.get f)

/-- The six timer values. -/
def TimerConfig.results (t : TimerConfig) : Bytes :=
  beBytes 2 t.settle ++ beBytes 2 t.lock ++ beBytes 2 t.sync ++ beBytes 2 t.map ++ beBytes 2 t.key ++
  one t.attempts

/-- The position of the standby mode in its list, in standby or awake (chapter 6, R182). -/
def standbyPosition (standby : Bool) : Nat := if standby then 0 else 1

/-- The results of STATUS READ ACQUISITION. -/
def acquisitionResults (s : State) : Bytes :=
  one (standbyPosition s.acq.standby) ++ one (feedPosition (presentationFeed s)) ++
  one (feedPosition (backgroundFeed s)) ++ recordResults s .f0 ++ recordResults s .f1 ++
  s.acq.timing.results

/-- STATUS READ ACQUISITION (R111). -/
def actStatusAcquisition (c : CommandCell) (s : State) : State :=
  answer c .done (acquisitionResults s) s

/-! ## ACCESS (R127) -/

/-- A key slot as results: no word value appears. -/
def KeySlot.results (k : KeySlot) : Bytes :=
  optional 2 k.mapStream ++ optional 2 k.keyStream ++ flagByte k.wordA.isSome ++ flagByte k.wordB.isSome ++
  one (lastPhasePosition k.lastPhase) ++ keyWaitBytes k.wait ++ count k.misses

/-- The results of STATUS READ ACCESS. -/
def accessResults (a : Access) : Bytes :=
  one a.entitlements.length ++ a.entitlements.flatMap (fun e => one e.tier ++ beBytes 2 e.expiry) ++
  beBytes 2 a.region ++ optional 2 a.group ++ optional 1 (a.slot1.map Generation.number) ++
  optional 1 (a.slot2.map Generation.number) ++
  optional 1 ((currentGeneration a).map Generation.number) ++ a.keySlot.f0.results ++
  a.keySlot.f1.results ++ count a.malformed ++ count a.refused ++ count a.unmatchedKeys ++
  count a.malformedKeys ++ count a.generationMisses

/-- STATUS READ ACCESS (R127). -/
def actStatusAccess (c : CommandCell) (s : State) : State := answerLong c .done (accessResults s.access) s

/-! ## PURCHASES (R146) -/

/-- The records in one state. -/
def Purchase.countIn (p : Purchase) (x : PurchaseState) : Nat := p.records.countP (fun r => r.state = x)

/-- The results of STATUS READ PURCHASES. -/
def purchaseResults (p : Purchase) : Bytes :=
  beBytes 2 p.limit ++ beBytes 2 p.debt ++ beBytes 4 p.nextSeq ++ one p.records.length ++
  one (p.countIn .provisional) ++ one (p.countIn .committed) ++ one (p.countIn .collected) ++
  one p.returnQueue.length ++ one p.tx.position ++ one p.attempts ++ timerBytes p.waitTimer ++
  count p.malformed ++ count p.ignoredCollects ++ count p.sent ++ count p.dropped ++ count p.spurious

/-- STATUS READ PURCHASES (R146). -/
def actStatusPurchases (c : CommandCell) (s : State) : State :=
  answer c .done (purchaseResults s.purchase) s

/-! ## LIMITS (R164) -/

/-- A profile's daily and remaining allowance. -/
def Profile.allowances (p : Profile) : Bytes := beBytes 2 p.allowance ++ beBytes 3 p.remaining

/-- The results of STATUS READ LIMITS. -/
def limitsResults (l : Limits) : Bytes :=
  one l.active.val ++ one l.standing.position ++ flagByte l.running ++ beBytes 2 (ticksMs l.part) ++
  l.profile1.allowances ++ l.profile2.allowances ++ l.profile3.allowances ++ pinBytes l ++
  count l.malformed ++ count l.wrongPins ++ count l.lockouts

/-- STATUS READ LIMITS (R164). -/
def actStatusLimits (c : CommandCell) (s : State) : State := answer c .done (limitsResults s.limits) s

/-! ## COUNTERS (R188) -/

/-- The results of STATUS READ COUNTERS. The attention enable, "enabled or disabled", is reported as 1 for enabled and 0
for disabled: R182 names it neither among its two-valued results nor apart from them, so this is the model's choice
(log entry 41). -/
def counterResults (s : State) : Bytes :=
  let u := s.command
  let g := s.guide
  let o := s.output
  beBytes 4 u.unitAddress ++ one u.startKind.position ++ one u.memory.position ++
  flagByte u.attentionEnable ++ beBytes 2 u.notices.toNat ++
  one u.intake.length ++ one u.replyQueue.length ++ one o.queue.length ++ one (programmeCount s) ++
  count u.framingDrops ++ count u.headerDrops ++ count u.streamDrops ++ count u.kindDrops ++
  count u.lengthDrops ++ count u.overruns ++ count u.invalidCommands ++
  count g.malformedMaps ++ count g.badRecords ++ count g.mapFull ++ count g.malformedGuides ++
  count g.refusedEvents ++ count g.evictedEvents ++ count g.rolloverRemovals ++
  beBytes 2 g.channels.length ++ beBytes 2 g.events.length ++
  count o.blanked.f0 ++ count o.blanked.f1 ++ count o.flushed ++ count o.overflows ++
  count o.markersReplaced

/-- STATUS READ COUNTERS (R188). -/
def actStatusCounters (c : CommandCell) (s : State) : State := answer c .done (counterResults s) s

/-- STATUS READ (R188): the first parameter byte is the area. -/
def actStatusRead (c : CommandCell) (s : State) : State :=
  if c.carries 1 then
    match c.number 0 1 with
    | 0 => actStatusFeeds c s
    | 1 => actStatusFilter c s
    | 2 => actStatusClock c s
    | 3 => actStatusAcquisition c s
    | 4 => actStatusAccess c s
    | 5 => actStatusPurchases c s
    | 6 => actStatusLimits c s
    | 7 => actStatusCounters c s
    | _ => badParameter c s
  else badParameter c s

end Sys2Proof.Machine
end

