-- ==== Sys2Proof/Machine/CommandUnit.lean ====
section
/-! DEFINITION. The Command Unit (chapter 11): the commands it owns, TAP OPEN and TAP CLOSE (R26, R27), the
dispatch by command code (R182), the arbiter (R184), the local port (R180) and the output port (R175, R176). -/

namespace Sys2Proof.Machine

/-! ## Taps (R26, R27) -/

/-- The TAP entries held. -/
def tapCount (s : State) : Nat := s.filter.entries.countP (fun e => e.owner = .tap)

/-- TAP OPEN of a feed and stream, past the first check of R26. -/
def openTap (c : CommandCell) (f : Feed) (stream : Nat) (s : State) : State :=
  if !s.feedPresent f then refuse c .noSecondFeed s
  else if stream ≤ 3 then refuse c .duplicate s
  else if (entryAt s f stream).isSome then refuse c .duplicate s
  else if 8 ≤ tapCount s || freeFilterEntries s = 0 then refuse c .tableFull s
  else
    let s1 := addEntry (newEntry f stream .tap .tap (some ⟨c.tag, 0⟩)) s
    answer c .done (one (freeFilterEntries s1)) s1

/-- TAP OPEN (R26). -/
def actTapOpen (c : CommandCell) (s : State) : State :=
  if c.carries 3 then
    match feedOfByte (c.number 0 1) with
    | none => badParameter c s
    | some f =>
      if 1 ≤ c.number 1 2 && c.number 1 2 ≤ 4093 then openTap c f (c.number 1 2) s else badParameter c s
  else badParameter c s

/-- The TAP entry of a feed and stream, with its tap fields. -/
def tapAt (s : State) (f : Feed) (stream : Nat) : Option TapInfo :=
  match entryAt s f stream with
  | none => none
  | some e => if e.owner = .tap then e.tap else none

/-- TAP CLOSE of a feed and stream (R27). -/
def closeTap (c : CommandCell) (f : Feed) (stream : Nat) (s : State) : State :=
  match tapAt s f stream with
  | none => refuse c .notFound s
  | some t => answer c .done (count t.drops) (removeEntries f (fun e => e.stream = stream) s)

/-- TAP CLOSE (R27). -/
def actTapClose (c : CommandCell) (s : State) : State :=
  if c.carries 3 then
    match feedOfByte (c.number 0 1) with
    | none => refuse c .notFound s
    | some f => closeTap c f (c.number 1 2) s
  else badParameter c s

/-! ## NO OPERATION, FLAGS CLEAR, undefined codes -/

/-- NO OPERATION (R182). -/
def actNoOperation (c : CommandCell) (s : State) : State := answer c .done [] s

/-- An undefined code (R182). -/
def actInvalid (c : CommandCell) (s : State) : State :=
  answer c .invalidCommand []
    { s with command := { s.command with invalidCommands := bump s.command.invalidCommands } }

/-- FLAGS CLEAR (R186). -/
def actFlagsClear (c : CommandCell) (s : State) : State :=
  if c.carries 2 then
    let s1 := clearFlags (BitVec.ofNat 16 (c.number 0 2)) s
    answer c .done (beBytes 2 s1.command.notices.toNat) s1
  else badParameter c s

/-- SOFT RESET (R190): applied whole, then its reply stands first in the emptied queue. -/
def actSoftReset (c : CommandCell) (s : State) : State := answer c .done [] (softReset s)

/-! ## CONFIGURE (R189) -/

/-- The sizes of the sixteen fields, in bit order. -/
def fieldSizes : List Nat := [1, 1, 1, 1, 1, 2, 2, 2, 2, 2, 2, 2, 1, 1, 1, 1]

/-- The values of the marked fields, in bit order from field i on, and the bytes left over; none when the
bytes are too few. -/
def readFields (mask : Nat) : Nat → List Nat → Bytes → Option (List (Option Nat) × Bytes)
  | _, [], b => some ([], b)
  | i, size :: sizes, b =>
    if mask.testBit i then
      if size ≤ b.length then
        (readFields mask (i + 1) sizes (b.drop size)).map
          (fun r => (some (beNat (b.take size)) :: r.1, r.2))
      else none
    else (readFields mask (i + 1) sizes b).map (fun r => (none :: r.1, r.2))

/-- The sixteen values a CONFIGURE marks, or none when its length is wrong (R189). -/
def configureValues (params : Bytes) : Option (List (Option Nat)) :=
  if params.length < 2 then none
  else
    match readFields (beNat (params.take 2)) 0 fieldSizes (params.drop 2) with
    | some (vs, []) => some vs
    | _ => none

/-- The value of field i, if marked. -/
def fieldValue (vs : List (Option Nat)) (i : Nat) : Option Nat := vs.getD i none

/-- The priming threshold taken: the largest of 1, 4, 8, 16 at or below the value; 0 is taken as 1 (R178). -/
def thresholdTaken (n : Nat) : Nat := if 16 ≤ n then 16 else if 8 ≤ n then 8 else if 4 ≤ n then 4 else 1

/-- The clock fields (R54). -/
def Clock.configure (c : Clock) (vs : List (Option Nat)) : Clock :=
  { c with
    source := ((fieldValue vs 4).map timeSourceOf).getD c.source
    threshold := ((fieldValue vs 5).map (clampNat 64 16384)).getD c.threshold
    lossTime := ((fieldValue vs 6).map (clampNat 10 600)).getD c.lossTime }

/-- The acquisition timer fields (R110). -/
def TimerConfig.configure (t : TimerConfig) (vs : List (Option Nat)) : TimerConfig :=
  { settle := ((fieldValue vs 7).map (stepClamp 10 10 500)).getD t.settle
    lock := ((fieldValue vs 8).map (stepClamp 50 50 2500)).getD t.lock
    sync := ((fieldValue vs 9).map (stepClamp 50 50 2500)).getD t.sync
    map := ((fieldValue vs 10).map (stepClamp 100 100 5000)).getD t.map
    key := ((fieldValue vs 11).map (stepClamp 100 100 5000)).getD t.key
    attempts := ((fieldValue vs 12).map (clampNat 1 7)).getD t.attempts }

/-- The output fields (R178). -/
def Output.configure (o : Output) (vs : List (Option Nat)) : Output :=
  { o with
    threshold := ((fieldValue vs 13).map thresholdTaken).getD o.threshold
    timeout := ((fieldValue vs 14).map (stepClamp 10 10 250)).getD o.timeout }

/-- The attention enable. -/
def CommandUnit.configure (u : CommandUnit) (vs : List (Option Nat)) : CommandUnit :=
  { u with attentionEnable := ((fieldValue vs 15).map (fun n => n != 0)).getD u.attentionEnable }

/-- The values of the other fields are stored (R189; log entry 23). -/
def storeFields (vs : List (Option Nat)) (s : State) : State :=
  { s with
    clock := s.clock.configure vs
    acq := { s.acq with timing := s.acq.timing.configure vs }
    output := s.output.configure vs
    command := s.command.configure vs }

/-- The lock source of a feed, if marked. -/
def applySource (f : Feed) (v : Option Nat) (s : State) : State :=
  match v with
  | none => s
  | some n => relock f (setSource f (lockSourceOf n)) s

/-- The enable of a feed, if marked: 0 is disabled. -/
def applyEnable (f : Feed) (v : Option Nat) (s : State) : State :=
  match v with
  | none => s
  | some n => configureEnable f (n != 0) s

/-- The fields of a CONFIGURE take effect (R189). -/
def applyFields (vs : List (Option Nat)) (s : State) : State :=
  let s1 := applyEnable .f0 (fieldValue vs 0) (applySource .f0 (fieldValue vs 1) (storeFields vs s))
  applyEnable .f1 (fieldValue vs 2) (applySource .f1 (fieldValue vs 3) s1)

/-- Mask FFFFh and all sixteen values as they stand (R189). An enable is reported as 1 for enabled and 0 for disabled:
R189 takes any value but 0 as enabled and says not which one it reports, so the 1 is the model's choice (log entry 41). -/
def configurationBytes (s : State) : Bytes :=
  beBytes 2 0xFFFF ++ flagByte (s.frontOf .f0).enabled ++ one (s.frontOf .f0).source.code ++
  flagByte (s.frontOf .f1).enabled ++ one (s.frontOf .f1).source.code ++ one s.clock.source.code ++
  beBytes 2 s.clock.threshold ++ beBytes 2 s.clock.lossTime ++ s.acq.timing.results ++
  one s.output.threshold ++ one s.output.timeout ++ flagByte s.command.attentionEnable

/-- The answer SUPERSEDED of a feed that this CONFIGURE disabled (R15, R189). -/
def supersedeDisabled (before : State) (f : Feed) (s : State) : State :=
  if (before.frontOf f).enabled && !(s.frontOf f).enabled then supersede f s else s

/-- CONFIGURE (R189). -/
def actConfigure (c : CommandCell) (s : State) : State :=
  match configureValues c.params with
  | none => badParameter c s
  | some vs =>
    let s1 := applyFields vs s
    supersedeDisabled s .f1 (supersedeDisabled s .f0 (answer c .done (configurationBytes s1) s1))

/-! ## Dispatch and arbiter -/

/-- A defined command is handed to its owner by its code, an undefined one answered INVALID COMMAND (R182,
section 11.1). -/
def actByCode (c : CommandCell) : State → State :=
  match c.code.toNat with
  | 0x01 => actNoOperation c
  | 0x02 => actSoftReset c
  | 0x03 => actConfigure c
  | 0x04 => actStatusRead c
  | 0x05 => actFlagsClear c
  | 0x10 => actSelect c
  | 0x11 => actSelectNext c
  | 0x12 => actSelectPrevious c
  | 0x13 => actPretune c
  | 0x14 => actPark c
  | 0x15 => actRelease c
  | 0x16 => actStandby c
  | 0x17 => actWake c
  | 0x20 => actChannelRead c
  | 0x21 => actGuideSearch c
  | 0x22 => actGuideRead c
  | 0x23 => actTapOpen c
  | 0x24 => actTapClose c
  | 0x25 => actSetClock c
  | 0x30 => actPurchase c
  | 0x31 => actCancelPurchase c
  | 0x32 => actPurchaseRead c
  | 0x40 => actProfileSelect c
  | 0x41 => actProfileWrite c
  | 0x42 => actProfileRead c
  | 0x43 => actPinChange c
  | _ => actInvalid c

/-- The formed answer of the first record in the order formed is placed (R184, claimant 1). -/
def placeFormed (f : Feed) (rest : List Feed) (s : State) : State :=
  let s1 := { s with acq := { s.acq with formedOrder := rest } }
  match (s.acqOf f).pending with
  | .formed cell => placeCells [cell] (s1.changeAcq f (fun r => { r with pending := .none }))
  | _ => s1

/-- The held reply is placed (R184, claimant 2). -/
def placeHeld (cells : List LocalCell) (s : State) : State :=
  let s1 := endReservation s
  placeCells cells { s1 with command := { s1.command with heldReply := none } }

/-- The pending marker is placed (R173, R184, claimant 3). -/
def placePendingMarker (m : Marker) (s : State) : State :=
  placeCells [.marker m.channel m.decision m.reason]
    { s with output := { s.output with pendingMarker := none } }

/-- The notice-pending mark is served: a NOTICE of the set as it stands (R185, claimant 4). -/
def placePendingNotice (s : State) : State :=
  placeCells [.notice s.command.notices] { s with command := { s.command with noticePending := false } }

/-- The head of the intake is taken (R182, claimant 5). -/
def takeHead (c : CommandCell) (rest : List CommandCell) (s : State) : State :=
  let s1 := { s with command := { s.command with intake := rest } }
  actByCode c (reserve s1)

/-- Claimants 3 to 5 of R184. -/
def arbiterLater (s : State) : State :=
  match s.output.pendingMarker with
  | some m => placePendingMarker m s
  | none =>
    if s.command.noticePending then placePendingNotice s
    else if s.command.heldReply.isSome then s
    else
      match s.command.intake with
      | [] => s
      | c :: rest => takeHead c rest s

/-- The arbiter serves the first claimant whose need is met, while an entry is free (R184; log entry 15). -/
def arbiter (s : State) : State :=
  if freeEntries s = 0 then s
  else
    match s.acq.formedOrder with
    | f :: rest => placeFormed f rest s
    | [] =>
      match s.command.heldReply with
      | some cells => if cells.length - 1 ≤ freeEntries s then placeHeld cells s else arbiterLater s
      | none => arbiterLater s

/-! ## The local port (R180) -/

/-- What the checks of R180 make of a framed cell. -/
inductive FrameFate where
  | framing | header | fill | stream | kind | length | offered (cell : CommandCell)
deriving DecidableEq, Repr

/-- The seven checks of R180. -/
def frameFate (bytes : Bytes) : FrameFate :=
  let h := readHeader bytes
  if bytes.length < 128 then .framing
  else if !alignedBytes bytes || h.mustBeZero ≠ 0 || h.phase ≠ 0 then .header
  else if h.kind = .fill then .fill
  else if h.stream ≠ 4094 then .stream
  else if h.kind ≠ .command then .kind
  else if h.length < 2 || 122 < h.length then .length
  else
    .offered { tag := byteAt bytes 6, code := byteAt bytes 7,
               params := ((bytes.drop 6).take h.length).drop 2 }

/-- A framed cell on L is dropped with its count or offered to the intake; one whose frame was open when a
reset was applied is discarded uncounted (R180; log entry 32). -/
def receiveFrame (frame : LocalFrame) (s : State) : State :=
  let u := s.command
  if frame.openAtReset then s else match frameFate frame.bytes with
  | .framing => { s with command := { u with framingDrops := bump u.framingDrops } }
  | .header => { s with command := { u with headerDrops := bump u.headerDrops } }
  | .fill => s
  | .stream => { s with command := { u with streamDrops := bump u.streamDrops } }
  | .kind => { s with command := { u with kindDrops := bump u.kindDrops } }
  | .length => { s with command := { u with lengthDrops := bump u.lengthDrops } }
  | .offered cell => offerIntake cell s

/-! ## The output port (R175, R176) -/

/-- The head of the reply queue moves to the output queue when it has room (R175, R183). -/
def transferLocal (s : State) : State :=
  match s.command.replyQueue with
  | [] => s
  | cell :: rest =>
    if s.output.queue.length < 64 then
      { s with
        command := { s.command with replyQueue := rest }
        output := { s.output with queue := s.output.queue ++ [.ofPart cell] } }
    else s

/-- A programme cell as written on P: scramble phase as held, header check formed afresh (R174, R176). -/
def programmeBytes (c : Cell) : Bytes :=
  cellBytes c.stream (phaseCode c.phase) c.unitStart c.errorMark c.continuity c.kind c.payload c.padding

/-- A local cell as written on P with the local continuity count (R176, R182); its padding is free
(log entry 8). -/
def localBytes (c : LocalCell) (continuity free : Nat) : Bytes :=
  cellBytes 4095 0 c.unitStart false continuity c.kind c.payload
    (freeBytes (122 - c.payload.length) free)

/-- A FILL cell: stream 0, payload length 1, continuity count 0; its payload byte, unit-start bit, error
mark and padding are free (R176; log entry 8). -/
def fillBytes (free : Nat) : Bytes :=
  let flags := Config.freeByte (free + 122)
  cellBytes 0 0 (flags.getLsbD 0) (flags.getLsbD 1) 0 .fill (freeBytes 1 free) (freeBytes 121 (free + 1))

/-- The port has written bytes on P, with k free bytes among them. -/
def wrote (bytes : Bytes) (k : Nat) (s : State) : State :=
  { s with lines := { s.lines with onP := bytes }, freeIndex := s.freeIndex + k }

/-- The head cell of the output queue is written (R176). -/
def writeHead (cell : OutCell) (rest : List OutCell) (s : State) : State :=
  match cell with
  | .programme c => wrote (programmeBytes c) 0 { s with output := { s.output with queue := rest } }
  | .ofPart c =>
    wrote (localBytes c s.output.continuity s.freeIndex) (122 - c.payload.length)
      { s with output :=
        { s.output with queue := rest, continuity := (s.output.continuity + 1) % 8 } }

/-- The output port writes one cell, unless it is held (R176). -/
def writeCell (s : State) : State :=
  if s.lines.hold then s
  else
    match s.output.queue with
    | [] => wrote (fillBytes s.freeIndex) 123 s
    | cell :: rest =>
      if s.output.priming.isSome then wrote (fillBytes s.freeIndex) 123 s else writeHead cell rest s

/-! ## Timers of the acquisition and the output -/

/-- The timer of kind t of record f has run out. -/
def timerOut (f : Feed) (t : StepTimer) (s : State) : Bool := (s.acqOf f).timer = some (t, 0)

/-- The expiry of a settle timer that has run out (R96). -/
def settleOver (f : Feed) (s : State) : State := if timerOut f .settle s then enterLocking f s else s

/-- The expiry of a lock timer that has run out (R97). -/
def lockTimerOver (f : Feed) (s : State) : State :=
  if timerOut f .lock s then retryOrFail f .tuner s else s

/-- The expiry of a sync timer that has run out (R98). -/
def syncTimerOver (f : Feed) (s : State) : State :=
  if timerOut f .sync s then retryOrFail f .sync s else s

/-- The expiry of a map timer that has run out (R101). -/
def mapTimerOver (f : Feed) (s : State) : State :=
  if timerOut f .map s then fail f .noMap .installed s else s

/-- The expiry of a priming timer that has run out (R177). -/
def primingOver (s : State) : State := if ranOut s.output.priming then openPriming s else s

/-- The hold line goes to a level; in start-up only the level is kept (R176, R191). -/
def setHold (asserted : Bool) (s : State) : State := { s with lines := { s.lines with hold := asserted } }

end Sys2Proof.Machine
end

