-- ==== Sys2Proof/Machine/CommandRows.lean ====
section
/-! DEFINITION. The command rows of the table: a command cell of the control processor, read by its code (log entry 1). One
meaning each. -/

namespace Sys2Proof.Machine

/-- INVALID_COMMAND (R182): a command cell with the code given, read by its code. -/
def execInvalidCommand (tag code : Byte) (params : Bytes) (s : State) :
    Host.Outcome State Fault Refusal := .next (commandRow actByCode ⟨tag, code, params⟩ s)

/-- NO_OPERATION (R182). -/
def execNoOperation (tag : Byte) (params : Bytes) (s : State) :
    Host.Outcome State Fault Refusal := .next (commandRow actNoOperation ⟨tag, 0x01#8, params⟩ s)

/-- SOFT_RESET (R190). -/
def execSoftReset (tag : Byte) (params : Bytes) (s : State) :
    Host.Outcome State Fault Refusal := .next (commandRow actSoftReset ⟨tag, 0x02#8, params⟩ s)

/-- CONFIGURE (R189). -/
def execConfigure (tag : Byte) (params : Bytes) (s : State) :
    Host.Outcome State Fault Refusal := .next (commandRow actConfigure ⟨tag, 0x03#8, params⟩ s)

/-- STATUS_READ_FEEDS (R18): STATUS READ with area 0. -/
def execStatusReadFeeds (tag : Byte) (more : Bytes) (s : State) :
    Host.Outcome State Fault Refusal := .next (commandRow actStatusFeeds ⟨tag, 0x04#8, 0#8 :: more⟩ s)

/-- STATUS_READ_FILTER (R37): STATUS READ with area 1. -/
def execStatusReadFilter (tag : Byte) (more : Bytes) (s : State) :
    Host.Outcome State Fault Refusal := .next (commandRow actStatusFilter ⟨tag, 0x04#8, 1#8 :: more⟩ s)

/-- STATUS_READ_CLOCK (R55): STATUS READ with area 2. -/
def execStatusReadClock (tag : Byte) (more : Bytes) (s : State) :
    Host.Outcome State Fault Refusal := .next (commandRow actStatusClock ⟨tag, 0x04#8, 2#8 :: more⟩ s)

/-- STATUS_READ_ACQUISITION (R111): STATUS READ with area 3. -/
def execStatusReadAcquisition (tag : Byte) (more : Bytes) (s : State) :
    Host.Outcome State Fault Refusal := .next (commandRow actStatusAcquisition ⟨tag, 0x04#8, 3#8 :: more⟩ s)

/-- STATUS_READ_ACCESS (R127): STATUS READ with area 4. -/
def execStatusReadAccess (tag : Byte) (more : Bytes) (s : State) :
    Host.Outcome State Fault Refusal := .next (commandRow actStatusAccess ⟨tag, 0x04#8, 4#8 :: more⟩ s)

/-- STATUS_READ_PURCHASES (R146): STATUS READ with area 5. -/
def execStatusReadPurchases (tag : Byte) (more : Bytes) (s : State) :
    Host.Outcome State Fault Refusal := .next (commandRow actStatusPurchases ⟨tag, 0x04#8, 5#8 :: more⟩ s)

/-- STATUS_READ_LIMITS (R164): STATUS READ with area 6. -/
def execStatusReadLimits (tag : Byte) (more : Bytes) (s : State) :
    Host.Outcome State Fault Refusal := .next (commandRow actStatusLimits ⟨tag, 0x04#8, 6#8 :: more⟩ s)

/-- STATUS_READ_COUNTERS (R188): STATUS READ with area 7. -/
def execStatusReadCounters (tag : Byte) (more : Bytes) (s : State) :
    Host.Outcome State Fault Refusal := .next (commandRow actStatusCounters ⟨tag, 0x04#8, 7#8 :: more⟩ s)

/-- FLAGS_CLEAR (R186). -/
def execFlagsClear (tag : Byte) (params : Bytes) (s : State) :
    Host.Outcome State Fault Refusal := .next (commandRow actFlagsClear ⟨tag, 0x05#8, params⟩ s)

/-- SELECT (R90). -/
def execSelect (tag : Byte) (params : Bytes) (s : State) :
    Host.Outcome State Fault Refusal := .next (commandRow actSelect ⟨tag, 0x10#8, params⟩ s)

/-- SELECT_NEXT (R93). -/
def execSelectNext (tag : Byte) (params : Bytes) (s : State) :
    Host.Outcome State Fault Refusal := .next (commandRow actSelectNext ⟨tag, 0x11#8, params⟩ s)

/-- SELECT_PREVIOUS (R93). -/
def execSelectPrevious (tag : Byte) (params : Bytes) (s : State) :
    Host.Outcome State Fault Refusal := .next (commandRow actSelectPrevious ⟨tag, 0x12#8, params⟩ s)

/-- PRETUNE (R94). -/
def execPretune (tag : Byte) (params : Bytes) (s : State) :
    Host.Outcome State Fault Refusal := .next (commandRow actPretune ⟨tag, 0x13#8, params⟩ s)

/-- PARK (R95). -/
def execPark (tag : Byte) (params : Bytes) (s : State) :
    Host.Outcome State Fault Refusal := .next (commandRow actPark ⟨tag, 0x14#8, params⟩ s)

/-- RELEASE (R108). -/
def execRelease (tag : Byte) (params : Bytes) (s : State) :
    Host.Outcome State Fault Refusal := .next (commandRow actRelease ⟨tag, 0x15#8, params⟩ s)

/-- STANDBY (R109). -/
def execStandby (tag : Byte) (params : Bytes) (s : State) :
    Host.Outcome State Fault Refusal := .next (commandRow actStandby ⟨tag, 0x16#8, params⟩ s)

/-- WAKE (R109). -/
def execWake (tag : Byte) (params : Bytes) (s : State) :
    Host.Outcome State Fault Refusal := .next (commandRow actWake ⟨tag, 0x17#8, params⟩ s)

/-- CHANNEL_READ (R75). -/
def execChannelRead (tag : Byte) (params : Bytes) (s : State) :
    Host.Outcome State Fault Refusal := .next (commandRow actChannelRead ⟨tag, 0x20#8, params⟩ s)

/-- GUIDE_SEARCH (R78). -/
def execGuideSearch (tag : Byte) (params : Bytes) (s : State) :
    Host.Outcome State Fault Refusal := .next (commandRow actGuideSearch ⟨tag, 0x21#8, params⟩ s)

/-- GUIDE_READ (R84). -/
def execGuideRead (tag : Byte) (params : Bytes) (s : State) :
    Host.Outcome State Fault Refusal := .next (commandRow actGuideRead ⟨tag, 0x22#8, params⟩ s)

/-- TAP_OPEN (R26). -/
def execTapOpen (tag : Byte) (params : Bytes) (s : State) :
    Host.Outcome State Fault Refusal := .next (commandRow actTapOpen ⟨tag, 0x23#8, params⟩ s)

/-- TAP_CLOSE (R27). -/
def execTapClose (tag : Byte) (params : Bytes) (s : State) :
    Host.Outcome State Fault Refusal := .next (commandRow actTapClose ⟨tag, 0x24#8, params⟩ s)

/-- SET_CLOCK (R49). -/
def execSetClock (tag : Byte) (params : Bytes) (s : State) :
    Host.Outcome State Fault Refusal := .next (commandRow actSetClock ⟨tag, 0x25#8, params⟩ s)

/-- PURCHASE (R131). -/
def execPurchase (tag : Byte) (params : Bytes) (s : State) :
    Host.Outcome State Fault Refusal := .next (commandRow actPurchase ⟨tag, 0x30#8, params⟩ s)

/-- CANCEL_PURCHASE (R135). -/
def execCancelPurchase (tag : Byte) (params : Bytes) (s : State) :
    Host.Outcome State Fault Refusal := .next (commandRow actCancelPurchase ⟨tag, 0x31#8, params⟩ s)

/-- PURCHASE_READ (R145). -/
def execPurchaseRead (tag : Byte) (params : Bytes) (s : State) :
    Host.Outcome State Fault Refusal := .next (commandRow actPurchaseRead ⟨tag, 0x32#8, params⟩ s)

/-- PROFILE_SELECT (R153). -/
def execProfileSelect (tag : Byte) (params : Bytes) (s : State) :
    Host.Outcome State Fault Refusal := .next (commandRow actProfileSelect ⟨tag, 0x40#8, params⟩ s)

/-- PROFILE_WRITE (R154). -/
def execProfileWrite (tag : Byte) (params : Bytes) (s : State) :
    Host.Outcome State Fault Refusal := .next (commandRow actProfileWrite ⟨tag, 0x41#8, params⟩ s)

/-- PROFILE_READ (R157). -/
def execProfileRead (tag : Byte) (params : Bytes) (s : State) :
    Host.Outcome State Fault Refusal := .next (commandRow actProfileRead ⟨tag, 0x42#8, params⟩ s)

/-- PIN_CHANGE (R151). -/
def execPinChange (tag : Byte) (params : Bytes) (s : State) :
    Host.Outcome State Fault Refusal := .next (commandRow actPinChange ⟨tag, 0x43#8, params⟩ s)

end Sys2Proof.Machine
end

