-- ==== Sys2Proof/Machine/EventRows.lean ====
section
/-! DEFINITION. The rows of the table that come from the part's ports, lines, oscillator and supplies: one meaning each. -/

namespace Sys2Proof.Machine

/-- POWER_ON (R191): the part enters start-up. -/
def execPowerOn (resetAsserted standbyGood : Bool) (s : State) :
    Host.Outcome State Fault Refusal := .next (powerOn resetAsserted standbyGood s)

/-- RESET_LINE_ASSERT (R191): the part enters start-up and stays there. -/
def execResetLineAssert (s : State) :
    Host.Outcome State Fault Refusal := .next (assertReset s)

/-- START_UP (R191): release of the reset line and the four steps to the ready line. -/
def execStartUp (inputs : StartInputs) (s : State) :
    Host.Outcome State Fault Refusal := .next (startUp inputs s)

/-- STANDBY_GOOD_FALL (R193): the validity mark is cleared. -/
def execStandbyGoodFall (s : State) :
    Host.Outcome State Fault Refusal := .next (standbyFall s)

/-- FEED_BYTE (R1): one byte at a feed port. -/
def execFeedByte (feed : Feed) (byte : FeedByte) (s : State) :
    Host.Outcome State Fault Refusal := .next (feedByte feed byte s)

/-- CONFIRM_SLOT (R5): the bytes of a slot at a front in CONFIRM. -/
def execConfirmSlot (feed : Feed) (bytes : List FeedByte) (s : State) :
    Host.Outcome State Fault Refusal := .next (confirmSlotRow feed bytes s)

/-- LOCKED_SLOT (R6): the bytes of a slot at a LOCKED front. -/
def execLockedSlot (feed : Feed) (bytes : List FeedByte) (s : State) :
    Host.Outcome State Fault Refusal := .next (lockedSlotRow feed bytes s)

/-- LOCK_LINE_CHANGE (R3): in start-up only the level is kept. -/
def execLockLineChange (feed : Feed) (high : Bool) (s : State) :
    Host.Outcome State Fault Refusal := .next (lockLineChange feed high s)

/-- CLOCK_ADVANCE (R40): 1/1024 s of oscillator time. -/
def execClockAdvance (s : State) :
    Host.Outcome State Fault Refusal := .next (clockAdvance s)

/-- LOSS_TIMER_EXPIRY (R48). -/
def execLossTimerExpiry (s : State) :
    Host.Outcome State Fault Refusal := .next (if s.running then lossTimerOver s else s)

/-- SETTLE_TIMER_EXPIRY (R96). -/
def execSettleTimerExpiry (feed : Feed) (s : State) :
    Host.Outcome State Fault Refusal := .next (if s.running then settleOver feed s else s)

/-- LOCK_TIMER_EXPIRY (R97). -/
def execLockTimerExpiry (feed : Feed) (s : State) :
    Host.Outcome State Fault Refusal := .next (if s.running then lockTimerOver feed s else s)

/-- SYNC_TIMER_EXPIRY (R98). -/
def execSyncTimerExpiry (feed : Feed) (s : State) :
    Host.Outcome State Fault Refusal := .next (if s.running then syncTimerOver feed s else s)

/-- MAP_TIMER_EXPIRY (R101). -/
def execMapTimerExpiry (feed : Feed) (s : State) :
    Host.Outcome State Fault Refusal := .next (if s.running then mapTimerOver feed s else s)

/-- KEY_WAIT_EXPIRY (R125). -/
def execKeyWaitExpiry (feed : Feed) (s : State) :
    Host.Outcome State Fault Refusal := .next (if s.running then keyWaitOver feed s else s)

/-- LOCKOUT_EXPIRY (R150); in start-up the lockout timer does not count (R165). -/
def execLockoutExpiry (s : State) :
    Host.Outcome State Fault Refusal := .next (if s.running then lockoutOver s else s)

/-- METER_SECOND (R161). -/
def execMeterSecond (s : State) :
    Host.Outcome State Fault Refusal := .next (if s.running then meterSecond s else s)

/-- PRIMING_TIMER_EXPIRY (R177). -/
def execPrimingTimerExpiry (s : State) :
    Host.Outcome State Fault Refusal := .next (if s.running then primingOver s else s)

/-- SENT_PULSE (R142, R144); not read in start-up (R191). -/
def execSentPulse (s : State) :
    Host.Outcome State Fault Refusal := .next (if s.running then sentPulse s else s)

/-- COLLIDED_PULSE (R143, R144); not read in start-up (R191). -/
def execCollidedPulse (s : State) :
    Host.Outcome State Fault Refusal := .next (if s.running then collidedPulse s else s)

/-- RETURN_WAIT_EXPIRY (R143). -/
def execReturnWaitExpiry (s : State) :
    Host.Outcome State Fault Refusal := .next (if s.running then returnWaitOver s else s)

/-- HOLD_LINE_CHANGE (R176). -/
def execHoldLineChange (asserted : Bool) (s : State) :
    Host.Outcome State Fault Refusal := .next (setHold asserted s)

/-- OUTPUT_CELL_WRITE (R176); P writes nothing in start-up (R191). -/
def execOutputCellWrite (s : State) :
    Host.Outcome State Fault Refusal := .next (if s.running then writeCell s else s)

/-- LOCAL_CELL_TRANSFER (R175). -/
def execLocalCellTransfer (s : State) :
    Host.Outcome State Fault Refusal := .next (if s.running then transferLocal s else s)

/-- LOCAL_CELL_RECEIVE (R180); discarded in start-up. -/
def execLocalCellReceive (frame : LocalFrame) (s : State) :
    Host.Outcome State Fault Refusal := .next (if s.running then receiveFrame frame s else s)

/-- REPLY_ENTRY_ARBITER (R184). -/
def execReplyEntryArbiter (s : State) :
    Host.Outcome State Fault Refusal := .next (if s.running then arbiter s else s)

end Sys2Proof.Machine
end

