-- ==== Sys2Proof/Machine/Dispatch.lean ====
section
/-! DEFINITION. One arm per constructor of Instr. -/

namespace Sys2Proof.Machine

def exec (i : Instr) (s : State) : Host.Outcome State Fault Refusal :=
  match i with
  | .powerOn resetAsserted standbyGood => Sys2Proof.Machine.execPowerOn resetAsserted standbyGood s
  | .resetLineAssert => Sys2Proof.Machine.execResetLineAssert s
  | .startUp inputs => Sys2Proof.Machine.execStartUp inputs s
  | .standbyGoodFall => Sys2Proof.Machine.execStandbyGoodFall s
  | .feedByte feed byte => Sys2Proof.Machine.execFeedByte feed byte s
  | .confirmSlot feed bytes => Sys2Proof.Machine.execConfirmSlot feed bytes s
  | .lockedSlot feed bytes => Sys2Proof.Machine.execLockedSlot feed bytes s
  | .lockLineChange feed high => Sys2Proof.Machine.execLockLineChange feed high s
  | .clockAdvance => Sys2Proof.Machine.execClockAdvance s
  | .lossTimerExpiry => Sys2Proof.Machine.execLossTimerExpiry s
  | .settleTimerExpiry feed => Sys2Proof.Machine.execSettleTimerExpiry feed s
  | .lockTimerExpiry feed => Sys2Proof.Machine.execLockTimerExpiry feed s
  | .syncTimerExpiry feed => Sys2Proof.Machine.execSyncTimerExpiry feed s
  | .mapTimerExpiry feed => Sys2Proof.Machine.execMapTimerExpiry feed s
  | .keyWaitExpiry feed => Sys2Proof.Machine.execKeyWaitExpiry feed s
  | .lockoutExpiry => Sys2Proof.Machine.execLockoutExpiry s
  | .meterSecond => Sys2Proof.Machine.execMeterSecond s
  | .primingTimerExpiry => Sys2Proof.Machine.execPrimingTimerExpiry s
  | .sentPulse => Sys2Proof.Machine.execSentPulse s
  | .collidedPulse => Sys2Proof.Machine.execCollidedPulse s
  | .returnWaitExpiry => Sys2Proof.Machine.execReturnWaitExpiry s
  | .holdLineChange asserted => Sys2Proof.Machine.execHoldLineChange asserted s
  | .outputCellWrite => Sys2Proof.Machine.execOutputCellWrite s
  | .localCellTransfer => Sys2Proof.Machine.execLocalCellTransfer s
  | .localCellReceive frame => Sys2Proof.Machine.execLocalCellReceive frame s
  | .replyEntryArbiter => Sys2Proof.Machine.execReplyEntryArbiter s
  | .invalidCommand tag code params => Sys2Proof.Machine.execInvalidCommand tag code params s
  | .noOperation tag params => Sys2Proof.Machine.execNoOperation tag params s
  | .softReset tag params => Sys2Proof.Machine.execSoftReset tag params s
  | .configure tag params => Sys2Proof.Machine.execConfigure tag params s
  | .statusReadFeeds tag more => Sys2Proof.Machine.execStatusReadFeeds tag more s
  | .statusReadFilter tag more => Sys2Proof.Machine.execStatusReadFilter tag more s
  | .statusReadClock tag more => Sys2Proof.Machine.execStatusReadClock tag more s
  | .statusReadAcquisition tag more => Sys2Proof.Machine.execStatusReadAcquisition tag more s
  | .statusReadAccess tag more => Sys2Proof.Machine.execStatusReadAccess tag more s
  | .statusReadPurchases tag more => Sys2Proof.Machine.execStatusReadPurchases tag more s
  | .statusReadLimits tag more => Sys2Proof.Machine.execStatusReadLimits tag more s
  | .statusReadCounters tag more => Sys2Proof.Machine.execStatusReadCounters tag more s
  | .flagsClear tag params => Sys2Proof.Machine.execFlagsClear tag params s
  | .select tag params => Sys2Proof.Machine.execSelect tag params s
  | .selectNext tag params => Sys2Proof.Machine.execSelectNext tag params s
  | .selectPrevious tag params => Sys2Proof.Machine.execSelectPrevious tag params s
  | .pretune tag params => Sys2Proof.Machine.execPretune tag params s
  | .park tag params => Sys2Proof.Machine.execPark tag params s
  | .release tag params => Sys2Proof.Machine.execRelease tag params s
  | .standby tag params => Sys2Proof.Machine.execStandby tag params s
  | .wake tag params => Sys2Proof.Machine.execWake tag params s
  | .channelRead tag params => Sys2Proof.Machine.execChannelRead tag params s
  | .guideSearch tag params => Sys2Proof.Machine.execGuideSearch tag params s
  | .guideRead tag params => Sys2Proof.Machine.execGuideRead tag params s
  | .tapOpen tag params => Sys2Proof.Machine.execTapOpen tag params s
  | .tapClose tag params => Sys2Proof.Machine.execTapClose tag params s
  | .setClock tag params => Sys2Proof.Machine.execSetClock tag params s
  | .purchase tag params => Sys2Proof.Machine.execPurchase tag params s
  | .cancelPurchase tag params => Sys2Proof.Machine.execCancelPurchase tag params s
  | .purchaseRead tag params => Sys2Proof.Machine.execPurchaseRead tag params s
  | .profileSelect tag params => Sys2Proof.Machine.execProfileSelect tag params s
  | .profileWrite tag params => Sys2Proof.Machine.execProfileWrite tag params s
  | .profileRead tag params => Sys2Proof.Machine.execProfileRead tag params s
  | .pinChange tag params => Sys2Proof.Machine.execPinChange tag params s

end Sys2Proof.Machine
end

