-- ==== Sys2Proof/Safety.lean ====
section
/-! DEFINITION. The words the statements are written in: when a step is safe, when a command is taken at once,
what a state is behind the fields that decisions, notices and acquisitions move, what an answer, a decision, a mark and a
boundary leave, and the laws of the part that every step keeps. -/

namespace Sys2Proof.Machine

/-! ## Steps -/

/-- A step of s answers a next state: it stops neither in a fault nor in a refusal. -/
def SafeStep (s : State) : Prop := ∃ t, step s = .next t

/-- The part is running and a command row is taken the moment it comes (R182, R184; log entry 1). -/
abbrev takesAtOnce (s : State) : Prop := s.running = true ∧ mayTake s = true

/-- The command cell of a command row: tag, code, parameters (R182; codes of section 11.1). -/
def cellOfRow : Instr → Option CommandCell
  | .invalidCommand tag code params => some ⟨tag, code, params⟩
  | .noOperation tag params => some ⟨tag, 0x01#8, params⟩
  | .softReset tag params => some ⟨tag, 0x02#8, params⟩
  | .configure tag params => some ⟨tag, 0x03#8, params⟩
  | .statusReadFeeds tag more => some ⟨tag, 0x04#8, 0#8 :: more⟩
  | .statusReadFilter tag more => some ⟨tag, 0x04#8, 1#8 :: more⟩
  | .statusReadClock tag more => some ⟨tag, 0x04#8, 2#8 :: more⟩
  | .statusReadAcquisition tag more => some ⟨tag, 0x04#8, 3#8 :: more⟩
  | .statusReadAccess tag more => some ⟨tag, 0x04#8, 4#8 :: more⟩
  | .statusReadPurchases tag more => some ⟨tag, 0x04#8, 5#8 :: more⟩
  | .statusReadLimits tag more => some ⟨tag, 0x04#8, 6#8 :: more⟩
  | .statusReadCounters tag more => some ⟨tag, 0x04#8, 7#8 :: more⟩
  | .flagsClear tag params => some ⟨tag, 0x05#8, params⟩
  | .select tag params => some ⟨tag, 0x10#8, params⟩
  | .selectNext tag params => some ⟨tag, 0x11#8, params⟩
  | .selectPrevious tag params => some ⟨tag, 0x12#8, params⟩
  | .pretune tag params => some ⟨tag, 0x13#8, params⟩
  | .park tag params => some ⟨tag, 0x14#8, params⟩
  | .release tag params => some ⟨tag, 0x15#8, params⟩
  | .standby tag params => some ⟨tag, 0x16#8, params⟩
  | .wake tag params => some ⟨tag, 0x17#8, params⟩
  | .channelRead tag params => some ⟨tag, 0x20#8, params⟩
  | .guideSearch tag params => some ⟨tag, 0x21#8, params⟩
  | .guideRead tag params => some ⟨tag, 0x22#8, params⟩
  | .tapOpen tag params => some ⟨tag, 0x23#8, params⟩
  | .tapClose tag params => some ⟨tag, 0x24#8, params⟩
  | .setClock tag params => some ⟨tag, 0x25#8, params⟩
  | .purchase tag params => some ⟨tag, 0x30#8, params⟩
  | .cancelPurchase tag params => some ⟨tag, 0x31#8, params⟩
  | .purchaseRead tag params => some ⟨tag, 0x32#8, params⟩
  | .profileSelect tag params => some ⟨tag, 0x40#8, params⟩
  | .profileWrite tag params => some ⟨tag, 0x41#8, params⟩
  | .profileRead tag params => some ⟨tag, 0x42#8, params⟩
  | .pinChange tag params => some ⟨tag, 0x43#8, params⟩
  | _ => none

/-- s with the one-cell reply of a command placed at the tail of the reply queue (R182). -/
def replied (tag code : Byte) (outcome : ReplyOutcome) (results : Bytes) (s : State) : State :=
  placeCells [.reply tag code outcome 0 results] s

/-- The last cell of the reply queue is the reply of a command. -/
def lastReply (tag code : Byte) (outcome : ReplyOutcome) (results : Bytes) (t : State) : Prop :=
  t.command.replyQueue.getLast? = some (.reply tag code outcome 0 results)

/-! ## Behind the fields that decisions and acquisitions move -/

/-- s with all that a decision, a notice or a marker may change put to fixed values. -/
def undecided (s : State) : State :=
  { s with
    command := { s.command with replyQueue := [], notices := 0, noticePending := false }
    output := { s.output with
      context := none, pendingMarker := none, queue := [], priming := none, flushed := 0,
      markersReplaced := 0 }
    guide := { s.guide with watched := none, lastEvent := none }
    limits := { s.limits with standing := .inside, running := false } }

/-- s with all that a re-decision trigger, a notice or a marker may change put to fixed values: `undecided` without
the watched channel and the window standing, which only a context taken or removed, a clock or a profile moves. -/
def untriggered (s : State) : State :=
  { undecided s with guide := s.guide, limits := { s.limits with running := false } }

/-- A front with its sync state put to fixed values. -/
def Front.unsynced (x : Front) : Front :=
  { x with sync := .down, position := 0, slot := none, held := [], up := false, down := false }

/-- s with all that the steps of an acquisition may change put to fixed values. -/
def unacquired (s : State) : State :=
  { undecided s with
    acq := { s.acq with record := State.coldAcq.record, formedOrder := [] }
    filter := { s.filter with entries := [] }
    assembler := { s.assembler with buffers := [], abandoned := ⟨0, 0⟩ }
    access := { s.access with keySlot := (State.coldAccess 0).keySlot }
    front := ⟨s.front.f0.unsynced, s.front.f1.unsynced⟩
    lines := { s.lines with tune := ⟨none, none⟩ } }

/-- Two states agree on what belongs to feed f alone: its front, its acquisition record, its key slot, its
filter entries, its tune line and its assemblies. -/
def agreeOnFeed (f : Feed) (s t : State) : Prop :=
  t.frontOf f = s.frontOf f ∧ t.acqOf f = s.acqOf f ∧ t.slotOf f = s.slotOf f ∧
  t.filter.entries.filter (fun e => e.feed = f) = s.filter.entries.filter (fun e => e.feed = f) ∧
  t.lines.tune.get f = s.lines.tune.get f ∧
  t.assembler.buffers.filter (fun a => a.feed = f) = s.assembler.buffers.filter (fun a => a.feed = f)

/-! ## Words of single statements -/

/-- The PIN state after a wrong PIN (R149): the attempt and the wrong PIN counted, and at the third attempt a lockout of
900 s. -/
def afterWrongPin (l : Limits) : Limits :=
  { l with
    attempts := l.attempts + 1, wrongPins := bump l.wrongPins
    lockout := if l.attempts + 1 = 3 then some (900 * 128000) else none
    lockouts := if l.attempts + 1 = 3 then bump l.lockouts else l.lockouts }

/-- The attempt count after a PIN check that passed (R149): 0 where the PIN is set. -/
def attemptsAfterPass (l : Limits) : Nat := if l.pin = none then l.attempts else 0

/-- The position of a cell is aligned (R4): the start pattern B8h, and in byte 5 the CRC-8 of bytes 1 to 4. -/
abbrev isAligned (cell : Bytes) : Prop :=
  byteAt cell 0 = 0xB8#8 ∧
  byteAt cell 5 = crc8 [byteAt cell 1, byteAt cell 2, byteAt cell 3, byteAt cell 4]

/-- A whole slot of 128 bytes arrives at front f of a running part, at its slot boundary p. -/
abbrev slotArrives (f : Feed) (slot : List FeedByte) (p : Nat) (s : State) : Prop :=
  s.running = true ∧ s.feedPresent f = true ∧ (s.frontOf f).held = [] ∧ (s.frontOf f).slot = some p ∧
  slot.length = 128

/-- The front after a slot: the slot position has moved on by 128 (R5, R6). -/
def afterSlot (x : Front) (sync : SyncState) (p : Nat) : Front :=
  { x with sync, position := p + 128, slot := some (p + 128), held := [] }

/-- What the part is while it is held in reset, from what it was before: the retained values are kept while the
validity mark is set and at their cold defaults otherwise, everything else at its reset values (R191, R193). -/
def heldInReset (mark : Bool) (s t : State) : Prop :=
  t.ready = false ∧ t.attention = false ∧ t.command.retainedValid = mark ∧
  t.command.intake = [] ∧ t.command.replyQueue = [] ∧ t.command.heldReply = none ∧
  t.command.notices = 0 ∧ t.command.noticePending = false ∧
  t.front = ⟨State.coldFront true, State.coldFront s.f1Present⟩ ∧ t.filter = State.coldFilter ∧
  t.assembler = State.coldAssembler ∧ t.guide = State.coldGuide ∧ t.acq = State.coldAcq ∧
  t.output = State.coldOutput ∧ t.lines.tune = ⟨none, none⟩ ∧
  t.clock = { State.coldClock with creditedDay := if mark then s.clock.creditedDay else 0 } ∧
  (mark = true →
    t.access = { State.coldAccess s.access.region with
      entitlements := s.access.entitlements, group := s.access.group,
      slot1 := s.access.slot1, slot2 := s.access.slot2 } ∧
    t.purchase = { State.coldPurchase with
      limit := s.purchase.limit, debt := s.purchase.debt, records := s.purchase.records,
      nextSeq := s.purchase.nextSeq } ∧
    t.limits = { s.limits with running := false, part := 0, malformed := 0, wrongPins := 0, lockouts := 0 }) ∧
  (mark = false →
    t.access.entitlements = [] ∧ t.access.group = none ∧ t.access.slot1 = none ∧ t.access.slot2 = none ∧
    t.purchase = State.coldPurchase ∧ t.limits = State.coldLimits) ∧
  t.f1Present = s.f1Present ∧ t.lines.lock = s.lines.lock ∧ t.lines.hold = s.lines.hold ∧
  t.command.unitAddress = s.command.unitAddress ∧ t.command.startKind = s.command.startKind ∧
  t.command.memory = s.command.memory ∧ t.freeIndex = s.freeIndex

/-- The filter entries without the ACQUISITION entries of feed f (R92, R104, R108). -/
def withoutAcq (f : Feed) (entries : List FilterEntry) : List FilterEntry :=
  entries.filter (fun e => ¬ (e.feed = f ∧ e.owner = .acquisition))

/-- The filter entries, those of feed f without expectation when its front left LOCKED (R25). -/
def unexpected (f : Feed) (left : Bool) (entries : List FilterEntry) : List FilterEntry :=
  entries.map (fun e => if left = true ∧ e.feed = f then { e with expected := none } else e)

/-- The answer to an awaiting reply of f stands in the reply queue, or formed in the record while no entry was free
(R89). -/
def answeredAs (f : Feed) (tag code : Byte) (outcome : ReplyOutcome) (t : State) : Prop :=
  (∃ results, LocalCell.reply tag code outcome 0 results ∈ t.command.replyQueue) ∨
  (∃ results, (t.acqOf f).pending = .formed (.reply tag code outcome 0 results))

/-- A reply that f's record still awaited in s has been answered with an outcome (R89). -/
def pendingEnded (f : Feed) (outcome : ReplyOutcome) (s t : State) : Prop :=
  ∀ tag code picked, (s.acqOf f).pending = .awaiting tag code picked → answeredAs f tag code outcome t

/-- The context is of feed f and the channel of entry e, not changing, with the decision that stands (R103). -/
def presentedAs (f : Feed) (e : ChannelEntry) (t : State) : Prop :=
  ∃ c, t.output.context = some c ∧ c.feed = f ∧ c.channel = e.number ∧ c.entry = e ∧ c.changing = false ∧
    c.decision = (decideOn t c).decision ∧ c.reason = (decideOn t c).reason

/-- A context of s that was not changing stands in t with what a decision on t finds, ACCESS CHANGED raised where its
decision or reason moved, and the meter runs as that decision lets it (R160, R168, R171, R172). -/
def redecided (s t : State) : Prop :=
  ∀ c, s.output.context = some c → c.changing = false →
    let v := decideOn t c
    t.output.context = some { c with
      decision := v.decision, reason := v.reason, previewEnd := v.previewEnd, eventId := v.eventId } ∧
    (v.decision ≠ c.decision ∨ v.reason ≠ c.reason → noticeSet .accessChanged t = true) ∧
    t.limits.running = meterMayRun t

/-- The presentation of s has ended in t (R70, R160, R172): the context is gone, its programme cells are flushed, and
ACCESS CHANGED and the marker DENY ENDED say so. -/
def presentationEnded (s t : State) : Prop :=
  t.output.context = none ∧
  ∀ c, s.output.context = some c →
    t.guide.watched = none ∧ t.limits.running = false ∧ t.output.priming = none ∧
    (∀ x ∈ t.output.queue, x.isProgramme = false) ∧ noticeSet .accessChanged t = true ∧
    (LocalCell.marker c.channel .deny .ended ∈ t.command.replyQueue ∨
      t.output.pendingMarker = some ⟨c.channel, .deny, .ended⟩)

/-- The acquisition of feed f ended FAILED with a cause (R104): record, filter entries and key slot, FEED FAULT
raised, an awaiting reply answered FAILED when an entry was free, and on a feed of the PRESENT role the context taken. -/
def failedAs (f : Feed) (cause : FailCause) (s t : State) : Prop :=
  (t.acqOf f).state = .failed ∧ (t.acqOf f).cause = some cause ∧ (t.acqOf f).timer = none ∧
  (t.acqOf f).components = [] ∧ (t.acqOf f).target = (s.acqOf f).target ∧
  (t.acqOf f).role = (s.acqOf f).role ∧ (t.acqOf f).attempts = (s.acqOf f).attempts ∧
  t.filter.entries = withoutAcq f s.filter.entries ∧
  t.slotOf f = State.clearSlot (s.slotOf f).misses ∧ noticeSet .feedFault t = true ∧
  (t.acqOf f).pending.isAwaiting = false ∧
  (∀ tag code picked, (s.acqOf f).pending = .awaiting tag code picked → 0 < freeEntries s →
    ∃ results, LocalCell.reply tag code .failed 0 results ∈ t.command.replyQueue) ∧
  pendingEnded f .failed s t ∧
  (∀ e, (s.acqOf f).role = .present → (s.acqOf f).target = some e → presentedAs f e t)

/-- The acquisition of f has passed its decision step (R103): PRESENTING with the context taken on a feed of the PRESENT
role, READY on any other, with its awaiting reply answered DONE. -/
def passesDecision (f : Feed) (s t : State) : Prop :=
  let r := s.acqOf f
  (t.acqOf f).state = (if r.role = .present then .presenting else .ready) ∧ (t.acqOf f).timer = none ∧
  (t.acqOf f).role = r.role ∧ (t.acqOf f).target = r.target ∧ (t.acqOf f).pending.isAwaiting = false ∧
  pendingEnded f .done s t ∧ (∀ e, r.role = .present → r.target = some e → presentedAs f e t)

/-- The map stream of a channel entry is not to be had on f once f's ACQUISITION entries are gone: another entry holds
it, or the table is full (R21). -/
def mapStreamTaken (f : Feed) (entry : ChannelEntry) (s : State) : Prop :=
  (∃ e ∈ withoutAcq f s.filter.entries, e.feed = f ∧ e.stream = entry.mapStream) ∨
  24 ≤ (withoutAcq f s.filter.entries).length

/-- The acquisition of a channel that a command starts on f, over a front LOCKED on its carrier, ended FAILED at once
with cause TABLE FULL (R92, R98, R104): the command is answered FAILED, the reply it ended SUPERSEDED, and a presented
channel denied by SIGNAL. -/
def failsAtStart (f : Feed) (role : Role) (entry : ChannelEntry) (tag code : Byte) (s t : State) : Prop :=
  let r := t.acqOf f
  r.role = role ∧ r.state = .failed ∧ r.cause = some .tableFull ∧ r.target = some entry ∧
  r.targetCarrier = some entry.carrier ∧ r.attempts = 1 ∧ r.timer = none ∧ r.components = [] ∧
  r.pending.isAwaiting = false ∧ answeredAs f tag code .failed t ∧ pendingEnded f .superseded s t ∧
  t.filter.entries = withoutAcq f s.filter.entries ∧ t.slotOf f = State.clearSlot (s.slotOf f).misses ∧
  noticeSet .feedFault t = true ∧ (role = .present → presentedAs f entry t) ∧
  unacquired t = unacquired s ∧ agreeOnFeed (otherFeed f) s t

/-- The record of f is tuning to a carrier: settle timer, and, unless the feed is disabled or absent, the tune
request and the tuned carrier (R96). -/
def tuningTo (f : Feed) (carrier : Nat) (s t : State) : Prop :=
  (t.acqOf f).state = .tuning ∧ (t.acqOf f).timer = some (.settle, s.acq.timing.settle * 128) ∧
  (t.acqOf f).targetCarrier = some carrier ∧
  (t.acqOf f).tunedCarrier = (if usable s f then some carrier else (s.acqOf f).tunedCarrier) ∧
  (usable s f = true → t.lines.tune.get f = some carrier ∧ (t.frontOf f).sync.isLocked = false)

/-- What follows SYNCING on feed f of s (R98): a PARK acquisition is PARKED and answered; a channel acquisition is in
MAPPING with the map timer, holding or getting its map stream entry, and FAILED with cause TABLE FULL when another
entry holds the stream or the table is full. -/
def passesSync (f : Feed) (s t : State) : Prop :=
  let r := s.acqOf f
  let mapping := s.setAcq f { r with state := .mapping, timer := some (.map, s.acq.timing.map * 128) }
  (r.target = none →
    t.acqOf f = { r with state := .parked, timer := none, pending := (t.acqOf f).pending } ∧
    (t.acqOf f).pending.isAwaiting = false ∧ t.filter = s.filter ∧ t.slotOf f = s.slotOf f ∧
    (∀ tag code picked, r.pending = .awaiting tag code picked → 0 < freeEntries s → ∃ results,
      LocalCell.reply tag code .done 0 (one (feedPosition f) ++ results) ∈ t.command.replyQueue)) ∧
  (∀ e, r.target = some e →
    (∀ x, entryAt s f e.mapStream = some x → x.owner = .acquisition → t = mapping) ∧
    (entryAt s f e.mapStream = none → s.filter.entries.length < 24 →
      t = { mapping with filter := { s.filter with
        entries := s.filter.entries ++ [newEntry f e.mapStream .sections .acquisition none] } }) ∧
    ((∃ x, entryAt s f e.mapStream = some x ∧ x.owner ≠ .acquisition) ∨
      (entryAt s f e.mapStream = none ∧ 24 ≤ s.filter.entries.length) → failedAs f .tableFull s t))

/-- The front of f has left LOCKED with cause SYNC or LOCK between s and t, as filter, assembler and record act on it
(R12, R25, R31, R105, R106): no expectation and no assembly is left on f; a PRESENTING, READY or PARKED record is back
in LOCKING with attempt count 1 and FEED FAULT, a MAPPING or KEYING one with its count, each in SYNCING at once under
a true lock indication; any other record and the key slot stay. -/
def leavesLocked (f : Feed) (s t : State) : Prop :=
  let r := s.acqOf f
  let lost := r.state = .presenting ∨ r.state = .ready ∨ r.state = .parked
  let back : AcqRecord := { r with
    state := if lockIndication t f then .syncing else .locking
    timer := if lockIndication t f then some (.sync, s.acq.timing.sync * 128)
      else some (.lock, s.acq.timing.lock * 128) }
  t.filter.entries = unexpected f true s.filter.entries ∧
  t.assembler.buffers = s.assembler.buffers.filter (fun a => a.feed ≠ f) ∧
  t.slotOf f = s.slotOf f ∧ t.acq.formedOrder = s.acq.formedOrder ∧
  (lost → t.acqOf f = { back with attempts := 1 } ∧ noticeSet .feedFault t = true ∧
    (∀ c, r.role = .present → s.output.context = some c → c.feed = f → c.changing = false →
      ∃ c', t.output.context = some c' ∧ c'.decision = .deny ∧ c'.reason = .signal)) ∧
  (r.state = .mapping ∨ r.state = .keying → t.acqOf f = back) ∧
  (¬ lost → r.state ≠ .mapping → r.state ≠ .keying → t.acqOf f = r)

/-- A SELECT, SELECT NEXT or SELECT PREVIOUS that comes to SELECT of channel n; the last two remember the
channel picked (R90, R93). -/
def selects (row : Instr) (s : State) (tag code : Byte) (n : Nat) (picked : Option Nat) : Prop :=
  (∃ params, row = .select tag params ∧ 2 ≤ params.length ∧ code = 0x10#8 ∧
    n = beNat (params.take 2) ∧ picked = none) ∨
  (∃ params, row = .selectNext tag params ∧ code = 0x11#8 ∧
    nextChannel s.guide (selectReference s) = some n ∧ picked = some n) ∨
  (∃ params, row = .selectPrevious tag params ∧ code = 0x12#8 ∧
    previousChannel s.guide (selectReference s) = some n ∧ picked = some n)

/-- The part is not in standby, channel n is held, and neither is it presented nor is the background feed READY
on it: a SELECT of it starts an acquisition (R90). -/
abbrev selectAcquires (s : State) (n : Nat) (entry : ChannelEntry) : Prop :=
  s.acq.standby = false ∧ entryOf s.guide n = some entry ∧
  presents s (presentationFeed s) n = false ∧ readyOn s (backgroundFeed s) n = false

/-- The signed difference of two network times, modulo 2^42 and taken as the value nearest to 0 (R44). -/
def signedDifference (m n : Nat) : Int := Int.bmod ((m : Int) - (n : Int)) (2 ^ 42)

/-- The error of a mark over N is above the step threshold, or the clock is UNSET: the mark is a step (R43, R44). -/
abbrev isStep (m : Mark) (c : Clock) : Prop :=
  c.state = .unset ∨ (c.threshold : Int) < |signedDifference m.value c.n|

/-- What a mark does to the clock whatever its kind (R42, R46). -/
def afterMark (m : Mark) (c : Clock) : Clock :=
  { c with
    offset := m.offset, state := .set, lossTimer := some (c.lossTime * 128000)
    marksApplied := bump c.marksApplied, lastSource := some m.source }

/-- s with a step to a mark on its clock (R43, R45, R46), its boundary evaluation still to come. -/
def steppedTo (m : Mark) (s : State) : State :=
  { s with clock := afterMark m { s.clock with n := m.value, s := 0, stepCount := bump s.clock.stepCount } }

/-- s with a slew to a mark on its clock (R45, R46). -/
def slewedTo (m : Mark) (s : State) : State :=
  { s with clock := afterMark m { s.clock with
      s := max (-1024) (min 1024 (signedDifference m.value s.clock.n)), slews := bump s.clock.slews } }

/-- N after one clock advance (R40). -/
def nextNetworkTime (c : Clock) : Nat :=
  (c.n + (if c.k = 15 then (if 0 < c.s then 2 else if c.s < 0 then 0 else 1) else 1)) % 2 ^ 42

/-- N, S and K after one clock advance (R40). -/
def counted (c : Clock) : Clock :=
  { c with
    n := nextNetworkTime c
    s := if c.k = 15 then (if 0 < c.s then c.s - 1 else if c.s < 0 then c.s + 1 else c.s) else c.s
    k := (c.k + 1) % 16 }

/-- A timer after 125 ticks, the time of one advance (log entry 3). -/
def less125 (left : Option Nat) : Option Nat := left.map (fun n => n - 125)

/-- A record with its timer after one advance. -/
def recordLess125 (r : AcqRecord) : AcqRecord := { r with timer := r.timer.map (fun x => (x.1, x.2 - 125)) }

/-- A key slot with its key wait after one advance. -/
def slotLess125 (k : KeySlot) : KeySlot :=
  { k with wait := match k.wait with | .running n => .running (n - 125) | w => w }

/-- s after one clock advance, before any boundary that it brings: the clock has counted, and every running timer and
the part-second of a running meter 125 ticks. -/
def oneAdvance (s : State) : State :=
  { s with
    clock := { counted s.clock with lossTimer := less125 s.clock.lossTimer }
    acq := { s.acq with record := ⟨recordLess125 s.acq.record.f0, recordLess125 s.acq.record.f1⟩ }
    access := { s.access with keySlot := ⟨slotLess125 s.access.keySlot.f0, slotLess125 s.access.keySlot.f1⟩ }
    purchase := { s.purchase with waitTimer := less125 s.purchase.waitTimer }
    output := { s.output with priming := less125 s.output.priming }
    limits := { s.limits with
      lockout := less125 s.limits.lockout
      part := if s.limits.running then min (s.limits.part + 125) 128000 else s.limits.part } }

/-- A boundary evaluation over s, which has its new time, offset and state already (R50 to R53): with a second boundary
for the advance and step kinds, its step flag set for the step kind, and neither for the offset kind. Purchases commit
and leave (R134), the watched channel's event is compared (R71, R72), a PREVIEW past its end and every step bring a
re-decision (R170, R171), the window standing is worked out at a new local minute and at a step (R159), and a new day
takes expired entitlements and ended events and restores the allowances (R68, R116, R162). -/
def boundaryMade (second stepFlag : Bool) (s t : State) : Prop :=
  let now := s.clock.n / 1024
  let localTime := ((now : Int) + s.clock.offset * 900).toNat
  let day := localTime / 86400
  let minute := localTime % 86400 / 60
  let dayStart : Int := (day : Int) * 86400 - s.clock.offset * 900
  let p := activeProfile s
  let outside := s.limits.active ≠ 0 ∧ p.windows ≠ [] ∧
    ∀ w ∈ p.windows, ¬ (w.mask.getLsbD (day % 7) = true ∧ w.first ≤ minute ∧ minute < w.last)
  let newMinute := s.clock.lastMinute ≠ some (localTime / 60)
  let newDay := s.clock.creditedDay < day
  let commits (r : PurchaseRecord) : Prop := second = true ∧ r.state = .provisional ∧ r.deadline ≤ now
  let leaves (r : PurchaseRecord) : Prop := second = true ∧ r.state = .collected ∧ r.ends ≤ now
  let ended (e : EventRecord) : Prop := newDay ∧ ((e.start + e.duration : Nat) : Int) ≤ dayStart
  let expired (e : Entitlement) : Prop := newDay ∧ e.expiry < day
  let endings := s.guide.events.countP (fun e => ended e)
  let compared := second = true ∨ 0 < endings
  let moved := compared ∧ ∃ w, s.guide.watched = some w ∧ eventAt s.guide w now ≠ s.guide.lastEvent
  let previewOver := second = true ∧
    ∃ c, s.output.context = some c ∧ c.decision = .preview ∧ ∃ e, c.previewEnd = some e ∧ e ≤ now
  let standing := if newMinute ∨ stepFlag = true then (if outside then Standing.outside else .inside)
    else s.limits.standing
  let decides := previewOver ∨ stepFlag = true ∨ moved ∨ newDay ∨ standing ≠ s.limits.standing ∨
    ∃ r ∈ s.purchase.records, leaves r
  let restored (x : Profile) : Profile := if newDay then { x with remaining := x.allowance * 60 } else x
  t.clock = { s.clock with
    lastMinute := some (localTime / 60), creditedDay := if newDay then day else s.clock.creditedDay } ∧
  t.purchase = { s.purchase with
    records := (s.purchase.records.filter (fun r => ¬ leaves r)).map
      (fun r => if commits r then { r with state := .committed } else r) } ∧
  ((∃ r ∈ s.purchase.records, commits r ∨ leaves r) → noticeSet .purchaseChanged t = true) ∧
  t.guide = { s.guide with
    events := s.guide.events.filter (fun e => ¬ ended e)
    rolloverRemovals := if 0 < endings then min (s.guide.rolloverRemovals + endings) 65535
      else s.guide.rolloverRemovals
    lastEvent := t.guide.lastEvent } ∧
  (∀ w, compared → s.guide.watched = some w → t.guide.lastEvent = eventAt s.guide w now) ∧
  (¬ compared ∨ s.guide.watched = none → t.guide.lastEvent = s.guide.lastEvent) ∧
  (moved → noticeSet .eventChanged t = true) ∧ (0 < endings → noticeSet .guideChanged t = true) ∧
  t.access = { s.access with entitlements := s.access.entitlements.filter (fun e => ¬ expired e) } ∧
  ((∃ e ∈ s.access.entitlements, expired e) → noticeSet .entitlementChanged t = true) ∧
  t.limits = { s.limits with
    profile1 := restored s.limits.profile1, profile2 := restored s.limits.profile2
    profile3 := restored s.limits.profile3, part := if newDay then 0 else s.limits.part
    standing, running := t.limits.running } ∧
  (decides → redecided s t) ∧
  (¬ decides → t.output.context = s.output.context ∧ t.limits.running = s.limits.running) ∧
  untriggered { t with
    clock := s.clock, purchase := s.purchase, guide := s.guide, access := s.access
    limits := s.limits } = untriggered s

/-- The record of f after a release (R108). -/
def releasedRecord (r : AcqRecord) (pending : PendingReply) : AcqRecord :=
  { r with role := .none, state := .idle, cause := none, target := none, targetCarrier := none,
           attempts := 0, timer := none, pending, components := [], version := none }

/-! ## Laws of the part -/

/-- R129, R130, R141 to R143: at most 32 records with distinct event ids, the debt is the sum of the prices
not yet collected, and the transmitter agrees with its queue. -/
def PurchaseLaw (s : State) : Prop :=
  let p := s.purchase
  p.records.length ≤ 32 ∧ (p.records.map PurchaseRecord.eventId).Nodup ∧
  p.debt = ((p.records.filter (fun r => r.state ≠ .collected)).map PurchaseRecord.price).sum ∧
  p.debt ≤ 65535 ∧ p.limit ≤ 65535 ∧
  p.returnQueue.length ≤ 8 ∧ (p.tx = .idle ↔ p.returnQueue = []) ∧
  (p.waitTimer.isSome ↔ p.tx = .waiting) ∧ p.attempts ≤ 7

/-- The remaining allowance lies between 0 and the daily allowance in seconds (R163). -/
def Profile.lawful (p : Profile) : Prop := p.allowance ≤ 1440 ∧ p.remaining ≤ p.allowance * 60

/-- R163 for the three profiles, and R149, R151 for the PIN: at most 3 attempts, 3 exactly while the lockout
runs, and a set PIN of 0 to 9999. -/
def LimitsLaw (s : State) : Prop :=
  let l := s.limits
  l.profile1.lawful ∧ l.profile2.lawful ∧ l.profile3.lawful ∧
  l.attempts ≤ 3 ∧ (l.lockout.isSome ↔ l.attempts = 3) ∧ (∀ v, l.pin = some v → v ≤ 9999)

/-- The meter runs exactly while its three conditions hold (R160). -/
def MeterLaw (s : State) : Prop := s.limits.running = meterMayRun s

/-- At most one feed is PRESENTING, and that feed holds the PRESENT role (R88). -/
def PresentingLaw (s : State) : Prop :=
  (∀ f, (s.acqOf f).state = .presenting → (s.acqOf f).role = .present) ∧
  ¬ ((s.acqOf .f0).role = .present ∧ (s.acqOf .f1).role = .present)

/-- The records of a channel stand in order of start and never overlap (4.2, R63), with distinct event ids and
durations of at least 60 s, at most 1024 of them (R62, R63). That the channels' lists stand in one table in order of
channel number is the model's choice (log entry 26). -/
def EventTableLaw (s : State) : Prop :=
  let es := s.guide.events
  es.length ≤ 1024 ∧ (es.map EventRecord.id).Nodup ∧ (∀ e ∈ es, 60 ≤ e.duration) ∧
  es.Pairwise (fun a b => a.channel < b.channel ∨ (a.channel = b.channel ∧ a.ends ≤ b.start))

/-- The channel map, in strict order of channel number (4.1), and the entitlement table, within their sizes (R59,
R114). That the entitlement table, which has no order in 7.1, is kept in order of tier is the model's choice (log
entry 26). -/
def TablesLaw (s : State) : Prop :=
  s.guide.channels.length ≤ 512 ∧ s.guide.channels.Pairwise (fun a b => a.number < b.number) ∧
  s.access.entitlements.length ≤ 64 ∧ s.access.entitlements.Pairwise (fun a b => a.tier < b.tier)

/-- The scramble phase field of a cell's bytes. -/
def phaseField (cell : Bytes) : Nat := (byteAt cell 2).toNat / 4 % 4

/-- No programme cell in the output queue, and no cell on P, has scramble phase A or B (R123). -/
def ClearOutputLaw (s : State) : Prop :=
  (∀ c, OutCell.programme c ∈ s.output.queue → c.phase = none) ∧ phaseField s.lines.onP = 0

/-- While profile 1, 2 or 3 is active, no programme whose effective rating exceeds the ceiling has a decision
of PRESENT or PREVIEW (R168); with what the law rests on: the context's channel is the watched one, its
current event is the last one found (R70), and a changing context is denied (R167). -/
def RatingLaw (s : State) : Prop :=
  (s.clock.state = .unset → s.clock.lossTimer = none) ∧
  ∀ c, s.output.context = some c →
    s.guide.watched = some c.channel ∧ s.guide.lastEvent = currentEvent s c.channel ∧
    (c.changing = true → c.decision = .deny) ∧
    (c.decision ≠ .deny → s.limits.active ≠ 0 →
      effectiveRating c.entry (currentEvent s c.channel) ≤ (activeProfile s).ceiling)

/-- The NOTICE cells waiting in the two queues. -/
def noticesWaiting (s : State) : Nat :=
  s.command.replyQueue.countP LocalCell.isNotice + s.output.queue.countP OutCell.isNotice

/-- The reply queue keeps its bound with the reserved entry, a held reply keeps its reservation, and at most
one NOTICE waits, none while the notice-pending mark stands (R182, R183, R185). -/
def ReplyQueueLaw (s : State) : Prop :=
  let u := s.command
  u.replyQueue.length + u.reserved.toNat ≤ 32 ∧ (u.heldReply.isSome → u.reserved = true) ∧
  noticesWaiting s ≤ 1 ∧ (u.noticePending = true → noticesWaiting s = 0) ∧
  (∀ cells, u.heldReply = some cells → cells.all (fun c => !c.isNotice) = true) ∧
  (∀ f cell, (s.acqOf f).pending = .formed cell → cell.isNotice = false)

/-- The intake, the output queue, the filter table and the section buffers keep their sizes, and the filter
table never holds two entries of one feed and stream (R20, R29, R175, R181). -/
def CapacityLaw (s : State) : Prop :=
  s.command.intake.length ≤ 8 ∧ s.output.queue.length ≤ 64 ∧ programmeCount s ≤ 60 ∧
  s.filter.entries.length ≤ 24 ∧
  s.filter.entries.Pairwise (fun a b => ¬ (a.feed = b.feed ∧ a.stream = b.stream)) ∧
  s.assembler.buffers.length ≤ 12

/-- The clock's fields keep their ranges (R40, R42, R45, R54), and while it is UNSET neither the loss timer
nor a last local minute stands (R47). -/
def ClockLaw (s : State) : Prop :=
  let c := s.clock
  c.n < 2 ^ 42 ∧ -1024 ≤ c.s ∧ c.s ≤ 1024 ∧ c.k ≤ 15 ∧ -48 ≤ c.offset ∧ c.offset ≤ 56 ∧
  c.stepCount ≤ 65535 ∧ 64 ≤ c.threshold ∧ c.threshold ≤ 16384 ∧ 10 ≤ c.lossTime ∧ c.lossTime ≤ 600 ∧
  (c.state = .unset → c.lossTimer = none ∧ c.lastMinute = none)

/-- Every step keeps a law. -/
def KeptByEveryStep (law : State → Prop) : Prop := ∀ s t, law s → step s = .next t → law t

end Sys2Proof.Machine
end

