-- ==== Sys2Proof/WellFormed.lean ====
section
/-! DEFINITION. The operands a command can have in the part: a slot has 128 bytes (R5, R6), a command
cell carries at most 120 parameter bytes (payload length at most 122: 00_scope, Cell), a framed cell at
most 128 bytes are taken (R180), the configuration memory gives 7 bytes (R192), an INVALID COMMAND has
an undefined code (11.1). The machine's meanings are total and do not consult these checks. -/

namespace Sys2Proof

/-- The command codes of section 11.1. -/
def definedCodes : List Nat :=
  [0x01, 0x02, 0x03, 0x04, 0x05,
   0x10, 0x11, 0x12, 0x13, 0x14, 0x15, 0x16, 0x17,
   0x20, 0x21, 0x22, 0x23, 0x24, 0x25,
   0x30, 0x31, 0x32, 0x40, 0x41, 0x42, 0x43]

/-- A command cell carries at most 120 parameter bytes. -/
def paramsFit (params : Bytes) : Bool := params.length ≤ 120

/-- The STATUS READ rows spend one parameter byte on the area. -/
def moreFits (more : Bytes) : Bool := more.length ≤ 119

/-- The bytes of one slot. -/
def slotWhole (bytes : List FeedByte) : Bool := bytes.length = 128

/-- At most 3 advances of 1/1024 s fall in the 2 ms that start-up takes at most (line summary). -/
def startInputsFit (i : StartInputs) : Bool :=
  i.advances ≤ 3 && (match i.memory with | none => true | some m => m.length = 7)

/-- The well-formed commands. -/
def Instr.wellFormed : Instr → Bool
  | .powerOn _ _ => true
  | .resetLineAssert => true
  | .startUp i => startInputsFit i
  | .standbyGoodFall => true
  | .feedByte _ _ => true
  | .confirmSlot _ bytes => slotWhole bytes
  | .lockedSlot _ bytes => slotWhole bytes
  | .lockLineChange _ _ => true
  | .clockAdvance => true
  | .lossTimerExpiry => true
  | .settleTimerExpiry _ => true
  | .lockTimerExpiry _ => true
  | .syncTimerExpiry _ => true
  | .mapTimerExpiry _ => true
  | .keyWaitExpiry _ => true
  | .lockoutExpiry => true
  | .meterSecond => true
  | .primingTimerExpiry => true
  | .sentPulse => true
  | .collidedPulse => true
  | .returnWaitExpiry => true
  | .holdLineChange _ => true
  | .outputCellWrite => true
  | .localCellTransfer => true
  | .localCellReceive _ => true
  | .replyEntryArbiter => true
  | .invalidCommand _ code params => !definedCodes.contains code.toNat && paramsFit params
  | .noOperation _ params => paramsFit params
  | .softReset _ params => paramsFit params
  | .configure _ params => paramsFit params
  | .statusReadFeeds _ more => moreFits more
  | .statusReadFilter _ more => moreFits more
  | .statusReadClock _ more => moreFits more
  | .statusReadAcquisition _ more => moreFits more
  | .statusReadAccess _ more => moreFits more
  | .statusReadPurchases _ more => moreFits more
  | .statusReadLimits _ more => moreFits more
  | .statusReadCounters _ more => moreFits more
  | .flagsClear _ params => paramsFit params
  | .select _ params => paramsFit params
  | .selectNext _ params => paramsFit params
  | .selectPrevious _ params => paramsFit params
  | .pretune _ params => paramsFit params
  | .park _ params => paramsFit params
  | .release _ params => paramsFit params
  | .standby _ params => paramsFit params
  | .wake _ params => paramsFit params
  | .channelRead _ params => paramsFit params
  | .guideSearch _ params => paramsFit params
  | .guideRead _ params => paramsFit params
  | .tapOpen _ params => paramsFit params
  | .tapClose _ params => paramsFit params
  | .setClock _ params => paramsFit params
  | .purchase _ params => paramsFit params
  | .cancelPurchase _ params => paramsFit params
  | .purchaseRead _ params => paramsFit params
  | .profileSelect _ params => paramsFit params
  | .profileWrite _ params => paramsFit params
  | .profileRead _ params => paramsFit params
  | .pinChange _ params => paramsFit params

end Sys2Proof
end

