-- ==== Sys2Proof/Certificates/Slice0/Obligations.lean ====
section
/-! DEFINITION. The statements for the provers. The words they use stand in Sys2Proof/Safety.lean. -/

open Sys2Proof Sys2Proof.Machine

/-! ## Steps, reset and start-up -/

/-- The step takes the command at the front of the queue and runs it on the state with the queue's rest. -/
def Obligations.StepRunsTheFrontCommand : Prop :=
  ∀ (c : Instr) (rest : List Instr) (s : State), s.pending = c :: rest →
    step s = exec c { s with pending := rest }

/-- Every command answers a next state and leaves the queue alone; no step stops; an empty queue idles (log entry 2). -/
def Obligations.EveryCommandAnswersANextState : Prop :=
  (∀ (c : Instr) (s : State), ∃ t, exec c s = .next t ∧ t.pending = s.pending) ∧
  (∀ s : State, SafeStep s) ∧ (∀ s : State, s.pending = [] → step s = .next s)

/-- The values of every block in State.reset (cold start values; the part stands in start-up, log entry 4), and every
law that the steps keep holds there. -/
def Obligations.ResetValuesAndLaws : Prop :=
  let s := State.reset
  s.command.starting = true ∧ s.command.notices = 0 ∧ s.command.intake = [] ∧ s.command.replyQueue = [] ∧
  s.command.heldReply = none ∧ s.command.attentionEnable = true ∧ s.attention = false ∧
  (∀ f, (s.frontOf f).sync = .down ∧ (s.frontOf f).source = .tuner ∧ (s.frontOf f).slot = none ∧
    (s.frontOf f).accepted = 0 ∧ (s.frontOf f).syncLosses = 0) ∧
  s.filter.entries = [] ∧ s.assembler.buffers = [] ∧
  s.clock.n = 0 ∧ s.clock.s = 0 ∧ s.clock.k = 0 ∧ s.clock.state = .unset ∧ s.clock.stepCount = 0 ∧
  s.clock.source = .any ∧ s.clock.threshold = 2048 ∧ s.clock.lossTime = 60 ∧ s.clock.lossTimer = none ∧
  s.guide.channels = [] ∧ s.guide.events = [] ∧ s.guide.watched = none ∧
  (∀ f, (s.acqOf f).role = .none ∧ (s.acqOf f).state = .idle ∧ (s.acqOf f).pending = .none) ∧
  s.acq.standby = false ∧ s.acq.timing = ⟨40, 300, 200, 1000, 2000, 3⟩ ∧
  s.access.entitlements = [] ∧ s.access.group = none ∧ s.access.slot1 = none ∧ s.access.slot2 = none ∧
  (∀ f, (s.slotOf f).wordA = none ∧ (s.slotOf f).wordB = none ∧ (s.slotOf f).wait = .stopped) ∧
  s.purchase.limit = 0 ∧ s.purchase.debt = 0 ∧ s.purchase.records = [] ∧ s.purchase.nextSeq = 1 ∧
  s.purchase.returnQueue = [] ∧ s.purchase.tx = .idle ∧
  s.limits.active = 0 ∧ s.limits.pin = none ∧ s.limits.attempts = 0 ∧ s.limits.lockout = none ∧
  s.limits.profile1 = ⟨15, [], [], 1440, 86400⟩ ∧ s.limits.profile2 = ⟨15, [], [], 1440, 86400⟩ ∧
  s.limits.profile3 = ⟨15, [], [], 1440, 86400⟩ ∧
  s.output.context = none ∧ s.output.queue = [] ∧ s.output.priming = none ∧ s.output.continuity = 0 ∧
  s.output.threshold = 8 ∧ s.output.timeout = 50 ∧
  PurchaseLaw s ∧ LimitsLaw s ∧ MeterLaw s ∧ PresentingLaw s ∧ EventTableLaw s ∧ TablesLaw s ∧ ClearOutputLaw s ∧
  RatingLaw s ∧ ReplyQueueLaw s ∧ CapacityLaw s ∧ ClockLaw s

/-- POWER_ON, RESET_LINE_ASSERT and STANDBY_GOOD_FALL: what the part becomes and what of the retained store stays. -/
def Obligations.PowerResetAndStandbyLines : Prop :=
  (∀ (asserted good : Bool) (s : State), ∃ t, exec (.powerOn asserted good) s = .next t ∧
    heldInReset (s.command.retainedValid && good) s t ∧ t.lines.resetAsserted = asserted ∧
    t.lines.standbyGood = good) ∧
  (∀ s : State, ∃ t, exec .resetLineAssert s = .next t ∧ heldInReset s.command.retainedValid s t ∧
    t.lines.resetAsserted = true ∧ t.lines.standbyGood = s.lines.standbyGood) ∧
  (∀ s : State, s.running = true → exec .standbyGoodFall s = .next
    { s with lines := { s.lines with standbyGood := false }
             command := { s.command with retainedValid := false } }) ∧
  (∀ s : State, s.running = false → ∃ t, exec .standbyGoodFall s = .next t ∧
    t.lines = { s.lines with standbyGood := false } ∧
    t.command = { s.command with retainedValid := false } ∧
    t.clock = { s.clock with creditedDay := 0 } ∧ t.purchase = State.coldPurchase ∧
    t.limits = State.coldLimits ∧ t.access.entitlements = [] ∧ t.access.group = none ∧
    t.access.slot1 = none ∧ t.access.slot2 = none ∧ t.front = s.front ∧ t.filter = s.filter ∧
    t.assembler = s.assembler ∧ t.guide = s.guide ∧ t.acq = s.acq ∧ t.output = s.output)

/-- START_UP of a part held in reset: the four steps to the ready line, from the strap, the standby-good line and
the configuration memory's bytes. -/
def Obligations.StartUpEndsRunning : Prop :=
  ∀ (i : StartInputs) (s : State), s.running = false → s.clock.state = .unset → s.filter.entries = [] →
    s.front = ⟨State.coldFront true, State.coldFront s.f1Present⟩ →
    ∃ t, exec (.startUp i) s = .next t ∧ t.ready = true ∧ t.lines.resetAsserted = false ∧
      t.lines.standbyGood = i.standbyGood ∧ t.f1Present = i.strapPresent ∧
      (∀ f, (t.frontOf f).enabled = t.feedPresent f ∧
        (t.frontOf f).sync = (if t.feedPresent f && s.lines.lock.get f then .hunt else .down)) ∧
      t.filter.entries =
        fixedEntries .f0 ++ (if i.strapPresent = true then fixedEntries .f1 else []) ∧
      (let m := i.memory.getD (List.replicate 7 0xFF#8)
       let good := m.length = 7 ∧ byteAt m 6 = crc8 (m.take 6)
       (good → t.command.memory = .good ∧ t.command.unitAddress = beNat (m.take 4)) ∧
       (¬ good → t.command.memory = .failed ∧ t.command.unitAddress = 0 ∧
         noticeSet .configFault t = true) ∧
       (if s.command.retainedValid && i.standbyGood then
          t.command.startKind = .warm ∧ t.purchase = s.purchase ∧
          t.access = s.access ∧ t.limits.profile1 = s.limits.profile1 ∧
          t.limits.profile2 = s.limits.profile2 ∧ t.limits.profile3 = s.limits.profile3 ∧
          t.limits.active = s.limits.active ∧ t.limits.pin = s.limits.pin ∧
          t.limits.attempts = s.limits.attempts ∧ t.limits.lockout = s.limits.lockout ∧
          t.clock.creditedDay = s.clock.creditedDay
        else
          t.command.startKind = .cold ∧ t.purchase = State.coldPurchase ∧
          t.access.entitlements = [] ∧ t.access.group = none ∧ t.access.slot1 = none ∧
          t.access.slot2 = none ∧
          (good → t.access.region = beNat ((m.drop 4).take 2)) ∧ (¬ good → t.access.region = 0) ∧
          t.limits = State.coldLimits ∧ t.clock.creditedDay = 0)) ∧
      t.command.retainedValid = i.standbyGood

/-! ## Feed Fronts, Stream Filter, Section Assembler -/

/-- FEED_BYTE in DOWN, in start-up and on an absent F1 changes nothing; in HUNT each position is examined as soon
as the five bytes that follow it have arrived; in CONFIRM and LOCKED a byte before the slot is passed over, one of the
slot is gathered, and the 128th completes it, which then acts as the slot arriving whole: that the slot rows stand for
slots gathered so is DEDUCED (log entry 7). -/
def Obligations.FeedByteDiscardedOrExamined : Prop :=
  ∀ (f : Feed) (b : FeedByte) (s : State),
    (s.running = false ∨ s.feedPresent f = false ∨ (s.frontOf f).sync = .down →
      exec (.feedByte f b) s = .next s) ∧
    (s.running = true → s.feedPresent f = true → (s.frontOf f).sync = .hunt →
      (s.frontOf f).held.length ≤ 5 →
      let x := s.frontOf f
      let held := x.held ++ [b]
      exec (.feedByte f b) s = .next (s.setFront f
        (if held.length < 6 then { x with position := x.position + 1, held }
         else if isAligned (held.map FeedByte.byte) then
           { x with sync := .confirm 0, position := x.position + 1, held := []
                    slot := some (x.position + 1 - 6 + 128) }
         else { x with position := x.position + 1, held := held.tail }))) ∧
    (∀ p, s.running = true → s.feedPresent f = true → (s.frontOf f).slot = some p →
      (∃ n, (s.frontOf f).sync = .confirm n ∨ (s.frontOf f).sync = .locked n) →
      let x := s.frontOf f
      let atBoundary := s.setFront f { x with held := [] }
      (x.position < p → exec (.feedByte f b) s = .next (s.setFront f { x with position := x.position + 1 })) ∧
      (p ≤ x.position → x.held.length < 127 → exec (.feedByte f b) s = .next
        (s.setFront f { x with position := x.position + 1, held := x.held ++ [b] })) ∧
      (p ≤ x.position → x.held.length = 127 →
        ((∃ n, x.sync = .confirm n) → exec (.feedByte f b) s = exec (.confirmSlot f (x.held ++ [b])) atBoundary) ∧
        ((∃ n, x.sync = .locked n) → exec (.feedByte f b) s = exec (.lockedSlot f (x.held ++ [b])) atBoundary)))

/-- CONFIRM_SLOT: aligned, CONFIRM(n) goes to CONFIRM(n + 1) and CONFIRM(2) to LOCKED(0) with the UP flag, where a
SYNCING record passes on, and under lock source SYNC a LOCKING one; not aligned, the front hunts again from the byte
after the first byte of the slot. That the DONE of a PARK that passes begins with the feed byte is DEDUCED (log
entry 12). -/
def Obligations.ConfirmSlotOutcomes : Prop :=
  ∀ (f : Feed) (n : Fin 3) (slot : List FeedByte) (p : Nat) (s : State),
    slotArrives f slot p s → (s.frontOf f).sync = .confirm n →
    let x := s.frontOf f
    (isAligned (slot.map FeedByte.byte) → n = 0 →
      exec (.confirmSlot f slot) s = .next (s.setFront f (afterSlot x (.confirm 1) p))) ∧
    (isAligned (slot.map FeedByte.byte) → n = 1 →
      exec (.confirmSlot f slot) s = .next (s.setFront f (afterSlot x (.confirm 2) p))) ∧
    (isAligned (slot.map FeedByte.byte) → n = 2 →
      ∃ t, exec (.confirmSlot f slot) s = .next t ∧
        t.frontOf f = { afterSlot x (.locked 0) p with up := true } ∧
        (let up := s.setFront f { afterSlot x (.locked 0) p with up := true }
         let r := (s.acqOf f).state
         let passes := r = .syncing ∨ (r = .locking ∧ x.source = .sync ∧ x.enabled = true)
         (passes → passesSync f up t) ∧ (¬ passes → t = up)) ∧
        unacquired t = unacquired s ∧ agreeOnFeed (otherFeed f) s t) ∧
    (¬ isAligned (slot.map FeedByte.byte) →
      exec (.confirmSlot f slot) s = .next (feedBytes f slot.tail
        (s.setFront f { x with sync := .hunt, position := p + 1, slot := none, held := [] })))

/-- LOCKED_SLOT, the checks of alignment and of the header fields: what each bad slot counts, where the sync
machine goes (after the third bad slot to HUNT, from the byte after the slot's first byte), and what leaving LOCKED does
to the feed's entries, assemblies and record. -/
def Obligations.LockedSlotChecks : Prop :=
  ∀ (f : Feed) (n : Fin 3) (slot : List FeedByte) (p : Nat) (s : State),
    slotArrives f slot p s → (s.frontOf f).sync = .locked n →
    let x := s.frontOf f
    let cell := slot.map FeedByte.byte
    let h := readHeader cell
    let y := afterSlot x (.locked 0) p
    (¬ isAligned cell → n = 0 → exec (.lockedSlot f slot) s = .next
      (s.setFront f { afterSlot x (.locked 1) p with headerErrors := bump x.headerErrors })) ∧
    (¬ isAligned cell → n = 1 → exec (.lockedSlot f slot) s = .next
      (s.setFront f { afterSlot x (.locked 2) p with headerErrors := bump x.headerErrors })) ∧
    (¬ isAligned cell → n = 2 → ∃ t, exec (.lockedSlot f slot) s = .next t ∧
      t.frontOf f = (feedBytes f slot.tail (s.setFront f { x with
        sync := .hunt, position := p + 1, slot := none, held := [], down := true
        headerErrors := bump x.headerErrors, syncLosses := bump x.syncLosses })).frontOf f ∧
      (t.frontOf f).sync.isLocked = false ∧ (t.frontOf f).down = true ∧
      (t.frontOf f).headerErrors = bump x.headerErrors ∧
      (t.frontOf f).syncLosses = bump x.syncLosses ∧ leavesLocked f s t ∧
      unacquired t = unacquired (s.setFront f
        { x with headerErrors := bump x.headerErrors, syncLosses := bump x.syncLosses }) ∧
      agreeOnFeed (otherFeed f) s t) ∧
    (isAligned cell → h.mustBeZero ≠ 0 ∨ h.phase = 3 → exec (.lockedSlot f slot) s = .next
      (s.setFront f { y with headerErrors := bump x.headerErrors })) ∧
    (isAligned cell → h.mustBeZero = 0 → h.phase ≠ 3 → h.length = 0 ∨ 122 < h.length →
      exec (.lockedSlot f slot) s = .next
        (s.setFront f { y with lengthErrors := bump x.lengthErrors })) ∧
    (isAligned cell → h.mustBeZero = 0 → h.phase ≠ 3 → 1 ≤ h.length → h.length ≤ 122 →
      h.kind = .fill → exec (.lockedSlot f slot) s = .next (s.setFront f y)) ∧
    (isAligned cell → h.mustBeZero = 0 → h.phase ≠ 3 → 1 ≤ h.length → h.length ≤ 122 →
      h.kind = .command ∨ h.kind = .reply ∨ h.kind = .notice ∨ h.kind = .marker →
      exec (.lockedSlot f slot) s = .next (s.setFront f { y with misplaced := bump x.misplaced }))

/-- LOCKED_SLOT with a cell that is accepted: the accepted counts, the unmatched count, the continuity check of the
matched entry, and where the cell then goes: a PROGRAMME cell of a PRESENT entry to the descrambler, a SECTIONS cell
of any other entry to the Section Assembler, a TIME cell of the FIXED entry of stream 1 to the clock, and every other
one to the kind mismatch count. That a duplicate, a TIME cell and one of a mismatched kind leave the assembly on their
stream as it is, error mark or not, is DEDUCED (log entry 39). -/
def Obligations.AcceptedCellAtTheFilter : Prop :=
  ∀ (f : Feed) (n : Fin 3) (slot : List FeedByte) (p : Nat) (s : State),
    slotArrives f slot p s → (s.frontOf f).sync = .locked n →
    let x := s.frontOf f
    let bytes := slot.map FeedByte.byte
    let h := readHeader bytes
    isAligned bytes → h.mustBeZero = 0 → h.phase ≠ 3 → 1 ≤ h.length → h.length ≤ 122 →
    h.kind = .programme ∨ h.kind = .sections ∨ h.kind = .time →
    let flagged := slot.any FeedByte.uncorrectable
    let s1 := s.setFront f { afterSlot x (.locked 0) p with
      accepted := bump x.accepted
      uncorrectable := if flagged then bump x.uncorrectable else x.uncorrectable }
    let after (gap : Bool) := s1.filter.entries.map (fun e =>
      if e.feed = f ∧ e.stream = h.stream then
        { e with expected := some ((h.continuity + 1) % 8), errors := if gap then bump e.errors else e.errors }
      else e)
    let cell : Cell :=
      { stream := h.stream, phase := if h.phase = 1 then some .a else if h.phase = 2 then some .b else none,
        unitStart := h.unitStart, errorMark := h.errorMark || flagged, continuity := h.continuity,
        kind := h.kind, payload := (bytes.drop 6).take h.length, padding := bytes.drop (6 + h.length) }
    let passed : State := { s1 with filter := { s1.filter with entries := after false } }
    let gapped : State := { s1 with
      filter := { s1.filter with entries := after true }
      assembler := (abandonAt f h.stream s1).assembler }
    (entryAt s f h.stream = none → exec (.lockedSlot f slot) s = .next
      { s1 with filter := { s1.filter with unmatched := s1.filter.unmatched.modify f bump } }) ∧
    (∀ e z, entryAt s f h.stream = some e → e.expected = some z → h.continuity ≠ z →
      h.continuity = (z + 7) % 8 → exec (.lockedSlot f slot) s = .next s1) ∧
    (∀ e s2, entryAt s f h.stream = some e →
      ((e.expected = none ∨ e.expected = some h.continuity) ∧ s2 = passed) ∨
        ((∃ z, e.expected = some z ∧ h.continuity ≠ z ∧ h.continuity ≠ (z + 7) % 8) ∧ s2 = gapped) →
      (e.consumer = .present → h.kind = .programme →
        exec (.lockedSlot f slot) s = .next (descramble f cell s2)) ∧
      (e.consumer ≠ .present → h.kind = .sections →
        exec (.lockedSlot f slot) s = .next (sectionCell f e cell s2)) ∧
      (e.consumer = .sections → e.owner = .fixed → h.stream = 1 → h.kind = .time →
        exec (.lockedSlot f slot) s = .next (timeCell f cell.payload s2)) ∧
      ((e.consumer = .present ∧ h.kind ≠ .programme) ∨ (e.consumer ≠ .present ∧ h.kind = .programme) ∨
        (e.consumer = .tap ∧ h.kind = .time) ∨
        (e.consumer = .sections ∧ h.kind = .time ∧ ¬ (e.owner = .fixed ∧ h.stream = 1)) →
        exec (.lockedSlot f slot) s = .next
          { s2 with filter := { s2.filter with kindMismatch := s2.filter.kindMismatch.modify f bump } }))

/-- SECTION cells at the Section Assembler: the cell that begins a section abandons one that is open, and takes a
buffer or is counted; one that continues a section grows it or abandons it by its error mark; a whole section fails
its CRC, or goes to the owner of its table kind, or, on a TAP entry, whole into the reply queue or to the drop count. -/
def Obligations.SectionCellsAndBuffers : Prop :=
  ∀ (f : Feed) (entry : FilterEntry) (c : Cell) (s : State),
    let a := s.assembler
    let here (x : Assembly) : Bool := x.feed = f ∧ x.stream = entry.stream
    let kind := (byteAt c.payload 0).toNat
    let handsOn (consumer : Consumer) (whole : Bytes) (before after : State) : Prop :=
      let good := (crc16 (whole.take (whole.length - 2))).toNat = beNat (whole.drop (whole.length - 2))
      let body := (whole.drop 7).take (whole.length - 9)
      let key := beNat ((whole.drop 5).take 2)
      let k := (byteAt whole 0).toNat
      (¬ good → after = { before with
        assembler := { before.assembler with crcFailures := before.assembler.crcFailures.modify f bump } }) ∧
      (good → consumer ≠ .tap →
        (k = 1 → after = channelMapSection body before) ∧
        (k = 2 → after = programmeMapSection f ((byteAt whole 1).toNat / 16) key body before) ∧
        (k = 3 → after = guideEventsSection key body before) ∧
        (k = 4 → after = managementSection body before) ∧
        (k = 5 → after = programmeKeySection f key body before)) ∧
      (∀ e t, good → consumer = .tap → entryAt before f entry.stream = some e → e.tap = some t →
        let cells := replyCells t.tag 0x23#8 .tapData whole
        (cells.length ≤ freeEntries before → after = placeCells cells before) ∧
        (freeEntries before < cells.length → after = { before with filter := { before.filter with
          entries := before.filter.entries.map (fun e' =>
            if e'.feed = f ∧ e'.stream = entry.stream then
              { e' with tap := e'.tap.map (fun t' => { t' with drops := bump t'.drops }) } else e') } }))
    (c.unitStart = true → (∃ x ∈ a.buffers, here x = true) →
      sectionCell f entry c s = sectionCell f entry c { s with assembler := { a with
        buffers := a.buffers.filter (fun x => !here x)
        abandoned := a.abandoned.modify f (fun n => min (n + a.buffers.countP here) 65535) } }) ∧
    (c.unitStart = true → a.abandoned.get f ≤ 65535 → (∀ x ∈ a.buffers, here x = false) →
      (c.errorMark = true → sectionCell f entry c s = s) ∧
      (c.errorMark = false → c.payload.length < 7 ∨ declaredLength c.payload < 9 ∨
          1024 < declaredLength c.payload →
        sectionCell f entry c s = { s with assembler := { a with abandoned := a.abandoned.modify f bump } }) ∧
      (c.errorMark = false → 7 ≤ c.payload.length → 9 ≤ declaredLength c.payload →
        declaredLength c.payload ≤ 1024 →
        (entry.consumer = .sections → kind = 0 ∨ 5 < kind → sectionCell f entry c s =
          { s with assembler := { a with unknownTables := a.unknownTables.modify f bump } }) ∧
        (entry.consumer ≠ .sections ∨ (1 ≤ kind ∧ kind ≤ 5) →
          (12 ≤ a.buffers.length → sectionCell f entry c s =
            { s with assembler := { a with noBuffer :=
              { channelMap := if kind = 1 then bump a.noBuffer.channelMap else a.noBuffer.channelMap
                programmeMap := if kind = 2 then bump a.noBuffer.programmeMap else a.noBuffer.programmeMap
                guideEvents := if kind = 3 then bump a.noBuffer.guideEvents else a.noBuffer.guideEvents
                management := if kind = 4 then bump a.noBuffer.management else a.noBuffer.management
                programmeKey := if kind = 5 then bump a.noBuffer.programmeKey else a.noBuffer.programmeKey
                other := if 1 ≤ kind ∧ kind ≤ 5 then a.noBuffer.other else bump a.noBuffer.other } } }) ∧
          (a.buffers.length < 12 → c.payload.length < declaredLength c.payload →
            sectionCell f entry c s = { s with assembler := { a with buffers := a.buffers ++
              [{ feed := f, stream := entry.stream, consumer := entry.consumer, tableKind := kind,
                 declared := declaredLength c.payload, bytes := c.payload }] } }) ∧
          (a.buffers.length < 12 → declaredLength c.payload ≤ c.payload.length →
            handsOn entry.consumer (c.payload.take (declaredLength c.payload)) s
              (sectionCell f entry c s))))) ∧
    (∀ x, c.unitStart = false → assemblyAt s f entry.stream = some x →
      (c.errorMark = true → sectionCell f entry c s = abandonAt f entry.stream s) ∧
      (c.errorMark = false → x.bytes.length + c.payload.length < x.declared →
        sectionCell f entry c s = { s with assembler := { a with buffers := a.buffers.map (fun y =>
          if here y then { y with bytes := y.bytes ++ c.payload } else y) } }) ∧
      (c.errorMark = false → x.declared ≤ x.bytes.length + c.payload.length →
        handsOn x.consumer ((x.bytes ++ c.payload).take x.declared)
          { s with assembler := { a with buffers := a.buffers.filter (fun y => !here y) } }
          (sectionCell f entry c s))) ∧
    (c.unitStart = false → assemblyAt s f entry.stream = none → sectionCell f entry c s = s)

/-- CHANNEL MAP and GUIDE EVENTS sections: the shapes refused, the channel map after the two passes with its counts,
and the event table after a record is placed: what it replaces, what makes room for it, and when it is refused. That a
changing context takes a changed entry without a decision is DEDUCED (log entry 17); that the one event table stands in
order of channel, under which the two eviction ties are stated, is the model's choice (log entry 26). -/
def Obligations.ChannelMapAndGuideSections : Prop :=
  (∀ (body : Bytes) (s : State),
    let count := (byteAt body 0).toNat
    let t := channelMapSection body s
    let g := s.guide
    let rs := (List.range count).map (fun i => readChannelRecord ((body.drop (1 + 8 * i)).take 8))
    let fits (r : ChannelRecord) : Bool := 1 ≤ r.number ∧ r.number ≤ 9999 ∧
      (r.flags.getLsbD 0 = true ∨ (16 ≤ r.mapStream ∧ r.mapStream ≤ 4093))
    let withdrawn (n : Nat) : Bool := rs.any (fun r => fits r && r.flags.getLsbD 0 && r.number = n)
    let written (n : Nat) : Option ChannelRecord :=
      (rs.filter (fun r => fits r && !r.flags.getLsbD 0 && r.number = n)).getLast?
    (count = 0 ∨ body.length ≠ 1 + 8 * count →
      t = { s with guide := { g with malformedMaps := bump g.malformedMaps } }) ∧
    (count ≠ 0 → body.length = 1 + 8 * count →
      (∀ i r, rs[i]? = some r → r.number = beNat ((body.drop (1 + 8 * i)).take 2) ∧
        r.carrier = (byteAt body (3 + 8 * i)).toNat ∧ r.mapStream = beNat ((body.drop (4 + 8 * i)).take 2) ∧
        r.flags = byteAt body (6 + 8 * i) ∧ r.tier = (byteAt body (7 + 8 * i)).toNat ∧
        r.rating = (byteAt body (8 + 8 * i)).toNat) ∧
      t.guide.badRecords = bump^[rs.countP (fun r => !fits r)] g.badRecords ∧
      t.guide.events = g.events ∧ t.guide.malformedMaps = g.malformedMaps ∧
      (g.channels.length + count ≤ 512 → t.guide.mapFull = g.mapFull ∧
        ∀ n, entryOf t.guide n =
          match written n with
          | some r => some ⟨n, r.carrier, r.mapStream, if r.flags.getLsbD 2 then none else some r.tier,
              min r.rating 14, r.flags.getLsbD 1⟩
          | none => if withdrawn n then none else entryOf g n) ∧
      (∀ r, rs = [r] → fits r = true → r.flags.getLsbD 0 = false → 512 ≤ g.channels.length →
        entryOf g r.number = none →
        t.guide.mapFull = bump g.mapFull ∧ t.guide.channels = g.channels) ∧
      (t.guide.channels ≠ g.channels → noticeSet .guideChanged t = true) ∧
      (t.guide.channels = g.channels → t = { s with guide := t.guide }) ∧
      (∀ w c e, g.watched = some w → s.output.context = some c → entryOf t.guide w = some e →
        entryOf g w ≠ some e → ∃ c', t.output.context = some c' ∧ c'.entry = e ∧
        (c.changing = true → c' = { c with entry := e }) ∧
        redecided { s with output := { s.output with context := some { c with entry := e } } } t) ∧
      untriggered { t with guide := g } = untriggered s)) ∧
  (∀ (key : Nat) (body : Bytes) (s : State),
    let count := (byteAt body 0).toNat
    let t := guideEventsSection key body s
    let g := s.guide
    (key = 0 ∨ 9999 < key ∨ count = 0 ∨ 8 < count ∨ readEvents key count (body.drop 1) = none →
      t = { s with guide := { g with malformedGuides := bump g.malformedGuides } }) ∧
    (∀ es, 1 ≤ key → key ≤ 9999 → 1 ≤ count → count ≤ 8 → readEvents key count (body.drop 1) = some es →
      let placed := es.foldl (upsert s.now) g
      t.guide.events = placed.events ∧ t.guide.refusedEvents = placed.refusedEvents ∧
      t.guide.evictedEvents = placed.evictedEvents ∧ t.guide.channels = g.channels ∧
      t.guide.watched = g.watched ∧
      (placed.events ≠ g.events → noticeSet .guideChanged t = true) ∧
      (∀ w, g.watched = some w → t.guide.lastEvent = currentEvent t w ∧
        (currentEvent t w ≠ g.lastEvent → noticeSet .eventChanged t = true ∧ redecided s t)) ∧
      untriggered { t with guide := g } = untriggered s)) ∧
  (∀ (key : Nat) (b rest : Bytes), b.length = 21 + 2 * (byteAt b 20).toNat →
    let codes := (byteAt b 20).toNat
    ∀ k, readEvents key (k + 1) (b ++ rest) = (readEvents key k rest).map (fun es =>
      { id := beNat (b.take 2), channel := key, start := beNat ((b.drop 2).take 4),
        duration := max 60 (min 43200 (beNat ((b.drop 6).take 2))), rating := min (byteAt b 8).toNat 14,
        genre := (byteAt b 9).toNat,
        tier := if (byteAt b 10).getLsbD 1 then some (byteAt b 11).toNat else none,
        price := if beNat ((b.drop 12).take 2) = 0 then none else some (beNat ((b.drop 12).take 2)),
        cancelMinutes := min (byteAt b 14).toNat 30, previewMinutes := min (byteAt b 15).toNat 15,
        blackout := (List.range (min codes 8)).map (fun i => beNat ((b.drop (21 + 2 * i)).take 2)),
        truncated := 8 < codes, title := beNat ((b.drop 16).take 4),
        withdrawn := (byteAt b 10).getLsbD 0 } :: es)) ∧
  (∀ (now : Option Nat) (g : Guide) (e : EventRecord),
    let left := g.events.filter (fun x => ¬ (x.id = e.id ∨
      (x.channel = e.channel ∧ x.start < e.start + e.duration ∧ e.start < x.start + x.duration)))
    let ended (x : EventRecord) : Prop := ∃ t, now = some t ∧ x.start + x.duration ≤ t
    let t := upsert now g e
    (left.length < 1024 → (∀ x, x ∈ t.events ↔ x = e ∨ x ∈ left) ∧
      t.evictedEvents = g.evictedEvents ∧ t.refusedEvents = g.refusedEvents) ∧
    (1024 ≤ left.length → (∃ x ∈ left, ended x) →
      ∃ out ∈ left, ended out ∧
        (∀ x ∈ left, ended x → out.start + out.duration ≤ x.start + x.duration) ∧
        (g.events.Pairwise (fun x y => x.channel ≤ y.channel) → ∀ x ∈ left,
          x.start + x.duration = out.start + out.duration → out.channel ≤ x.channel) ∧
        (∀ x, x ∈ t.events ↔ x = e ∨ (x ∈ left ∧ x.id ≠ out.id)) ∧
        t.evictedEvents = bump g.evictedEvents ∧ t.refusedEvents = g.refusedEvents) ∧
    (1024 ≤ left.length → (∀ x ∈ left, ¬ ended x) → (∀ x ∈ left, x.start ≤ e.start) →
      t.events = left ∧ t.refusedEvents = bump g.refusedEvents ∧ t.evictedEvents = g.evictedEvents) ∧
    (1024 ≤ left.length → (∀ x ∈ left, ¬ ended x) → (∃ x ∈ left, e.start < x.start) →
      ∃ out ∈ left, (∀ x ∈ left, x.start ≤ out.start) ∧
        (g.events.Pairwise (fun x y => x.channel ≤ y.channel) → ∀ x ∈ left,
          x.start = out.start → x.channel ≤ out.channel) ∧
        (∀ x, x ∈ t.events ↔ x = e ∨ (x ∈ left ∧ x.id ≠ out.id)) ∧
        t.evictedEvents = bump g.evictedEvents ∧ t.refusedEvents = g.refusedEvents) ∧
    t.channels = g.channels ∧ t.watched = g.watched ∧ t.lastEvent = g.lastEvent)

/-- PROGRAMME MAP sections: the shapes refused, the map that matches no acquisition, the version already installed,
and the components installed: record, filter entries, key slot, and the step that follows; FAILED with cause TABLE
FULL when the entries are not to be had. -/
def Obligations.ProgrammeMapSections : Prop :=
  ∀ (f : Feed) (version key : Nat) (body : Bytes) (s : State),
    let count := (byteAt body 0).toNat
    let kindAt (i : Nat) := (byteAt body (1 + 3 * i)).toNat
    let streamAt (i : Nat) := beNat ((body.drop (2 + 3 * i)).take 2)
    let shape : Prop := 1 ≤ count ∧ count ≤ 8 ∧ body.length = 1 + 3 * count ∧
      (∀ i < count, 1 ≤ kindAt i ∧ kindAt i ≤ 4 ∧ 16 ≤ streamAt i ∧ streamAt i ≤ 4093 ∧ streamAt i ≠ key) ∧
      (∀ i < count, ∀ j < count, i ≠ j → streamAt i ≠ streamAt j ∧ ¬ (kindAt i = 4 ∧ kindAt j = 4))
    let new : List Component := (List.range count).map (fun i =>
      ⟨if kindAt i = 1 then .video else if kindAt i = 2 then .audio else if kindAt i = 3 then .data else .key,
        streamAt i⟩)
    let consumerOf (c : Component) : Consumer := if c.kind = .key then .sections else .present
    let keyOf (cs : List Component) : Option Nat := (cs.find? (fun c => c.kind = .key)).map Component.stream
    let r := s.acqOf f
    let k := s.slotOf f
    let t := programmeMapSection f version key body s
    let waiting : Prop := (t.acqOf f).state = .keying ∧ (t.acqOf f).timer = none ∧
      (t.acqOf f).pending = r.pending ∧
      (t.slotOf f).wait = if k.wait = .stopped then .running (s.acq.timing.key * 128) else k.wait
    let atKeying : Prop :=
      let done := k.wordA.isSome = true ∨ k.wordB.isSome = true ∨ k.wait = .expired
      (done → passesDecision f s t ∧ (t.slotOf f).wait = k.wait) ∧ (¬ done → waiting)
    let awaited : Prop := (r.state = .mapping ∨ r.state = .keying ∨ r.state = .presenting ∨ r.state = .ready) ∧
      ∃ e, r.target = some e ∧ e.mapStream = key
    let isNew : Prop := r.version ≠ some version ∨ (r.state = .mapping ∧ r.components = [])
    let kept := s.filter.entries.filter (fun e => ¬ (e.feed = f ∧ e.owner = .acquisition ∧
      ∃ c ∈ r.components, c.stream = e.stream ∧
        ∀ d ∈ new, ¬ (d.stream = c.stream ∧ consumerOf d = consumerOf c)))
    let held (c : Component) : Prop :=
      ∃ e, kept.find? (fun e => e.feed = f && e.stream = c.stream) = some e ∧ e.owner = .acquisition ∧
        e.consumer = consumerOf c
    let installs (added : List Component) : Prop :=
      (∀ c, c ∈ added ↔ c ∈ new ∧ ¬ held c) ∧ added.Sublist new
    let free (added : List Component) : Prop :=
      (∀ c ∈ added, ∀ e ∈ kept, ¬ (e.feed = f ∧ e.stream = c.stream)) ∧ added.length ≤ 24 - kept.length
    (¬ shape → t = { s with acq := { s.acq with malformedMaps := s.acq.malformedMaps.modify f bump } }) ∧
    (shape → ¬ awaited →
      t = { s with acq := { s.acq with unmatchedMaps := s.acq.unmatchedMaps.modify f bump } }) ∧
    (shape → awaited → unacquired t = unacquired s ∧ agreeOnFeed (otherFeed f) s t) ∧
    (shape → awaited → ¬ isNew →
      (r.state ≠ .mapping → t = s) ∧
      (r.state = .mapping → (t.acqOf f).components = r.components ∧ t.filter = s.filter ∧
        (r.scrambled = false → passesDecision f s t) ∧ (r.scrambled = true → atKeying))) ∧
    (∀ added, shape → awaited → isNew → installs added → free added →
      t.filter.entries = kept ++ added.map (fun c => newEntry f c.stream (consumerOf c) .acquisition none) ∧
      (t.acqOf f).components = new ∧ (t.acqOf f).version = some version ∧
      (t.acqOf f).scrambled = (keyOf new).isSome ∧ (t.acqOf f).role = r.role ∧ (t.acqOf f).target = r.target ∧
      (t.slotOf f).mapStream = some key ∧ (t.slotOf f).keyStream = keyOf new ∧
      (keyOf new = keyOf r.components → (t.slotOf f).wordA = k.wordA ∧ (t.slotOf f).wordB = k.wordB ∧
        (t.slotOf f).lastPhase = k.lastPhase) ∧
      (keyOf new ≠ keyOf r.components → (t.slotOf f).wordA = none ∧ (t.slotOf f).wordB = none ∧
        (t.slotOf f).lastPhase = none) ∧
      (r.state = .presenting → (t.acqOf f).state = .presenting) ∧
      (r.state = .ready → (t.acqOf f).state = .ready) ∧
      (r.state = .mapping ∨ r.state = .keying → keyOf new = none →
        passesDecision f s t) ∧
      (keyOf new ≠ none → keyOf new = keyOf r.components →
        (r.state = .mapping → atKeying) ∧
        (r.state = .keying → (t.acqOf f).state = .keying ∧ (t.acqOf f).pending = r.pending ∧
          (t.slotOf f).wait = if k.wait = .stopped then .running (s.acq.timing.key * 128) else k.wait)) ∧
      (r.state = .mapping ∨ r.state = .keying → keyOf new ≠ none → keyOf new ≠ keyOf r.components →
        (t.acqOf f).state = .keying ∧ (t.slotOf f).wait = .running (s.acq.timing.key * 128) ∧
        (t.acqOf f).pending = r.pending)) ∧
    (∀ added, shape → awaited → isNew → installs added → ¬ free added → failedAs f .tableFull s t)

/-- PROGRAMME KEY sections, the descrambler and the output gate: the word stored, the wait it ends, the cell passed or
missed, and the programme cell queued, blanked or overflowing. -/
def Obligations.KeySectionsDescramblerAndGate : Prop :=
  (∀ (f : Feed) (key : Nat) (body : Bytes) (s : State),
    let a := s.access
    let k := s.slotOf f
    let phase := (byteAt body 1).toNat
    let number := (byteAt body 0).toNat
    let t := programmeKeySection f key body s
    let well := body.length = 18 ∧ (phase = 1 ∨ phase = 2)
    (¬ well → t = { s with access := { a with malformedKeys := bump a.malformedKeys } }) ∧
    (well → k.keyStream ≠ some key →
      t = { s with access := { a with unmatchedKeys := bump a.unmatchedKeys } }) ∧
    (well → k.keyStream = some key → (∀ g, a.slot1 = some g ∨ a.slot2 = some g → g.number ≠ number) →
      t = { s with access := { a with generationMisses := bump a.generationMisses } }) ∧
    (∀ g, well → k.keyStream = some key → g.number = number →
      a.slot1 = some g ∨ (a.slot2 = some g ∧ ∀ g', a.slot1 = some g' → g'.number ≠ number) →
      let word := some (Config.openWord g.material (body.drop 2))
      let stored : KeySlot := if phase = 1 then { k with wordA := word } else { k with wordB := word }
      let was := if phase = 1 then k.wordA else k.wordB
      let awaited := k.lastPhase = none ∨ k.lastPhase = some (if phase = 1 then .a else .b)
      (was.isSome = true ∨ ¬ awaited → t = s.setSlot f stored) ∧
      (was = none → awaited →
        let known := s.setSlot f { stored with wait := .stopped }
        ((s.acqOf f).state ≠ .keying → (s.acqOf f).state ≠ .presenting ∨ k.wait ≠ .expired → t = known) ∧
        ((s.acqOf f).state = .presenting → k.wait = .expired → t = trigger known) ∧
        ((s.acqOf f).state = .keying →
          passesDecision f s t ∧ t.slotOf f = { stored with wait := .stopped } ∧
          unacquired t = unacquired s ∧ agreeOnFeed (otherFeed f) s t)))) ∧
  (∀ (f : Feed) (c : Cell) (s : State),
    let k := s.slotOf f
    let missed (k' : KeySlot) : State := s.setSlot f { k' with
      misses := bump k.misses
      wait := if (s.acqOf f).state = .presenting ∧ k'.wait = .stopped then .running (s.acq.timing.key * 128)
        else k'.wait }
    (c.phase = none → descramble f c s = outputGate f c s) ∧
    (∀ p, c.phase = some p →
      let other : Bool := k.lastPhase ≠ none ∧ k.lastPhase ≠ some p
      let turned : KeySlot := { k with
        lastPhase := some p
        wordA := if other ∧ p = .b then none else k.wordA
        wordB := if other ∧ p = .a then none else k.wordB }
      let word := match p with | .a => k.wordA | .b => k.wordB
      (word = none → descramble f c s = missed turned) ∧
      (∀ w, word = some w →
        let clear : Cell := { c with
          phase := none, payload := (List.range c.payload.length).map (Config.descrambleByte w c.payload) }
        (k.lastPhase = some p → descramble f c s = outputGate f clear s) ∧
        (k.lastPhase ≠ some p → (s.acqOf f).state ≠ .keying →
          let now := s.setSlot f { turned with wait := .stopped }
          descramble f c s = outputGate f clear
            (if (s.acqOf f).state = .presenting ∧ k.wait = .expired then trigger now else now)) ∧
        (k.lastPhase ≠ some p → (s.acqOf f).state = .keying → ∃ t, descramble f c s = outputGate f clear t ∧
          passesDecision f s t ∧ t.slotOf f = { turned with wait := .stopped } ∧
          unacquired t = unacquired s ∧ agreeOnFeed (otherFeed f) s t)))) ∧
  (∀ (f : Feed) (c : Cell) (s : State),
    let o := s.output
    let gate : Prop := (s.acqOf f).state = .presenting ∧
      ∃ x, o.context = some x ∧ x.feed = f ∧ x.changing = false ∧ x.decision ≠ .deny
    (¬ gate → outputGate f c s = { s with output := { o with blanked := o.blanked.modify f bump } }) ∧
    (gate → programmeCount s < 60 → o.queue.length < 64 → outputGate f c s = { s with output := { o with
      queue := o.queue ++ [.programme c]
      priming := if o.threshold ≤ programmeCount s + 1 then none else o.priming } }) ∧
    (gate → 60 ≤ programmeCount s ∨ 64 ≤ o.queue.length →
      outputGate f c s = { s with output := { o with overflows := bump o.overflows } }))

/-- MANAGEMENT sections: the checks of R33 in order for UNIT, GROUP and ALL, the hand-over of a message that passes to
the owner of each of the nine kinds, and what ENTITLE, REGION, GROUP ASSIGN and SERVICE KEY do (REVOKE, the Purchase
Unit's kinds and PIN RESET: statements of their own). Where both generation slots are empty either may take the key.
That the entitlement table is kept in order of tier is the model's choice (log entry 26). -/
def Obligations.ManagementMessages : Prop :=
  (∀ (body : Bytes) (s : State),
    let mode := (byteAt body 0).toNat
    let a := if mode = 1 then 4 else if mode = 2 then 2 else 0
    let kind := (byteAt body (1 + a)).toNat
    let n := (byteAt body (2 + a)).toNat
    let address := beNat ((body.drop 1).take a)
    let params := (body.drop (3 + a)).take n
    let whole := body.take (3 + a + n)
    let tag := body.drop (3 + a + n)
    let u := s.assembler
    let t := managementSection body s
    let shape := 1 ≤ mode ∧ mode ≤ 3 ∧ body.length = 3 + a + n + (if mode = 3 then 0 else 8)
    let mine := mode = 3 ∨ (mode = 1 ∧ address = s.command.unitAddress ∧ s.command.unitAddress ≠ 0) ∨
      (mode = 2 ∧ s.access.group = some address)
    let keyed := s.access.slot1.isSome = true ∨ s.access.slot2.isSome = true
    let known := 1 ≤ kind ∧ kind ≤ 9 ∧ (kind = 5 → mode = 1)
    let sound := mode = 3 ∨ (kind = 5 ∧ Config.deviceCheck whole tag = true) ∨
      (kind ≠ 5 ∧ ∃ g, currentGeneration s.access = some g ∧ Config.generationCheck g.material whole tag = true)
    (¬ shape → t = { s with assembler := { u with malformed := bump u.malformed } }) ∧
    (shape → ¬ mine → t = s) ∧
    (shape → mine → kind = 0 ∨ 9 < kind →
      t = { s with assembler := { u with unknownKinds := bump u.unknownKinds } }) ∧
    (shape → mine → kind = 5 → mode ≠ 1 →
      t = { s with assembler := { u with malformed := bump u.malformed } }) ∧
    (shape → mine → known → mode ≠ 3 → kind ≠ 5 → ¬ keyed →
      t = { s with assembler := { u with noKey := bump u.noKey } }) ∧
    (shape → mine → known → mode = 3 ∨ kind = 5 ∨ keyed → ¬ sound →
      t = { s with assembler := { u with integrityFailures := bump u.integrityFailures } }) ∧
    (shape → mine → known → mode = 3 ∨ kind = 5 ∨ keyed → sound →
      (kind = 1 → t = entitle params s) ∧ (kind = 2 → t = revoke params s) ∧
      (kind = 3 → t = region params s) ∧ (kind = 4 → t = groupAssign params s) ∧
      (kind = 5 → t = serviceKey params s) ∧ (kind = 6 → t = creditLimit params s) ∧
      (kind = 7 → t = collect params s) ∧ (kind = 8 → t = clearPurchases params s) ∧
      (kind = 9 → t = pinReset params s))) ∧
  (∀ (params : Bytes) (s : State),
    let a := s.access
    let malformed : State := { s with access := { a with malformed := bump a.malformed } }
    let es := a.entitlements
    let e : Entitlement := ⟨beNat (params.take 1), beNat (params.drop 1)⟩
    let granted (es' : List Entitlement) : Prop := entitle params s =
      (if es' = es then s
       else trigger (raise .entitlementChanged { s with access := { a with entitlements := es' } }))
    let g : Generation := ⟨beNat (params.take 1), params.drop 1⟩
    let keys : Access := (serviceKey params s).access
    (params.length ≠ 3 → entitle params s = malformed ∧ groupAssign params s = malformed) ∧
    (params.length = 3 → es.Pairwise (fun x y => x.tier < y.tier) →
      ((∃ x ∈ es, x.tier = e.tier) ∨ es.length < 64 → ∃ es', granted es' ∧
        (∀ x, x ∈ es' ↔ x = e ∨ (x ∈ es ∧ x.tier ≠ e.tier)) ∧ es'.Pairwise (fun x y => x.tier < y.tier)) ∧
      (∀ out ∈ es, (∀ x ∈ es, x.tier ≠ e.tier) → 64 ≤ es.length →
        (∀ x ∈ es, out.expiry < x.expiry ∨ (out.expiry = x.expiry ∧ out.tier ≤ x.tier)) →
        (out.expiry < e.expiry → ∃ es', granted es' ∧
          (∀ x, x ∈ es' ↔ x = e ∨ (x ∈ es ∧ x ≠ out)) ∧ es'.Pairwise (fun x y => x.tier < y.tier)) ∧
        (e.expiry ≤ out.expiry →
          entitle params s = { s with access := { a with refused := bump a.refused } }))) ∧
    (params.length ≠ 2 → region params s = malformed) ∧
    (params.length = 2 → region params s = (if beNat params = a.region then s
      else trigger { s with access := { a with region := beNat params } })) ∧
    (params.length = 3 → groupAssign params s =
      (if byteAt params 0 = 0#8 then { s with access := { a with group := none } }
       else if byteAt params 0 = 1#8 then { s with access := { a with group := some (beNat (params.drop 1)) } }
       else malformed)) ∧
    (params.length ≠ 17 → serviceKey params s = malformed) ∧
    (params.length = 17 →
      serviceKey params s = { s with access := { a with slot1 := keys.slot1, slot2 := keys.slot2 } } ∧
      (∀ x, a.slot1 = some x → x.number = g.number → keys.slot1 = some g ∧ keys.slot2 = a.slot2) ∧
      (∀ y, a.slot2 = some y → y.number = g.number → (∀ x, a.slot1 = some x → x.number ≠ g.number) →
        keys.slot1 = a.slot1 ∧ keys.slot2 = some g) ∧
      (∀ x, a.slot1 = some x → a.slot2 = none → x.number ≠ g.number →
        keys.slot1 = a.slot1 ∧ keys.slot2 = some g) ∧
      (∀ y, a.slot1 = none → a.slot2 = some y → y.number ≠ g.number →
        keys.slot1 = some g ∧ keys.slot2 = a.slot2) ∧
      (a.slot1 = none → a.slot2 = none →
        (keys.slot1 = some g ∧ keys.slot2 = none) ∨ (keys.slot1 = none ∧ keys.slot2 = some g)) ∧
      (∀ x y, a.slot1 = some x → a.slot2 = some y → x.number ≠ g.number → y.number ≠ g.number →
        let d := (x.number + 256 - y.number) % 256
        ((1 ≤ d ∧ d ≤ 127) ∨ (d = 128 ∧ y.number < x.number) →
          keys.slot1 = a.slot1 ∧ keys.slot2 = some g) ∧
        (¬ ((1 ≤ d ∧ d ≤ 127) ∨ (d = 128 ∧ y.number < x.number)) →
          keys.slot1 = some g ∧ keys.slot2 = a.slot2))))

/-- LOCK_LINE_CHANGE under lock source TUNER: true takes the front from DOWN to HUNT and lets a LOCKING step pass,
false takes it to DOWN, out of LOCKED with what that does to entries, assemblies and record; a level that stood already
moves nothing. In start-up, on a disabled feed, at an absent F1, and under lock source SYNC, FORCED or OFF only the level
is kept. -/
def Obligations.LockLineMovesTheFront : Prop :=
  ∀ (f : Feed) (s : State),
    let x := s.frontOf f
    (∀ high, s.running = false ∨ usable s f = false ∨ x.source ≠ .tuner →
      exec (.lockLineChange f high) s = .next (setLockLine f high s)) ∧
    (s.running = true → usable s f = true → x.source = .tuner →
      (s.lines.lock.get f = false → x.sync = .down →
        let hunting := (setLockLine f true s).setFront f
          { x with sync := .hunt, position := 0, slot := none, held := [] }
        ((s.acqOf f).state ≠ .locking → exec (.lockLineChange f true) s = .next hunting) ∧
        ((s.acqOf f).state = .locking → exec (.lockLineChange f true) s = .next
          (hunting.setAcq f { s.acqOf f with
            state := .syncing, timer := some (.sync, s.acq.timing.sync * 128) }))) ∧
      (s.lines.lock.get f = true → x.sync ≠ .down → exec (.lockLineChange f true) s = .next s) ∧
      (x.sync = .down → exec (.lockLineChange f false) s = .next (setLockLine f false s)) ∧
      (x.sync ≠ .down → x.sync.isLocked = false → exec (.lockLineChange f false) s = .next
        ((setLockLine f false s).setFront f { x with sync := .down, position := 0, slot := none, held := [] })) ∧
      (x.sync.isLocked = true → ∃ t, exec (.lockLineChange f false) s = .next t ∧
        t.frontOf f = { x with sync := .down, position := 0, slot := none, held := [], down := true } ∧
        leavesLocked f s t ∧ unacquired t = unacquired (setLockLine f false s) ∧ agreeOnFeed (otherFeed f) s t))

/-! ## Network Clock -/

/-- CLOCK_ADVANCE: N, S and K; every running timer and the part-second count 125 ticks; nothing else moves while the
clock is UNSET or the whole seconds stay; in start-up with the reset line released, where the clock is UNSET, only the
clock counts; no advance while the reset line is asserted. -/
def Obligations.ClockAdvanceMovesTime : Prop :=
  ∀ s : State,
    let quiet := s.clock.state = .unset ∨ nextNetworkTime s.clock / 1024 = s.clock.n / 1024
    (s.lines.resetAsserted = true → exec .clockAdvance s = .next s) ∧
    (s.lines.resetAsserted = false → s.running = false → quiet →
      exec .clockAdvance s = .next { s with clock := counted s.clock }) ∧
    (s.lines.resetAsserted = false → s.running = true → ∃ t, exec .clockAdvance s = .next t ∧
      t.clock = { counted s.clock with
        lossTimer := less125 s.clock.lossTimer, lastMinute := t.clock.lastMinute, creditedDay := t.clock.creditedDay } ∧
      t.acq = { s.acq with record := ⟨recordLess125 s.acq.record.f0, recordLess125 s.acq.record.f1⟩ } ∧
      t.access = { s.access with
        keySlot := ⟨slotLess125 s.access.keySlot.f0, slotLess125 s.access.keySlot.f1⟩
        entitlements := t.access.entitlements } ∧
      t.purchase.waitTimer = less125 s.purchase.waitTimer ∧ t.limits.lockout = less125 s.limits.lockout ∧
      t.front = s.front ∧ t.filter = s.filter ∧ t.assembler = s.assembler ∧ t.lines = s.lines ∧
      (quiet → t = oneAdvance s))

/-- CLOCK_ADVANCE to a new second of a clock that is not UNSET, and a mark: the boundary evaluations of the three kinds
(R50 to R53). Over the state with its new time: purchases commit at their deadline and COLLECTED ones leave at their
end, each with PURCHASE CHANGED; the watched channel's current event is compared (R71); a PREVIEW past its end is decided
again (R170), and so is every context at a step (R171); at a new local minute and at a step the window standing is worked
out again (R158, R159); at a day rollover expired entitlements and ended events leave and allowances are restored.
Whenever one of these re-decides, the context ends with what a decision on the state then finds. An advance makes one with
a second boundary, a step one with its step flag set, a slew that changes the offset one without a second boundary, and a
slew that keeps it none. The 125 ticks that an advance takes from a timer are the model's choice (log entry 3). -/
def Obligations.BoundariesOfAnAdvance : Prop :=
  (∀ s : State, s.lines.resetAsserted = false → s.running = true → s.clock.state ≠ .unset →
    nextNetworkTime s.clock / 1024 ≠ s.clock.n / 1024 →
    ∃ t, exec .clockAdvance s = .next t ∧ boundaryMade true false (oneAdvance s) t) ∧
  (∀ (m : Mark) (s : State), m.value < 2 ^ 42 → s.clock.n < 2 ^ 42 →
    (isStep m s.clock → boundaryMade true true (steppedTo m s) (applyMark m s)) ∧
    (¬ isStep m s.clock → m.offset ≠ s.clock.offset → boundaryMade false false (slewedTo m s) (applyMark m s)) ∧
    (¬ isStep m s.clock → m.offset = s.clock.offset → applyMark m s = slewedTo m s))

/-- LOSS_TIMER_EXPIRY, LOCKOUT_EXPIRY and PRIMING_TIMER_EXPIRY of a timer that has run out, and that none acts while
its timer is stopped or has time left (when a timer has run out: log entry 3). -/
def Obligations.LossLockoutAndPrimingExpiry : Prop :=
  ∀ s : State,
    (s.running = true → s.clock.lossTimer = some 0 → exec .lossTimerExpiry s = .next
      { s with clock := { s.clock with state := .holdover, lossTimer := none } }) ∧
    (s.running = true → s.limits.lockout = some 0 → exec .lockoutExpiry s = .next
      { s with limits := { s.limits with lockout := none, attempts := 0 } }) ∧
    (s.running = true → s.output.priming = some 0 → exec .primingTimerExpiry s = .next
      { s with output := { s.output with priming := none } }) ∧
    (s.running = false ∨ s.clock.lossTimer ≠ some 0 → exec .lossTimerExpiry s = .next s) ∧
    (s.running = false ∨ s.limits.lockout ≠ some 0 → exec .lockoutExpiry s = .next s) ∧
    (s.running = false ∨ s.output.priming ≠ some 0 → exec .primingTimerExpiry s = .next s)

/-- A mark applied: the first set and an error above the threshold step the clock, any other error slews it; offset,
state, loss timer and counts follow, and the loss timer it starts does not expire at once. A TIME cell: counted when
it is short or the time source does not take its feed, else applied as a mark. SET_CLOCK: refused without its seven
bytes or outside time source COMMAND, else applied as a mark and answered DONE. The layout of SET_CLOCK's results is
DEDUCED (log entry 11). -/
def Obligations.MarksAndSetClock : Prop :=
  (∀ (m : Mark) (s : State), m.value < 2 ^ 42 → s.clock.n < 2 ^ 42 →
    let c := s.clock
    let t := applyMark m s
    let error := signedDifference m.value c.n
    (c.state = .unset ∨ (c.threshold : Int) < |error| →
      t.clock.n = m.value ∧ t.clock.s = 0 ∧ t.clock.stepCount = bump c.stepCount ∧
      t.clock.slews = c.slews ∧ noticeSet .clockStepped t = true) ∧
    (c.state ≠ .unset → |error| ≤ (c.threshold : Int) →
      t.clock.n = c.n ∧ t.clock.s = max (-1024) (min 1024 error) ∧
      t.clock.stepCount = c.stepCount ∧ t.clock.slews = bump c.slews) ∧
    t.clock.offset = m.offset ∧ t.clock.state = .set ∧
    t.clock.lossTimer = some (c.lossTime * 128000) ∧ t.clock.marksApplied = bump c.marksApplied ∧
    t.clock.lastSource = some m.source ∧ t.clock.k = c.k ∧ t.clock.source = c.source ∧
    t.front = s.front ∧ t.filter = s.filter ∧ t.assembler = s.assembler ∧ t.acq = s.acq ∧ t.lines = s.lines ∧
    (0 < c.lossTime → exec .lossTimerExpiry t = .next t)) ∧
  (∀ (f : Feed) (payload : Bytes) (s : State),
    let c := s.clock
    let taken := c.source = .any ∨ (c.source = .feed0 ∧ f = .f0) ∨ (c.source = .feed1 ∧ f = .f1)
    let fraction := min (beNat ((payload.drop 4).take 2)) 1023
    (payload.length < 7 → timeCell f payload s = { s with clock := { c with shortCells := bump c.shortCells } }) ∧
    (7 ≤ payload.length → ¬ taken →
      timeCell f payload s = { s with clock := { c with marksIgnored := bump c.marksIgnored } }) ∧
    (7 ≤ payload.length → taken → timeCell f payload s = applyMark
      { value := beNat (payload.take 4) * 1024 + fraction, fraction
        offset := max (-48) (min 56 (byteAt payload 6).toInt)
        source := match f with | .f0 => .f0 | .f1 => .f1 } s)) ∧
  (∀ (tag : Byte) (params : Bytes) (s : State), takesAtOnce s →
      let fraction := min (beNat ((params.drop 4).take 2)) 1023
      let m : Mark :=
        { value := beNat (params.take 4) * 1024 + fraction, fraction
          offset := max (-48) (min 56 (byteAt params 6).toInt), source := .command }
      (params.length < 7 →
        exec (.setClock tag params) s = .next (replied tag 0x25#8 .badParameter [] s)) ∧
      (7 ≤ params.length → s.clock.source ≠ .command →
        exec (.setClock tag params) s = .next (replied tag 0x25#8 .wrongSource [] s)) ∧
      (7 ≤ params.length → s.clock.source = .command → ∃ t, exec (.setClock tag params) s = .next t ∧
        t.clock = (applyMark m (reserve s)).clock ∧
        t = replied tag 0x25#8 .done (setClockResults m s.clock t.clock) (endReservation (applyMark m (reserve s))) ∧
        lastReply tag 0x25#8 .done (setClockResults m s.clock t.clock) t))

/-! ## Acquisition Controller -/

/-- SETTLE_, LOCK_ and SYNC_TIMER_EXPIRY of a timer that has run out (log entry 3): LOCKING, and SYNCING at once under
a true lock indication, and what follows SYNCING over a LOCKED front; a retry while attempts are left, and FAILED with
cause TUNER or SYNC otherwise. That the DONE of a PARK that passes begins with the feed byte is DEDUCED (log entry 12). -/
def Obligations.SettleLockAndSyncExpiry : Prop :=
  ∀ (f : Feed) (s : State), s.running = true →
    let r := s.acqOf f
    (r.timer = some (.settle, 0) →
      (lockIndication s f = false → exec (.settleTimerExpiry f) s = .next
        (s.setAcq f { r with state := .locking, timer := some (.lock, s.acq.timing.lock * 128) })) ∧
      (lockIndication s f = true → locked s f = false → exec (.settleTimerExpiry f) s = .next
        (s.setAcq f { r with state := .syncing, timer := some (.sync, s.acq.timing.sync * 128) })) ∧
      (lockIndication s f = true → locked s f = true →
        ∃ t, exec (.settleTimerExpiry f) s = .next t ∧ passesSync f s t)) ∧
    (r.timer = some (.lock, 0) →
      (∀ k, r.attempts < s.acq.timing.attempts → r.targetCarrier = some k →
        ∃ t, exec (.lockTimerExpiry f) s = .next t ∧ tuningTo f k s t ∧
          (t.acqOf f).attempts = r.attempts + 1 ∧
          t.filter.entries = unexpected f (usable s f && locked s f) s.filter.entries) ∧
      (s.acq.timing.attempts ≤ r.attempts →
        ∃ t, exec (.lockTimerExpiry f) s = .next t ∧ failedAs f .tuner s t)) ∧
    (r.timer = some (.sync, 0) →
      (∀ k, r.attempts < s.acq.timing.attempts → r.targetCarrier = some k →
        ∃ t, exec (.syncTimerExpiry f) s = .next t ∧ tuningTo f k s t ∧
          (t.acqOf f).attempts = r.attempts + 1 ∧
          t.filter.entries = unexpected f (usable s f && locked s f) s.filter.entries) ∧
      (s.acq.timing.attempts ≤ r.attempts →
        ∃ t, exec (.syncTimerExpiry f) s = .next t ∧ failedAs f .sync s t))

/-- Of a timer that has run out (log entry 3): MAP_TIMER_EXPIRY ends an acquisition FAILED with cause NO MAP;
KEY_WAIT_EXPIRY leaves the key-wait timer expired, lets a KEYING record pass its decision step, and sends a re-decision
trigger where the record is PRESENTING. -/
def Obligations.MapAndKeyWaitExpiry : Prop :=
  ∀ (f : Feed) (s : State), s.running = true →
    ((s.acqOf f).timer = some (.map, 0) →
      ∃ t, exec (.mapTimerExpiry f) s = .next t ∧ failedAs f .noMap s t) ∧
    ((s.slotOf f).wait = .running 0 →
      let expired := s.setSlot f { s.slotOf f with wait := .expired }
      ((s.acqOf f).state = .keying → ∃ t, exec (.keyWaitExpiry f) s = .next t ∧
        passesDecision f s t ∧ t.slotOf f = expired.slotOf f) ∧
      ((s.acqOf f).state = .presenting → exec (.keyWaitExpiry f) s = .next (trigger expired)) ∧
      ((s.acqOf f).state ≠ .keying → (s.acqOf f).state ≠ .presenting →
        exec (.keyWaitExpiry f) s = .next expired))

/-- The five acquisition timer rows, in every state, answer a next state and change nothing outside the acquisition of
their feed and what decisions, notices and markers move; while their timer is stopped or has time left they change
nothing (log entry 3). -/
def Obligations.AcquisitionTimersFrame : Prop :=
  ∀ (f : Feed) (row : Instr) (s : State),
    row = .settleTimerExpiry f ∨ row = .lockTimerExpiry f ∨ row = .syncTimerExpiry f ∨
    row = .mapTimerExpiry f ∨ row = .keyWaitExpiry f →
    ∃ t, exec row s = .next t ∧
    unacquired t = unacquired s ∧ agreeOnFeed (otherFeed f) s t ∧
    ((∀ kind, (s.acqOf f).timer ≠ some (kind, 0)) → (s.slotOf f).wait ≠ .running 0 → t = s)

/-! ## Allowance meter and return path -/

/-- METER_SECOND takes one second from the active profile's remaining allowance when the part-second of the running
meter has reached 1000 ms (128000 ticks: log entry 3), and nothing while it stands below: at 300 left LIMIT is raised,
at 0 the meter stops too and a re-decision is made. Where the coming clock advance brings the part-second there and a
day rollover with it, the subtraction may be taken first, by a METER_SECOND before that CLOCK_ADVANCE (R162; log entry
36). -/
def Obligations.MeterSecondSpendsAllowance : Prop :=
  ∀ s : State, s.running = true →
    let second := nextNetworkTime s.clock / 1024
    let together := 128000 ≤ s.limits.part + 125 ∧ s.lines.resetAsserted = false ∧ s.clock.state ≠ .unset ∧
      second ≠ s.clock.n / 1024 ∧ s.clock.creditedDay < ((second : Int) + s.clock.offset * 900).toNat / 86400
    let due := 128000 ≤ s.limits.part ∨ together
    (s.limits.running = false ∨ ¬ due → exec .meterSecond s = .next s) ∧
    (s.limits.running = true → due → s.limits.active ≠ 0 → ∃ t, exec .meterSecond s = .next t ∧
      (activeProfile t).remaining = (activeProfile s).remaining - 1 ∧ t.limits.part = 0 ∧
      (∀ p, p ≠ s.limits.active → profileOf t.limits p = profileOf s.limits p) ∧
      t.limits.active = s.limits.active ∧ t.limits.pin = s.limits.pin ∧
      t.limits.attempts = s.limits.attempts ∧ t.limits.lockout = s.limits.lockout ∧
      ((activeProfile t).remaining = 0 → t.limits.running = false ∧ redecided s t) ∧
      ((activeProfile t).remaining = 0 ∨ (activeProfile t).remaining = 300 → noticeSet .limit t = true) ∧
      ((activeProfile t).remaining ≠ 0 → t.limits.running = true ∧ t.output.context = s.output.context) ∧
      untriggered { t with limits := s.limits } = untriggered s)

/-- R144 whole: a pulse taken while the transmitter is IDLE or WAITING is no outcome; it is ignored and counted, and
queue, attempt count and wait timer are unchanged. In SENDING a pulse is the outcome and is not counted so. -/
def Obligations.SpuriousPulsesAreIgnored : Prop :=
  ∀ s : State, s.running = true →
    (s.purchase.tx = .idle ∨ s.purchase.tx = .waiting →
      exec .sentPulse s = .next { s with purchase := { s.purchase with spurious := bump s.purchase.spurious } } ∧
      exec .collidedPulse s = .next
        { s with purchase := { s.purchase with spurious := bump s.purchase.spurious } }) ∧
    (s.purchase.tx = .sending →
      (∃ t, exec .sentPulse s = .next t ∧ t.purchase.spurious = s.purchase.spurious ∧
        t.purchase.sent = bump s.purchase.sent) ∧
      (∃ t, exec .collidedPulse s = .next t ∧ t.purchase.spurious = s.purchase.spurious))

/-- SENT_PULSE, COLLIDED_PULSE and RETURN_WAIT_EXPIRY in their states: the next cell, the wait of (1 + address mod 8)
times 2^(k-1) slots of 2 ms, the drop at the eighth collision, and the cell handed over again when the wait timer has
run out, not before (log entry 3); and COLLECT, which fills the empty return queue with the COMMITTED records, four to
a cell. That the 4-byte purchase time of a return cell is the low 32 bits of the one held is DEDUCED (log entry 24).
-/
def Obligations.ReturnTransmitterOutcomes : Prop :=
  (∀ (params : Bytes) (s : State),
    let p := s.purchase
    let rs := p.records.filter (fun r => r.state = .committed)
    let t := collect params s
    (params.length ≠ 0 → t = { s with purchase := { p with malformed := bump p.malformed } }) ∧
    (params = [] → p.returnQueue ≠ [] →
      t = { s with purchase := { p with ignoredCollects := bump p.ignoredCollects } }) ∧
    (params = [] → p.returnQueue = [] →
      t = { s with
        purchase := { p with returnQueue := t.purchase.returnQueue, tx := .sending, attempts := 0, waitTimer := none }
        lines := { s.lines with onU := t.purchase.returnQueue.head? } } ∧
      t.purchase.returnQueue.length = (if rs = [] then 1 else (rs.length + 3) / 4) ∧
      ∀ i < t.purchase.returnQueue.length,
        let group := (rs.drop (4 * i)).take 4
        let body := beBytes 4 s.command.unitAddress ++ [1#8] ++ beBytes 1 group.length ++
          group.flatMap (fun r => beBytes 4 r.seq ++ beBytes 2 r.eventId ++ beBytes 2 r.channel ++
            beBytes 2 r.price ++ beBytes 4 r.time) ++ List.replicate (56 - 14 * group.length) 0#8
        t.purchase.returnQueue[i]? = some (body ++ beBytes 2 (crc16 body).toNat))) ∧
  ∀ s : State, s.running = true →
    let p := s.purchase
    (p.tx = .sending → p.returnQueue.tail = [] → exec .sentPulse s = .next
      { s with purchase := { p with
          sent := bump p.sent, returnQueue := [], tx := .idle, attempts := 0, waitTimer := none } }) ∧
    (∀ next, p.tx = .sending → p.returnQueue.tail.head? = some next → exec .sentPulse s = .next
      { s with
        purchase := { p with
          sent := bump p.sent, returnQueue := p.returnQueue.tail, tx := .sending, attempts := 0,
          waitTimer := none }
        lines := { s.lines with onU := some next } }) ∧
    (p.tx = .sending → p.attempts + 1 < 8 → exec .collidedPulse s = .next
      { s with purchase := { p with
          tx := .waiting, attempts := p.attempts + 1
          waitTimer := some ((1 + s.command.unitAddress % 8) * 2 ^ p.attempts * 2 * 128) } }) ∧
    (p.tx = .sending → 8 ≤ p.attempts + 1 → ∃ t, exec .collidedPulse s = .next t ∧
      t.purchase.returnQueue = p.returnQueue.tail ∧ t.purchase.dropped = bump p.dropped ∧
      t.purchase.attempts = 0 ∧ t.purchase.waitTimer = none ∧
      t.purchase.tx = (if p.returnQueue.tail = [] then .idle else .sending) ∧
      t.purchase.records = p.records ∧ t.purchase.debt = p.debt ∧ noticeSet .returnFailed t = true ∧
      untriggered { t with purchase := p, lines := s.lines } = untriggered s) ∧
    (p.waitTimer = some 0 → exec .returnWaitExpiry s = .next
      { s with purchase := { p with tx := .sending, waitTimer := none }
               lines := { s.lines with onU := p.returnQueue.head? } }) ∧
    (p.waitTimer ≠ some 0 → exec .returnWaitExpiry s = .next s)

/-! ## Output port, local port, arbiter -/

/-- HOLD_LINE_CHANGE and OUTPUT_CELL_WRITE: nothing while held or in start-up, the head cell while OPEN, and a FILL
cell on an empty queue or while PRIMING. -/
def Obligations.OutputPortWrites : Prop :=
  ∀ s : State,
    (∀ asserted, exec (.holdLineChange asserted) s = .next { s with lines := { s.lines with hold := asserted } }) ∧
    (s.running = false ∨ s.lines.hold = true → exec .outputCellWrite s = .next s) ∧
    (s.running = true → s.lines.hold = false →
      (s.output.queue = [] ∨ s.output.priming.isSome = true → ∃ fill : Bytes,
        exec .outputCellWrite s = .next
          { s with lines := { s.lines with onP := fill }, freeIndex := s.freeIndex + 123 } ∧
        fill.length = 128 ∧ isAligned fill ∧ (readHeader fill).stream = 0 ∧ (readHeader fill).phase = 0 ∧
        (readHeader fill).kind = .fill ∧ (readHeader fill).length = 1 ∧ (readHeader fill).continuity = 0) ∧
      (∀ c rest, s.output.priming = none → s.output.queue = .programme c :: rest →
        exec .outputCellWrite s = .next
          { s with lines := { s.lines with onP := programmeBytes c }
                   output := { s.output with queue := rest } }) ∧
      (∀ c rest, s.output.priming = none → s.output.queue = .ofPart c :: rest →
        exec .outputCellWrite s = .next
          { s with lines := { s.lines with onP := localBytes c s.output.continuity s.freeIndex }
                   output := { s.output with queue := rest, continuity := (s.output.continuity + 1) % 8 }
                   freeIndex := s.freeIndex + (122 - c.payload.length) }))

/-- LOCAL_CELL_TRANSFER moves the head of the reply queue while the output queue has room; LOCAL_CELL_RECEIVE drops a
framed cell with the count of the first check that fails, puts it in the intake, or drops it as an overrun when the
intake is full; a cell whose frame was open when a reset was applied is discarded uncounted (the row's operand says so:
log entry 32). -/
def Obligations.LocalCellsMoveAndArrive : Prop :=
  (∀ s : State, s.running = true →
    (s.command.replyQueue = [] ∨ 64 ≤ s.output.queue.length → exec .localCellTransfer s = .next s) ∧
    (∀ cell rest, s.command.replyQueue = cell :: rest → s.output.queue.length < 64 →
      exec .localCellTransfer s = .next
        { s with command := { s.command with replyQueue := rest }
                 output := { s.output with queue := s.output.queue ++ [.ofPart cell] } })) ∧
  (∀ (bytes : Bytes) (s : State), s.running = true →
    let u := s.command
    let h := readHeader bytes
    let headerOk := isAligned bytes ∧ h.mustBeZero = 0 ∧ h.phase = 0
    exec (.localCellReceive ⟨bytes, true⟩) s = .next s ∧
    (bytes.length < 128 → exec (.localCellReceive ⟨bytes, false⟩) s = .next
      { s with command := { u with framingDrops := bump u.framingDrops } }) ∧
    (128 ≤ bytes.length →
      (¬ headerOk → exec (.localCellReceive ⟨bytes, false⟩) s = .next
        { s with command := { u with headerDrops := bump u.headerDrops } }) ∧
      (headerOk → h.kind = .fill → exec (.localCellReceive ⟨bytes, false⟩) s = .next s) ∧
      (headerOk → h.kind ≠ .fill → h.stream ≠ 4094 → exec (.localCellReceive ⟨bytes, false⟩) s = .next
        { s with command := { u with streamDrops := bump u.streamDrops } }) ∧
      (headerOk → h.stream = 4094 → h.kind ≠ .fill → h.kind ≠ .command →
        exec (.localCellReceive ⟨bytes, false⟩) s = .next
          { s with command := { u with kindDrops := bump u.kindDrops } }) ∧
      (headerOk → h.stream = 4094 → h.kind = .command → h.length < 2 ∨ 122 < h.length →
        exec (.localCellReceive ⟨bytes, false⟩) s = .next
          { s with command := { u with lengthDrops := bump u.lengthDrops } }) ∧
      (headerOk → h.stream = 4094 → h.kind = .command → 2 ≤ h.length → h.length ≤ 122 →
        u.intake.length < 8 → exec (.localCellReceive ⟨bytes, false⟩) s = .next
          { s with command := { u with intake := u.intake ++
            [⟨byteAt bytes 6, byteAt bytes 7, ((bytes.drop 6).take h.length).drop 2⟩] } }) ∧
      (headerOk → h.stream = 4094 → h.kind = .command → 2 ≤ h.length → h.length ≤ 122 →
        8 ≤ u.intake.length → ∃ t, exec (.localCellReceive ⟨bytes, false⟩) s = .next t ∧
          t.command.intake = u.intake ∧ t.command.overruns = bump u.overruns ∧ noticeSet .overrun t = true ∧
          untriggered t = untriggered { s with command := { u with overruns := bump u.overruns } }))) ∧
  (∀ (frame : LocalFrame) (s : State), s.running = false → exec (.localCellReceive frame) s = .next s)

/-- REPLY_ENTRY_ARBITER gives a free reply entry to the first claimant whose need is met, in the order: formed answers,
held reply, pending marker, notice-pending mark, head of the intake; a held reply that does not fit yet lets a marker
or a NOTICE pass, and holds the intake back. A command row that cannot be taken at once: discarded in start-up, put in
the intake while it holds fewer than 8, and otherwise dropped with the overrun count and OVERRUN (log entry 1). -/
def Obligations.CommandsWaitForTheArbiter : Prop :=
  (∀ s : State, s.running = true →
    let tooLong := ∃ cells, s.command.heldReply = some cells ∧ freeEntries s < cells.length - 1
    (freeEntries s = 0 → exec .replyEntryArbiter s = .next s) ∧
    (0 < freeEntries s →
      (∀ f rest cell, s.acq.formedOrder = f :: rest → (s.acqOf f).pending = .formed cell →
        exec .replyEntryArbiter s = .next
          (placeCells [cell]
            (({ s with acq := { s.acq with formedOrder := rest } } : State).setAcq f
              { s.acqOf f with pending := .none }))) ∧
      (s.acq.formedOrder = [] →
        (∀ cells, s.command.heldReply = some cells → cells.length - 1 ≤ freeEntries s →
          exec .replyEntryArbiter s = .next
            (placeCells cells { s with command := { s.command with reserved := false, heldReply := none } })) ∧
        (∀ m, s.command.heldReply = none ∨ tooLong → s.output.pendingMarker = some m →
          exec .replyEntryArbiter s = .next
            (placeCells [.marker m.channel m.decision m.reason]
              { s with output := { s.output with pendingMarker := none } })) ∧
        (s.command.heldReply = none ∨ tooLong → s.output.pendingMarker = none → s.command.noticePending = true →
          exec .replyEntryArbiter s = .next
            (placeCells [.notice s.command.notices]
              { s with command := { s.command with noticePending := false } })) ∧
        (∀ c rest, s.command.heldReply = none → s.output.pendingMarker = none →
          s.command.noticePending = false → s.command.intake = c :: rest →
          exec .replyEntryArbiter s = .next
            (actByCode c (reserve { s with command := { s.command with intake := rest } }))) ∧
        (tooLong ∨ (s.command.heldReply = none ∧ s.command.intake = []) → s.output.pendingMarker = none →
          s.command.noticePending = false → exec .replyEntryArbiter s = .next s)))) ∧
  (∀ (row : Instr) (c : CommandCell) (s : State), cellOfRow row = some c →
    (s.running = false → exec row s = .next s) ∧
    (s.running = true → mayTake s = false →
      (s.command.intake.length < 8 → exec row s = .next
        { s with command := { s.command with intake := s.command.intake ++ [c] } }) ∧
      (8 ≤ s.command.intake.length → ∃ t, exec row s = .next t ∧
        t.command.intake = s.command.intake ∧ t.command.overruns = bump s.command.overruns ∧
        noticeSet .overrun t = true ∧
        untriggered t = untriggered
          { s with command := { s.command with overruns := bump s.command.overruns } })))

/-! ## Commands of the Command Unit -/

/-- NO_OPERATION, INVALID_COMMAND and FLAGS_CLEAR; and the eight areas of STATUS READ: one DONE reply of the results
as they stand, nothing else changed but the UP and DOWN flags by FEEDS; FILTER and ACCESS are held while their cells
do not fit. ACQUISITION begins with the standby mode as its position in its list, in standby 0 and awake 1; that and
the layouts of the results are DEDUCED (log entry 11). A STATUS READ without its byte or of an area above 7, which has
no row of its own and comes through the intake, is BAD PARAMETER. How LIMITS reports a part-second that is due and a
lockout that has run out is the model's choice (log entry 3), and so is the byte 1 with which COUNTERS reports the
attention enable as enabled (log entry 41). -/
def Obligations.StatusAndPlainCommands : Prop :=
  (∀ (tag : Byte) (params : Bytes) (s : State), takesAtOnce s →
    exec (.noOperation tag params) s = .next (replied tag 0x01#8 .done [] s) ∧
    (∀ code : Byte, code.toNat ∉ definedCodes → exec (.invalidCommand tag code params) s = .next
      (replied tag code .invalidCommand []
        { s with command := { s.command with invalidCommands := bump s.command.invalidCommands } })) ∧
    (params.length < 2 → exec (.flagsClear tag params) s = .next (replied tag 0x05#8 .badParameter [] s)) ∧
    (2 ≤ params.length →
      let mask := BitVec.ofNat 16 (beNat (params.take 2))
      let left := s.command.notices &&& ~~~mask
      exec (.flagsClear tag params) s = .next
        (replied tag 0x05#8 .done (beBytes 2 left.toNat)
          { s with command := { s.command with
              notices := left
              noticePending := if left = 0 then false else s.command.noticePending } }))) ∧
  (∀ (tag : Byte) (more : Bytes) (s : State), takesAtOnce s →
    let long (results : Bytes) : State :=
      let cells := replyCells tag 0x04#8 .done results
      if cells.length - 1 ≤ freeEntries s - 1 then placeCells cells s
      else { s with command := { s.command with reserved := true, heldReply := some cells } }
    exec (.statusReadFeeds tag more) s = .next
      (replied tag 0x04#8 .done (feedResults s .f0 ++ feedResults s .f1)
        { s with front := ⟨{ s.front.f0 with up := false, down := false },
                          { s.front.f1 with up := false, down := false }⟩ }) ∧
    exec (.statusReadFilter tag more) s = .next (long (filterResults s)) ∧
    exec (.statusReadClock tag more) s = .next (replied tag 0x04#8 .done (clockResults s) s) ∧
    exec (.statusReadAcquisition tag more) s = .next (replied tag 0x04#8 .done (acquisitionResults s) s) ∧
    exec (.statusReadAccess tag more) s = .next (long (accessResults s.access)) ∧
    exec (.statusReadPurchases tag more) s = .next
      (replied tag 0x04#8 .done (purchaseResults s.purchase) s) ∧
    exec (.statusReadLimits tag more) s = .next (replied tag 0x04#8 .done (limitsResults s.limits) s) ∧
    exec (.statusReadCounters tag more) s = .next (replied tag 0x04#8 .done (counterResults s) s) ∧
    (acquisitionResults s).head? = some (if s.acq.standby then 0#8 else 1#8)) ∧
  (∀ (tag : Byte) (params : Bytes) (s : State), takesAtOnce s → params = [] ∨ 8 ≤ (byteAt params 0).toNat →
    actByCode ⟨tag, 0x04#8, params⟩ (reserve s) = replied tag 0x04#8 .badParameter [] s)

/-- SOFT_RESET: every block at its soft reset values, the DONE reply first in the emptied reply queue. -/
def Obligations.SoftResetValues : Prop :=
  ∀ (tag : Byte) (params : Bytes) (s : State), takesAtOnce s →
    ∃ t, exec (.softReset tag params) s = .next t ∧
      t.command = { State.coldCommand with
        starting := false, startKind := s.command.startKind, memory := s.command.memory,
        unitAddress := s.command.unitAddress, retainedValid := s.command.retainedValid,
        attentionEnable := s.command.attentionEnable,
        replyQueue := [.reply tag 0x02#8 .done 0 []] } ∧
      t.lines = { s.lines with tune := ⟨none, none⟩, onU := none } ∧
      (∀ f, t.frontOf f = { State.coldFront (s.frontOf f).enabled with
        source := (s.frontOf f).source
        sync := if feedLock s f then .hunt else .down }) ∧
      t.filter = { State.coldFilter with
        entries := (if (s.frontOf .f0).enabled then fixedEntries .f0 else []) ++
          (if (s.frontOf .f1).enabled then fixedEntries .f1 else []) } ∧
      t.assembler = State.coldAssembler ∧
      t.clock = { s.clock with
        marksApplied := 0, slews := 0, marksIgnored := 0, shortCells := 0, lastSource := none } ∧
      t.guide = { State.coldGuide with channels := s.guide.channels, events := s.guide.events } ∧
      t.acq = { State.coldAcq with timing := s.acq.timing } ∧
      t.access = { State.coldAccess s.access.region with
        entitlements := s.access.entitlements, group := s.access.group,
        slot1 := s.access.slot1, slot2 := s.access.slot2 } ∧
      t.purchase = { State.coldPurchase with
        limit := s.purchase.limit, debt := s.purchase.debt, records := s.purchase.records,
        nextSeq := s.purchase.nextSeq } ∧
      t.limits = { s.limits with
        standing := standingNow s, running := false, part := 0, malformed := 0, wrongPins := 0,
        lockouts := 0 } ∧
      t.output = { State.coldOutput with threshold := s.output.threshold, timeout := s.output.timeout } ∧
      t.f1Present = s.f1Present ∧ t.freeIndex = s.freeIndex

/-- CONFIGURE without the feed fields: refused when its length is wrong, else the marked values are clamped, stored and
reported, and the values of fields not marked stay. That the reply reports an enabled field as 1 is the model's choice
(log entry 41). -/
def Obligations.ConfigureStoresValues : Prop :=
  ∀ (tag : Byte) (params : Bytes) (s : State), takesAtOnce s →
    (configureValues params = none →
      exec (.configure tag params) s = .next (replied tag 0x03#8 .badParameter [] s)) ∧
    (∀ vs, configureValues params = some vs → (∀ i < 4, fieldValue vs i = none) →
      let v := fieldValue vs
      let c := s.clock
      let g := s.acq.timing
      let t1 : State := { s with
        clock := { c with
          source := ((v 4).map timeSourceOf).getD c.source
          threshold := ((v 5).map (fun n => max 64 (min 16384 n))).getD c.threshold
          lossTime := ((v 6).map (fun n => max 10 (min 600 n))).getD c.lossTime }
        acq := { s.acq with timing :=
          { settle := ((v 7).map (fun n => max 10 (min 500 (n / 10 * 10)))).getD g.settle
            lock := ((v 8).map (fun n => max 50 (min 2500 (n / 50 * 50)))).getD g.lock
            sync := ((v 9).map (fun n => max 50 (min 2500 (n / 50 * 50)))).getD g.sync
            map := ((v 10).map (fun n => max 100 (min 5000 (n / 100 * 100)))).getD g.map
            key := ((v 11).map (fun n => max 100 (min 5000 (n / 100 * 100)))).getD g.key
            attempts := ((v 12).map (fun n => max 1 (min 7 n))).getD g.attempts } }
        output := { s.output with
          threshold := ((v 13).map (fun n =>
            if 16 ≤ n then 16 else if 8 ≤ n then 8 else if 4 ≤ n then 4 else 1)).getD s.output.threshold
          timeout := ((v 14).map (fun n => max 10 (min 250 (n / 10 * 10)))).getD s.output.timeout }
        command := { s.command with
          attentionEnable := ((v 15).map (fun n => n != 0)).getD s.command.attentionEnable } }
      exec (.configure tag params) s = .next (replied tag 0x03#8 .done (configurationBytes t1) t1)) ∧
    (params = [0#8, 0#8] →
      exec (.configure tag params) s = .next (replied tag 0x03#8 .done (configurationBytes s) s))

/-- CONFIGURE of a feed's enable and of its lock source. Disabling releases the feed, with an awaiting reply
answered SUPERSEDED and the presentation it held ended, and removes its FIXED and ACQUISITION entries, its taps and the
other feed's entries standing in their order; enabling
adds its three FIXED entries, and the front hunts when its feed lock is true; a value equal to the one held, and F1
asked for while absent, change nothing. A lock source is stored, and the front and a LOCKING step follow the feed lock
and lock indication it gives (R2, R3, R11); what then follows SYNCING over a LOCKED front comes before the reply, which is
DEDUCED (log entry 23), as are the feed byte at the front of the DONE of a PARK that passes (log entry 12) and the
scrambled flag that a released record keeps (log entry 21). That the reply reports an enabled field as 1 is the model's
choice (log entry 41). -/
def Obligations.ConfigureFeedFields : Prop :=
  ∀ (tag : Byte) (f : Feed) (s : State), takesAtOnce s →
    let bit : Byte := match f with | .f0 => 1#8 | .f1 => 4#8
    let x := s.frontOf f
    let hunt (y : Front) : Front := { y with sync := .hunt, position := 0, slot := none, held := [] }
    let syncing (t : State) : State :=
      t.setAcq f { t.acqOf f with state := .syncing, timer := some (.sync, s.acq.timing.sync * 128) }
    let done (v : Byte) (t : State) :=
      exec (.configure tag [0#8, bit, v]) s = .next (replied tag 0x03#8 .done (configurationBytes t) t)
    (∀ v : Byte, x.enabled = true → (v = 0#8 ∨ s.feedPresent f = false) →
      ∃ t, exec (.configure tag [0#8, bit, v]) s = .next t ∧
        t.frontOf f = { x with
          enabled := false, sync := .down, position := 0, slot := none, held := [], up := false,
          down := false } ∧
        t.filter.entries = unexpected f x.sync.isLocked
          (s.filter.entries.filter (fun e => ¬ (e.feed = f ∧ e.owner ≠ .tap))) ∧
        (∃ pending, t.acqOf f = releasedRecord (s.acqOf f) pending ∧ pending.isAwaiting = false) ∧
        t.slotOf f = State.clearSlot (s.slotOf f).misses ∧ t.lines.tune.get f = none ∧
        ((s.acqOf f).role = .present → presentationEnded s t) ∧ pendingEnded f .superseded s t ∧
        LocalCell.reply tag 0x03#8 .done 0 (configurationBytes t) ∈ t.command.replyQueue ∧
        unacquired t = unacquired (s.setFront f { x with enabled := false }) ∧
        agreeOnFeed (otherFeed f) s t) ∧
    (∀ v : Byte, x.enabled = false → v ≠ 0#8 → s.feedPresent f = true → x.sync = .down →
      s.filter.entries.length ≤ 21 → (∀ e ∈ s.filter.entries, e.feed = f → 3 < e.stream) →
      let line := s.lines.lock.get f
      let lock := (x.source = .tuner ∧ line = true) ∨ x.source = .sync ∨ x.source = .forced
      let entered : State := { s with
        filter := { s.filter with entries := s.filter.entries ++ fixedEntries f } }
      let down := entered.setFront f { x with enabled := true }
      let hunting := entered.setFront f (hunt { x with enabled := true })
      (¬ lock → done v down) ∧ (lock → x.source = .sync ∨ (s.acqOf f).state ≠ .locking → done v hunting) ∧
      (lock → x.source ≠ .sync → (s.acqOf f).state = .locking → done v (syncing hunting))) ∧
    (∀ v : Byte, (x.enabled = true ∧ v ≠ 0#8 ∧ s.feedPresent f = true) ∨
        (x.enabled = false ∧ (v = 0#8 ∨ s.feedPresent f = false)) →
      done v s) ∧
    (∀ v : Byte,
      let source : LockSource :=
        if v = 0#8 then .tuner else if v = 1#8 then .sync else if v = 2#8 then .forced else .off
      let line := s.lines.lock.get f
      let lock := usable s f = true ∧ ((source = .tuner ∧ line = true) ∨ source = .sync ∨ source = .forced)
      let before := lockIndication s f
      let y := { x with source }
      let moved := s.setFront f y
      let doneSource (t : State) :=
        exec (.configure tag [0#8, bit <<< 1, v]) s = .next (replied tag 0x03#8 .done (configurationBytes t) t)
      (lock → x.sync = .down →
        let passes := before = false ∧ source ≠ .sync ∧ (s.acqOf f).state = .locking
        (¬ passes → doneSource (s.setFront f (hunt y))) ∧
        (passes → doneSource (syncing (s.setFront f (hunt y))))) ∧
      (lock → x.sync ≠ .down →
        let passes := before = false ∧ (source = .sync → x.sync.isLocked = true) ∧
          (s.acqOf f).state = .locking
        (¬ passes → doneSource moved) ∧ (passes → x.sync.isLocked = false → doneSource (syncing moved)) ∧
        (passes → x.sync.isLocked = true → ∃ t, passesSync f (reserve moved) t ∧
          exec (.configure tag [0#8, bit <<< 1, v]) s =
            .next (replied tag 0x03#8 .done (configurationBytes t) (endReservation t)))) ∧
      (¬ lock → x.sync = .down → doneSource moved) ∧
      (¬ lock → x.sync ≠ .down → x.sync.isLocked = false → doneSource
        (s.setFront f { y with sync := .down, position := 0, slot := none, held := [] })) ∧
      (¬ lock → x.sync.isLocked = true → ∃ t, exec (.configure tag [0#8, bit <<< 1, v]) s = .next t ∧
        t.frontOf f = { y with sync := .down, position := 0, slot := none, held := [], down := true } ∧
        leavesLocked f s t ∧ LocalCell.reply tag 0x03#8 .done 0 (configurationBytes t) ∈ t.command.replyQueue ∧
        unacquired t = unacquired moved ∧ agreeOnFeed (otherFeed f) s t))

/-- R187: the attention line is asserted exactly while the ready line is true, the notice set holds a flag, and
attention is enabled; it is worked out from the state, so it follows every change at once. -/
def Obligations.AttentionLine : Prop :=
  ∀ s : State, s.attention = true ↔
    (s.ready = true ∧ s.command.notices ≠ 0 ∧ s.command.attentionEnable = true)

/-! ## Acquisition commands -/

/-- SELECT, SELECT_NEXT and SELECT_PREVIOUS refused: too few bytes, standby, no such channel, and the channel that is
presented already. That the feed concerned in a refusal is the presentation feed is the model's choice (log entry 34),
and that its byte comes first and a picked channel after it is DEDUCED (log entry 12). -/
def Obligations.SelectRefusals : Prop :=
  ∀ (tag : Byte) (params : Bytes) (s : State), takesAtOnce s →
    let feed := one (feedPosition (presentationFeed s))
    (params.length < 2 → exec (.select tag params) s = .next (replied tag 0x10#8 .badParameter [] s)) ∧
    (s.acq.standby = true →
      (2 ≤ params.length → exec (.select tag params) s = .next (replied tag 0x10#8 .standby feed s)) ∧
      exec (.selectNext tag params) s = .next (replied tag 0x11#8 .standby feed s) ∧
      exec (.selectPrevious tag params) s = .next (replied tag 0x12#8 .standby feed s)) ∧
    (s.acq.standby = false →
      (2 ≤ params.length → entryOf s.guide (beNat (params.take 2)) = none →
        exec (.select tag params) s = .next (replied tag 0x10#8 .unknownChannel feed s)) ∧
      (nextChannel s.guide (selectReference s) = none →
        exec (.selectNext tag params) s = .next (replied tag 0x11#8 .unknownChannel feed s)) ∧
      (previousChannel s.guide (selectReference s) = none →
        exec (.selectPrevious tag params) s = .next (replied tag 0x12#8 .unknownChannel feed s))) ∧
    (∀ row code n picked entry, selects row s tag code n picked → s.acq.standby = false →
      entryOf s.guide n = some entry → presents s (presentationFeed s) n = true →
      exec row s = .next (replied tag code .sameChannel (feed ++ pickedBytes picked) s))

/-- SELECT, SELECT_NEXT and SELECT_PREVIOUS that start an acquisition on the presentation feed: the record, its
entries and key slot, the pending reply, the one it ends answered SUPERSEDED, the changing context, and TUNING, or on
a carrier already held MAPPING at once, or FAILED at once with cause TABLE FULL where the map stream is not to be had.
-/
def Obligations.SelectAcquires : Prop :=
  ∀ (row : Instr) (tag code : Byte) (n : Nat) (picked : Option Nat) (entry : ChannelEntry) (s : State),
    takesAtOnce s → selects row s tag code n picked → selectAcquires s n entry →
    let f := presentationFeed s
    let begun (t : State) : Prop :=
      (t.acqOf f).role = .present ∧ (t.acqOf f).cause = none ∧ (t.acqOf f).target = some entry ∧
      (t.acqOf f).targetCarrier = some entry.carrier ∧ (t.acqOf f).attempts = 1 ∧
      (t.acqOf f).components = [] ∧ (t.acqOf f).version = none ∧
      (t.acqOf f).pending = .awaiting tag code picked ∧ pendingEnded f .superseded s t ∧
      t.slotOf f = State.clearSlot (s.slotOf f).misses ∧
      (∀ c, s.output.context = some c → ∃ c', t.output.context = some c' ∧
        c'.changing = true ∧ (c.changing = false → c'.decision = .deny ∧ c'.reason = .changing))
    (((s.acqOf f).tunedCarrier ≠ some entry.carrier ∨ locked s f = false) →
      ∃ t, exec row s = .next t ∧ tuningTo f entry.carrier s t ∧ begun t ∧
        t.filter.entries = unexpected f (usable s f && locked s f) (withoutAcq f s.filter.entries) ∧
        unacquired t = unacquired s ∧ agreeOnFeed (otherFeed f) s t) ∧
    ((s.acqOf f).tunedCarrier = some entry.carrier → locked s f = true → mapStreamTaken f entry s →
      ∃ t, exec row s = .next t ∧ failsAtStart f .present entry tag code s t) ∧
    ((s.acqOf f).tunedCarrier = some entry.carrier → locked s f = true → ¬ mapStreamTaken f entry s →
      ∃ t, exec row s = .next t ∧ begun t ∧ (t.acqOf f).state = .mapping ∧
        (t.acqOf f).timer = some (.map, s.acq.timing.map * 128) ∧
        t.filter.entries = withoutAcq f s.filter.entries ++
          [newEntry f entry.mapStream .sections .acquisition none] ∧
        unacquired t = unacquired s ∧ agreeOnFeed (otherFeed f) s t)

/-- A SELECT of the channel on which the background feed is READY is a role swap: that feed takes the presentation,
the old one becomes PARKED on its carrier while LOCKED and IDLE otherwise, with an awaiting reply answered SUPERSEDED,
the decision is made on the new feed, and the SELECT is answered DONE. That the answer begins with the feed byte is
DEDUCED (log entry 12), that the feed concerned is the one swapped in is the model's choice (log entry 34), and that
the old feed's record keeps its scrambled flag is DEDUCED (log entry 21). -/
def Obligations.SelectSwapsRoles : Prop :=
  ∀ (row : Instr) (tag code : Byte) (n : Nat) (picked : Option Nat) (entry : ChannelEntry) (s : State),
    takesAtOnce s → selects row s tag code n picked → s.acq.standby = false →
    entryOf s.guide n = some entry → presents s (presentationFeed s) n = false →
    readyOn s (backgroundFeed s) n = true →
    let p := presentationFeed s
    let r := backgroundFeed s
    let parkedOn := if locked s p then (s.acqOf p).tunedCarrier else none
    ∃ t, exec row s = .next t ∧
      t.acqOf r = { s.acqOf r with role := .present, state := .presenting } ∧
      (∃ pending, t.acqOf p = { s.acqOf p with
          role := .background, state := if parkedOn = none then .idle else .parked, cause := none,
          target := none, targetCarrier := parkedOn, attempts := if parkedOn = none then 0 else 1,
          timer := none, pending, components := [], version := none } ∧ pending.isAwaiting = false) ∧
      pendingEnded p .superseded s t ∧ (∀ e, (s.acqOf r).target = some e → presentedAs r e t) ∧
      t.slotOf r = s.slotOf r ∧ t.slotOf p = State.clearSlot (s.slotOf p).misses ∧
      t.filter.entries = withoutAcq p s.filter.entries ∧
      (∃ c, t.output.context = some c ∧ c.feed = r ∧ c.channel = n ∧ c.changing = false) ∧
      (∃ results, LocalCell.reply tag code .done 0 (one (feedPosition r) ++ results) ∈ t.command.replyQueue) ∧
      unacquired t = unacquired s

/-- PRETUNE and PARK on the background feed: the refusals and the answers DONE at once, and the acquisition started
otherwise, which on a carrier already held may end FAILED at once with cause TABLE FULL; an awaiting reply that it
ends is answered SUPERSEDED. That a DONE given at once carries the feed byte only is the model's choice (log entry
33), that the feed concerned in a refused PRETUNE or PARK is the background feed is the model's choice (log entry 34),
and the order of feed byte and carrier in the answer of a PARK is DEDUCED (log entry 12). -/
def Obligations.PretuneAndPark : Prop :=
  ∀ (tag : Byte) (params : Bytes) (s : State), takesAtOnce s →
    let b := backgroundFeed s
    let feed := one (feedPosition b)
    let n := beNat (params.take 2)
    let k := beNat (params.take 1)
    let begun (code : Byte) (target : Option ChannelEntry) (carrier : Nat) (t : State) : Prop :=
      (t.acqOf b).role = .background ∧ (t.acqOf b).cause = none ∧ (t.acqOf b).target = target ∧
      (t.acqOf b).targetCarrier = some carrier ∧ (t.acqOf b).attempts = 1 ∧ (t.acqOf b).components = [] ∧
      (t.acqOf b).version = none ∧ (t.acqOf b).pending = .awaiting tag code none ∧
      pendingEnded b .superseded s t ∧ t.slotOf b = State.clearSlot (s.slotOf b).misses
    (params.length < 2 → exec (.pretune tag params) s = .next (replied tag 0x13#8 .badParameter [] s)) ∧
    (2 ≤ params.length →
      (s.acq.standby = true → exec (.pretune tag params) s = .next (replied tag 0x13#8 .standby feed s)) ∧
      (s.acq.standby = false → usable s b = false →
        exec (.pretune tag params) s = .next (replied tag 0x13#8 .noSecondFeed feed s)) ∧
      (s.acq.standby = false → usable s b = true → entryOf s.guide n = none →
        exec (.pretune tag params) s = .next (replied tag 0x13#8 .unknownChannel feed s)) ∧
      (∀ entry, s.acq.standby = false → usable s b = true → entryOf s.guide n = some entry →
        (presents s (presentationFeed s) n = true →
          exec (.pretune tag params) s = .next (replied tag 0x13#8 .sameChannel feed s)) ∧
        (presents s (presentationFeed s) n = false → readyOn s b n = true →
          exec (.pretune tag params) s = .next (replied tag 0x13#8 .done feed s)) ∧
        (presents s (presentationFeed s) n = false → readyOn s b n = false →
          ((s.acqOf b).tunedCarrier ≠ some entry.carrier ∨ locked s b = false) →
          ∃ t, exec (.pretune tag params) s = .next t ∧ tuningTo b entry.carrier s t ∧
            begun 0x13#8 (some entry) entry.carrier t ∧
            t.filter.entries = unexpected b (usable s b && locked s b) (withoutAcq b s.filter.entries) ∧
            unacquired t = unacquired s ∧ agreeOnFeed (otherFeed b) s t) ∧
        (presents s (presentationFeed s) n = false → readyOn s b n = false →
          (s.acqOf b).tunedCarrier = some entry.carrier → locked s b = true → mapStreamTaken b entry s →
          ∃ t, exec (.pretune tag params) s = .next t ∧ failsAtStart b .background entry tag 0x13#8 s t) ∧
        (presents s (presentationFeed s) n = false → readyOn s b n = false →
          (s.acqOf b).tunedCarrier = some entry.carrier → locked s b = true → ¬ mapStreamTaken b entry s →
          ∃ t, exec (.pretune tag params) s = .next t ∧ begun 0x13#8 (some entry) entry.carrier t ∧
            (t.acqOf b).state = .mapping ∧ (t.acqOf b).timer = some (.map, s.acq.timing.map * 128) ∧
            t.filter.entries = withoutAcq b s.filter.entries ++
              [newEntry b entry.mapStream .sections .acquisition none] ∧
            unacquired t = unacquired s ∧ agreeOnFeed (otherFeed b) s t))) ∧
    (params.length < 1 → exec (.park tag params) s = .next (replied tag 0x14#8 .badParameter [] s)) ∧
    (1 ≤ params.length →
      (usable s b = false →
        exec (.park tag params) s = .next (replied tag 0x14#8 .noSecondFeed feed s)) ∧
      (usable s b = true → (s.acqOf b).state = .parked → (s.acqOf b).targetCarrier = some k →
        exec (.park tag params) s = .next (replied tag 0x14#8 .done feed s)) ∧
      (usable s b = true → ((s.acqOf b).state ≠ .parked ∨ (s.acqOf b).targetCarrier ≠ some k) →
        (((s.acqOf b).tunedCarrier ≠ some k ∨ locked s b = false) →
          ∃ t, exec (.park tag params) s = .next t ∧ tuningTo b k s t ∧
            begun 0x14#8 none k t ∧
            t.filter.entries = unexpected b (usable s b && locked s b) (withoutAcq b s.filter.entries) ∧
            unacquired t = unacquired s ∧ agreeOnFeed (otherFeed b) s t) ∧
        ((s.acqOf b).tunedCarrier = some k → locked s b = true →
          ∃ t, exec (.park tag params) s = .next t ∧ (t.acqOf b).role = .background ∧
            (t.acqOf b).state = .parked ∧ (t.acqOf b).target = none ∧
            (t.acqOf b).targetCarrier = some k ∧ (t.acqOf b).timer = none ∧
            (t.acqOf b).attempts = 1 ∧ (t.acqOf b).components = [] ∧ (t.acqOf b).version = none ∧
            t.slotOf b = State.clearSlot (s.slotOf b).misses ∧
            (t.acqOf b).pending.isAwaiting = false ∧ pendingEnded b .superseded s t ∧
            LocalCell.reply tag 0x14#8 .done 0 (feed ++ one k) ∈ t.command.replyQueue ∧
            t.filter.entries = withoutAcq b s.filter.entries ∧
            unacquired t = unacquired s ∧ agreeOnFeed (otherFeed b) s t)))

/-- RELEASE, STANDBY and WAKE: the feed named is released, an awaiting reply answered SUPERSEDED and the presentation
it held ended; STANDBY releases the presentation feed, its awaiting reply answered FAILED with cause STANDBY, parks an
idle background feed on its carrier and puts the part in standby; WAKE leaves standby. That cause byte is DEDUCED (log
entry 30), that it answers a PRETUNE or PARK too is the model's choice (log entry 37), and where the answer has its
feed byte and picked channel is DEDUCED (log entry 12). That the feed concerned in the answers of STANDBY and WAKE is
the presentation feed, and that a RELEASE of no feed carries no feed byte, is the model's choice (log entry 34); that
a released record keeps its scrambled flag is DEDUCED (log entry 21). -/
def Obligations.ReleaseStandbyAndWake : Prop :=
  ∀ (tag : Byte) (params : Bytes) (s : State), takesAtOnce s →
    let p := presentationFeed s
    let b := backgroundFeed s
    (params.length < 1 ∨ 2 ≤ beNat (params.take 1) →
      exec (.release tag params) s = .next (replied tag 0x15#8 .badParameter [] s)) ∧
    (∀ f, 1 ≤ params.length → beNat (params.take 1) = feedPosition f →
      ∃ t, exec (.release tag params) s = .next t ∧
        (∃ pending, t.acqOf f = releasedRecord (s.acqOf f) pending ∧ pending.isAwaiting = false) ∧
        t.slotOf f = State.clearSlot (s.slotOf f).misses ∧
        t.filter.entries = withoutAcq f s.filter.entries ∧
        ((s.acqOf f).role = .present → presentationEnded s t) ∧ pendingEnded f .superseded s t ∧
        LocalCell.reply tag 0x15#8 .done 0 (one (feedPosition f)) ∈ t.command.replyQueue ∧
        unacquired t = unacquired s ∧ agreeOnFeed (otherFeed f) s t) ∧
    (s.acq.standby = true →
      exec (.standby tag params) s = .next (replied tag 0x16#8 .done (one (feedPosition p)) s)) ∧
    (s.acq.standby = false → ∃ t, exec (.standby tag params) s = .next t ∧ t.acq.standby = true ∧
      (∃ pending, t.acqOf p = releasedRecord (s.acqOf p) pending ∧ pending.isAwaiting = false) ∧
      t.filter.entries.filter (fun e => e.feed = p) =
        (withoutAcq p s.filter.entries).filter (fun e => e.feed = p) ∧
      t.slotOf p = State.clearSlot (s.slotOf p).misses ∧
      ((s.acqOf p).role = .present → presentationEnded s t) ∧
      (∀ tag' code picked, (s.acqOf p).pending = .awaiting tag' code picked →
        let cell := LocalCell.reply tag' code .failed 0 (one (feedPosition p) ++ one 5 ++ pickedBytes picked)
        cell ∈ t.command.replyQueue ∨ (t.acqOf p).pending = .formed cell) ∧
      (∀ k, (s.acqOf b).state = .idle → usable s b = true → (s.acqOf p).tunedCarrier = some k →
        (t.acqOf b).role = .background ∧ (t.acqOf b).target = none ∧ (t.acqOf b).attempts = 1 ∧
        (t.acqOf b).targetCarrier = some k ∧ (t.acqOf b).pending = .none ∧
        ((s.acqOf b).tunedCarrier = some k → locked s b = true → (t.acqOf b).state = .parked) ∧
        ((s.acqOf b).tunedCarrier ≠ some k ∨ locked s b = false → tuningTo b k s t)) ∧
      ((s.acqOf b).state ≠ .idle ∨ usable s b = false ∨ (s.acqOf p).tunedCarrier = none →
        t.acqOf b = s.acqOf b) ∧
      LocalCell.reply tag 0x16#8 .done 0 (one (feedPosition p)) ∈ t.command.replyQueue ∧
      unacquired { t with acq := { t.acq with standby := false } } = unacquired s) ∧
    exec (.wake tag params) s = .next (replied tag 0x17#8 .done (one (feedPosition p))
      { s with acq := { s.acq with standby := false } })

/-! ## Guide commands and taps -/

/-- CHANNEL_READ, GUIDE_SEARCH and GUIDE_READ change nothing but the reply queue, whatever they find. The layout of
the results, with a base tier FREE reported by CHANNEL_READ as an absent tier, is DEDUCED (log entry 11). -/
def Obligations.GuideCommandsRead : Prop :=
  ∀ (tag : Byte) (params : Bytes) (s : State), takesAtOnce s →
    let n := beNat ((params.drop 1).take 2)
    let held := beBytes 2 s.guide.channels.length
    (params.length < 3 ∨ 2 ≤ beNat (params.take 1) →
      exec (.channelRead tag params) s = .next (replied tag 0x20#8 .badParameter [] s)) ∧
    (3 ≤ params.length → beNat (params.take 1) = 0 →
      (∀ e, entryOf s.guide n = some e → exec (.channelRead tag params) s = .next
        (replied tag 0x20#8 .done (channelResults s e) s)) ∧
      (entryOf s.guide n = none → exec (.channelRead tag params) s = .next
        (replied tag 0x20#8 .unknownChannel held s))) ∧
    (3 ≤ params.length → beNat (params.take 1) = 1 →
      (∀ e, s.guide.channels.find? (fun x => n < x.number) = some e →
        exec (.channelRead tag params) s = .next (replied tag 0x20#8 .done (channelResults s e) s)) ∧
      ((∀ x ∈ s.guide.channels, x.number ≤ n) → exec (.channelRead tag params) s = .next
        (replied tag 0x20#8 .endOfMap held s))) ∧
    (let q := readSearch ⟨tag, 0x21#8, params⟩
     let good := 14 ≤ params.length ∧ q.field ≤ 4 ∧ q.comparison ≤ 2 ∧ (q.step = 1 ∨ q.step = 2) ∧ q.skip ≤ 1
     (¬ good → exec (.guideSearch tag params) s = .next (replied tag 0x21#8 .badParameter [] s)) ∧
     (good → exec (.guideSearch tag params) s = .next (replied tag 0x21#8 (searchEnd s.guide q).outcome
        (searchResults s.guide q (searchEnd s.guide q)) s))) ∧
    (let c := beNat (params.take 2)
     let i := beNat ((params.drop 2).take 2)
     let k := beNat ((params.drop 4).take 1)
     let es := s.guide.events.filter (fun e => e.channel = c)
     let cells := replyCells tag 0x22#8 .done (readResults es i k)
     (params.length < 5 ∨ k = 0 ∨ 4 < k →
        exec (.guideRead tag params) s = .next (replied tag 0x22#8 .badParameter [] s)) ∧
     (5 ≤ params.length → 1 ≤ k → k ≤ 4 →
        (es = [] → entryOf s.guide c = none →
          exec (.guideRead tag params) s = .next (replied tag 0x22#8 .unknownChannel [] s)) ∧
        (es = [] → (entryOf s.guide c).isSome = true →
          exec (.guideRead tag params) s = .next (replied tag 0x22#8 .empty (beBytes 2 0) s)) ∧
        (es ≠ [] → es.length ≤ i → exec (.guideRead tag params) s = .next
          (replied tag 0x22#8 .endOfList (beBytes 2 es.length) s)) ∧
        (i < es.length → cells.length ≤ freeEntries s →
          exec (.guideRead tag params) s = .next (placeCells cells s)) ∧
        (i < es.length → freeEntries s < cells.length → exec (.guideRead tag params) s = .next
          { s with command := { s.command with reserved := true, heldReply := some cells } })))

/-- What a GUIDE SEARCH with good parameters finds: a HIT stands at a visited index, satisfies the test, and every index
visited before it held a record that does not satisfy it, or a withdrawn one passed over; never more than 256
records are examined. And the converse: a walk that has passed over the records at its first k indices ends at the next
one, with BOUND MISSED, LIMIT, WITHDRAWN, HIT or NOT SATISFIED, or passes over it too. -/
def Obligations.GuideSearchFindsTheFirstHit : Prop :=
  ∀ (g : Guide) (q : SearchParams), q.good = true →
    let es := eventsOf g q.channel
    let x := searchEnd g q
    let index (j : Nat) : Nat := q.first + j * q.step
    let goesOn (e : EventRecord) : Prop :=
      (e.withdrawn = true ∧ q.skip = 1) ∨ (e.withdrawn = false ∧ e.satisfies q = false)
    let endsAs (outcome : ReplyOutcome) (i id examined passed : Nat) : Prop :=
      x.outcome = outcome ∧ x.index = i ∧ x.id = id ∧ x.examined = examined ∧
      (x.withdrawnSeen = true ↔ ∃ j < passed, ∃ e, es[index j]? = some e ∧ e.withdrawn = true)
    (x.outcome = .hit → ∃ j e, x.index = index j ∧ x.index ≤ q.last ∧
      es[x.index]? = some e ∧ e.id = x.id ∧ e.withdrawn = false ∧ e.satisfies q = true ∧
      x.examined = j + 1 ∧ (∀ i < j, ∃ e', es[index i]? = some e' ∧ goesOn e')) ∧
    (x.outcome = .withdrawn → q.skip = 0 ∧ ∃ e, es[x.index]? = some e ∧ e.id = x.id ∧ e.withdrawn = true) ∧
    x.examined ≤ 256 ∧
    (q.last < q.first → x = ⟨.refusedRange, 0, 0, 0, false⟩) ∧
    (q.first ≤ q.last → es = [] →
      x = ⟨if (entryOf g q.channel).isSome then .empty else .unknownChannel, 0, 0, 0, false⟩) ∧
    (∀ k ≤ 256, q.first ≤ q.last → es ≠ [] →
      (∀ j < k, index j < q.last ∧ ∃ e, es[index j]? = some e ∧ goesOn e) →
      (q.last < index k ∨ es.length ≤ index k → endsAs .boundMissed 0 0 k k) ∧
      (k = 256 → index k ≤ q.last → index k < es.length → endsAs .limit (index k) 0 256 k) ∧
      (∀ e, k < 256 → index k ≤ q.last → es[index k]? = some e →
        (e.withdrawn = true → q.skip = 0 → endsAs .withdrawn (index k) e.id (k + 1) k) ∧
        (e.withdrawn = false → e.satisfies q = true → endsAs .hit (index k) e.id (k + 1) k) ∧
        (goesOn e → index k = q.last → endsAs .notSatisfied 0 0 (k + 1) (k + 1))))

/-- TAP_OPEN and TAP_CLOSE: the checks in their order, the entry made or removed with the assembly on it, and the
replies; nothing else changes. -/
def Obligations.TapsOpenAndClose : Prop :=
  ∀ (tag : Byte) (params : Bytes) (s : State), takesAtOnce s →
    let feedByte := beNat (params.take 1)
    let stream := beNat ((params.drop 1).take 2)
    let taps := s.filter.entries.countP (fun e => e.owner = .tap)
    (params.length < 3 ∨ 2 ≤ feedByte ∨ stream = 0 ∨ 4093 < stream →
      exec (.tapOpen tag params) s = .next (replied tag 0x23#8 .badParameter [] s)) ∧
    (∀ f, 3 ≤ params.length → feedByte = feedPosition f → 1 ≤ stream → stream ≤ 4093 →
      (s.feedPresent f = false →
        exec (.tapOpen tag params) s = .next (replied tag 0x23#8 .noSecondFeed [] s)) ∧
      (s.feedPresent f = true → (stream ≤ 3 ∨ (entryAt s f stream).isSome = true) →
        exec (.tapOpen tag params) s = .next (replied tag 0x23#8 .duplicate [] s)) ∧
      (s.feedPresent f = true → 3 < stream → entryAt s f stream = none →
        (8 ≤ taps ∨ 24 ≤ s.filter.entries.length) →
        exec (.tapOpen tag params) s = .next (replied tag 0x23#8 .tableFull [] s)) ∧
      (s.feedPresent f = true → 3 < stream → entryAt s f stream = none → taps < 8 →
        s.filter.entries.length < 24 →
        exec (.tapOpen tag params) s = .next (replied tag 0x23#8 .done (one (23 - s.filter.entries.length))
          { s with filter := { s.filter with entries := s.filter.entries ++
            [newEntry f stream .tap .tap (some ⟨tag, 0⟩)] } }))) ∧
    (params.length < 3 → exec (.tapClose tag params) s = .next (replied tag 0x24#8 .badParameter [] s)) ∧
    (3 ≤ params.length → 2 ≤ feedByte →
      exec (.tapClose tag params) s = .next (replied tag 0x24#8 .notFound [] s)) ∧
    (∀ f, 3 ≤ params.length → feedByte = feedPosition f →
      (tapAt s f stream = none →
        exec (.tapClose tag params) s = .next (replied tag 0x24#8 .notFound [] s)) ∧
      (∀ tap, tapAt s f stream = some tap →
        let a := s.assembler
        let here (x : Assembly) : Bool := x.feed = f ∧ x.stream = stream
        exec (.tapClose tag params) s = .next (replied tag 0x24#8 .done (beBytes 2 tap.drops)
          { s with
            filter := { s.filter with
              entries := s.filter.entries.filter (fun e => ¬ (e.feed = f ∧ e.stream = stream)) }
            assembler := { a with
              buffers := a.buffers.filter (fun x => !here x)
              abandoned := a.abandoned.modify f (fun n => min (n + a.buffers.countP here) 65535) } })))

/-! ## Purchases -/

/-- PURCHASE: the checks in their order, each with its refusal, and the record, debt, sequence counter, re-decision
and reply of one that passes, with its PIN where one is asked for. That the 4-byte deadline of the reply is the low 32
bits of the one held is DEDUCED (log entry 24). -/
def Obligations.PurchaseIsCheckedAndTaken : Prop :=
  ∀ (tag : Byte) (params : Bytes) (s : State), takesAtOnce s →
    let id := beNat (params.take 2)
    let pin := beNat ((params.drop 2).take 2)
    let u := s.purchase
    let refusedWith (o : ReplyOutcome) := exec (.purchase tag params) s = .next (replied tag 0x30#8 o [] s)
    (params.length < 4 → refusedWith .badParameter) ∧
    (4 ≤ params.length →
      (s.clock.state = .unset → refusedWith .noTime) ∧
      (s.clock.state ≠ .unset → (∀ e, eventById s.guide id = some e → e.withdrawn = true) →
        refusedWith .unknownEvent) ∧
      (∀ e, s.clock.state ≠ .unset → eventById s.guide id = some e → e.withdrawn = false →
        (e.price = none → refusedWith .notForSale) ∧
        (∀ price, e.price = some price →
          let now := s.clock.n / 1024
          let ends := e.start + e.duration
          (ends ≤ now → refusedWith .ended) ∧
          (now < ends → s.access.region ∈ e.blackout → refusedWith .blackout) ∧
          (now < ends → s.access.region ∉ e.blackout →
            ((∃ r ∈ u.records, r.eventId = id) → refusedWith .alreadyBought) ∧
            ((∀ r ∈ u.records, r.eventId ≠ id) →
              (32 ≤ u.records.length → refusedWith .listFull) ∧
              (u.records.length < 32 → u.limit < u.debt + price → refusedWith .credit) ∧
              (u.records.length < 32 → u.debt + price ≤ u.limit →
                (s.limits.active = 0 ∨ s.limits.pin = none ∨
                    (s.limits.lockout = none ∧ s.limits.pin = some pin) →
                  let deadline := min (max now e.start + e.cancelMinutes * 60) ends
                  let state := if now < deadline then PurchaseState.provisional else .committed
                  ∃ t, exec (.purchase tag params) s = .next t ∧
                    t.purchase = { u with
                      records := u.records ++ [⟨u.nextSeq, id, e.channel, price, now, deadline, ends, state⟩]
                      debt := u.debt + price
                      nextSeq := if u.nextSeq = 4294967295 then 1 else u.nextSeq + 1 } ∧
                    noticeSet .purchaseChanged t = true ∧ redecided s t ∧
                    t.limits = { s.limits with
                      attempts := if s.limits.active = 0 then s.limits.attempts else attemptsAfterPass s.limits
                      running := t.limits.running } ∧
                    lastReply tag 0x30#8 .done (beBytes 4 u.nextSeq ++ beBytes 2 price ++
                      beBytes 4 deadline ++ one state.code ++ beBytes 2 (u.debt + price)) t ∧
                    untriggered { t with purchase := u, limits := s.limits } = untriggered s)))))))

/-- CANCEL_PURCHASE and PURCHASE_READ: the checks, the record and debt a cancel takes away and its re-decision, and
the head and records read; and the headend's CREDIT LIMIT and CLEAR, which set the limit and settle the COMMITTED
records up to a sequence number, with a re-decision where a settled record has ended and leaves. That the 4-byte
purchase time and deadline of a record read are the low 32 bits of those held is DEDUCED (log entry 24). -/
def Obligations.CancelReadAndSettlePurchases : Prop :=
  (∀ (tag : Byte) (params : Bytes) (s : State), takesAtOnce s →
    let u := s.purchase
    let id := beNat (params.take 2)
    let i := beNat (params.take 1)
    let head := one u.records.length ++ beBytes 2 u.debt ++ beBytes 2 u.limit
    (params.length < 2 →
      exec (.cancelPurchase tag params) s = .next (replied tag 0x31#8 .badParameter [] s)) ∧
    (2 ≤ params.length →
      ((∀ r ∈ u.records, r.eventId ≠ id) →
        exec (.cancelPurchase tag params) s = .next (replied tag 0x31#8 .notFound [] s)) ∧
      (∀ r, u.records.find? (fun r => r.eventId = id) = some r →
        (r.state ≠ .provisional →
          exec (.cancelPurchase tag params) s = .next (replied tag 0x31#8 .tooLate [] s)) ∧
        (r.state = .provisional → s.clock.state = .unset →
          exec (.cancelPurchase tag params) s = .next (replied tag 0x31#8 .noTime [] s)) ∧
        (r.state = .provisional → s.clock.state ≠ .unset →
          ∃ t, exec (.cancelPurchase tag params) s = .next t ∧
            t.purchase = { u with
              records := u.records.filter (fun x => x.eventId ≠ id), debt := u.debt - r.price } ∧
            noticeSet .purchaseChanged t = true ∧ redecided s t ∧
            lastReply tag 0x31#8 .done
              (beBytes 4 r.seq ++ beBytes 2 r.price ++ beBytes 2 (u.debt - r.price)) t ∧
            untriggered { t with purchase := u } = untriggered s))) ∧
    (params.length < 1 →
      exec (.purchaseRead tag params) s = .next (replied tag 0x32#8 .badParameter [] s)) ∧
    (1 ≤ params.length →
      (u.records.length ≤ i → exec (.purchaseRead tag params) s = .next (replied tag 0x32#8 .endOfList head s)) ∧
      (i < u.records.length → exec (.purchaseRead tag params) s = .next (replied tag 0x32#8 .done
        (head ++ ((u.records.drop i).take 4).flatMap (fun r =>
          beBytes 4 r.seq ++ beBytes 2 r.eventId ++ beBytes 2 r.channel ++ beBytes 2 r.price ++
          beBytes 4 r.time ++ beBytes 4 r.deadline ++ beBytes 5 r.ends ++ one r.state.code)) s)))) ∧
  (∀ (params : Bytes) (s : State),
    let u := s.purchase
    let malformed : State := { s with purchase := { u with malformed := bump u.malformed } }
    (params.length ≠ 2 → creditLimit params s = malformed) ∧
    (params.length = 2 → creditLimit params s = (if beNat params = u.limit then s
      else raise .purchaseChanged { s with purchase := { u with limit := beNat params } })) ∧
    (params.length ≠ 4 → clearPurchases params s = malformed) ∧
    (params.length = 4 →
      let settled (r : PurchaseRecord) : Bool := r.state = .committed ∧ r.seq ≤ beNat params
      let lapsed (r : PurchaseRecord) : Bool := s.clock.state ≠ .unset ∧ r.ends ≤ s.clock.n / 1024
      let t := clearPurchases params s
      ((∀ r ∈ u.records, settled r = false) → t = s) ∧
      ((∃ r ∈ u.records, settled r = true) →
        t.purchase = { u with
          records := (u.records.filter (fun r => !(settled r && lapsed r))).map (fun r =>
            if settled r then { r with state := .collected } else r)
          debt := u.debt - ((u.records.filter settled).map PurchaseRecord.price).sum } ∧
        noticeSet .purchaseChanged t = true ∧
        ((∃ r ∈ u.records, settled r = true ∧ lapsed r = true) → redecided s t) ∧
        ((∀ r ∈ u.records, settled r = true → lapsed r = false) →
          t = raise .purchaseChanged { s with purchase := t.purchase }) ∧
        untriggered { t with purchase := u } = untriggered s)))

/-! ## Limits -/

/-- PROFILE_SELECT, PROFILE_WRITE and PROFILE_READ: refusals, the profile taken, the profile written with its clamps,
the PIN state after a check that passed, window standing, meter and re-decision after, and the profile read, with the
lockout in seconds rounded up (one that has run out: log entry 3). A failing PIN check: PinChangeAndPinChecks.
Position i in bit i of the empty-windows byte of PROFILE_WRITE's results is the model's choice (log entry 35); that a
passed check sets the attempt count to 0 where profile 0 is active already is DEDUCED (log entry 40). That
PROFILE_READ reports the lockout in 4 bytes, so that its longest reply passes the 66 bytes R157 names, is DEDUCED (log
entry 13), and so is which numbers PROFILE_WRITE counts as passed over (log entry 31). -/
def Obligations.ProfileCommands : Prop :=
  ∀ (tag : Byte) (params : Bytes) (s : State), takesAtOnce s →
    let n := beNat (params.take 1)
    let l := s.limits
    let pinPasses := l.lockout = none ∧ (l.pin = none ∨ l.pin = some (beNat ((params.drop 1).take 2)))
    (params.length < 3 ∨ 4 ≤ n →
      exec (.profileSelect tag params) s = .next (replied tag 0x40#8 .badParameter [] s)) ∧
    (∀ p : Fin 4, 3 ≤ params.length → n = p.val → (p = 0 → pinPasses) →
      ∃ t, exec (.profileSelect tag params) s = .next t ∧
        t.limits = { l with
          active := p, part := if p = l.active then l.part else 0
          attempts := if p = 0 then attemptsAfterPass l else l.attempts
          standing := t.limits.standing, running := t.limits.running } ∧
        (p = l.active → t.limits.standing = l.standing ∧ t.limits.running = l.running ∧
          t.output.context = s.output.context) ∧
        (p ≠ l.active → t.limits.standing = standingNow t ∧ t.limits.running = meterMayRun t ∧ redecided s t) ∧
        lastReply tag 0x40#8 .done (one p.val) t ∧
        untriggered { t with limits := s.limits } = untriggered s) ∧
    (n = 0 ∨ 4 ≤ n ∨ profileShape params = false →
      exec (.profileWrite tag params) s = .next (replied tag 0x41#8 .badParameter [] s)) ∧
    (∀ p : Fin 4, p ≠ 0 → n = p.val → profileShape params = true → pinPasses →
      ∃ t, exec (.profileWrite tag params) s = .next t ∧
        profileOf t.limits p = (profileOf s.limits p).written (readProfile params) ∧
        (profileOf t.limits p).ceiling = min (byteAt params 3).toNat 15 ∧
        (profileOf t.limits p).allowance = min (beNat ((params.drop 4).take 2)) 1440 ∧
        (profileOf t.limits p).locks.length ≤ 16 ∧ (profileOf t.limits p).windows.length ≤ 4 ∧
        t.limits = { setProfile l p ((profileOf l p).written (readProfile params)) with
          attempts := attemptsAfterPass l, standing := t.limits.standing, running := t.limits.running } ∧
        (∀ q, q ≠ p → profileOf t.limits q = profileOf l q) ∧
        (p ≠ l.active → t.limits.standing = l.standing ∧ t.limits.running = l.running ∧
          t.output.context = s.output.context) ∧
        (p = l.active → t.limits.standing = standingNow t ∧ t.limits.running = meterMayRun t ∧ redecided s t) ∧
        lastReply tag 0x41#8 .done
          (profileWriteResults (readProfile params) (profileOf t.limits p)) t ∧
        untriggered { t with limits := s.limits } = untriggered s) ∧
    (params.length < 1 ∨ 4 ≤ n →
      exec (.profileRead tag params) s = .next (replied tag 0x42#8 .badParameter [] s)) ∧
    (∀ p : Fin 4, 1 ≤ params.length → n = p.val →
      exec (.profileRead tag params) s = .next (replied tag 0x42#8 .done (profileResults s.limits p) s)) ∧
    lockoutSeconds none = 0 ∧ lockoutSeconds (some 0) = 1 ∧
    (∀ ticks k, 1 ≤ k → (k - 1) * 128000 < ticks → ticks ≤ k * 128000 → lockoutSeconds (some ticks) = k)

/-- The PIN check of R149 before PIN_CHANGE, a PROFILE_SELECT of profile 0, a PROFILE_WRITE and a PURCHASE under
profile 1 to 3: a running lockout refuses LOCKED OUT and compares nothing; a wrong PIN refuses PIN, counts the attempt
and locks out for 900 s at the third; nothing else changes. PIN_CHANGE that passes sets the PIN or makes it unset; the
headend's PIN RESET does so without a check and ends a lockout. -/
def Obligations.PinChangeAndPinChecks : Prop :=
  (∀ (tag : Byte) (params : Bytes) (s : State), takesAtOnce s →
    let old := beNat (params.take 2)
    let new := beNat ((params.drop 2).take 2)
    let l := s.limits
    let good := 4 ≤ params.length ∧ (new ≤ 9999 ∨ new = 65535)
    (¬ good → exec (.pinChange tag params) s = .next (replied tag 0x43#8 .badParameter [] s)) ∧
    (good → l.lockout.isSome = true →
      exec (.pinChange tag params) s = .next (replied tag 0x43#8 .lockedOut [] s)) ∧
    (good → l.lockout = none → l.pin = none ∨ l.pin = some old →
      exec (.pinChange tag params) s = .next (replied tag 0x43#8 .done (one (if new ≤ 9999 then 1 else 0))
        { s with limits := { l with pin := if new ≤ 9999 then some new else none, attempts := 0 } })) ∧
    (∀ pin, good → l.lockout = none → l.pin = some pin → old ≠ pin →
      exec (.pinChange tag params) s = .next
        (replied tag 0x43#8 .pin [] { s with limits := afterWrongPin l }))) ∧
  (∀ (tag : Byte) (params : Bytes) (s : State), takesAtOnce s →
    let n := beNat (params.take 1)
    let l := s.limits
    let refusedBoth (o : ReplyOutcome) (t : State) : Prop :=
      (3 ≤ params.length → n = 0 → exec (.profileSelect tag params) s = .next (replied tag 0x40#8 o [] t)) ∧
      (1 ≤ n → n ≤ 3 → profileShape params = true →
        exec (.profileWrite tag params) s = .next (replied tag 0x41#8 o [] t))
    (l.lockout.isSome = true → refusedBoth .lockedOut s) ∧
    (∀ pin, l.lockout = none → l.pin = some pin → beNat ((params.drop 1).take 2) ≠ pin →
      refusedBoth .pin { s with limits := afterWrongPin l })) ∧
  (∀ (tag : Byte) (params : Bytes) (e : EventRecord) (price t pin : Nat) (s : State), takesAtOnce s →
    4 ≤ params.length → purchaseChecks (beNat (params.take 2)) s = .ok (e, price, t) →
    s.limits.active ≠ 0 → s.limits.pin = some pin →
    let l := s.limits
    (l.lockout.isSome = true →
      exec (.purchase tag params) s = .next (replied tag 0x30#8 .lockedOut [] s)) ∧
    (l.lockout = none → beNat ((params.drop 2).take 2) ≠ pin →
      exec (.purchase tag params) s = .next
        (replied tag 0x30#8 .pin [] { s with limits := afterWrongPin l }))) ∧
  (∀ (params : Bytes) (s : State),
    let l := s.limits
    (params.length ≠ 2 ∨ (9999 < beNat params ∧ beNat params ≠ 65535) →
      pinReset params s = { s with limits := { l with malformed := bump l.malformed } }) ∧
    (params.length = 2 → beNat params ≤ 9999 ∨ beNat params = 65535 →
      pinReset params s = { s with limits := { l with
        pin := if beNat params ≤ 9999 then some (beNat params) else none, attempts := 0, lockout := none } }))

/-! ## Access Unit -/

/-- R115 whole, as a REVOKE addressed to all: the entry of the tier is removed, ENTITLEMENT CHANGED is raised and a
re-decision trigger is sent; a tier that is not held, and so a second copy, changes nothing; the purchase list is
not touched, and what a purchase record entitles stays entitled. -/
def Obligations.RevokeRemovesTheTier : Prop :=
  ∀ (tier : Byte) (s : State),
    let kept := s.access.entitlements.filter (fun e => e.tier ≠ tier.toNat)
    let t := managementSection [3#8, 2#8, 1#8, tier] s
    ((∃ e ∈ s.access.entitlements, e.tier = tier.toNat) →
      t = trigger (raise .entitlementChanged { s with access := { s.access with entitlements := kept } }) ∧
      t.access.entitlements = kept ∧ noticeSet .entitlementChanged t = true) ∧
    ((∀ e ∈ s.access.entitlements, e.tier ≠ tier.toNat) → t = s) ∧
    managementSection [3#8, 2#8, 1#8, tier] t = t ∧ t.purchase = s.purchase ∧
    (∀ entry e, (∃ r ∈ s.purchase.records, r.eventId = e.id) → entitled t entry (some e) = true)

/-- The entitlement test (R126): its four tests, and that an entry whose expiry day is earlier than the current local
day, or any entry while the clock is UNSET, entitles nothing. The decision (R168): the ordered checks. A re-decision
trigger (R171, R172): nothing without a context or while it changes; an unchanged decision moves event id and preview
end alone, but for OFFER; a changed one flushes, raises ACCESS CHANGED and OFFER, forms a marker and sets priming, which
starts over a queue that already holds the threshold too: DEDUCED (log entry 16). -/
def Obligations.EntitlementTestAndDecision : Prop :=
  (∀ (s : State) (entry : ChannelEntry) (event : Option EventRecord),
    let held (t : Nat) : Prop :=
      s.clock.state ≠ .unset ∧ ∃ x ∈ s.access.entitlements, x.tier = t ∧ s.day ≤ x.expiry
    (entitled s entry event = true ↔ entry.tier = none ∨ (∃ t, entry.tier = some t ∧ held t) ∨
      (∃ e t, event = some e ∧ e.tier = some t ∧ held t) ∨
      (∃ e, event = some e ∧ ∃ r ∈ s.purchase.records, r.eventId = e.id)) ∧
    (s.clock.state ≠ .unset →
      entitled s entry event = entitled { s with access := { s.access with
        entitlements := s.access.entitlements.filter (fun e => s.day ≤ e.expiry) } } entry event) ∧
    (s.clock.state = .unset → entitled s entry event =
      entitled { s with access := { s.access with entitlements := [] } } entry event)) ∧
  (∀ (s : State) (c : Context),
    let now := s.clock.n / 1024
    let event := currentEvent s c.channel
    let p := activeProfile s
    let parental := s.limits.active ≠ 0
    let found (d : Decision) (r : Reason) (previewEnd : Option Nat) : Prop :=
      decideOn s c = ⟨d, r, previewEnd, event.map EventRecord.id⟩
    let signal := locked s c.feed = false ∨ (s.acqOf c.feed).state ≠ .presenting
    let blackout := ∃ e, event = some e ∧ s.access.region ∈ e.blackout
    let lockedOut := parental ∧ c.channel ∈ p.locks
    let rating := parental ∧ p.ceiling < (event.map EventRecord.rating).getD c.entry.rating
    let window := parental ∧ s.limits.standing = .outside
    let allowance := parental ∧ p.allowance ≠ 1440 ∧ p.remaining = 0
    let clear := ¬ signal ∧ ¬ blackout ∧ ¬ lockedOut ∧ ¬ rating ∧ ¬ window ∧ ¬ allowance
    let noKey := (s.acqOf c.feed).scrambled = true ∧ (s.slotOf c.feed).wait = .expired
    (s.clock.state = .unset → event = none) ∧
    (s.clock.state ≠ .unset → event = s.guide.events.find? (fun e =>
      e.channel = c.channel && !e.withdrawn && e.start ≤ now && now < e.start + e.duration)) ∧
    (signal → found .deny .signal none) ∧
    (¬ signal → blackout → found .deny .blackout none) ∧
    (¬ signal → ¬ blackout → lockedOut → found .deny .channelLock none) ∧
    (¬ signal → ¬ blackout → ¬ lockedOut → rating → found .deny .rating none) ∧
    (¬ signal → ¬ blackout → ¬ lockedOut → ¬ rating → window → found .deny .window none) ∧
    (¬ signal → ¬ blackout → ¬ lockedOut → ¬ rating → ¬ window → allowance → found .deny .allowance none) ∧
    (clear → entitled s c.entry event = true → (noKey → found .deny .noKey none) ∧
      (¬ noKey → found .present .none none)) ∧
    (∀ e, clear → entitled s c.entry event = false → event = some e → e.price ≠ none →
      let previewEnd := e.start + e.previewMinutes * 60
      (now < previewEnd → found .preview .none (some previewEnd)) ∧
      (previewEnd ≤ now → found .deny .offer none)) ∧
    (clear → entitled s c.entry event = false → (∀ e, event = some e → e.price = none) →
      found .deny .notEntitled none)) ∧
  (∀ s : State, s.output.context = none → trigger s = s) ∧
  (∀ (s : State) (c : Context), s.output.context = some c →
    let o := s.output
    let v := decideOn s c
    let t := trigger s
    let c' := { c with
      decision := v.decision, reason := v.reason, previewEnd := v.previewEnd, eventId := v.eventId }
    let offer := v.decision = .deny ∧ v.reason = .offer
    let changed := v.decision ≠ c.decision ∨ v.reason ≠ c.reason
    let plain (x : OutCell) : OutCell := match x with | .ofPart (.notice _) => .ofPart (.notice 0) | x => x
    (c.changing = true → t = s) ∧
    (c.changing = false →
      t.output.context = some c' ∧ untriggered t = untriggered s ∧
      (t.limits.running = true ↔ v.decision ≠ .deny ∧ s.limits.active ≠ 0 ∧
        (activeProfile s).allowance ≠ 1440 ∧ 0 < (activeProfile s).remaining) ∧
      (¬ changed → ¬ (offer ∧ v.eventId ≠ c.eventId) →
        t = evaluateMeter { s with output := { o with context := some c' } }) ∧
      (¬ changed → offer → v.eventId ≠ c.eventId → noticeSet .offer t = true) ∧
      (changed →
        noticeSet .accessChanged t = true ∧ (offer → noticeSet .offer t = true) ∧
        (v.decision = .deny →
          t.output.queue.map plain = (o.queue.filter (fun x => !x.isProgramme)).map plain ∧
          t.output.flushed = min (o.flushed + o.queue.countP OutCell.isProgramme) 65535 ∧
          t.output.priming = none) ∧
        (v.decision ≠ .deny → t.output.queue.map plain = o.queue.map plain ∧
          t.output.flushed = o.flushed ∧ t.output.priming = some (o.timeout * 128)) ∧
        (let m : Marker := ⟨c.channel, v.decision, v.reason⟩
         (o.pendingMarker ≠ none →
           t.output.pendingMarker = some m ∧ t.output.markersReplaced = bump o.markersReplaced) ∧
         (o.pendingMarker = none → t.output.markersReplaced = o.markersReplaced ∧
           ((t.output.pendingMarker = none ∧
              LocalCell.marker c.channel v.decision v.reason ∈ t.command.replyQueue) ∨
            (t.output.pendingMarker = some m ∧ freeEntries t = 0)))))))

/-! ## Laws of the part -/

/-- Purchase list, debt and transmitter. -/
def Obligations.PurchaseLawIsKept : Prop := KeptByEveryStep PurchaseLaw

/-- Allowances and PIN. -/
def Obligations.LimitsLawIsKept : Prop := KeptByEveryStep LimitsLaw

/-- The meter's running condition. -/
def Obligations.MeterLawIsKept : Prop := KeptByEveryStep MeterLaw

/-- At most one feed PRESENTING, with the PRESENT role. -/
def Obligations.PresentingLawIsKept : Prop := KeptByEveryStep PresentingLaw

/-- Event table: its size, distinct event ids, least duration, and each channel's records in order of start without
overlap. That the one table holds the channels' lists in order of channel is the model's choice (log entry 26). -/
def Obligations.EventTableLawIsKept : Prop := KeptByEveryStep EventTableLaw

/-- No scrambled cell in the output queue or on P. -/
def Obligations.ClearOutputLawIsKept : Prop := KeptByEveryStep ClearOutputLaw

/-- Rating ceiling. -/
def Obligations.RatingLawIsKept : Prop := KeptByEveryStep RatingLaw

/-- Reply queue, held reply and NOTICE cells. -/
def Obligations.ReplyQueueLawIsKept : Prop := KeptByEveryStep ReplyQueueLaw

/-- Intake, output queue, filter table, section buffers, channel map and entitlement table. That the entitlement
table is kept in order of tier is the model's choice (log entry 26). -/
def Obligations.CapacityAndTablesLawIsKept : Prop :=
  KeptByEveryStep CapacityLaw ∧ KeptByEveryStep TablesLaw

/-- Ranges of the clock. -/
def Obligations.ClockLawIsKept : Prop := KeptByEveryStep ClockLaw

/-- Every change of network time other than an advance of 0, 1 or 2 units is a step, and a step adds one to the step
count until it saturates: for every command but the two resets, START_UP, and the slot rows off a slot boundary, whose
bytes are taken one by one. That a slot row off a slot boundary is its bytes one by one is DEDUCED (log entry 7). -/
def Obligations.NetworkTimeChangesBySteps : Prop :=
  ∀ (c : Instr) (s t : State), exec c s = .next t →
    (∀ asserted good, c ≠ .powerOn asserted good) → c ≠ .resetLineAssert → (∀ i, c ≠ .startUp i) →
    (∀ f slot, c = .confirmSlot f slot → ∃ n p, slotArrives f slot p s ∧ (s.frontOf f).sync = .confirm n) →
    (∀ f slot, c = .lockedSlot f slot → ∃ n p, slotArrives f slot p s ∧ (s.frontOf f).sync = .locked n) →
    (t.clock.stepCount = s.clock.stepCount ∧
      (t.clock.n = s.clock.n ∨
        (c = .clockAdvance ∧ ∃ u ≤ 2, t.clock.n = (s.clock.n + u) % 2 ^ 42))) ∨
    t.clock.stepCount = min (s.clock.stepCount + 1) 65535

/-- No programme cell enters the output queue but through an open gate: no command but the three feed rows lets one
in, whatever it flushes; a FEED_BYTE, or a LOCKED_SLOT at a slot boundary, lets in at most one, at the tail, and
leaves its feed PRESENTING with a context of that feed that is neither changing nor denied; a CONFIRM_SLOT at a slot
boundary lets none in, and off one the slot rows are FEED_BYTEs one by one (log entry 7). -/
def Obligations.ProgrammeCellsPassTheGate : Prop :=
  let cells (s : State) : List Cell :=
    s.output.queue.filterMap (fun c => match c with | .programme x => some x | .ofPart _ => none)
  let oneAtMost (f : Feed) (s t : State) : Prop := (cells t).Sublist (cells s) ∨
    (∃ kept cell, kept.Sublist (cells s) ∧ cells t = kept ++ [cell]) ∧ (t.acqOf f).state = .presenting ∧
      ∃ x, t.output.context = some x ∧ x.feed = f ∧ x.changing = false ∧ x.decision ≠ .deny
  let boundary (f : Feed) (slot : List FeedByte) (s : State) : Prop := ∃ p, slotArrives f slot p s
  ∀ (c : Instr) (s t : State), exec c s = .next t →
    ((∀ f b, c ≠ .feedByte f b) → (∀ f slot, c ≠ .confirmSlot f slot ∧ c ≠ .lockedSlot f slot) →
      (cells t).Sublist (cells s)) ∧
    (∀ f b, c = .feedByte f b → t = feedByte f b s ∧ oneAtMost f s t) ∧
    (∀ f slot n, c = .confirmSlot f slot → boundary f slot s → (s.frontOf f).sync = .confirm n →
      (cells t).Sublist (cells s)) ∧
    (∀ f slot n, c = .lockedSlot f slot → boundary f slot s → (s.frontOf f).sync = .locked n →
      oneAtMost f s t) ∧
    (∀ f slot, (c = .confirmSlot f slot ∧ ¬ (boundary f slot s ∧ ∃ n, (s.frontOf f).sync = .confirm n)) ∨
        (c = .lockedSlot f slot ∧ ¬ (boundary f slot s ∧ ∃ n, (s.frontOf f).sync = .locked n)) →
      (∀ n, (s.frontOf f).sync = .confirm n ∨ (s.frontOf f).sync = .locked n → (s.frontOf f).slot.isSome = true) →
      t = slot.foldl (fun u b => feedByte f b u) s)

/-- A reply, notice or marker cell placed in the reply queue stays in its place, but for flags added to a waiting
NOTICE, until OUTPUT_CELL_WRITE writes it on P at the head; only a reset empties the queues. -/
def Obligations.LocalCellsLeaveInOrder : Prop :=
  let plain (c : LocalCell) : LocalCell := match c with | .notice _ => .notice 0 | c => c
  let waiting (s : State) : List LocalCell :=
    ((s.output.queue.filterMap (fun c => match c with | .ofPart x => some x | .programme _ => none)) ++
      s.command.replyQueue).map plain
  ∀ (c : Instr) (s t : State), exec c s = .next t →
    (∀ asserted good, c ≠ .powerOn asserted good) → c ≠ .resetLineAssert →
    (∀ tag params, c ≠ .softReset tag params) → (∀ tag params, c ≠ .invalidCommand tag 0x02#8 params) →
    (c = .replyEntryArbiter → ∀ x, s.command.intake.head? = some x → x.code ≠ 0x02#8) →
    (c ≠ .outputCellWrite → waiting s <+: waiting t) ∧
    (c = .outputCellWrite → waiting t = waiting s ∨
      ∃ x rest, s.output.queue = .ofPart x :: rest ∧ waiting s = plain x :: waiting t ∧
        t.lines.onP = localBytes x s.output.continuity s.freeIndex)
end

