-- ==== Sys2Proof/Laws/Frames.lean ====
section
/-! SUPPORT. What the shared operations leave alone, said once for each. `undecided s` is s with everything
that a decision, a notice or a marker may change put to fixed values, and `unacquired s` is s with
everything that the steps of an acquisition may change put to fixed values too. An operation that leaves
the rest alone has one lemma `undecided (f s) = undecided s` (or `unacquired …`), and any single field
follows from it by `congrArg`. -/

namespace Sys2Proof.Machine

/-- Operations that agree behind `undecided` agree behind `unacquired`. -/
theorem unacquired_of_undecided {s t : State} (h : undecided t = undecided s) :
    unacquired t = unacquired s := by
  have key : ∀ x, unacquired x = unacquired (undecided x) := fun _ => rfl
  rw [key t, h, ← key s]

/-! ## Decisions, notices, markers -/

@[simp] theorem undecided_placeCells (cs : List LocalCell) (s : State) :
    undecided (placeCells cs s) = undecided s := rfl

@[simp] theorem undecided_reportRaise (m : BitVec 16) (s : State) :
    undecided (reportRaise m s) = undecided s := by
  unfold reportRaise; split
  · rfl
  · split
    · rfl
    · split <;> rfl

@[simp] theorem undecided_raise (n : Notice) (s : State) : undecided (raise n s) = undecided s := by
  unfold raise; split
  · rfl
  · rw [undecided_reportRaise]; rfl

@[simp] theorem undecided_evaluateMeter (s : State) :
    undecided (evaluateMeter s) = undecided s := by
  unfold evaluateMeter; split
  · split
    · rfl
    · dsimp only; split
      · rw [undecided_raise]; rfl
      · rfl
  · rfl

@[simp] theorem undecided_evaluateStanding (s : State) :
    undecided (evaluateStanding s) = undecided s := rfl

@[simp] theorem undecided_placeMarker (m : Marker) (s : State) :
    undecided (placeMarker m s) = undecided s := by
  unfold placeMarker; split
  · rfl
  · split <;> rfl

@[simp] theorem undecided_flushProgramme (s : State) :
    undecided (flushProgramme s) = undecided s := rfl

@[simp] theorem undecided_startPriming (s : State) : undecided (startPriming s) = undecided s := rfl

@[simp] theorem undecided_openPriming (s : State) : undecided (openPriming s) = undecided s := rfl

@[simp] theorem undecided_announce (c : Nat) (d : Decision) (r : Reason) (moved : Bool) (s : State) :
    undecided (announce c d r moved s) = undecided s := by
  unfold announce; dsimp only
  split <;> split <;> split <;> simp

@[simp] theorem undecided_settle (c : Context) (v : Verdict) (created moved : Bool) (s : State) :
    undecided (settle c v created moved s) = undecided s := by
  unfold settle; dsimp only
  rw [undecided_evaluateMeter]; split
  · rw [undecided_announce]; rfl
  · split
    · rw [undecided_raise]; rfl
    · rfl

@[simp] theorem undecided_trigger (s : State) : undecided (trigger s) = undecided s := by
  unfold trigger; split
  · rfl
  · split
    · rfl
    · simp

@[simp] theorem undecided_triggers (k : Nat) (s : State) :
    undecided (triggers k s) = undecided s := by
  induction k generalizing s with
  | zero => rfl
  | succ k ih => simp [triggers, ih]

@[simp] theorem undecided_watch (c : Nat) (s : State) : undecided (watch c s) = undecided s := rfl

@[simp] theorem undecided_unwatch (s : State) : undecided (unwatch s) = undecided s := rfl

@[simp] theorem undecided_takeContext (f : Feed) (e : ChannelEntry) (s : State) :
    undecided (takeContext f e s) = undecided s := by
  unfold takeContext; split
  · simp; rfl
  · simp only [undecided_settle]; split
    · rfl
    · rw [undecided_watch]; rfl

@[simp] theorem undecided_setChanging (s : State) :
    undecided (setChanging s) = undecided s := by
  unfold setChanging; split
  · rfl
  · split
    · rfl
    · simp

@[simp] theorem undecided_removeContext (s : State) :
    undecided (removeContext s) = undecided s := by
  unfold removeContext; split
  · rfl
  · rw [undecided_evaluateMeter, undecided_unwatch, ← undecided_announce _ .deny .ended false s]; rfl

@[simp] theorem undecided_refreshEntry (e : ChannelEntry) (s : State) :
    undecided (refreshEntry e s) = undecided s := by
  unfold refreshEntry; split
  · rfl
  · rw [undecided_trigger]; rfl

@[simp] theorem undecided_compareWatched (s : State) :
    undecided (compareWatched s) = undecided s := by
  unfold compareWatched; split
  · rfl
  · dsimp only; split
    · rfl
    · rw [undecided_trigger, ← undecided_raise .eventChanged s]; rfl

@[simp] theorem undecided_purchaseChanged (k : Nat) (s : State) :
    undecided (purchaseChanged k s) = undecided s := by simp [purchaseChanged]

@[simp] theorem undecided_windowCheck (s : State) : undecided (windowCheck s) = undecided s := by
  unfold windowCheck; split
  · rfl
  · simp

@[simp] theorem undecided_decisionSecond (step : Bool) (s : State) :
    undecided (decisionSecond step s) = undecided s := by
  unfold decisionSecond; dsimp only
  cases step <;> simp [apply_ite undecided]

/-! ## Acquisition -/

@[simp] theorem unacquired_placeCells (cs : List LocalCell) (s : State) :
    unacquired (placeCells cs s) = unacquired s := rfl

@[simp] theorem unacquired_raise (n : Notice) (s : State) : unacquired (raise n s) = unacquired s :=
  unacquired_of_undecided (undecided_raise n s)

@[simp] theorem unacquired_trigger (s : State) : unacquired (trigger s) = unacquired s :=
  unacquired_of_undecided (undecided_trigger s)

@[simp] theorem unacquired_takeContext (f : Feed) (e : ChannelEntry) (s : State) :
    unacquired (takeContext f e s) = unacquired s :=
  unacquired_of_undecided (undecided_takeContext f e s)

@[simp] theorem unacquired_setChanging (s : State) : unacquired (setChanging s) = unacquired s :=
  unacquired_of_undecided (undecided_setChanging s)

@[simp] theorem unacquired_removeContext (s : State) :
    unacquired (removeContext s) = unacquired s :=
  unacquired_of_undecided (undecided_removeContext s)

@[simp] theorem unacquired_setAcq (f : Feed) (r : AcqRecord) (s : State) :
    unacquired (s.setAcq f r) = unacquired s := rfl

@[simp] theorem unacquired_changeAcq (f : Feed) (g : AcqRecord → AcqRecord) (s : State) :
    unacquired (s.changeAcq f g) = unacquired s := rfl

@[simp] theorem unacquired_setSlot (f : Feed) (k : KeySlot) (s : State) :
    unacquired (s.setSlot f k) = unacquired s := rfl

@[simp] theorem unacquired_setFront {f : Feed} {x : Front} {s : State}
    (h : x.unsynced = (s.frontOf f).unsynced) : unacquired (s.setFront f x) = unacquired s := by
  cases f <;> simp_all [unacquired, State.setFront, State.frontOf, PerFeed.set, PerFeed.get, undecided]

@[simp] theorem unacquired_clearKeySlot (f : Feed) (s : State) :
    unacquired (clearKeySlot f s) = unacquired s := rfl

@[simp] theorem unacquired_startKeyWait (f : Feed) (s : State) :
    unacquired (startKeyWait f s) = unacquired s := rfl

@[simp] theorem unacquired_stopKeyWait (f : Feed) (s : State) :
    unacquired (stopKeyWait f s) = unacquired s := rfl

@[simp] theorem unacquired_abandon (f : Feed) (p : Nat → Bool) (s : State) :
    unacquired (abandon f p s) = unacquired s := rfl

@[simp] theorem unacquired_removeEntries (f : Feed) (p : FilterEntry → Bool) (s : State) :
    unacquired (removeEntries f p s) = unacquired s := rfl

@[simp] theorem unacquired_removeAcqEntries (f : Feed) (s : State) :
    unacquired (removeAcqEntries f s) = unacquired s := rfl

@[simp] theorem unacquired_addEntry (e : FilterEntry) (s : State) :
    unacquired (addEntry e s) = unacquired s := by unfold addEntry; split <;> rfl

@[simp] theorem unacquired_addEntries (es : List FilterEntry) (s : State) :
    unacquired (addEntries es s) = unacquired s := by
  induction es generalizing s with
  | nil => rfl
  | cons e es ih => simp [addEntries, ih]

@[simp] theorem unacquired_requestEntries (f : Feed) (ps : List (Nat × Consumer)) (s : State) :
    unacquired (requestEntries f ps s).2 = unacquired s := by
  unfold requestEntries; dsimp only; split <;> simp

@[simp] theorem unacquired_answerPending (f : Feed) (o : ReplyOutcome) (b : Bytes) (s : State) :
    unacquired (answerPending f o b s) = unacquired s := by
  unfold answerPending; split
  · dsimp only; split
    · simp
    · rfl
  · rfl

@[simp] theorem unacquired_supersede (f : Feed) (s : State) :
    unacquired (supersede f s) = unacquired s := by simp [supersede]

@[simp] theorem unacquired_tellDecision (f : Feed) (s : State) :
    unacquired (tellDecision f s) = unacquired s := by unfold tellDecision; split <;> simp

@[simp] theorem unacquired_fail (f : Feed) (c : FailCause) (a : FilterAnswer) (s : State) :
    unacquired (fail f c a s) = unacquired s := by unfold fail; dsimp only; split <;> simp

@[simp] theorem unacquired_enterParked (f : Feed) (s : State) :
    unacquired (enterParked f s) = unacquired s := by simp [enterParked]

@[simp] theorem unacquired_decisionStep (f : Feed) (s : State) :
    unacquired (decisionStep f s) = unacquired s := by unfold decisionStep; dsimp only; split <;> simp

@[simp] theorem unacquired_enterKeying (f : Feed) (s : State) :
    unacquired (enterKeying f s) = unacquired s := by
  unfold enterKeying; dsimp only; split
  · simp
  · split <;> simp

@[simp] theorem unacquired_enterMapping (f : Feed) (e : ChannelEntry) (s : State) :
    unacquired (enterMapping f e s) = unacquired s := by
  unfold enterMapping; dsimp only; split
  · simp
  · split <;> rename_i h <;>
    · have key := congrArg (fun x => unacquired x.2) h
      simp only [unacquired_requestEntries, unacquired_changeAcq] at key
      simp [key.symm]

@[simp] theorem unacquired_afterSyncing (f : Feed) (s : State) :
    unacquired (afterSyncing f s) = unacquired s := by unfold afterSyncing; split <;> simp

@[simp] theorem unacquired_enterSyncing (f : Feed) (s : State) :
    unacquired (enterSyncing f s) = unacquired s := by unfold enterSyncing; dsimp only; split <;> simp

@[simp] theorem unacquired_enterLocking (f : Feed) (s : State) :
    unacquired (enterLocking f s) = unacquired s := by unfold enterLocking; dsimp only; split <;> simp

@[simp] theorem unacquired_leaveLocked (f : Feed) (s : State) :
    unacquired (leaveLocked f s) = unacquired s := by cases f <;> rfl

@[simp] theorem unacquired_tuneFront (f : Feed) (s : State) :
    unacquired (tuneFront f s) = unacquired s := by
  unfold tuneFront; split <;> first | rfl | (cases f <;> rfl)

@[simp] theorem unacquired_enterTuning (f : Feed) (s : State) :
    unacquired (enterTuning f s) = unacquired s := by
  unfold enterTuning; dsimp only; split
  · rw [unacquired_tuneFront]; rfl
  · simp

@[simp] theorem unacquired_retryOrFail (f : Feed) (c : FailCause) (s : State) :
    unacquired (retryOrFail f c s) = unacquired s := by unfold retryOrFail; split <;> simp

@[simp] theorem unacquired_deliverIndication (f : Feed) (b : Bool) (s : State) :
    unacquired (deliverIndication f b s) = unacquired s := by
  unfold deliverIndication indicationTrue; split
  · split <;> simp
  · rfl

@[simp] theorem unacquired_enteredLocked (f : Feed) (s : State) :
    unacquired (enteredLocked f s) = unacquired s := by unfold enteredLocked; split <;> simp

@[simp] theorem unacquired_lockLoss (f : Feed) (s : State) :
    unacquired (lockLoss f s) = unacquired s := by unfold lockLoss; dsimp only; split <;> simp

@[simp] theorem unacquired_recordLeftLocked (f : Feed) (c : LeaveCause) (s : State) :
    unacquired (recordLeftLocked f c s) = unacquired s := by
  unfold recordLeftLocked; split
  · split <;> simp
  · rfl

@[simp] theorem unacquired_leftLocked (f : Feed) (c : LeaveCause) (s : State) :
    unacquired (leftLocked f c s) = unacquired s := by simp [leftLocked]

@[simp] theorem unacquired_installComponents (f : Feed) (cs : List Component) (v : Nat) (s : State) :
    unacquired (installComponents f cs v s).2 = unacquired s := by
  unfold installComponents; dsimp only
  split <;> rename_i h <;> have key := congrArg (fun x => unacquired x.2) h <;>
    simp only [unacquired_requestEntries, dropComponents, unacquired_removeEntries] at key
  · simp only [takeComponents, giveStreams, unacquired_setSlot]
    split <;> simp [key.symm]
  · simp [key.symm]

@[simp] theorem unacquired_mapStands (f : Feed) (s : State) :
    unacquired (mapStands f s) = unacquired s := by unfold mapStands; split <;> simp

@[simp] theorem unacquired_mapInMapping (f : Feed) (cs : List Component) (v : Nat) (s : State) :
    unacquired (mapInMapping f cs v s) = unacquired s := by
  unfold mapInMapping; split
  · split <;> rename_i h <;>
    · have key := congrArg (fun x => unacquired x.2) h
      simp only [unacquired_installComponents] at key
      simp [key.symm]
  · simp

@[simp] theorem unacquired_newMapVersion (f : Feed) (cs : List Component) (v : Nat) (s : State) :
    unacquired (newMapVersion f cs v s) = unacquired s := by
  unfold newMapVersion; split
  · rfl
  · split <;> rename_i h <;> have key := congrArg (fun x => unacquired x.2) h <;>
      simp only [unacquired_installComponents] at key
    · unfold afterNewVersion
      split
      · simp [key.symm]
      · split
        · split <;> simp [key.symm]
        · simp [key.symm]
      · simp [key.symm]
    · simp [key.symm]

@[simp] theorem unacquired_beginRecord (f : Feed) (r : Role) (t : Option ChannelEntry) (c : Nat)
    (p : PendingReply) (s : State) : unacquired (beginRecord f r t c p s) = unacquired s := rfl

@[simp] theorem unacquired_proceed (f : Feed) (c : Nat) (s : State) :
    unacquired (proceed f c s) = unacquired s := by unfold proceed; dsimp only; split <;> simp

@[simp] theorem unacquired_releaseRecord (f : Feed) (s : State) :
    unacquired (releaseRecord f s) = unacquired s := by unfold releaseRecord; dsimp only; split <;> simp

@[simp] theorem unacquired_goDown (f : Feed) (c : LeaveCause) (s : State) :
    unacquired (goDown f c s) = unacquired s := by
  unfold goDown; dsimp only; split
  · rw [unacquired_leftLocked]; cases f <;> rfl
  · cases f <;> rfl

@[simp] theorem unacquired_reworkLock (f : Feed) (s : State) :
    unacquired (reworkLock f s) = unacquired s := by
  unfold reworkLock; split
  · split
    · cases f <;> rfl
    · rfl
  · split <;> simp

@[simp] theorem unacquired_enterLocked (f : Feed) (s : State) :
    unacquired (enterLocked f s) = unacquired s := by
  unfold enterLocked; dsimp only
  rw [unacquired_deliverIndication, unacquired_enteredLocked]; cases f <;> rfl

@[simp] theorem unacquired_validWord (f : Feed) (s : State) :
    unacquired (validWord f s) = unacquired s := by
  unfold validWord; dsimp only; split <;> split <;> simp

@[simp] theorem unacquired_storeWord (f : Feed) (p : Phase) (w : Bytes) (s : State) :
    unacquired (storeWord f p w s) = unacquired s := by unfold storeWord; dsimp only; split <;> simp

@[simp] theorem unacquired_phaseChange (f : Feed) (p : Phase) (s : State) :
    unacquired (phaseChange f p s) = unacquired s := by unfold phaseChange; dsimp only; split <;> simp

@[simp] theorem unacquired_keyMiss (f : Feed) (s : State) :
    unacquired (keyMiss f s) = unacquired s := by unfold keyMiss; dsimp only; split <;> simp

@[simp] theorem unacquired_keyWaitOver (f : Feed) (s : State) :
    unacquired (keyWaitOver f s) = unacquired s := by
  unfold keyWaitOver; split
  · unfold reportExpiry; split <;> simp
  · rfl

/-! ## Timers that have run out (log entry 3) -/

theorem ranOut_iff (t : Option Ticks) : ranOut t = true ↔ t = some 0 := by simp [ranOut]

theorem timerOut_iff (f : Feed) (k : StepTimer) (s : State) :
    timerOut f k s = true ↔ (s.acqOf f).timer = some (k, 0) := by simp [timerOut]

/-- A loss timer that is stopped or has time left does not expire (R48). -/
theorem lossTimerOver_of_not_ranOut {s : State} (h : s.clock.lossTimer ≠ some 0) : lossTimerOver s = s := by
  simp [lossTimerOver, ranOut, h]

/-- No second is taken while none is due (R161, R162). -/
theorem meterSecond_of_not_due {s : State} (h : meterDue s = false) : meterSecond s = s := by
  simp [meterSecond, h]

theorem meterDue_of_part {s : State} (hr : s.limits.running = true) (hp : secondTicks ≤ s.limits.part) :
    meterDue s = true := by simp [meterDue, hr, hp]

theorem meterDue_of_not_running {s : State} (h : s.limits.running = false) : meterDue s = false := by
  simp [meterDue, h]

/-! ## The lock line -/

/-- A lock line that nothing reads moves nothing but its level (R2). -/
theorem lockLineChange_of_unread (f : Feed) (high : Bool) (s : State)
    (h : s.running = false ∨ usable s f = false ∨ (s.frontOf f).source ≠ .tuner) :
    lockLineChange f high s = setLockLine f high s := by
  unfold lockLineChange
  rcases h with h | h | h <;> simp [h]

/-- A lock line that is read is a change of what feed lock and lock indication read (R2, R3). -/
theorem lockLineChange_of_read (f : Feed) (high : Bool) (s : State) (hr : s.running = true)
    (hu : usable s f = true) (ht : (s.frontOf f).source = .tuner) :
    lockLineChange f high s = relock f (setLockLine f high) s := by
  simp [lockLineChange, hr, hu, ht]

end Sys2Proof.Machine
end

