-- ==== Sys2Proof/Laws/Decisions.lean ====
section
/-! SUPPORT. What a re-decision does, said once: `untriggered s` is s behind everything that a trigger may change, so
a decision reads the same before and after one, the notice set only grows, and after a trigger `redecided` holds. With
them the small lemmas of the words that Sys2Proof/Safety.lean states answers, decisions and clock advances in. -/

namespace Sys2Proof.Machine

/-! ## What a trigger leaves alone -/

@[simp] theorem untriggered_placeCells (cs : List LocalCell) (s : State) :
    untriggered (placeCells cs s) = untriggered s := rfl

@[simp] theorem untriggered_raise (n : Notice) (s : State) : untriggered (raise n s) = untriggered s := by
  unfold raise reportRaise; dsimp only
  split
  · rfl
  · split
    · rfl
    · split
      · rfl
      · split <;> rfl

@[simp] theorem untriggered_evaluateMeter (s : State) : untriggered (evaluateMeter s) = untriggered s := by
  unfold evaluateMeter; split
  · split
    · rfl
    · dsimp only; split
      · rw [untriggered_raise]; rfl
      · rfl
  · rfl

@[simp] theorem untriggered_placeMarker (m : Marker) (s : State) :
    untriggered (placeMarker m s) = untriggered s := by
  unfold placeMarker; split
  · rfl
  · split <;> rfl

@[simp] theorem untriggered_flushProgramme (s : State) : untriggered (flushProgramme s) = untriggered s := rfl

@[simp] theorem untriggered_startPriming (s : State) : untriggered (startPriming s) = untriggered s := rfl

@[simp] theorem untriggered_openPriming (s : State) : untriggered (openPriming s) = untriggered s := rfl

@[simp] theorem untriggered_announce (c : Nat) (d : Decision) (r : Reason) (moved : Bool) (s : State) :
    untriggered (announce c d r moved s) = untriggered s := by
  unfold announce; dsimp only
  split <;> split <;> split <;> simp

@[simp] theorem untriggered_settle (c : Context) (v : Verdict) (created moved : Bool) (s : State) :
    untriggered (settle c v created moved s) = untriggered s := by
  unfold settle; dsimp only
  rw [untriggered_evaluateMeter]; split
  · rw [untriggered_announce]; rfl
  · split
    · rw [untriggered_raise]; rfl
    · rfl

@[simp] theorem untriggered_trigger (s : State) : untriggered (trigger s) = untriggered s := by
  unfold trigger; split
  · rfl
  · split
    · rfl
    · simp

@[simp] theorem untriggered_triggers (k : Nat) (s : State) : untriggered (triggers k s) = untriggered s := by
  induction k generalizing s with
  | zero => rfl
  | succ k ih => simp [triggers, ih]

@[simp] theorem untriggered_purchaseChanged (k : Nat) (s : State) :
    untriggered (purchaseChanged k s) = untriggered s := by simp [purchaseChanged]

/-- States that agree behind `untriggered` decide alike (R168). -/
theorem decideOn_of_untriggered {s t : State} (h : untriggered t = untriggered s) (c : Context) :
    decideOn t c = decideOn s c := by
  have key : ∀ x, decideOn x c = decideOn (untriggered x) c := fun _ => rfl
  rw [key t, h, ← key s]

/-! ## The context and the meter after a trigger -/

@[simp] theorem context_placeCells (cs : List LocalCell) (s : State) :
    (placeCells cs s).output.context = s.output.context := rfl

@[simp] theorem context_raise (n : Notice) (s : State) : (raise n s).output.context = s.output.context := by
  unfold raise reportRaise; dsimp only
  split
  · rfl
  · split
    · rfl
    · split
      · rfl
      · split <;> rfl

@[simp] theorem context_evaluateMeter (s : State) :
    (evaluateMeter s).output.context = s.output.context := by
  unfold evaluateMeter; split
  · split
    · rfl
    · dsimp only; split
      · rw [context_raise]
      · rfl
  · rfl

@[simp] theorem context_placeMarker (m : Marker) (s : State) :
    (placeMarker m s).output.context = s.output.context := by
  unfold placeMarker; split
  · rfl
  · split <;> rfl

@[simp] theorem context_announce (c : Nat) (d : Decision) (r : Reason) (moved : Bool) (s : State) :
    (announce c d r moved s).output.context = s.output.context := by
  unfold announce; dsimp only
  split <;> split <;> split <;> simp [flushProgramme, openPriming, startPriming]

@[simp] theorem context_settle (c : Context) (v : Verdict) (created moved : Bool) (s : State) :
    (settle c v created moved s).output.context = some { c with
      decision := v.decision, reason := v.reason, previewEnd := v.previewEnd, eventId := v.eventId } := by
  unfold settle; dsimp only
  rw [context_evaluateMeter]; split
  · rw [context_announce]
  · split
    · rw [context_raise]
    · rfl

/-! ## Notices only grow -/

theorem notices_reportRaise (m : BitVec 16) (s : State) :
    (reportRaise m s).command.notices = s.command.notices := by
  unfold reportRaise; split
  · rfl
  · split
    · rfl
    · split <;> rfl

/-- A flag raised is set (R185). -/
@[simp] theorem noticeSet_raise (n : Notice) (s : State) : noticeSet n (raise n s) = true := by
  unfold raise; split
  · assumption
  · unfold noticeSet
    rw [notices_reportRaise]
    have h : (s.command.notices ||| n.mask) &&& n.mask = n.mask := by
      ext i; simp; intro h; exact Or.inr h
    rw [decide_eq_true_eq, h]
    cases n <;> decide

/-- A flag that is set stays set while another is raised (R185). -/
theorem noticeSet_raise_of_set {n : Notice} {s : State} (h : noticeSet n s = true) (k : Notice) :
    noticeSet n (raise k s) = true := by
  unfold raise; split
  · exact h
  · unfold noticeSet at h ⊢
    rw [notices_reportRaise, decide_eq_true_eq]
    rw [decide_eq_true_eq] at h
    intro hz
    apply h
    ext i
    have := congrArg (fun b => b.getLsbD i) hz
    simp at this ⊢
    exact fun hn => this (.inl hn)

theorem noticeSet_of_notices {n : Notice} {s t : State} (h : t.command.notices = s.command.notices) :
    noticeSet n t = noticeSet n s := by unfold noticeSet; rw [h]

theorem noticeSet_evaluateMeter_of_set {n : Notice} {s : State} (h : noticeSet n s = true) :
    noticeSet n (evaluateMeter s) = true := by
  unfold evaluateMeter; split
  · split
    · exact h
    · have hs : noticeSet n { s with limits := { s.limits with running := true } } = true := h
      dsimp only; split
      · exact noticeSet_raise_of_set hs _
      · exact hs
  · exact h

theorem notices_placeMarker (m : Marker) (s : State) :
    (placeMarker m s).command.notices = s.command.notices := by
  unfold placeMarker; split
  · rfl
  · split <;> rfl

/-- A changed decision raises ACCESS CHANGED (R172, step 2). -/
theorem noticeSet_announce (c : Nat) (d : Decision) (r : Reason) (moved : Bool) (s : State) :
    noticeSet .accessChanged (announce c d r moved s) = true := by
  have kept : ∀ (offer : Bool) (x : State), noticeSet .accessChanged x = true →
      noticeSet .accessChanged (if offer then raise .offer x else x) = true := by
    intro offer x h; cases offer
    · exact h
    · exact noticeSet_raise_of_set h _
  have last : ∀ (deny : Prop) [Decidable deny] (x : State), noticeSet .accessChanged x = true →
      noticeSet .accessChanged (if deny then openPriming x else startPriming x) = true := by
    intro deny _ x h; split <;> exact h
  unfold announce
  refine last _ _ ?_
  rw [noticeSet_of_notices (notices_placeMarker _ _)]
  exact kept _ _ (noticeSet_raise _ _)

/-! ## The meter and the re-decision -/

/-- The meter reads the context and the limits behind `untriggered`, and nothing else (R160). -/
theorem meterMayRun_of_untriggered {s t : State} (h : untriggered t = untriggered s)
    (hc : t.output.context = s.output.context) : meterMayRun t = meterMayRun s := by
  have active : ∀ x : State, activeProfile x = activeProfile (untriggered x) := fun _ => rfl
  have par : ∀ x : State, parental x = parental (untriggered x) := fun _ => rfl
  unfold meterMayRun
  rw [hc, active t, par t, h, ← active s, ← par s]

theorem running_raise (n : Notice) (s : State) : (raise n s).limits.running = s.limits.running := by
  unfold raise reportRaise; dsimp only
  split
  · rfl
  · split
    · rfl
    · split
      · rfl
      · split <;> rfl

/-- After its evaluation the meter runs exactly while it may (R160). -/
theorem running_evaluateMeter (s : State) :
    (evaluateMeter s).limits.running = meterMayRun (evaluateMeter s) := by
  rw [meterMayRun_of_untriggered (untriggered_evaluateMeter s) (context_evaluateMeter s)]
  unfold evaluateMeter; split
  · rename_i h; rw [h]
    split
    · assumption
    · dsimp only; split
      · rw [running_raise]
      · rfl
  · rename_i h; simp at h; rw [h]

/-- A trigger is a re-decision (R171, R172). -/
theorem redecided_trigger (s : State) : redecided s (trigger s) := by
  intro c hc hch
  have ht : trigger s = settle c (decideOn s c) false false s := by
    unfold trigger; rw [hc]; simp [hch]
  dsimp only
  rw [decideOn_of_untriggered (untriggered_trigger s), ht]
  refine ⟨context_settle .., ?_, ?_⟩
  · intro hm
    unfold settle; dsimp only
    apply noticeSet_evaluateMeter_of_set
    rw [if_pos (by rcases hm with h | h <;> simp [h])]
    exact noticeSet_announce ..
  · unfold settle; exact running_evaluateMeter _

/-! ## The words of Safety.lean -/

/-- A re-decision is asked of a context that is not changing only (R171). -/
theorem redecided_of_no_context {s : State} (h : s.output.context = none) (t : State) : redecided s t := by
  intro c hc; rw [h] at hc; cases hc

theorem redecided_of_changing {s : State} {c : Context} (h : s.output.context = some c) (hc : c.changing = true)
    (t : State) : redecided s t := by
  intro d hd hch; rw [h] at hd; cases hd; rw [hc] at hch; cases hch

/-- A reply that is not awaited needs no answer (R89). -/
theorem pendingEnded_of_not_awaiting {f : Feed} {s : State} (h : (s.acqOf f).pending.isAwaiting = false)
    (o : ReplyOutcome) (t : State) : pendingEnded f o s t := by
  intro tag code picked hp; rw [hp] at h; cases h

/-- A reply in the reply queue is the answer (R89). -/
theorem answeredAs_of_mem {f : Feed} {tag code : Byte} {o : ReplyOutcome} {results : Bytes} {t : State}
    (h : LocalCell.reply tag code o 0 results ∈ t.command.replyQueue) : answeredAs f tag code o t :=
  .inl ⟨results, h⟩

/-- Answering an awaiting reply ends it: placed where an entry is free, else formed in the record (R89). -/
theorem pendingEnded_answerPending (f : Feed) (o : ReplyOutcome) (results : Bytes) (s : State) :
    pendingEnded f o s (answerPending f o results s) := by
  intro tag code picked h
  unfold answerPending; rw [h]; dsimp only
  split
  · exact .inl ⟨_, List.mem_append_right _ (List.mem_singleton.2 rfl)⟩
  · exact .inr ⟨one (feedPosition f) ++ results, by cases f <;> rfl⟩

theorem pendingEnded_supersede (f : Feed) (s : State) : pendingEnded f .superseded s (supersede f s) :=
  pendingEnded_answerPending _ _ _ _

theorem presentationEnded_of_no_context {s t : State} (hs : s.output.context = none)
    (ht : t.output.context = none) : presentationEnded s t :=
  ⟨ht, fun c hc => by rw [hs] at hc; cases hc⟩

/-- The clock that the statements count is the model's (R40). -/
theorem counted_eq_advanced (c : Clock) : counted c = c.advanced := by
  have hn : nextNetworkTime c = (c.n + c.units) % clockSpan := by
    unfold nextNetworkTime Clock.units clockSpan
    by_cases hk : c.k = 15 <;> by_cases hp : 0 < c.s <;> by_cases hm : c.s < 0 <;> simp [hk, hp, hm]
  have hs : (counted c).s = c.drained := by
    unfold counted Clock.drained
    by_cases hk : c.k = 15 <;> by_cases hp : 0 < c.s <;> by_cases hm : c.s < 0 <;> simp [hk, hp, hm]
  have : counted c = { c with n := nextNetworkTime c, s := (counted c).s, k := (c.k + 1) % 16 } := rfl
  rw [this, hn, hs]; rfl

/-- One advance as the statements say it is the model's timers and then its clock (R40; log entry 3). -/
theorem oneAdvance_eq (s : State) :
    oneAdvance s = { tickTimers s with clock := (tickTimers s).clock.advanced } := by
  have h := counted_eq_advanced s.clock
  have hc : ({ counted s.clock with lossTimer := less125 s.clock.lossTimer } : Clock) =
      (tickTimers s).clock.advanced := by rw [h]; rfl
  unfold oneAdvance; rw [hc]; rfl

/-- An advance to a new second is one advance and then its boundary evaluation (R50). -/
theorem clockAdvance_to_a_new_second {s : State} (ha : s.lines.resetAsserted = false) (hr : s.running = true)
    (hn : nextNetworkTime s.clock / 1024 ≠ s.clock.n / 1024) :
    clockAdvance s = evaluateBoundary .advance (oneAdvance s) := by
  have h : (oneAdvance s).seconds ≠ (tickTimers s).seconds := hn
  unfold clockAdvance advanceClock
  rw [if_neg (by simp [ha]), if_pos hr]
  rw [oneAdvance_eq] at h ⊢
  exact if_neg h

end Sys2Proof.Machine
end

