-- ==== Sys2Proof/Laws/PerInstr.lean ====
section
/-! SUPPORT. The family Arguments: what well-formedness says of each command's operands, as syntax. -/

namespace Sys2Proof.Laws.Arguments

/-- The payload bytes of the command cell that carries a command row: tag, code and parameters (R182); none for
the rows that no command cell carries. -/
def payloadLength : Instr → Option Nat
  | .invalidCommand _ _ params => some (2 + params.length)
  | .noOperation _ params => some (2 + params.length)
  | .softReset _ params => some (2 + params.length)
  | .configure _ params => some (2 + params.length)
  | .statusReadFeeds _ more => some (3 + more.length)
  | .statusReadFilter _ more => some (3 + more.length)
  | .statusReadClock _ more => some (3 + more.length)
  | .statusReadAcquisition _ more => some (3 + more.length)
  | .statusReadAccess _ more => some (3 + more.length)
  | .statusReadPurchases _ more => some (3 + more.length)
  | .statusReadLimits _ more => some (3 + more.length)
  | .statusReadCounters _ more => some (3 + more.length)
  | .flagsClear _ params => some (2 + params.length)
  | .select _ params => some (2 + params.length)
  | .selectNext _ params => some (2 + params.length)
  | .selectPrevious _ params => some (2 + params.length)
  | .pretune _ params => some (2 + params.length)
  | .park _ params => some (2 + params.length)
  | .release _ params => some (2 + params.length)
  | .standby _ params => some (2 + params.length)
  | .wake _ params => some (2 + params.length)
  | .channelRead _ params => some (2 + params.length)
  | .guideSearch _ params => some (2 + params.length)
  | .guideRead _ params => some (2 + params.length)
  | .tapOpen _ params => some (2 + params.length)
  | .tapClose _ params => some (2 + params.length)
  | .setClock _ params => some (2 + params.length)
  | .purchase _ params => some (2 + params.length)
  | .cancelPurchase _ params => some (2 + params.length)
  | .purchaseRead _ params => some (2 + params.length)
  | .profileSelect _ params => some (2 + params.length)
  | .profileWrite _ params => some (2 + params.length)
  | .profileRead _ params => some (2 + params.length)
  | .pinChange _ params => some (2 + params.length)
  | _ => none

/-- The bytes of a whole slot that a row brings (R5, R6); none for the other rows. -/
def slotLength : Instr → Option Nat
  | .confirmSlot _ bytes => some bytes.length
  | .lockedSlot _ bytes => some bytes.length
  | _ => none

/-- A well-formed command fits where it arrives: a command cell has 2 to 122 payload bytes, a slot 128 bytes. -/
def Statement (i : Instr) : Prop :=
  i.wellFormed = true →
    (∀ n, payloadLength i = some n → 2 ≤ n ∧ n ≤ 122) ∧ (∀ n, slotLength i = some n → n = 128)

/-- A row that carries parameter bytes. -/
theorem ofParams {i : Instr} {params : Bytes} (fits : i.wellFormed = true → paramsFit params = true)
    (carries : payloadLength i = some (2 + params.length)) (noSlot : slotLength i = none) :
    Statement i := by
  intro w
  have h := fits w
  rw [carries, noSlot]
  simp [paramsFit] at h ⊢
  omega

/-- A STATUS READ row. -/
theorem ofMore {i : Instr} {more : Bytes} (fits : i.wellFormed = true → moreFits more = true)
    (carries : payloadLength i = some (3 + more.length)) (noSlot : slotLength i = none) :
    Statement i := by
  intro w
  have h := fits w
  rw [carries, noSlot]
  simp [moreFits] at h ⊢
  omega

/-- A row that brings a slot. -/
theorem ofSlot {i : Instr} {bytes : List FeedByte} (fits : i.wellFormed = true → slotWhole bytes = true)
    (noCell : payloadLength i = none) (brings : slotLength i = some bytes.length) : Statement i := by
  intro w
  have h := fits w
  rw [noCell, brings]
  simpa [slotWhole] using h

/-- A row that brings neither. -/
theorem ofNeither {i : Instr} (noCell : payloadLength i = none) (noSlot : slotLength i = none) :
    Statement i := by
  intro _
  rw [noCell, noSlot]
  simp

theorem powerOn (resetAsserted standbyGood : Bool) : Statement (.powerOn resetAsserted standbyGood) :=
  ofNeither rfl rfl

theorem resetLineAssert : Statement (.resetLineAssert) :=
  ofNeither rfl rfl

theorem startUp (inputs : StartInputs) : Statement (.startUp inputs) :=
  ofNeither rfl rfl

theorem standbyGoodFall : Statement (.standbyGoodFall) :=
  ofNeither rfl rfl

theorem feedByte (feed : Feed) (byte : FeedByte) : Statement (.feedByte feed byte) :=
  ofNeither rfl rfl

theorem confirmSlot (feed : Feed) (bytes : List FeedByte) : Statement (.confirmSlot feed bytes) :=
  ofSlot id rfl rfl

theorem lockedSlot (feed : Feed) (bytes : List FeedByte) : Statement (.lockedSlot feed bytes) :=
  ofSlot id rfl rfl

theorem lockLineChange (feed : Feed) (high : Bool) : Statement (.lockLineChange feed high) :=
  ofNeither rfl rfl

theorem clockAdvance : Statement (.clockAdvance) :=
  ofNeither rfl rfl

theorem lossTimerExpiry : Statement (.lossTimerExpiry) :=
  ofNeither rfl rfl

theorem settleTimerExpiry (feed : Feed) : Statement (.settleTimerExpiry feed) :=
  ofNeither rfl rfl

theorem lockTimerExpiry (feed : Feed) : Statement (.lockTimerExpiry feed) :=
  ofNeither rfl rfl

theorem syncTimerExpiry (feed : Feed) : Statement (.syncTimerExpiry feed) :=
  ofNeither rfl rfl

theorem mapTimerExpiry (feed : Feed) : Statement (.mapTimerExpiry feed) :=
  ofNeither rfl rfl

theorem keyWaitExpiry (feed : Feed) : Statement (.keyWaitExpiry feed) :=
  ofNeither rfl rfl

theorem lockoutExpiry : Statement (.lockoutExpiry) :=
  ofNeither rfl rfl

theorem meterSecond : Statement (.meterSecond) :=
  ofNeither rfl rfl

theorem primingTimerExpiry : Statement (.primingTimerExpiry) :=
  ofNeither rfl rfl

theorem sentPulse : Statement (.sentPulse) :=
  ofNeither rfl rfl

theorem collidedPulse : Statement (.collidedPulse) :=
  ofNeither rfl rfl

theorem returnWaitExpiry : Statement (.returnWaitExpiry) :=
  ofNeither rfl rfl

theorem holdLineChange (asserted : Bool) : Statement (.holdLineChange asserted) :=
  ofNeither rfl rfl

theorem outputCellWrite : Statement (.outputCellWrite) :=
  ofNeither rfl rfl

theorem localCellTransfer : Statement (.localCellTransfer) :=
  ofNeither rfl rfl

theorem localCellReceive (frame : LocalFrame) : Statement (.localCellReceive frame) :=
  ofNeither rfl rfl

theorem replyEntryArbiter : Statement (.replyEntryArbiter) :=
  ofNeither rfl rfl

theorem invalidCommand (tag code : Byte) (params : Bytes) : Statement (.invalidCommand tag code params) :=
  ofParams (fun w => (Bool.and_eq_true_iff.mp w).2) rfl rfl

theorem noOperation (tag : Byte) (params : Bytes) : Statement (.noOperation tag params) :=
  ofParams id rfl rfl

theorem softReset (tag : Byte) (params : Bytes) : Statement (.softReset tag params) :=
  ofParams id rfl rfl

theorem configure (tag : Byte) (params : Bytes) : Statement (.configure tag params) :=
  ofParams id rfl rfl

theorem statusReadFeeds (tag : Byte) (more : Bytes) : Statement (.statusReadFeeds tag more) :=
  ofMore id rfl rfl

theorem statusReadFilter (tag : Byte) (more : Bytes) : Statement (.statusReadFilter tag more) :=
  ofMore id rfl rfl

theorem statusReadClock (tag : Byte) (more : Bytes) : Statement (.statusReadClock tag more) :=
  ofMore id rfl rfl

theorem statusReadAcquisition (tag : Byte) (more : Bytes) : Statement (.statusReadAcquisition tag more) :=
  ofMore id rfl rfl

theorem statusReadAccess (tag : Byte) (more : Bytes) : Statement (.statusReadAccess tag more) :=
  ofMore id rfl rfl

theorem statusReadPurchases (tag : Byte) (more : Bytes) : Statement (.statusReadPurchases tag more) :=
  ofMore id rfl rfl

theorem statusReadLimits (tag : Byte) (more : Bytes) : Statement (.statusReadLimits tag more) :=
  ofMore id rfl rfl

theorem statusReadCounters (tag : Byte) (more : Bytes) : Statement (.statusReadCounters tag more) :=
  ofMore id rfl rfl

theorem flagsClear (tag : Byte) (params : Bytes) : Statement (.flagsClear tag params) :=
  ofParams id rfl rfl

theorem select (tag : Byte) (params : Bytes) : Statement (.select tag params) :=
  ofParams id rfl rfl

theorem selectNext (tag : Byte) (params : Bytes) : Statement (.selectNext tag params) :=
  ofParams id rfl rfl

theorem selectPrevious (tag : Byte) (params : Bytes) : Statement (.selectPrevious tag params) :=
  ofParams id rfl rfl

theorem pretune (tag : Byte) (params : Bytes) : Statement (.pretune tag params) :=
  ofParams id rfl rfl

theorem park (tag : Byte) (params : Bytes) : Statement (.park tag params) :=
  ofParams id rfl rfl

theorem release (tag : Byte) (params : Bytes) : Statement (.release tag params) :=
  ofParams id rfl rfl

theorem standby (tag : Byte) (params : Bytes) : Statement (.standby tag params) :=
  ofParams id rfl rfl

theorem wake (tag : Byte) (params : Bytes) : Statement (.wake tag params) :=
  ofParams id rfl rfl

theorem channelRead (tag : Byte) (params : Bytes) : Statement (.channelRead tag params) :=
  ofParams id rfl rfl

theorem guideSearch (tag : Byte) (params : Bytes) : Statement (.guideSearch tag params) :=
  ofParams id rfl rfl

theorem guideRead (tag : Byte) (params : Bytes) : Statement (.guideRead tag params) :=
  ofParams id rfl rfl

theorem tapOpen (tag : Byte) (params : Bytes) : Statement (.tapOpen tag params) :=
  ofParams id rfl rfl

theorem tapClose (tag : Byte) (params : Bytes) : Statement (.tapClose tag params) :=
  ofParams id rfl rfl

theorem setClock (tag : Byte) (params : Bytes) : Statement (.setClock tag params) :=
  ofParams id rfl rfl

theorem purchase (tag : Byte) (params : Bytes) : Statement (.purchase tag params) :=
  ofParams id rfl rfl

theorem cancelPurchase (tag : Byte) (params : Bytes) : Statement (.cancelPurchase tag params) :=
  ofParams id rfl rfl

theorem purchaseRead (tag : Byte) (params : Bytes) : Statement (.purchaseRead tag params) :=
  ofParams id rfl rfl

theorem profileSelect (tag : Byte) (params : Bytes) : Statement (.profileSelect tag params) :=
  ofParams id rfl rfl

theorem profileWrite (tag : Byte) (params : Bytes) : Statement (.profileWrite tag params) :=
  ofParams id rfl rfl

theorem profileRead (tag : Byte) (params : Bytes) : Statement (.profileRead tag params) :=
  ofParams id rfl rfl

theorem pinChange (tag : Byte) (params : Bytes) : Statement (.pinChange tag params) :=
  ofParams id rfl rfl

end Sys2Proof.Laws.Arguments
end

