-- ==== Sys2Proof/Laws/State.lean ====
section
/-! SUPPORT. One lemma for each field and each small update of State, true by rfl: a later proof reads a field
of an updated state without unfolding the update. -/

namespace Sys2Proof.Machine

/-! ## Per-feed things -/

@[simp] theorem PerFeed.get_set_same {α : Type} (p : PerFeed α) (f : Feed) (x : α) :
    (p.set f x).get f = x := by cases f <;> rfl

@[simp] theorem PerFeed.get_set_other {α : Type} (p : PerFeed α) (f : Feed) (x : α) :
    (p.set f x).get (otherFeed f) = p.get (otherFeed f) := by cases f <;> rfl

theorem PerFeed.get_set {α : Type} (p : PerFeed α) (f g : Feed) (x : α) :
    (p.set f x).get g = if g = f then x else p.get g := by cases f <;> cases g <;> rfl

@[simp] theorem PerFeed.get_modify_same {α : Type} (p : PerFeed α) (f : Feed) (g : α → α) :
    (p.modify f g).get f = g (p.get f) := by cases f <;> rfl

@[simp] theorem PerFeed.get_modify_other {α : Type} (p : PerFeed α) (f : Feed) (g : α → α) :
    (p.modify f g).get (otherFeed f) = p.get (otherFeed f) := by cases f <;> rfl

@[simp] theorem otherFeed_otherFeed (f : Feed) : otherFeed (otherFeed f) = f := by cases f <;> rfl

theorem otherFeed_ne (f : Feed) : otherFeed f ≠ f := by cases f <;> decide

@[simp] theorem frontOf_setFront_same (f : Feed) (x : Front) (s : State) :
    (s.setFront f x).frontOf f = x := PerFeed.get_set_same ..

@[simp] theorem frontOf_setFront_other (f : Feed) (x : Front) (s : State) :
    (s.setFront f x).frontOf (otherFeed f) = s.frontOf (otherFeed f) := PerFeed.get_set_other ..

@[simp] theorem acqOf_setAcq_same (f : Feed) (r : AcqRecord) (s : State) :
    (s.setAcq f r).acqOf f = r := PerFeed.get_set_same ..

@[simp] theorem acqOf_setAcq_other (f : Feed) (r : AcqRecord) (s : State) :
    (s.setAcq f r).acqOf (otherFeed f) = s.acqOf (otherFeed f) := PerFeed.get_set_other ..

@[simp] theorem acqOf_changeAcq_same (f : Feed) (g : AcqRecord → AcqRecord) (s : State) :
    (s.changeAcq f g).acqOf f = g (s.acqOf f) := PerFeed.get_set_same ..

@[simp] theorem acqOf_changeAcq_other (f : Feed) (g : AcqRecord → AcqRecord) (s : State) :
    (s.changeAcq f g).acqOf (otherFeed f) = s.acqOf (otherFeed f) := PerFeed.get_set_other ..

@[simp] theorem slotOf_setSlot_same (f : Feed) (k : KeySlot) (s : State) :
    (s.setSlot f k).slotOf f = k := PerFeed.get_set_same ..

@[simp] theorem slotOf_setSlot_other (f : Feed) (k : KeySlot) (s : State) :
    (s.setSlot f k).slotOf (otherFeed f) = s.slotOf (otherFeed f) := PerFeed.get_set_other ..

/-! ## setFront -/

@[simp] theorem pending_setFront (f : Feed) (x : Front) (s : State) :
    (s.setFront f x).pending = s.pending := rfl

@[simp] theorem lines_setFront (f : Feed) (x : Front) (s : State) :
    (s.setFront f x).lines = s.lines := rfl

@[simp] theorem f1Present_setFront (f : Feed) (x : Front) (s : State) :
    (s.setFront f x).f1Present = s.f1Present := rfl

@[simp] theorem filter_setFront (f : Feed) (x : Front) (s : State) :
    (s.setFront f x).filter = s.filter := rfl

@[simp] theorem assembler_setFront (f : Feed) (x : Front) (s : State) :
    (s.setFront f x).assembler = s.assembler := rfl

@[simp] theorem clock_setFront (f : Feed) (x : Front) (s : State) :
    (s.setFront f x).clock = s.clock := rfl

@[simp] theorem guide_setFront (f : Feed) (x : Front) (s : State) :
    (s.setFront f x).guide = s.guide := rfl

@[simp] theorem acq_setFront (f : Feed) (x : Front) (s : State) :
    (s.setFront f x).acq = s.acq := rfl

@[simp] theorem access_setFront (f : Feed) (x : Front) (s : State) :
    (s.setFront f x).access = s.access := rfl

@[simp] theorem purchase_setFront (f : Feed) (x : Front) (s : State) :
    (s.setFront f x).purchase = s.purchase := rfl

@[simp] theorem limits_setFront (f : Feed) (x : Front) (s : State) :
    (s.setFront f x).limits = s.limits := rfl

@[simp] theorem output_setFront (f : Feed) (x : Front) (s : State) :
    (s.setFront f x).output = s.output := rfl

@[simp] theorem command_setFront (f : Feed) (x : Front) (s : State) :
    (s.setFront f x).command = s.command := rfl

@[simp] theorem freeIndex_setFront (f : Feed) (x : Front) (s : State) :
    (s.setFront f x).freeIndex = s.freeIndex := rfl

@[simp] theorem front_setFront (f : Feed) (x : Front) (s : State) :
    (s.setFront f x).front = s.front.set f x := rfl

/-! ## setAcq -/

@[simp] theorem pending_setAcq (f : Feed) (r : AcqRecord) (s : State) :
    (s.setAcq f r).pending = s.pending := rfl

@[simp] theorem lines_setAcq (f : Feed) (r : AcqRecord) (s : State) :
    (s.setAcq f r).lines = s.lines := rfl

@[simp] theorem front_setAcq (f : Feed) (r : AcqRecord) (s : State) :
    (s.setAcq f r).front = s.front := rfl

@[simp] theorem f1Present_setAcq (f : Feed) (r : AcqRecord) (s : State) :
    (s.setAcq f r).f1Present = s.f1Present := rfl

@[simp] theorem filter_setAcq (f : Feed) (r : AcqRecord) (s : State) :
    (s.setAcq f r).filter = s.filter := rfl

@[simp] theorem assembler_setAcq (f : Feed) (r : AcqRecord) (s : State) :
    (s.setAcq f r).assembler = s.assembler := rfl

@[simp] theorem clock_setAcq (f : Feed) (r : AcqRecord) (s : State) :
    (s.setAcq f r).clock = s.clock := rfl

@[simp] theorem guide_setAcq (f : Feed) (r : AcqRecord) (s : State) :
    (s.setAcq f r).guide = s.guide := rfl

@[simp] theorem access_setAcq (f : Feed) (r : AcqRecord) (s : State) :
    (s.setAcq f r).access = s.access := rfl

@[simp] theorem purchase_setAcq (f : Feed) (r : AcqRecord) (s : State) :
    (s.setAcq f r).purchase = s.purchase := rfl

@[simp] theorem limits_setAcq (f : Feed) (r : AcqRecord) (s : State) :
    (s.setAcq f r).limits = s.limits := rfl

@[simp] theorem output_setAcq (f : Feed) (r : AcqRecord) (s : State) :
    (s.setAcq f r).output = s.output := rfl

@[simp] theorem command_setAcq (f : Feed) (r : AcqRecord) (s : State) :
    (s.setAcq f r).command = s.command := rfl

@[simp] theorem freeIndex_setAcq (f : Feed) (r : AcqRecord) (s : State) :
    (s.setAcq f r).freeIndex = s.freeIndex := rfl

/-! ## changeAcq -/

@[simp] theorem pending_changeAcq (f : Feed) (g : AcqRecord → AcqRecord) (s : State) :
    (s.changeAcq f g).pending = s.pending := rfl

@[simp] theorem lines_changeAcq (f : Feed) (g : AcqRecord → AcqRecord) (s : State) :
    (s.changeAcq f g).lines = s.lines := rfl

@[simp] theorem front_changeAcq (f : Feed) (g : AcqRecord → AcqRecord) (s : State) :
    (s.changeAcq f g).front = s.front := rfl

@[simp] theorem f1Present_changeAcq (f : Feed) (g : AcqRecord → AcqRecord) (s : State) :
    (s.changeAcq f g).f1Present = s.f1Present := rfl

@[simp] theorem filter_changeAcq (f : Feed) (g : AcqRecord → AcqRecord) (s : State) :
    (s.changeAcq f g).filter = s.filter := rfl

@[simp] theorem assembler_changeAcq (f : Feed) (g : AcqRecord → AcqRecord) (s : State) :
    (s.changeAcq f g).assembler = s.assembler := rfl

@[simp] theorem clock_changeAcq (f : Feed) (g : AcqRecord → AcqRecord) (s : State) :
    (s.changeAcq f g).clock = s.clock := rfl

@[simp] theorem guide_changeAcq (f : Feed) (g : AcqRecord → AcqRecord) (s : State) :
    (s.changeAcq f g).guide = s.guide := rfl

@[simp] theorem access_changeAcq (f : Feed) (g : AcqRecord → AcqRecord) (s : State) :
    (s.changeAcq f g).access = s.access := rfl

@[simp] theorem purchase_changeAcq (f : Feed) (g : AcqRecord → AcqRecord) (s : State) :
    (s.changeAcq f g).purchase = s.purchase := rfl

@[simp] theorem limits_changeAcq (f : Feed) (g : AcqRecord → AcqRecord) (s : State) :
    (s.changeAcq f g).limits = s.limits := rfl

@[simp] theorem output_changeAcq (f : Feed) (g : AcqRecord → AcqRecord) (s : State) :
    (s.changeAcq f g).output = s.output := rfl

@[simp] theorem command_changeAcq (f : Feed) (g : AcqRecord → AcqRecord) (s : State) :
    (s.changeAcq f g).command = s.command := rfl

@[simp] theorem freeIndex_changeAcq (f : Feed) (g : AcqRecord → AcqRecord) (s : State) :
    (s.changeAcq f g).freeIndex = s.freeIndex := rfl

/-! ## setSlot -/

@[simp] theorem pending_setSlot (f : Feed) (k : KeySlot) (s : State) :
    (s.setSlot f k).pending = s.pending := rfl

@[simp] theorem lines_setSlot (f : Feed) (k : KeySlot) (s : State) :
    (s.setSlot f k).lines = s.lines := rfl

@[simp] theorem front_setSlot (f : Feed) (k : KeySlot) (s : State) :
    (s.setSlot f k).front = s.front := rfl

@[simp] theorem f1Present_setSlot (f : Feed) (k : KeySlot) (s : State) :
    (s.setSlot f k).f1Present = s.f1Present := rfl

@[simp] theorem filter_setSlot (f : Feed) (k : KeySlot) (s : State) :
    (s.setSlot f k).filter = s.filter := rfl

@[simp] theorem assembler_setSlot (f : Feed) (k : KeySlot) (s : State) :
    (s.setSlot f k).assembler = s.assembler := rfl

@[simp] theorem clock_setSlot (f : Feed) (k : KeySlot) (s : State) :
    (s.setSlot f k).clock = s.clock := rfl

@[simp] theorem guide_setSlot (f : Feed) (k : KeySlot) (s : State) :
    (s.setSlot f k).guide = s.guide := rfl

@[simp] theorem acq_setSlot (f : Feed) (k : KeySlot) (s : State) :
    (s.setSlot f k).acq = s.acq := rfl

@[simp] theorem purchase_setSlot (f : Feed) (k : KeySlot) (s : State) :
    (s.setSlot f k).purchase = s.purchase := rfl

@[simp] theorem limits_setSlot (f : Feed) (k : KeySlot) (s : State) :
    (s.setSlot f k).limits = s.limits := rfl

@[simp] theorem output_setSlot (f : Feed) (k : KeySlot) (s : State) :
    (s.setSlot f k).output = s.output := rfl

@[simp] theorem command_setSlot (f : Feed) (k : KeySlot) (s : State) :
    (s.setSlot f k).command = s.command := rfl

@[simp] theorem freeIndex_setSlot (f : Feed) (k : KeySlot) (s : State) :
    (s.setSlot f k).freeIndex = s.freeIndex := rfl

/-! ## placeCells -/

@[simp] theorem pending_placeCells (cs : List LocalCell) (s : State) :
    (placeCells cs s).pending = s.pending := rfl

@[simp] theorem lines_placeCells (cs : List LocalCell) (s : State) :
    (placeCells cs s).lines = s.lines := rfl

@[simp] theorem front_placeCells (cs : List LocalCell) (s : State) :
    (placeCells cs s).front = s.front := rfl

@[simp] theorem f1Present_placeCells (cs : List LocalCell) (s : State) :
    (placeCells cs s).f1Present = s.f1Present := rfl

@[simp] theorem filter_placeCells (cs : List LocalCell) (s : State) :
    (placeCells cs s).filter = s.filter := rfl

@[simp] theorem assembler_placeCells (cs : List LocalCell) (s : State) :
    (placeCells cs s).assembler = s.assembler := rfl

@[simp] theorem clock_placeCells (cs : List LocalCell) (s : State) :
    (placeCells cs s).clock = s.clock := rfl

@[simp] theorem guide_placeCells (cs : List LocalCell) (s : State) :
    (placeCells cs s).guide = s.guide := rfl

@[simp] theorem acq_placeCells (cs : List LocalCell) (s : State) :
    (placeCells cs s).acq = s.acq := rfl

@[simp] theorem access_placeCells (cs : List LocalCell) (s : State) :
    (placeCells cs s).access = s.access := rfl

@[simp] theorem purchase_placeCells (cs : List LocalCell) (s : State) :
    (placeCells cs s).purchase = s.purchase := rfl

@[simp] theorem limits_placeCells (cs : List LocalCell) (s : State) :
    (placeCells cs s).limits = s.limits := rfl

@[simp] theorem output_placeCells (cs : List LocalCell) (s : State) :
    (placeCells cs s).output = s.output := rfl

@[simp] theorem freeIndex_placeCells (cs : List LocalCell) (s : State) :
    (placeCells cs s).freeIndex = s.freeIndex := rfl

@[simp] theorem replyQueue_placeCells (cs : List LocalCell) (s : State) :
    (placeCells cs s).command.replyQueue = s.command.replyQueue ++ cs := rfl

@[simp] theorem starting_placeCells (cs : List LocalCell) (s : State) :
    (placeCells cs s).command.starting = s.command.starting := rfl

@[simp] theorem reserved_placeCells (cs : List LocalCell) (s : State) :
    (placeCells cs s).command.reserved = s.command.reserved := rfl

/-! ## endReservation -/

@[simp] theorem pending_endReservation (s : State) :
    (endReservation s).pending = s.pending := rfl

@[simp] theorem lines_endReservation (s : State) :
    (endReservation s).lines = s.lines := rfl

@[simp] theorem front_endReservation (s : State) :
    (endReservation s).front = s.front := rfl

@[simp] theorem f1Present_endReservation (s : State) :
    (endReservation s).f1Present = s.f1Present := rfl

@[simp] theorem filter_endReservation (s : State) :
    (endReservation s).filter = s.filter := rfl

@[simp] theorem assembler_endReservation (s : State) :
    (endReservation s).assembler = s.assembler := rfl

@[simp] theorem clock_endReservation (s : State) :
    (endReservation s).clock = s.clock := rfl

@[simp] theorem guide_endReservation (s : State) :
    (endReservation s).guide = s.guide := rfl

@[simp] theorem acq_endReservation (s : State) :
    (endReservation s).acq = s.acq := rfl

@[simp] theorem access_endReservation (s : State) :
    (endReservation s).access = s.access := rfl

@[simp] theorem purchase_endReservation (s : State) :
    (endReservation s).purchase = s.purchase := rfl

@[simp] theorem limits_endReservation (s : State) :
    (endReservation s).limits = s.limits := rfl

@[simp] theorem output_endReservation (s : State) :
    (endReservation s).output = s.output := rfl

@[simp] theorem freeIndex_endReservation (s : State) :
    (endReservation s).freeIndex = s.freeIndex := rfl

@[simp] theorem reserved_endReservation (s : State) : (endReservation s).command.reserved = false := rfl

@[simp] theorem replyQueue_endReservation (s : State) :
    (endReservation s).command.replyQueue = s.command.replyQueue := rfl

/-! ## reserve -/

@[simp] theorem pending_reserve (s : State) :
    (reserve s).pending = s.pending := rfl

@[simp] theorem lines_reserve (s : State) :
    (reserve s).lines = s.lines := rfl

@[simp] theorem front_reserve (s : State) :
    (reserve s).front = s.front := rfl

@[simp] theorem f1Present_reserve (s : State) :
    (reserve s).f1Present = s.f1Present := rfl

@[simp] theorem filter_reserve (s : State) :
    (reserve s).filter = s.filter := rfl

@[simp] theorem assembler_reserve (s : State) :
    (reserve s).assembler = s.assembler := rfl

@[simp] theorem clock_reserve (s : State) :
    (reserve s).clock = s.clock := rfl

@[simp] theorem guide_reserve (s : State) :
    (reserve s).guide = s.guide := rfl

@[simp] theorem acq_reserve (s : State) :
    (reserve s).acq = s.acq := rfl

@[simp] theorem access_reserve (s : State) :
    (reserve s).access = s.access := rfl

@[simp] theorem purchase_reserve (s : State) :
    (reserve s).purchase = s.purchase := rfl

@[simp] theorem limits_reserve (s : State) :
    (reserve s).limits = s.limits := rfl

@[simp] theorem output_reserve (s : State) :
    (reserve s).output = s.output := rfl

@[simp] theorem freeIndex_reserve (s : State) :
    (reserve s).freeIndex = s.freeIndex := rfl

@[simp] theorem reserved_reserve (s : State) : (reserve s).command.reserved = true := rfl

@[simp] theorem replyQueue_reserve (s : State) :
    (reserve s).command.replyQueue = s.command.replyQueue := rfl

/-! ## setLockLine -/

@[simp] theorem pending_setLockLine (f : Feed) (b : Bool) (s : State) :
    (setLockLine f b s).pending = s.pending := rfl

@[simp] theorem front_setLockLine (f : Feed) (b : Bool) (s : State) :
    (setLockLine f b s).front = s.front := rfl

@[simp] theorem f1Present_setLockLine (f : Feed) (b : Bool) (s : State) :
    (setLockLine f b s).f1Present = s.f1Present := rfl

@[simp] theorem filter_setLockLine (f : Feed) (b : Bool) (s : State) :
    (setLockLine f b s).filter = s.filter := rfl

@[simp] theorem assembler_setLockLine (f : Feed) (b : Bool) (s : State) :
    (setLockLine f b s).assembler = s.assembler := rfl

@[simp] theorem clock_setLockLine (f : Feed) (b : Bool) (s : State) :
    (setLockLine f b s).clock = s.clock := rfl

@[simp] theorem guide_setLockLine (f : Feed) (b : Bool) (s : State) :
    (setLockLine f b s).guide = s.guide := rfl

@[simp] theorem acq_setLockLine (f : Feed) (b : Bool) (s : State) :
    (setLockLine f b s).acq = s.acq := rfl

@[simp] theorem access_setLockLine (f : Feed) (b : Bool) (s : State) :
    (setLockLine f b s).access = s.access := rfl

@[simp] theorem purchase_setLockLine (f : Feed) (b : Bool) (s : State) :
    (setLockLine f b s).purchase = s.purchase := rfl

@[simp] theorem limits_setLockLine (f : Feed) (b : Bool) (s : State) :
    (setLockLine f b s).limits = s.limits := rfl

@[simp] theorem output_setLockLine (f : Feed) (b : Bool) (s : State) :
    (setLockLine f b s).output = s.output := rfl

@[simp] theorem command_setLockLine (f : Feed) (b : Bool) (s : State) :
    (setLockLine f b s).command = s.command := rfl

@[simp] theorem freeIndex_setLockLine (f : Feed) (b : Bool) (s : State) :
    (setLockLine f b s).freeIndex = s.freeIndex := rfl

/-! ## popped -/

@[simp] theorem lines_popped (s : State) :
    (s.popped).lines = s.lines := rfl

@[simp] theorem front_popped (s : State) :
    (s.popped).front = s.front := rfl

@[simp] theorem f1Present_popped (s : State) :
    (s.popped).f1Present = s.f1Present := rfl

@[simp] theorem filter_popped (s : State) :
    (s.popped).filter = s.filter := rfl

@[simp] theorem assembler_popped (s : State) :
    (s.popped).assembler = s.assembler := rfl

@[simp] theorem clock_popped (s : State) :
    (s.popped).clock = s.clock := rfl

@[simp] theorem guide_popped (s : State) :
    (s.popped).guide = s.guide := rfl

@[simp] theorem acq_popped (s : State) :
    (s.popped).acq = s.acq := rfl

@[simp] theorem access_popped (s : State) :
    (s.popped).access = s.access := rfl

@[simp] theorem purchase_popped (s : State) :
    (s.popped).purchase = s.purchase := rfl

@[simp] theorem limits_popped (s : State) :
    (s.popped).limits = s.limits := rfl

@[simp] theorem output_popped (s : State) :
    (s.popped).output = s.output := rfl

@[simp] theorem command_popped (s : State) :
    (s.popped).command = s.command := rfl

@[simp] theorem freeIndex_popped (s : State) :
    (s.popped).freeIndex = s.freeIndex := rfl

@[simp] theorem pending_popped (s : State) : s.popped.pending = s.pending.tail := rfl

end Sys2Proof.Machine
end

