-- ==== Sys2Proof/Laws/Replies.lean ====
section
/-! SUPPORT. What a command row does when it is taken at once and when it is not, and how its answer stands in
the reply queue: one lemma for each shared operation of Replies.lean. -/

namespace Sys2Proof.Machine

/-- What `mayTake` says, field by field. -/
theorem mayTake_iff (s : State) :
    mayTake s = true ↔
      s.command.intake = [] ∧ s.acq.formedOrder = [] ∧ s.command.heldReply = none ∧
      s.output.pendingMarker = none ∧ s.command.noticePending = false ∧ s.command.reserved = false ∧
      0 < freeEntries s := by
  simp [mayTake, and_assoc]

/-- Nothing is reserved when a command is taken at once. -/
theorem takesAtOnce.notReserved {s : State} (h : takesAtOnce s) : s.command.reserved = false :=
  ((mayTake_iff s).mp h.2).2.2.2.2.2.1

/-- A reply entry is free when a command is taken at once. -/
theorem takesAtOnce.free {s : State} (h : takesAtOnce s) : 0 < freeEntries s :=
  ((mayTake_iff s).mp h.2).2.2.2.2.2.2

/-- A command row taken at once acts on the state with one entry reserved. -/
theorem commandRow_taken {s : State} (h : takesAtOnce s) (act : CommandCell → State → State)
    (c : CommandCell) : commandRow act c s = act c (reserve s) := by
  simp [commandRow, h.1, h.2]

/-- A command row in start-up is discarded. -/
theorem commandRow_starting {s : State} (h : s.running = false) (act : CommandCell → State → State)
    (c : CommandCell) : commandRow act c s = s := by simp [commandRow, h]

/-- A command row that cannot be taken at once is offered to the intake. -/
theorem commandRow_waits {s : State} (h : s.running = true) (m : mayTake s = false)
    (act : CommandCell → State → State) (c : CommandCell) : commandRow act c s = offerIntake c s := by
  simp [commandRow, h, m]

/-- Reserving and ending the reservation leaves a state without reservation as it was. -/
theorem endReservation_reserve {s : State} (h : s.command.reserved = false) :
    endReservation (reserve s) = s := by
  obtain ⟨_, _, _, _, _, _, _, _, _, _, _, _, _, command, _⟩ := s
  obtain ⟨⟩ := command
  simp_all [endReservation, reserve]

/-- The one-cell answer of a command taken at once stands at the tail of the reply queue, and nothing else
has changed. -/
theorem answer_reserve {s : State} (h : s.command.reserved = false) (c : CommandCell) (o : ReplyOutcome)
    (results : Bytes) : answer c o results (reserve s) = replied c.tag c.code o results s := by
  simp [answer, replied, endReservation_reserve h]

/-- A refusal without results, likewise. -/
theorem refuse_reserve {s : State} (h : s.command.reserved = false) (c : CommandCell) (o : ReplyOutcome) :
    refuse c o (reserve s) = replied c.tag c.code o [] s := answer_reserve h c o []

/-- BAD PARAMETER, likewise. -/
theorem badParameter_reserve {s : State} (h : s.command.reserved = false) (c : CommandCell) :
    badParameter c (reserve s) = replied c.tag c.code .badParameter [] s := answer_reserve h c _ []

/-- The last cell of the reply queue after an answer is that answer. -/
theorem lastReply_answer (c : CommandCell) (o : ReplyOutcome) (results : Bytes) (s : State) :
    lastReply c.tag c.code o results (answer c o results s) := by
  simp [lastReply, answer]

end Sys2Proof.Machine
end

