-- ==== Sys2Proof/Tests/Slice0.lean ====
section
/-! SUPPORT. The model's own tests: check values of the CRCs, one ill-formed term for each check of WellFormed,
small steps, and for every statement with hypotheses a state and operands that meet them, clause by clause. -/

namespace Sys2Proof.Tests

open Sys2Proof.Machine

set_option maxRecDepth 200000

/-! ## Check values -/

/-- The nine bytes "123456789". -/
def digits : Bytes := [0x31, 0x32, 0x33, 0x34, 0x35, 0x36, 0x37, 0x38, 0x39]

theorem test_crc8 : crc8 digits = 0xF4#8 := by decide

theorem test_crc16 : crc16 digits = 0x29B1#16 := by decide

theorem test_big_endian : beBytes 4 0x01020304 = [1#8, 2#8, 3#8, 4#8] ∧ beNat [1#8, 2#8] = 258 ∧
    beInt 2 (-2) = [0xFF#8, 0xFE#8] ∧ optional 2 none = [0#8, 0#8, 0#8] := by decide

theorem test_clamp_then_step : stepClamp 50 50 2500 49 = 50 ∧ stepClamp 50 50 2500 199 = 150 ∧
    bump 65535 = 65535 ∧ clampNat 60 43200 59 = 60 := by decide

theorem test_a_running_lockout_is_never_reported_as_none :
    lockoutSeconds none = 0 ∧ lockoutSeconds (some 0) = 1 ∧ lockoutSeconds (some 1) = 1 ∧
    lockoutSeconds (some 128000) = 1 ∧ lockoutSeconds (some 128001) = 2 ∧
    lockoutSeconds (some (900 * 128000)) = 900 := by decide

theorem test_newer_generation : newer 1 0 = true ∧ newer 0 128 = false ∧ newer 128 0 = true ∧
    newer 0 129 = true ∧ newer 5 5 = false := by decide

/-! ## WellFormed: an ill-formed term for each check, refused -/

theorem test_illformed_slot : (Instr.confirmSlot .f0 []).wellFormed = false ∧
    (Instr.lockedSlot .f0 (List.replicate 127 ⟨0#8, false⟩)).wellFormed = false := by decide

theorem test_illformed_startUp :
    (Instr.startUp ⟨true, true, some [], 0⟩).wellFormed = false ∧
    (Instr.startUp ⟨true, true, none, 4⟩).wellFormed = false := by decide

theorem test_illformed_code : (Instr.invalidCommand 0#8 0x10#8 []).wellFormed = false ∧
    (Instr.invalidCommand 0#8 0x06#8 []).wellFormed = true := by decide

theorem test_illformed_params : (Instr.select 0#8 (List.replicate 121 0#8)).wellFormed = false ∧
    (Instr.select 0#8 (List.replicate 120 0#8)).wellFormed = true := by decide

theorem test_illformed_more : (Instr.statusReadFeeds 0#8 (List.replicate 120 0#8)).wellFormed = false := by
  decide

theorem test_no_word_spells_a_command : decodeTableWord 8 1 = none ∧
    (State.reset.withFetchWord 8 1) = State.reset := by decide

/-! ## Small states -/

/-- The running part, both feeds present and enabled, with nothing in it. -/
def ready : State :=
  { State.reset with
    lines := { State.coldLines with resetAsserted := false }
    f1Present := true
    front := ⟨State.coldFront true, State.coldFront true⟩
    command := { State.coldCommand with starting := false, unitAddress := 0x12345 } }

/-- `ready` with the front of F0 changed. -/
def withFront (x : Front) : State := ready.setFront .f0 x

/-- `ready` with the record of F0 changed. -/
def withRecord (r : AcqRecord) : State := ready.setAcq .f0 r

/-- A front in a sync state at slot boundary 128. -/
def atSlot (sync : SyncState) : Front := { State.coldFront true with sync, slot := some 128, position := 128 }

/-- Channels 120 and 121, the second hidden. -/
def entry120 : ChannelEntry := ⟨120, 37, 400, none, 5, false⟩
def entry121 : ChannelEntry := ⟨121, 52, 500, some 7, 3, true⟩

/-- An event of channel 120 on sale, from second 1000 to 1600. -/
def event1 : EventRecord := ⟨1, 120, 1000, 600, 5, 3, some 7, some 300, 5, 2, [], false, 99, false⟩

/-- A guide of both channels and the event. -/
def smallGuide : Guide := { State.coldGuide with channels := [entry120, entry121], events := [event1] }

/-- `ready` with the guide, the clock SET at second 1000 and a credit limit of 300. -/
def shop : State :=
  { ready with
    guide := smallGuide
    clock := { State.coldClock with n := 1000 * 1024, state := .set, source := .command }
    purchase := { State.coldPurchase with limit := 300 } }

/-- A purchase of the event, PROVISIONAL. -/
def record1 : PurchaseRecord := ⟨1, 1, 120, 300, 1000, 1300, 1600, .provisional⟩

/-- F0 PRESENTING channel 120 and F1 READY on channel 121. -/
def watching : State :=
  let r : AcqRecord := { State.coldRecord with
    role := .present, state := .presenting, target := some entry120, targetCarrier := some 37,
    tunedCarrier := some 37, attempts := 1 }
  let b : AcqRecord := { State.coldRecord with
    role := .background, state := .ready, target := some entry121, targetCarrier := some 52,
    tunedCarrier := some 52, attempts := 1 }
  (shop.setAcq .f0 r).setAcq .f1 b

/-- A cell of 128 bytes as a slot, without uncorrectable flags. -/
def slotOf (stream phase : Nat) (kind : CellKind) (payload : Bytes) : List FeedByte :=
  (cellBytes stream phase true false 3 kind payload (List.replicate (122 - payload.length) 0#8)).map
    (fun b => ⟨b, false⟩)

/-- A slot that is not aligned. -/
def badSlot : List FeedByte := List.replicate 128 ⟨0#8, false⟩

/-- A command cell on the local port. -/
def commandFrame (stream : Nat) (kind : CellKind) (payload : Bytes) : Bytes :=
  cellBytes stream 0 true false 0 kind payload (List.replicate (122 - payload.length) 0#8)

/-- The state after a command. -/
def after (c : Instr) (s : State) : State :=
  match exec c s with
  | .next t => t
  | _ => s

/-! ## Small steps -/

theorem test_start_up_of_reset :
    let t := after (.startUp ⟨true, true, some [0#8, 1#8, 0x23#8, 0x45#8, 0#8, 88#8,
      crc8 [0#8, 1#8, 0x23#8, 0x45#8, 0#8, 88#8]], 2⟩) State.reset
    t.ready = true ∧ t.command.unitAddress = 0x12345 ∧ t.access.region = 88 ∧ t.clock.n = 2 ∧
    t.filter.entries.length = 6 ∧ t.command.startKind = .cold ∧ t.command.retainedValid = true := by decide

theorem test_no_operation_is_answered :
    (after (.noOperation 9#8 []) ready).command.replyQueue = [.reply 9#8 1#8 .done 0 []] := by decide

theorem test_bad_memory_raises_config_fault :
    noticeSet .configFault (after (.startUp ⟨false, true, none, 0⟩) State.reset) = true := by decide

theorem test_purchase :
    let t := after (.purchase 9#8 (beBytes 2 1 ++ beBytes 2 0)) shop
    t.purchase.records = [record1] ∧ t.purchase.debt = 300 ∧ t.purchase.nextSeq = 2 := by decide

theorem test_clock_advance_skips_and_doubles :
    (after .clockAdvance { ready with clock := { State.coldClock with n := 5, k := 15, s := 3 } }).clock.n = 7 ∧
    (after .clockAdvance { ready with clock := { State.coldClock with n := 5, k := 15, s := -3 } }).clock.n = 5 := by
  decide

theorem test_select_tunes :
    let t := after (.select 9#8 (beBytes 2 120)) shop
    t.lines.tune.f0 = some 37 ∧ (t.acqOf .f0).state = .tuning ∧ (t.acqOf .f0).role = .present := by decide

theorem test_channel_lookups_wrap_and_skip_hidden :
    nextChannel smallGuide 0 = some 120 ∧ nextChannel smallGuide 120 = some 120 ∧
    previousChannel smallGuide 121 = some 120 ∧ nextChannel State.coldGuide 5 = none := by decide

theorem test_idle_step : step ready = .next ready := by rfl

/-! ## Witnesses: start-up, fronts, filter -/

theorem test_witness_step : { ready with pending := [.clockAdvance] }.pending = .clockAdvance :: [] ∧
    ready.pending = [] := by decide

theorem test_witness_lines : ready.running = true ∧ State.reset.running = false := by decide

theorem test_witness_start_up :
    State.reset.running = false ∧ State.reset.clock.state = .unset ∧ State.reset.filter.entries = [] ∧
    State.reset.front = ⟨State.coldFront true, State.coldFront State.reset.f1Present⟩ ∧
    (State.reset.command.retainedValid && true) = false ∧
    ({ State.reset with command := { State.coldCommand with retainedValid := true } }.command.retainedValid
      && true) = true := by decide

theorem test_witness_feed_byte :
    (State.reset.running = false) ∧ ({ ready with f1Present := false }.feedPresent .f1 = false) ∧
    ((ready.frontOf .f0).sync = .down) ∧
    (let s := withFront { State.coldFront true with sync := .hunt, held := List.replicate 5 ⟨0xB8#8, false⟩ }
     s.running = true ∧ s.feedPresent .f0 = true ∧ (s.frontOf .f0).sync = .hunt ∧
     (s.frontOf .f0).held.length ≤ 5) := by decide

/-- F0 in a sync state with k bytes of a slot gathered. -/
def gathering (sync : SyncState) (slot : List FeedByte) (k : Nat) : State :=
  withFront { atSlot sync with position := 128 + k, held := slot.take k }

theorem test_witness_feed_byte_in_a_slot :
    let good := slotOf 0 0 .fill [0#8]
    let last := (good.drop 127).headD ⟨0#8, false⟩
    let s (k : Nat) := gathering (.confirm 2) good k
    ((s 5).frontOf .f0).slot = some 128 ∧ ((s 126).frontOf .f0).held.length < 127 ∧
    ((s 127).frontOf .f0).held.length = 127 ∧ 128 ≤ ((s 0).frontOf .f0).position ∧
    ((withFront { atSlot (.locked 0) with position := 127 }).frontOf .f0).position < 128 ∧
    ((after (.feedByte .f0 last) (s 127)).frontOf .f0).sync = .locked 0 ∧
    ((after (.feedByte .f0 ⟨0#8, false⟩) (gathering (.locked 2) badSlot 127)).frontOf .f0).sync = .hunt := by
  decide

theorem test_witness_confirm_slot :
    let good := slotOf 0 0 .fill [0#8]
    slotArrives .f0 good 128 (withFront (atSlot (.confirm 2))) ∧
    isAligned (good.map FeedByte.byte) ∧ slotArrives .f0 badSlot 128 (withFront (atSlot (.confirm 0))) ∧
    ¬ isAligned (badSlot.map FeedByte.byte) ∧
    ((withFront (atSlot (.confirm 1))).frontOf .f0).sync = .confirm 1 := by decide

/-- A header field of a slot. -/
def headerOf (slot : List FeedByte) : Header := readHeader (slot.map FeedByte.byte)

theorem test_witness_locked_slot :
    let s := withFront (atSlot (.locked 2))
    slotArrives .f0 badSlot 128 s ∧ (s.frontOf .f0).sync = .locked 2 ∧ ¬ isAligned (badSlot.map FeedByte.byte) ∧
    isAligned ((slotOf 77 3 .programme [1#8]).map FeedByte.byte) ∧
    (headerOf (slotOf 77 3 .programme [1#8])).phase = 3 ∧
    (headerOf (slotOf 77 0 .programme [])).length = 0 ∧
    (headerOf (slotOf 77 0 .programme (List.replicate 123 0#8))).length = 123 ∧
    (headerOf (slotOf 77 0 .fill (List.replicate 122 0#8))).length = 122 ∧
    (headerOf (slotOf 77 0 .fill [1#8])).kind = .fill ∧
    (headerOf (slotOf 77 0 .marker [1#8])).kind = .marker := by decide

theorem test_third_bad_slot_hunts_again :
    let t := after (.lockedSlot .f0 badSlot) (withFront (atSlot (.locked 2)))
    (t.frontOf .f0).sync = .hunt ∧ (t.frontOf .f0).position = 256 ∧ (t.frontOf .f0).held.length = 5 ∧
    (t.frontOf .f0).down = true := by decide

/-- F0 with a record of a state on channel 120 or on none, its front in a sync state, and filter entries. -/
def inStep (state : AcqState) (target : Option ChannelEntry) (sync : SyncState) (entries : List FilterEntry) :
    State :=
  let s := withRecord { State.coldRecord with
    role := .present, state, target, targetCarrier := some 37, attempts := 2,
    pending := if state = .syncing then .awaiting 9#8 0x10#8 none else .none }
  { s.setFront .f0 (atSlot sync) with filter := { State.coldFilter with entries } }

/-- Twenty-four entries of F1. -/
def fullFilter : List FilterEntry := (List.range 24).map (fun i => newEntry .f1 (100 + i) .tap .tap none)

theorem test_witness_passes_sync :
    let good := slotOf 0 0 .fill [0#8]
    let run (target : Option ChannelEntry) (entries : List FilterEntry) : State :=
      after (.confirmSlot .f0 good) (inStep .syncing target (.confirm 2) entries)
    let step (target : Option ChannelEntry) (entries : List FilterEntry) := ((run target entries).acqOf .f0).state
    let own := newEntry .f0 400 .sections .acquisition none
    slotArrives .f0 good 128 (inStep .syncing none (.confirm 2) []) ∧
    step none [] = .parked ∧ step (some entry120) [] = .mapping ∧
    (run (some entry120) []).filter.entries = [own] ∧
    step (some entry120) [own] = .mapping ∧ (run (some entry120) [own]).filter.entries = [own] ∧
    step (some entry120) [newEntry .f0 400 .tap .tap none] = .failed ∧ step (some entry120) fullFilter = .failed ∧
    0 < freeEntries (inStep .syncing none (.confirm 2) []) := by decide

theorem test_locking_passes_under_lock_source_sync :
    let s := inStep .locking none (.confirm 2) []
    let t := after (.confirmSlot .f0 (slotOf 0 0 .fill [0#8])) (s.setFront .f0 { s.frontOf .f0 with source := .sync })
    ((after (.confirmSlot .f0 (slotOf 0 0 .fill [0#8])) s).acqOf .f0).state = .locking ∧
    (t.acqOf .f0).state = .parked := by decide

theorem test_witness_leaves_locked :
    let tap : FilterEntry := { newEntry .f0 50 .tap .tap none with expected := some 3, errors := 2 }
    let run (state : AcqState) : State := after (.lockedSlot .f0 badSlot) (inStep state (some entry120) (.locked 2) [tap])
    let record (state : AcqState) := ((run state).acqOf .f0).state
    slotArrives .f0 badSlot 128 (inStep .ready (some entry120) (.locked 2) [tap]) ∧
    record .presenting = .locking ∧ record .ready = .locking ∧ record .parked = .locking ∧
    ((run .ready).acqOf .f0).attempts = 1 ∧ noticeSet .feedFault (run .ready) = true ∧
    record .mapping = .locking ∧ ((run .keying).acqOf .f0).attempts = 2 ∧ record .syncing = .syncing ∧
    (run .ready).filter.entries = [{ tap with expected := none }] := by decide

theorem test_leaving_locked_denies_the_context :
    let s := { inStep .presenting (some entry120) (.locked 2) [] with output := { State.coldOutput with
      context := some ⟨.f0, 120, entry120, none, .present, .none, none, false⟩ } }
    (after (.lockedSlot .f0 badSlot) s).output.context.map (fun c => (c.decision, c.reason)) =
      some (.deny, .signal) := by decide

/-- A filter of one entry on stream 50. -/
def oneEntry (consumer : Consumer) (expected : Option Nat) : State :=
  { withFront (atSlot (.locked 0)) with
    filter := { State.coldFilter with
      entries := [⟨.f0, 50, consumer, .acquisition, expected, 0, none⟩] } }

theorem test_witness_accepted_cell :
    let cell := slotOf 50 0 .programme [1#8]
    let h := headerOf cell
    slotArrives .f0 cell 128 (oneEntry .present none) ∧ isAligned (cell.map FeedByte.byte) ∧
    h.mustBeZero = 0 ∧ h.phase ≠ 3 ∧ h.length = 1 ∧ h.kind = .programme ∧ h.continuity = 3 ∧
    entryAt (oneEntry .present none) .f0 51 = none ∧
    (entryAt (oneEntry .present (some 4)) .f0 50).map FilterEntry.expected = some (some 4) ∧
    h.continuity = (4 + 7) % 8 ∧ h.continuity ≠ 5 ∧ h.continuity ≠ (5 + 7) % 8 ∧
    (entryAt (oneEntry .sections none) .f0 50).map FilterEntry.consumer = some .sections := by decide

/-- LOCKED(0) at a slot boundary, with one entry of stream 1. -/
def timeEntry (consumer : Consumer) (owner : Owner) : State :=
  { withFront (atSlot (.locked 0)) with
    filter := { State.coldFilter with entries := [newEntry .f0 1 consumer owner none] } }

theorem test_accepted_cells_are_routed :
    let time := slotOf 1 0 .time [0#8]
    let mismatches (s : State) (slot : List FeedByte) : Nat := (after (.lockedSlot .f0 slot) s).filter.kindMismatch.f0
    (after (.lockedSlot .f0 time) (timeEntry .sections .fixed)).clock.shortCells = 1 ∧
    mismatches (timeEntry .sections .fixed) time = 0 ∧ mismatches (timeEntry .sections .acquisition) time = 1 ∧
    mismatches (timeEntry .tap .tap) time = 1 ∧
    mismatches (oneEntry .present none) (slotOf 50 0 .programme [1#8]) = 0 ∧
    mismatches (oneEntry .present none) (slotOf 50 0 .sections [1#8]) = 1 ∧
    mismatches (oneEntry .sections none) (slotOf 50 0 .programme [1#8]) = 1 := by decide

/-- A section cell. -/
def sectionOf (unitStart errorMark : Bool) (payload : Bytes) : Cell :=
  ⟨50, none, unitStart, errorMark, 3, .sections, payload, []⟩

/-- An assembly on stream 50 that waits for 9 bytes and has 7. -/
def assembling : State :=
  { ready with assembler := { State.coldAssembler with
    buffers := [⟨.f0, 50, .sections, 4, 9, [4#8, 0#8, 9#8, 0#8, 0#8, 0#8, 0#8]⟩] } }

theorem test_witness_section_cells :
    (∀ x ∈ ready.assembler.buffers, ¬ (x.feed = .f0 ∧ x.stream = 50)) ∧
    ready.assembler.abandoned.get .f0 ≤ 65535 ∧
    declaredLength [4#8, 0#8, 8#8, 0#8, 0#8, 0#8, 0#8] = 8 ∧
    declaredLength [4#8, 4#8, 0#8, 0#8, 0#8, 0#8, 0#8] = 1024 ∧
    (assemblyAt assembling .f0 50).isSome = true ∧ assemblyAt ready .f0 50 = none ∧
    (crc16 ([4#8, 0#8, 9#8, 0#8, 0#8, 0#8, 0#8])).toNat ≠ beNat [0#8, 0#8] ∧
    (∃ x ∈ assembling.assembler.buffers, x.feed = .f0 ∧ x.stream = 50) ∧
    12 ≤ (List.replicate 12 (⟨.f1, 60, .sections, 1, 9, []⟩ : Assembly)).length := by decide

/-- A section of a table kind and body with its check. -/
def wholeSection (kind key : Nat) (body : Bytes) : Bytes :=
  let head := one kind ++ beBytes 2 (4096 + 9 + body.length) ++ [0#8, 0#8] ++ beBytes 2 key ++ body
  head ++ beBytes 2 (crc16 head).toNat

theorem test_sections_are_handed_on :
    let entry := newEntry .f0 50 .sections .acquisition none
    let run (s : State) (p : Bytes) : State := sectionCell .f0 entry (sectionOf true false p) s
    (run ready (wholeSection 1 0 [1#8, 0#8, 120#8, 37#8, 1#8, 0x90#8, 0#8, 7#8, 3#8])).guide.channels =
      [⟨120, 37, 400, some 7, 3, false⟩] ∧
    (run ready (wholeSection 2 400 [])).acq.malformedMaps.f0 = 1 ∧
    (run ready (wholeSection 3 0 [])).guide.malformedGuides = 1 ∧
    (run ready (wholeSection 4 0 [])).assembler.malformed = 1 ∧
    (run ready (wholeSection 5 0 [])).access.malformedKeys = 1 ∧
    (run ready (wholeSection 6 0 [])).assembler.unknownTables.f0 = 1 ∧
    (run assembling (wholeSection 4 0 [])).assembler.abandoned.f0 = 1 := by decide

theorem test_tap_data_whole_or_dropped :
    let entry := newEntry .f0 50 .tap .tap (some ⟨9#8, 0⟩)
    let s := { ready with filter := { State.coldFilter with entries := [entry] } }
    let full := { s with command := { s.command with replyQueue := List.replicate 32 (.notice 1) } }
    let run (s : State) : State := sectionCell .f0 entry (sectionOf true false (wholeSection 7 0 [])) s
    (run s).command.replyQueue = [.reply 9#8 0x23#8 .tapData 0 (wholeSection 7 0 [])] ∧
    (run full).filter.entries = [newEntry .f0 50 .tap .tap (some ⟨9#8, 1⟩)] := by decide

/-! ## Witnesses: sections handed on -/

/-- An event of channel 5, 60 seconds long. -/
def event5 (id start : Nat) : EventRecord := ⟨id, 5, start, 60, 0, 0, none, none, 0, 0, [], false, 0, false⟩

/-- A guide of 1024 records, all ended by second 100. -/
def fullGuide : Guide := { State.coldGuide with events := List.replicate 1024 (event5 7 40) }

theorem test_witness_channel_map :
    let body : Bytes := [1#8, 0#8, 120#8, 37#8, 1#8, 0x90#8, 0#8, 7#8, 3#8]
    (byteAt body 0).toNat ≠ 0 ∧ body.length = 1 + 8 * (byteAt body 0).toNat ∧
    ready.guide.channels.length + 1 ≤ 512 ∧ 512 ≤ (List.replicate 512 entry120).length ∧
    (List.range 1).map (fun i => readChannelRecord ((body.drop (1 + 8 * i)).take 8)) =
      [⟨120, 37, 400, 0#8, 7, 3⟩] ∧ entryOf { State.coldGuide with channels := [entry120] } 121 = none ∧
    ([0#8] : Bytes).length ≠ 1 + 8 * 1 := by decide

theorem test_channel_map_of_the_watched_channel :
    let s := { watching with
      guide := { smallGuide with watched := some 120 }
      output := { State.coldOutput with
        context := some ⟨.f0, 120, entry120, some 1, .deny, .signal, none, false⟩ } }
    let t := channelMapSection [1#8, 0#8, 120#8, 37#8, 1#8, 0x90#8, 0#8, 7#8, 3#8] s
    t.output.context.map Context.entry = some ⟨120, 37, 400, some 7, 3, false⟩ ∧
    noticeSet .guideChanged t = true := by decide

theorem test_witness_guide_events :
    let b : Bytes := beBytes 2 9 ++ beBytes 4 2000 ++ beBytes 2 600 ++
      [5#8, 3#8, 2#8, 7#8, 1#8, 44#8, 5#8, 2#8] ++ beBytes 4 99 ++ [0#8]
    b.length = 21 + 2 * (byteAt b 20).toNat ∧
    readEvents 120 1 b = some [⟨9, 120, 2000, 600, 5, 3, some 7, some 300, 5, 2, [], false, 99, false⟩] ∧
    readEvents 120 1 [] = none ∧ smallGuide.events.length < 1024 := by decide

theorem test_witness_upsert_into_a_full_table :
    1024 ≤ fullGuide.events.length ∧ (event5 7 40).ends ≤ 100 ∧ ¬ (event5 7 40).ends ≤ 99 ∧
    (event5 7 40).start ≤ (event5 8 300).start ∧ (event5 8 0).start < (event5 7 40).start ∧
    ¬ ((event5 7 40).id = (event5 8 300).id ∨ ((event5 7 40).channel = (event5 8 300).channel ∧
      (event5 7 40).start < 300 + 60 ∧ 300 < (event5 7 40).start + 60)) := by
  refine ⟨by simp [fullGuide], ?_⟩
  decide

/-- F0 in MAPPING on channel 120, whose map stream is 400. -/
def mapping : State :=
  let r : AcqRecord := { State.coldRecord with
    role := .present, state := .mapping, target := some entry120, targetCarrier := some 37, attempts := 1,
    timer := some (.map, 5) }
  { withRecord r with filter := { State.coldFilter with
      entries := [newEntry .f0 400 .sections .acquisition none] } }

theorem test_witness_programme_map :
    let body : Bytes := [2#8, 1#8, 1#8, 0x9A#8, 4#8, 1#8, 0x9B#8]
    programmeMap 400 body = some [⟨.video, 410⟩, ⟨.key, 411⟩] ∧ programmeMap 400 [] = none ∧
    programmeMap 400 [1#8, 5#8, 1#8, 0x9A#8] = none ∧ programmeMap 410 [1#8, 1#8, 1#8, 0x9A#8] = none ∧
    mapMatches (mapping.acqOf .f0) 400 = true ∧ mapMatches (mapping.acqOf .f0) 401 = false ∧
    (mapping.acqOf .f0).version ≠ some 3 ∧
    (∀ e ∈ mapping.filter.entries, ¬ (e.feed = .f0 ∧ e.stream = 410)) ∧
    2 ≤ 24 - mapping.filter.entries.length := by decide

/-- The entry wanted is the new component's, which no entry of `mapping` holds. -/
theorem test_witness_installs (c : Component) :
    c ∈ [(⟨.video, 410⟩ : Component)] ↔ c ∈ [(⟨.video, 410⟩ : Component)] ∧
      ¬ ∃ e, mapping.filter.entries.find? (fun e => e.feed = .f0 && e.stream = c.stream) = some e ∧
        e.owner = .acquisition ∧ e.consumer = .present := by
  refine ⟨fun h => ⟨h, ?_⟩, And.left⟩
  obtain rfl : c = ⟨.video, 410⟩ := by simpa using h
  simp [mapping, newEntry]

theorem test_programme_map_is_installed :
    let t := programmeMapSection .f0 3 400 [1#8, 1#8, 1#8, 0x9A#8] mapping
    (t.acqOf .f0).state = .presenting ∧ (t.acqOf .f0).components = [⟨.video, 410⟩] ∧
    t.filter.entries =
      mapping.filter.entries ++ [newEntry .f0 410 .present .acquisition none] ∧
    (programmeMapSection .f0 3 400 [1#8, 4#8, 1#8, 0x9B#8] mapping).acq.record.f0.state = .keying ∧
    programmeMapSection .f0 3 400 [1#8, 1#8, 1#8, 0x9A#8] { t with guide := t.guide } = t := by decide

theorem test_scrambled_map_of_the_key_stream_held :
    let s (word : Option Bytes) (components : List Component) : State :=
      (mapping.setAcq .f0 { mapping.acqOf .f0 with components, version := some 3, scrambled := true }).setSlot .f0
        { State.clearSlot 0 with keyStream := some 411, wordA := word }
    let run (version : Nat) (word : Option Bytes) := programmeMapSection .f0 version 400
      [1#8, 4#8, 1#8, 0x9B#8] (s word [⟨.key, 411⟩])
    ((run 4 none).acqOf .f0).state = .keying ∧ ((run 4 (some [])).acqOf .f0).state = .presenting ∧
    ((run 3 none).slotOf .f0).wait = .running (2000 * 128) ∧ ((run 3 (some [])).acqOf .f0).state = .presenting := by
  decide

theorem test_programme_map_without_entries_fails :
    let taken := { mapping with filter := { mapping.filter with
      entries := mapping.filter.entries ++ [newEntry .f0 410 .tap .tap none] } }
    let t := programmeMapSection .f0 3 400 [1#8, 1#8, 1#8, 0x9A#8] taken
    (t.acqOf .f0).state = .failed ∧ (t.acqOf .f0).cause = some .tableFull ∧
    ¬ (∀ e ∈ taken.filter.entries, ¬ (e.feed = .f0 ∧ e.stream = 410)) := by decide

/-- F0 in a state, its key slot on key stream 411 with the words given, generation 9 held. -/
def keyed (state : AcqState) (wordA wordB : Option Bytes) (lastPhase : Option Phase) (wait : KeyWait) : State :=
  let s := withRecord { State.coldRecord with role := .present, state, target := some entry120 }
  let s := s.setSlot .f0
    { State.clearSlot 0 with mapStream := some 400, keyStream := some 411, wordA, wordB, lastPhase, wait }
  { s with access := { s.access with slot1 := some ⟨9, []⟩ } }

theorem test_witness_key_section :
    let body : Bytes := 9#8 :: 1#8 :: List.replicate 16 0#8
    let s := keyed .presenting none none (some .a) .expired
    body.length = 18 ∧ (byteAt body 1).toNat = 1 ∧ (s.slotOf .f0).keyStream = some 411 ∧
    (s.access.slot1.map Generation.number) = some (byteAt body 0).toNat ∧ s.access.slot2 = none ∧
    (s.slotOf .f0).wordA = none ∧ (s.slotOf .f0).lastPhase = some .a ∧ (s.acqOf .f0).state = .presenting ∧
    ((keyed .keying none none none (.running 5)).acqOf .f0).state = .keying ∧
    ((keyed .presenting (some []) none none .stopped).slotOf .f0).wordA.isSome = true ∧
    ready.access.slot1 = none ∧ (ready.slotOf .f0).keyStream ≠ some 411 ∧
    ([9#8, 1#8] : Bytes).length ≠ 18 := by decide

theorem test_key_section_ends_keying :
    let t := programmeKeySection .f0 411 (9#8 :: 1#8 :: List.replicate 16 0#8)
      (keyed .keying none none none (.running 5))
    (t.acqOf .f0).state = .presenting ∧ (t.slotOf .f0).wait = .stopped := by decide

theorem test_witness_descrambler :
    let cell (phase : Option Phase) : Cell := ⟨410, phase, true, false, 0, .programme, [1#8], []⟩
    (cell none).phase = none ∧ (cell (some .a)).phase = some .a ∧
    ((keyed .presenting none none (some .b) .stopped).slotOf .f0).wordA = none ∧
    ((keyed .presenting (some []) none (some .a) .stopped).slotOf .f0).wordA = some [] ∧
    ((keyed .presenting (some []) (some []) (some .b) .expired).slotOf .f0).lastPhase ≠ some .a ∧
    ((descramble .f0 (cell (some .a)) (keyed .presenting none none (some .b) .stopped)).slotOf .f0).misses = 1 ∧
    ((descramble .f0 (cell (some .a)) (keyed .presenting (some []) (some []) (some .b) .stopped)).slotOf .f0).wordB
      = none := by decide

theorem test_first_cell_of_a_new_phase_ends_keying :
    let s := keyed .keying none (some []) (some .a) (.running 5)
    let t := descramble .f0 ⟨410, some .b, true, false, 0, .programme, [1#8], []⟩ s
    (s.slotOf .f0).lastPhase ≠ some .b ∧ (s.slotOf .f0).wordB = some [] ∧
    (t.acqOf .f0).state = .presenting ∧ (t.slotOf .f0).wait = .stopped ∧
    t.output.context.map Context.channel = some 120 := by decide

/-- A management body to all. -/
def toAll (kind : Nat) (params : Bytes) : Bytes := [3#8] ++ one kind ++ one params.length ++ params

theorem test_witness_management :
    let body := toAll 1 [7#8, 0#8, 3#8]
    (byteAt body 0).toNat = 3 ∧ body.length = 3 + 3 ∧ (byteAt body 1).toNat = 1 ∧
    ready.command.unitAddress = 0x12345 ∧ ready.command.unitAddress ≠ 0 ∧
    beNat (([1#8, 0#8, 1#8, 0x23#8, 0x45#8] : Bytes).drop 1) = 0x12345 ∧
    ({ ready with access := { State.coldAccess 0 with group := some 4 } } : State).access.group = some 4 ∧
    (keyed .idle none none none .stopped).access.slot1.isSome = true ∧ ready.access.slot1.isSome = false := by
  decide

theorem test_management_dispatch :
    (managementSection (toAll 1 [7#8, 0#8, 3#8]) ready).access.entitlements = [⟨7, 3⟩] ∧
    (managementSection (toAll 3 [0#8, 88#8]) ready).access.region = 88 ∧
    (managementSection (toAll 4 [1#8, 0#8, 4#8]) ready).access.group = some 4 ∧
    (managementSection (toAll 5 []) ready).assembler.malformed = 1 ∧
    (managementSection (toAll 10 []) ready).assembler.unknownKinds = 1 ∧
    (managementSection (toAll 6 [1#8, 44#8]) ready).purchase.limit = 300 ∧
    (managementSection (toAll 7 []) ready).purchase.tx = .sending ∧
    (managementSection (toAll 9 [0xFF#8, 0xFF#8]) ready).limits.pin = none ∧
    (managementSection ([2#8, 0#8, 4#8, 6#8, 0#8] ++ List.replicate 8 0#8) ready) = ready ∧
    (managementSection ([1#8, 0#8, 1#8, 0x23#8, 0x45#8, 6#8, 0#8] ++ List.replicate 8 0#8) ready).assembler.noKey = 1 := by
  decide

/-- Sixty-four entitlements, tiers 0 to 63, all to day 5. -/
def fullTable : List Entitlement := (List.range 64).map (fun t => ⟨t, 5⟩)

theorem test_witness_entitle :
    fullTable.length = 64 ∧ fullTable.Pairwise (fun x y => x.tier < y.tier) ∧
    (∀ x ∈ fullTable, x.tier ≠ 64) ∧ (⟨0, 5⟩ : Entitlement) ∈ fullTable ∧
    (∀ x ∈ fullTable, 5 < x.expiry ∨ (5 = x.expiry ∧ 0 ≤ x.tier)) ∧
    beNat ([0#8, 6#8] : Bytes) = 6 ∧ beNat ([0#8, 5#8] : Bytes) = 5 := by decide

theorem test_service_key_replaces_the_older :
    let held (x y : Nat) : Access := { State.coldAccess 0 with slot1 := some ⟨x, []⟩, slot2 := some ⟨y, []⟩ }
    let gave (a : Access) : Access :=
      (serviceKey (7#8 :: List.replicate 16 0#8) { ready with access := a }).access
    (gave (held 6 5)).slot2 = some ⟨7, List.replicate 16 0#8⟩ ∧
    (gave (held 5 6)).slot1 = some ⟨7, List.replicate 16 0#8⟩ ∧
    (gave (held 128 0)).slot2 = some ⟨7, List.replicate 16 0#8⟩ ∧
    (gave (held 0 128)).slot1 = some ⟨7, List.replicate 16 0#8⟩ := by decide

theorem test_witness_lock_line :
    ready.running = true ∧ usable ready .f0 = true ∧ (ready.frontOf .f0).source = .tuner ∧
    ready.lines.lock.get .f0 = false ∧ (ready.frontOf .f0).sync = .down ∧
    ((withRecord { State.coldRecord with state := .locking }).acqOf .f0).state = .locking ∧
    (ready.acqOf .f0).state ≠ .locking ∧
    ((withFront { State.coldFront true with sync := .hunt }).frontOf .f0).sync.isLocked = false ∧
    ((withFront (atSlot (.locked 0))).frontOf .f0).sync.isLocked = true := by decide

theorem test_lock_line_is_read_under_tuner_alone :
    let s := withFront { atSlot (.locked 0) with source := .forced }
    (s.frontOf .f0).source ≠ .tuner ∧ after (.lockLineChange .f0 true) s = setLockLine .f0 true s ∧
    usable { ready with f1Present := false } .f1 = false ∧
    after (.lockLineChange .f0 true) (setLockLine .f0 true (withFront (atSlot .hunt))) =
      setLockLine .f0 true (withFront (atSlot .hunt)) := by decide

/-! ## Witnesses: clock -/

/-- The clock at the last unit of a second, SET, on the last second of day 0. -/
def midnight : State :=
  { shop with clock := { shop.clock with n := 86399 * 1024 + 1023 } }

theorem test_witness_clock_advance :
    ready.lines.resetAsserted = false ∧ ready.running = true ∧ State.reset.lines.resetAsserted = true ∧
    ready.clock.state = .unset ∧ nextNetworkTime shop.clock / 1024 = shop.clock.n / 1024 := by decide

theorem test_witness_clock_advance_in_start_up :
    let s := { State.reset with lines := { State.coldLines with resetAsserted := false } }
    let r : AcqRecord := { State.coldRecord with state := .mapping, timer := some (.map, 200) }
    let waits := { (withRecord r).setSlot .f0 { State.clearSlot 0 with wait := .running 126 } with
      limits := { State.coldLimits with running := true, part := 5 } }
    s.running = false ∧ s.clock.state = .unset ∧ (after .clockAdvance s).clock.n = 1 ∧
    ((after .clockAdvance waits).slotOf .f0).wait = .running 1 ∧
    ((after .clockAdvance waits).acqOf .f0).timer = some (.map, 75) ∧
    (after .clockAdvance waits).limits.part = 130 := by decide

theorem test_witness_boundaries :
    midnight.lines.resetAsserted = false ∧ midnight.running = true ∧ midnight.clock.state ≠ .unset ∧
    nextNetworkTime midnight.clock / 1024 = 86400 ∧ midnight.clock.n / 1024 = 86399 ∧
    midnight.clock.creditedDay < 86400 / 86400 := by decide

/-- Channel 120 watched and presented in PREVIEW until a second, at the end of second 999. -/
def previewing (previewEnd : Nat) (lastEvent : Option EventRecord) : State :=
  { watching with
    clock := { shop.clock with n := 999 * 1024 + 1023, lastMinute := some 16 }
    guide := { smallGuide with watched := some 120, lastEvent }
    output := { State.coldOutput with
      context := some ⟨.f0, 120, entry120, none, .preview, .none, some previewEnd, false⟩ } }

theorem test_witness_watched_event_and_preview_end :
    let s := previewing 1001 none
    let ended := previewing 1000 (some event1)
    s.running = true ∧ s.clock.state ≠ .unset ∧ nextNetworkTime s.clock / 1024 = 1000 ∧
    eventAt s.guide 120 1000 = some event1 ∧ event1 ≠ { event1 with id := 2 } ∧
    (after .clockAdvance s).guide.lastEvent = some event1 ∧ noticeSet .eventChanged (after .clockAdvance s) = true ∧
    (after .clockAdvance ended).output.context.map Context.decision = some .deny ∧
    noticeSet .eventChanged (after .clockAdvance ended) = false := by decide

theorem test_witness_window_at_a_new_minute :
    let s (windows : List Window) : State :=
      { previewing 2000 (some event1) with
        clock := { shop.clock with n := 959 * 1024 + 1023, lastMinute := some 15 }
        limits := { State.coldLimits with active := 1, profile1 := { State.coldProfile with windows } } }
    (s []).clock.lastMinute ≠ some (960 / 60) ∧ (960 / 60 : Nat) = 16 ∧
    (after .clockAdvance (s [⟨127#7, 17, 18⟩])).limits.standing = .outside ∧
    (after .clockAdvance (s [⟨127#7, 16, 17⟩])).limits.standing = .inside ∧
    (after .clockAdvance (s [⟨127#7, 17, 18⟩])).output.context.map Context.decision = some .deny := by decide

/-- Channel 120 presented under profile 1 with a purchase that commits at second 1300 and one that leaves at 1250. -/
def boundaryAhead : State :=
  { previewing 2000 (some event1) with
    clock := { shop.clock with lastMinute := some 16, offset := 0 }
    purchase := { State.coldPurchase with
      limit := 900, debt := 300
      records := [record1, { record1 with seq := 2, eventId := 5, ends := 1250, state := .collected }] }
    limits := { State.coldLimits with active := 1, profile1 := { State.coldProfile with windows := [⟨127#7, 16, 17⟩] } } }

theorem test_witness_boundaries_of_a_step :
    let m : Mark := ⟨1300 * 1024, 0, 0, .command⟩
    let t := applyMark m boundaryAhead
    let first := applyMark ⟨5 * 86400 * 1024, 0, 0, .command⟩ { boundaryAhead with clock := State.coldClock }
    isStep m boundaryAhead.clock ∧ t.purchase.records.map PurchaseRecord.state = [.committed] ∧
    noticeSet .purchaseChanged t = true ∧ t.limits.standing = .outside ∧ t.clock.lastMinute = some 21 ∧
    t.output.context.map Context.reason = some .signal ∧
    first.clock.creditedDay = 5 ∧ first.guide.events = [] ∧ noticeSet .guideChanged first = true := by decide

theorem test_witness_boundaries_of_a_slew :
    let slew (offset : Int) := applyMark ⟨1000 * 1024, 0, offset, .command⟩ boundaryAhead
    let late := { boundaryAhead with clock := { shop.clock with n := 86300 * 1024, lastMinute := some 1438 } }
    let rolled := applyMark ⟨86300 * 1024, 0, 4, .command⟩ late
    ¬ isStep ⟨1000 * 1024, 0, 4, .command⟩ boundaryAhead.clock ∧ boundaryAhead.clock.offset = 0 ∧
    (slew 4).clock.lastMinute = some 76 ∧ (slew 4).limits.standing = .outside ∧
    (slew 4).purchase = boundaryAhead.purchase ∧ (slew 0).clock.lastMinute = some 16 ∧
    (slew 0).output = boundaryAhead.output ∧ rolled.clock.creditedDay = 1 := by decide

theorem test_day_rollover :
    let s := { midnight with access := { State.coldAccess 0 with entitlements := [⟨7, 0⟩, ⟨8, 1⟩] } }
    (after .clockAdvance s).access.entitlements = [⟨8, 1⟩] ∧ (after .clockAdvance s).clock.creditedDay = 1 ∧
    (after .clockAdvance s).guide.events = [] := by decide

theorem test_witness_expiries :
    { ready with clock := { State.coldClock with lossTimer := some 0 } }.clock.lossTimer = some 0 ∧
    { ready with limits := { State.coldLimits with lockout := some 0 } }.limits.lockout = some 0 ∧
    { ready with output := { State.coldOutput with priming := some 0 } }.output.priming = some 0 ∧
    ready.clock.lossTimer ≠ some 0 ∧ ready.limits.lockout ≠ some 0 ∧
    { ready with output := { State.coldOutput with priming := some 1 } }.output.priming ≠ some 0 := by decide

theorem test_a_mark_restarts_the_loss_timer :
    let s := { ready with clock := { State.coldClock with state := .set, lossTimer := some 0 } }
    (after .lossTimerExpiry s).clock.state = .holdover ∧
    (after .lossTimerExpiry (applyMark ⟨5, 5, 0, .command⟩ s)).clock.state = .set ∧ 0 < s.clock.lossTime := by
  decide

theorem test_witness_marks :
    let m (n : Nat) : Mark := ⟨n, 0, 0, .command⟩
    (m 5).value < 2 ^ 42 ∧ shop.clock.n < 2 ^ 42 ∧ ready.clock.state = .unset ∧
    (shop.clock.threshold : Int) < |signedDifference (m (1000 * 1024 + 2049)).value shop.clock.n| ∧
    shop.clock.state ≠ .unset ∧
    |signedDifference (m (1000 * 1024 - 2048)).value shop.clock.n| ≤ (shop.clock.threshold : Int) := by decide

theorem test_witness_set_clock :
    takesAtOnce shop ∧ shop.clock.source = .command ∧ ready.clock.source ≠ .command ∧ takesAtOnce ready ∧
    ([0#8, 0#8, 3#8, 0xE8#8, 0#8, 0#8, 0#8] : Bytes).length = 7 := by decide

theorem test_witness_time_cell :
    let seven : Bytes := [0#8, 0#8, 3#8, 0xE9#8, 0#8, 0#8, 0#8]
    (timeCell .f0 (seven.take 6) ready).clock.shortCells = 1 ∧ seven.length = 7 ∧
    (timeCell .f0 seven shop).clock.marksIgnored = 1 ∧ shop.clock.source = .command ∧
    ready.clock.source = .any ∧ (timeCell .f0 seven ready).clock.n = 1001 * 1024 := by decide

/-! ## Witnesses: acquisition -/

/-- F0 with a record whose timer runs, on channel 120. -/
def timing (state : AcqState) (t : StepTimer) (attempts : Nat) : State :=
  { withRecord { State.coldRecord with
      role := .present, state, target := some entry120, targetCarrier := some 37, attempts,
      timer := some (t, 0), pending := .awaiting 9#8 0x10#8 none } with guide := smallGuide }

/-- The same with the lock line high and the front in a sync state. -/
def lineUp (s : State) (sync : SyncState) : State :=
  (setLockLine .f0 true s).setFront .f0 (atSlot sync)

theorem test_witness_settle :
    let s := timing .tuning .settle 1
    s.running = true ∧ (s.acqOf .f0).timer = some (.settle, 0) ∧ lockIndication s .f0 = false ∧
    lockIndication (lineUp s .hunt) .f0 = true ∧ locked (lineUp s .hunt) .f0 = false ∧
    locked (lineUp s (.locked 0)) .f0 = true ∧ (s.acqOf .f0).target = some entry120 ∧
    s.filter.entries.length < 24 ∧ entryAt s .f0 entry120.mapStream = none ∧
    ((lineUp ((s).setAcq .f0 { s.acqOf .f0 with target := none }) (.locked 0)).acqOf .f0).target = none := by
  decide

theorem test_witness_lock_and_sync_timers :
    let s := timing .locking .lock 2
    s.running = true ∧ (s.acqOf .f0).timer = some (.lock, 0) ∧
    (s.acqOf .f0).attempts < s.acq.timing.attempts ∧ (s.acqOf .f0).targetCarrier = some 37 ∧
    s.acq.timing.attempts ≤ ((timing .locking .lock 3).acqOf .f0).attempts ∧
    ((timing .syncing .sync 2).acqOf .f0).timer = some (.sync, 0) := by decide

/-- A record with its key-wait timer running. -/
def keyWaiting (state : AcqState) (role : Role) : State :=
  (withRecord { State.coldRecord with role, state, target := some entry120 }).setSlot .f0
    { State.clearSlot 0 with wait := .running 0 }

theorem test_witness_map_and_key_wait :
    ((timing .mapping .map 1).acqOf .f0).timer = some (.map, 0) ∧
    ((keyWaiting .keying .present).slotOf .f0).wait = .running 0 ∧
    ((keyWaiting .keying .present).acqOf .f0).state = .keying ∧
    ((keyWaiting .keying .background).acqOf .f0).role ≠ .present ∧
    ((keyWaiting .presenting .present).acqOf .f0).state = .presenting ∧
    ((keyWaiting .ready .background).acqOf .f0).state = .ready := by decide

theorem test_key_wait_expiry_re_decides :
    let s := keyWaiting .presenting .present
    let s := { s with output := { State.coldOutput with
      context := some ⟨.f0, 120, entry120, none, .present, .none, none, false⟩ } }
    (after (.keyWaitExpiry .f0) s).output.context.map (fun c => (c.decision, c.reason)) = some (.deny, .signal) := by
  decide

theorem test_witness_acquisition_frame :
    (ready.acqOf .f0).timer ≠ some (.map, 0) ∧ (ready.slotOf .f0).wait ≠ .running 0 ∧
    (mapping.acqOf .f0).timer = some (.map, 5) ∧ after (.mapTimerExpiry .f0) mapping = mapping ∧
    exec (.mapTimerExpiry .f0) ready = .next ready := ⟨by decide, by decide, by decide, by decide, rfl⟩

theorem test_witness_select :
    takesAtOnce shop ∧ entryOf smallGuide 120 = some entry120 ∧ entryOf smallGuide 5 = none ∧
    selectAcquires shop 120 entry120 ∧ nextChannel shop.guide (selectReference shop) = some 120 ∧
    previousChannel shop.guide (selectReference shop) = some 120 ∧
    nextChannel ready.guide (selectReference ready) = none ∧
    { shop with acq := { State.coldAcq with standby := true } }.acq.standby = true ∧
    takesAtOnce watching ∧ presents watching (presentationFeed watching) 120 = true ∧
    nextChannel watching.guide (selectReference watching) = some 120 ∧
    (shop.acqOf .f0).tunedCarrier ≠ some 37 := by decide

/-- F0 already tuned to the carrier of channel 120 and LOCKED. -/
def onCarrier : State := lineUp (shop.setAcq .f0 { State.coldRecord with tunedCarrier := some 37 }) (.locked 0)

theorem test_witness_select_on_carrier :
    takesAtOnce onCarrier ∧ selectAcquires onCarrier 120 entry120 ∧
    (onCarrier.acqOf (presentationFeed onCarrier)).tunedCarrier = some entry120.carrier ∧
    locked onCarrier (presentationFeed onCarrier) = true ∧ onCarrier.filter.entries.length < 24 := by decide

theorem test_witness_map_stream_taken :
    let tapHeld := { onCarrier with filter := { State.coldFilter with
      entries := [newEntry .f0 400 .tap .tap (some ⟨3#8, 0⟩)] } }
    let full := { onCarrier with filter := { State.coldFilter with entries := fullFilter } }
    let state (s : State) := ((after (.select 9#8 (beBytes 2 120)) s).acqOf .f0).state
    (∃ e ∈ withoutAcq .f0 tapHeld.filter.entries, e.feed = .f0 ∧ e.stream = entry120.mapStream) ∧
    24 ≤ (withoutAcq .f0 full.filter.entries).length ∧
    (∀ e ∈ withoutAcq .f0 onCarrier.filter.entries, ¬ (e.feed = .f0 ∧ e.stream = entry120.mapStream)) ∧
    state tapHeld = .failed ∧ state full = .failed ∧ state onCarrier = .mapping ∧
    takesAtOnce tapHeld ∧ takesAtOnce full := by decide

theorem test_witness_role_swap :
    takesAtOnce watching ∧ watching.acq.standby = false ∧ entryOf watching.guide 121 = some entry121 ∧
    presents watching (presentationFeed watching) 121 = false ∧
    readyOn watching (backgroundFeed watching) 121 = true := by decide

theorem test_role_swap :
    let t := after (.select 9#8 (beBytes 2 121)) watching
    (t.acqOf .f1).state = .presenting ∧ (t.acqOf .f0).role = .background ∧ (t.acqOf .f0).state = .idle := by
  decide

theorem test_witness_pretune_and_park :
    usable shop (backgroundFeed shop) = true ∧ entryOf shop.guide 120 = some entry120 ∧
    presents shop (presentationFeed shop) 120 = false ∧ readyOn shop (backgroundFeed shop) 120 = false ∧
    (shop.acqOf (backgroundFeed shop)).tunedCarrier ≠ some 37 ∧
    usable { shop with f1Present := false } .f1 = false ∧
    takesAtOnce watching ∧ presents watching (presentationFeed watching) 120 = true ∧
    readyOn watching (backgroundFeed watching) 121 = true ∧
    (let p := ready.setAcq .f1 { State.coldRecord with
        role := .background, state := .parked, targetCarrier := some 37, tunedCarrier := some 37 }
     takesAtOnce p ∧ (p.acqOf (backgroundFeed p)).state = .parked ∧
     (p.acqOf (backgroundFeed p)).targetCarrier = some 37) ∧
    (let p := (ready.setAcq .f1 { State.coldRecord with tunedCarrier := some 37 }).setFront .f1
        (atSlot (.locked 0))
     takesAtOnce p ∧ usable p (backgroundFeed p) = true ∧ (p.acqOf (backgroundFeed p)).state ≠ .parked ∧
     (p.acqOf (backgroundFeed p)).tunedCarrier = some 37 ∧ locked p (backgroundFeed p) = true) := by decide

theorem test_witness_pretune_on_carrier :
    let p := (shop.setAcq .f1 { State.coldRecord with tunedCarrier := some 37 }).setFront .f1 (atSlot (.locked 0))
    let t := after (.pretune 9#8 (beBytes 2 120)) p
    takesAtOnce p ∧ usable p (backgroundFeed p) = true ∧ entryOf p.guide 120 = some entry120 ∧
    presents p (presentationFeed p) 120 = false ∧ readyOn p (backgroundFeed p) 120 = false ∧
    (p.acqOf (backgroundFeed p)).tunedCarrier = some entry120.carrier ∧
    locked p (backgroundFeed p) = true ∧ p.filter.entries.length < 24 ∧ (t.acqOf .f1).state = .mapping := by decide

theorem test_standby_answers_an_awaiting_pretune :
    let s := shop.setAcq .f0 { State.coldRecord with
      role := .background, state := .tuning, target := some entry120, pending := .awaiting 3#8 0x13#8 none }
    let t := after (.standby 9#8 []) s
    t.command.replyQueue.map (fun c => match c with | .reply tag _ o _ _ => (tag, o) | _ => (0#8, .done)) =
      [(9#8, .done), (3#8, .failed)] ∧ (t.acqOf .f0).pending.isAwaiting = false := by decide

/-- The tags and outcomes of the replies in the reply queue. -/
def answers (s : State) : List (Byte × ReplyOutcome) :=
  s.command.replyQueue.filterMap (fun c => match c with | .reply tag _ o _ _ => some (tag, o) | _ => none)

/-- F0 and F1 in TUNING, each with a reply awaited. -/
def awaiting : State :=
  (shop.setAcq .f0 { State.coldRecord with
    role := .present, state := .tuning, target := some entry120, pending := .awaiting 3#8 0x11#8 (some 120) }).setAcq .f1
    { State.coldRecord with role := .background, state := .tuning, pending := .awaiting 4#8 0x14#8 none }

theorem test_witness_superseded :
    let swap := awaiting.setAcq .f1 { watching.acqOf .f1 with pending := .none }
    let there := (awaiting.setAcq .f1 { awaiting.acqOf .f1 with tunedCarrier := some 37 }).setFront .f1 (atSlot (.locked 0))
    (awaiting.acqOf .f0).pending = .awaiting 3#8 0x11#8 (some 120) ∧
    answers (after (.select 9#8 (beBytes 2 121)) awaiting) = [(3#8, .superseded)] ∧
    answers (after (.pretune 9#8 (beBytes 2 121)) awaiting) = [(4#8, .superseded)] ∧
    answers (after (.park 9#8 [52#8]) awaiting) = [(4#8, .superseded)] ∧
    answers (after (.park 9#8 [37#8]) there) = [(9#8, .done), (4#8, .superseded)] ∧
    answers (after (.select 9#8 (beBytes 2 121)) swap) = [(9#8, .done), (3#8, .superseded)] ∧
    answers (after (.release 9#8 [0#8]) awaiting) = [(9#8, .done), (3#8, .superseded)] ∧
    answers (after (.configure 9#8 [0#8, 1#8, 0#8]) awaiting) = [(9#8, .done), (3#8, .superseded)] ∧
    answers (after (.standby 9#8 []) awaiting) = [(9#8, .done), (3#8, .failed)] := by decide

theorem test_witness_presentation_ended :
    let s := { watching with output := { State.coldOutput with
      context := some ⟨.f0, 120, entry120, none, .present, .none, none, false⟩ } }
    let t := after (.release 9#8 [0#8]) s
    t.output.context = none ∧ noticeSet .accessChanged t = true ∧
    LocalCell.marker 120 .deny .ended ∈ t.command.replyQueue ∧ (s.acqOf .f0).role = .present := by decide

theorem test_witness_release_and_standby :
    takesAtOnce watching ∧ beNat ([1#8] : Bytes) = feedPosition .f1 ∧ 2 ≤ beNat ([2#8] : Bytes) ∧
    (watching.acqOf (presentationFeed watching)).role = .present ∧ watching.acq.standby = false ∧
    (watching.acqOf (backgroundFeed watching)).state ≠ .idle ∧
    (let s := watching.setAcq .f1 State.coldRecord
     takesAtOnce s ∧ (s.acqOf (backgroundFeed s)).state = .idle ∧ usable s (backgroundFeed s) = true ∧
     (s.acqOf (presentationFeed s)).tunedCarrier = some 37) ∧
    takesAtOnce { watching with acq := { watching.acq with standby := true } } := by decide

/-! ## Witnesses: meter, return path, ports, arbiter -/

/-- Profile 1 active with an allowance of 5 minutes, the meter running. -/
def metered (remaining : Nat) : State :=
  { watching with limits := { State.coldLimits with
      active := 1, running := true, part := 128000, profile1 := { State.coldProfile with allowance := 5, remaining } } }

theorem test_witness_meter :
    (metered 1).running = true ∧ (metered 1).limits.running = true ∧ (metered 1).limits.active ≠ 0 ∧
    128000 ≤ (metered 1).limits.part ∧ (after .meterSecond (metered 300)).limits.part < 128000 ∧
    ready.limits.running = false := by decide

theorem test_meter_second :
    (after .meterSecond (metered 1)).limits.running = false ∧
    noticeSet .limit (after .meterSecond (metered 1)) = true ∧
    noticeSet .limit (after .meterSecond (metered 301)) = true ∧
    noticeSet .limit (after .meterSecond (metered 300)) = false ∧
    after .meterSecond (after .meterSecond (metered 300)) = after .meterSecond (metered 300) := by decide

theorem test_witness_meter_with_a_rollover :
    let s : State := { metered 60 with
      clock := { shop.clock with n := 86399 * 1024 + 1023 }
      limits := { (metered 60).limits with part := 127875 } }
    let first := after .meterSecond s
    nextNetworkTime s.clock / 1024 = 86400 ∧ s.clock.creditedDay < 86400 / 86400 ∧
    128000 ≤ s.limits.part + 125 ∧ first.limits.profile1.remaining = 59 ∧ first.limits.part = 0 ∧
    (after .clockAdvance first).limits.profile1.remaining = 300 ∧
    (after .clockAdvance first).limits.part = 0 ∧
    after .meterSecond (after .clockAdvance s) = after .clockAdvance s := by decide

/-- The transmitter in a state with a queue. -/
def sending (tx : TxState) (attempts : Nat) (queue : List Bytes) : State :=
  { ready with purchase := { State.coldPurchase with
      tx, attempts, returnQueue := queue, waitTimer := if tx = .waiting then some 0 else none } }

theorem test_witness_return_path :
    (sending .sending 6 [[1#8]]).purchase.tx = .sending ∧
    (sending .sending 6 [[1#8]]).purchase.returnQueue.tail = [] ∧
    (sending .sending 6 [[1#8], [2#8]]).purchase.returnQueue.tail.head? = some [2#8] ∧
    (sending .sending 6 [[1#8]]).purchase.attempts + 1 < 8 ∧
    8 ≤ (sending .sending 7 [[1#8]]).purchase.attempts + 1 ∧
    (sending .waiting 1 [[1#8]]).purchase.waitTimer = some 0 ∧
    ready.purchase.waitTimer ≠ some 0 ∧ ready.purchase.tx = .idle ∧
    ready.purchase.returnQueue = [] ∧ (sending .sending 1 [[1#8]]).purchase.returnQueue ≠ [] := by decide

theorem test_backoff_of_unit_12345h :
    (after .collidedPulse (sending .sending 1 [[1#8]])).purchase.waitTimer = some (6 * 2 * 2 * 128) := by decide

/-- The output queue of one cell. -/
def queued (c : OutCell) (priming : Option Ticks) : State :=
  { ready with output := { State.coldOutput with queue := [c], priming } }

theorem test_witness_output_port :
    { ready with lines := { ready.lines with hold := true } }.lines.hold = true ∧
    ready.running = true ∧ ready.lines.hold = false ∧ ready.output.queue = [] ∧
    (queued (.ofPart (.notice 1)) (some 1)).output.priming.isSome = true ∧
    (queued (.ofPart (.notice 1)) none).output.queue = .ofPart (.notice 1) :: [] := by decide

theorem test_witness_local_cells :
    ready.command.replyQueue = [] ∧
    (after (.noOperation 9#8 []) ready).command.replyQueue = .reply 9#8 1#8 .done 0 [] :: [] ∧
    ready.output.queue.length < 64 ∧
    (let f := commandFrame 4094 .command [5#8, 1#8]
     f.length = 128 ∧ isAligned f ∧ (readHeader f).mustBeZero = 0 ∧ (readHeader f).phase = 0 ∧
     (readHeader f).stream = 4094 ∧ (readHeader f).kind = .command ∧ (readHeader f).length = 2) ∧
    (readHeader (commandFrame 4093 .command [5#8, 1#8])).stream ≠ 4094 ∧
    (readHeader (commandFrame 4094 .fill [5#8, 1#8])).kind = .fill ∧
    (readHeader (commandFrame 4094 .marker [5#8, 1#8])).kind ≠ .command ∧
    (readHeader (commandFrame 4094 .command [5#8])).length < 2 ∧
    ¬ isAligned (List.replicate 128 0#8) ∧ State.reset.running = false ∧
    8 ≤ (List.replicate 8 (⟨1#8, 1#8, []⟩ : CommandCell)).length := by decide

theorem test_command_frame_is_offered :
    (after (.localCellReceive ⟨commandFrame 4094 .command [5#8, 1#8, 7#8], false⟩) ready).command.intake =
      [⟨5#8, 1#8, [7#8]⟩] := by decide

/-- The Command Unit with claimants. -/
def claiming (u : CommandUnit → CommandUnit) : State := { ready with command := u ready.command }

theorem test_witness_arbiter :
    0 < freeEntries ready ∧
    freeEntries (claiming (fun u => { u with replyQueue := List.replicate 32 (.notice 1) })) = 0 ∧
    (let s := withRecord { State.coldRecord with pending := .formed (.reply 1#8 2#8 .done 0 []) }
     ({ s with acq := { s.acq with formedOrder := [.f0] } }).acq.formedOrder = .f0 :: [] ∧
     (s.acqOf .f0).pending = .formed (.reply 1#8 2#8 .done 0 [])) ∧
    (claiming (fun u => { u with reserved := true, heldReply := some [.notice 1] })).command.heldReply
      = some [.notice 1] ∧
    ({ ready with output := { State.coldOutput with pendingMarker := some ⟨1, .deny, .signal⟩ } }).output.pendingMarker
      = some ⟨1, .deny, .signal⟩ ∧
    (claiming (fun u => { u with noticePending := true })).command.noticePending = true ∧
    (let s := claiming (fun u => { u with
       replyQueue := List.replicate 30 (.notice 1), reserved := true
       heldReply := some (List.replicate 4 (.notice 1)) })
     s.command.heldReply = some (List.replicate 4 (.notice 1)) ∧
     freeEntries s < (List.replicate 4 (LocalCell.notice 1)).length - 1 ∧ 0 < freeEntries s) ∧
    (claiming (fun u => { u with intake := [⟨1#8, 1#8, []⟩] })).command.intake = ⟨1#8, 1#8, []⟩ :: [] := by
  decide

/-! ## Witnesses: commands -/

theorem test_witness_command_rows :
    cellOfRow (.wake 1#8 []) = some ⟨1#8, 0x17#8, []⟩ ∧ State.reset.running = false ∧
    (let s := claiming (fun u => { u with intake := List.replicate 7 ⟨1#8, 1#8, []⟩ })
     s.running = true ∧ mayTake s = false ∧ s.command.intake.length < 8) ∧
    (let s := claiming (fun u => { u with intake := List.replicate 8 ⟨1#8, 1#8, []⟩ })
     s.running = true ∧ mayTake s = false ∧ 8 ≤ s.command.intake.length) := by decide

theorem test_witness_command_unit :
    takesAtOnce ready ∧ (0x06#8 : Byte).toNat ∉ definedCodes ∧ ([1#8] : Bytes).length < 2 ∧
    ([1#8, 0#8] : Bytes).length = 2 := by decide

theorem test_status_read_without_an_area :
    (actByCode ⟨1#8, 4#8, [8#8]⟩ (reserve ready)).command.replyQueue = [.reply 1#8 4#8 .badParameter 0 []] ∧
    8 ≤ (byteAt [8#8] 0).toNat ∧ (acquisitionResults ready).head? = some 1#8 := by decide

theorem test_witness_configure :
    takesAtOnce ready ∧ configureValues [] = none ∧ configureValues [0#8, 0x10#8] = none ∧
    (configureValues [0#8, 0x20#8, 0#8, 63#8]).map (fun v => fieldValue v 5) = some (some 63) ∧
    (configureValues [0#8, 0x20#8, 0#8, 63#8]).map (fun v => (List.range 4).all (fun i => fieldValue v i = none))
      = some true := by decide

theorem test_configure_clamps :
    (after (.configure 9#8 [0#8, 0x20#8, 0#8, 63#8]) ready).clock.threshold = 64 ∧
    (after (.configure 9#8 [0x20#8, 0#8, 15#8]) ready).output.threshold = 8 := by decide

theorem test_witness_configure_enable :
    takesAtOnce watching ∧ (watching.frontOf .f0).enabled = true ∧
    (let s := ready.setFront .f1 (State.coldFront false)
     takesAtOnce s ∧ (s.frontOf .f1).enabled = false ∧ s.feedPresent .f1 = true ∧ (s.frontOf .f1).sync = .down ∧
     s.lines.lock.get .f1 = false ∧ (s.frontOf .f1).source = .tuner ∧ s.filter.entries.length ≤ 20 ∧
     (∀ e ∈ s.filter.entries, e.feed = .f1 → 3 < e.stream)) ∧
    { ready with f1Present := false }.feedPresent .f1 = false := by decide

theorem test_witness_configure_source :
    (let s := withFront (State.coldFront true)
     usable s .f0 = true ∧ (s.frontOf .f0).sync = .down ∧ lockIndication s .f0 = false ∧
     ((s.setAcq .f0 { State.coldRecord with state := .locking }).acqOf .f0).state = .locking) ∧
    ((withFront (atSlot .hunt)).frontOf .f0).sync ≠ .down ∧
    ((withFront (atSlot (.locked 0))).frontOf .f0).sync.isLocked = true ∧
    (setLockLine .f1 true ready).lines.lock.get .f1 = true := by decide

theorem test_witness_configure_source_over_a_locked_front :
    let s := inStep .locking none (.locked 0) []
    let t := after (.configure 9#8 [0#8, 2#8, 2#8]) s
    takesAtOnce s ∧ usable s .f0 = true ∧ lockIndication s .f0 = false ∧
    ((s.frontOf .f0).sync.isLocked = true) ∧ (t.acqOf .f0).state = .parked ∧
    ((after (.configure 9#8 [0#8, 2#8, 3#8]) (inStep .ready none (.locked 0) [])).acqOf .f0).state = .locking := by
  decide

theorem test_disabling_keeps_the_taps :
    let tap : FilterEntry := { newEntry .f0 50 .tap .tap none with expected := some 3, errors := 2 }
    let s := inStep .ready none (.locked 0) (tap :: fixedEntries .f0 ++ [newEntry .f0 400 .sections .acquisition none])
    (after (.configure 9#8 [0#8, 1#8, 0#8]) s).filter.entries = [{ tap with expected := none }] := by decide

theorem test_configure_source :
    let s := (withFront (State.coldFront true)).setAcq .f0 { State.coldRecord with state := .locking }
    let t (v : Byte) := after (.configure 9#8 [0#8, 2#8, v]) s
    ((t 2#8).frontOf .f0).source = .forced ∧ ((t 2#8).frontOf .f0).sync = .hunt ∧
    ((t 2#8).acqOf .f0).state = .syncing ∧ ((t 1#8).acqOf .f0).state = .locking ∧
    ((t 1#8).frontOf .f0).sync = .hunt ∧ ((t 3#8).frontOf .f0).sync = .down := by decide

theorem test_configure_enables_f1 :
    let s := ready.setFront .f1 (State.coldFront false)
    let t := after (.configure 9#8 [0#8, 4#8, 1#8]) s
    (t.frontOf .f1).enabled = true ∧ t.filter.entries = fixedEntries .f1 := by decide

theorem test_witness_guide_commands :
    takesAtOnce shop ∧ entryOf shop.guide 120 = some entry120 ∧ entryOf shop.guide 119 = none ∧
    shop.guide.channels.find? (fun x => 119 < x.number) = some entry120 ∧
    (∀ x ∈ shop.guide.channels, x.number ≤ 121) ∧
    (readSearch ⟨1#8, 0x21#8, [0#8, 120#8, 0#8, 2#8, 0#8, 0#8, 0#8, 0#8, 0#8, 0#8, 0#8, 9#8, 1#8, 0#8]⟩).good = true ∧
    shop.guide.events.filter (fun e => e.channel = 120) = [event1] ∧
    shop.guide.events.filter (fun e => e.channel = 121) = [] ∧ (entryOf shop.guide 121).isSome = true ∧
    (replyCells 1#8 0x22#8 .done (readResults [event1] 0 4)).length ≤ freeEntries shop := by decide

theorem test_witness_guide_search_hits :
    let q := readSearch ⟨1#8, 0x21#8, [0#8, 120#8, 0#8, 2#8, 0#8, 0#8, 0#8, 0#8, 0#8, 0#8, 0#8, 9#8, 1#8, 0#8]⟩
    q.good = true ∧ searchEnd smallGuide q = ⟨.hit, 0, 1, 1, false⟩ ∧
    (searchEnd { smallGuide with events := [{ event1 with withdrawn := true }] } q).outcome = .withdrawn ∧
    (searchEnd smallGuide { q with channel := 121 }).outcome = .empty := by decide

theorem test_witness_guide_search_passes_over :
    let q : SearchParams := ⟨120, 2, 0, 9, 0, 3, 2, 1⟩
    let es := [event1, event1, { event1 with withdrawn := true }, event1]
    let g := { smallGuide with events := es }
    q.good = true ∧ event1.satisfies q = false ∧ es.length = 4 ∧
    searchEnd g q = ⟨.boundMissed, 0, 0, 2, true⟩ ∧
    searchEnd g { q with last := 2 } = ⟨.notSatisfied, 0, 0, 2, true⟩ ∧
    searchEnd g { q with first := 4, last := 9 } = ⟨.boundMissed, 0, 0, 0, false⟩ := by decide

theorem test_witness_guide_search_limit :
    let q : SearchParams := ⟨120, 2, 0, 9, 0, 999, 1, 1⟩
    searchEnd { smallGuide with events := List.replicate 257 event1 } q = ⟨.limit, 256, 0, 256, false⟩ := by
  decide

/-- A tap on stream 50 of F0. -/
def tapped : State :=
  { ready with filter := { State.coldFilter with
      entries := [newEntry .f0 50 .tap .tap (some ⟨9#8, 0⟩)] } }

/-- Eight taps held. -/
def tapsFull : State :=
  { ready with filter := { State.coldFilter with
      entries := List.replicate 8 (newEntry .f0 50 .tap .tap none) } }

theorem test_witness_taps :
    takesAtOnce tapped ∧ tapAt tapped .f0 50 = some ⟨9#8, 0⟩ ∧ tapAt tapped .f0 51 = none ∧
    (entryAt tapped .f0 50).isSome = true ∧ entryAt tapped .f0 4093 = none ∧
    tapped.filter.entries.countP (fun e => e.owner = .tap) < 8 ∧
    8 ≤ tapsFull.filter.entries.countP (fun e => e.owner = .tap) ∧
    { ready with f1Present := false }.feedPresent .f1 = false := by decide

theorem test_tap_close_abandons_the_section_under_way :
    let s := { tapped with assembler := { State.coldAssembler with
      buffers := [⟨.f0, 50, .tap, 4, 9, []⟩, ⟨.f1, 50, .sections, 4, 9, []⟩] } }
    let t := after (.tapClose 9#8 [0#8, 0#8, 50#8]) s
    t.assembler.abandoned = ⟨1, 0⟩ ∧ t.assembler.buffers = [⟨.f1, 50, .sections, 4, 9, []⟩] ∧
    t.filter.entries = [] := by decide

/-! ## Witnesses: purchases, limits, access -/

theorem test_witness_purchase :
    takesAtOnce shop ∧ ready.clock.state = .unset ∧ takesAtOnce ready ∧ shop.clock.state ≠ .unset ∧
    eventById shop.guide 2 = none ∧ eventById shop.guide 1 = some event1 ∧ event1.withdrawn = false ∧
    event1.price = some 300 ∧ shop.clock.n / 1024 < 1000 + 600 ∧ shop.access.region ∉ event1.blackout ∧
    (∀ r ∈ shop.purchase.records, r.eventId ≠ 1) ∧ shop.purchase.records.length < 32 ∧
    shop.purchase.debt + 300 ≤ shop.purchase.limit ∧ shop.limits.active = 0 ∧
    ({ event1 with price := none } : EventRecord).price = none ∧
    1600 ≤ (1600 * 1024) / 1024 ∧ (0 : Nat) ∈ ({ event1 with blackout := [0] } : EventRecord).blackout ∧
    (∃ r ∈ [record1], r.eventId = 1) ∧ 32 ≤ (List.replicate 32 record1).length ∧ 299 < 0 + 300 := by decide

/-- The shop under profile 1 with PIN 1234. -/
def guarded (attempts : Nat) (lockout : Option Ticks) : State :=
  { shop with limits := { State.coldLimits with active := 1, pin := some 1234, attempts, lockout } }

theorem test_witness_pin :
    takesAtOnce (guarded 2 none) ∧ (guarded 2 none).limits.active ≠ 0 ∧
    (guarded 2 none).limits.pin = some 1234 ∧ (guarded 2 none).limits.lockout = none ∧
    (guarded 3 (some 1)).limits.lockout.isSome = true ∧ takesAtOnce (guarded 3 (some 1)) ∧
    beNat ([4#8, 0xD2#8] : Bytes) = 1234 ∧ beNat ([4#8, 0xD3#8] : Bytes) ≠ 1234 ∧
    beNat ([0x27#8, 0x0F#8] : Bytes) = 9999 ∧ beNat ([0xFF#8, 0xFF#8] : Bytes) = 65535 := by decide

theorem test_witness_purchase_checks :
    purchaseChecks 1 (guarded 2 none) = .ok (event1, 300, 1000) := by rfl

theorem test_third_wrong_pin_locks_out :
    let t := after (.purchase 9#8 (beBytes 2 1 ++ beBytes 2 5)) (guarded 2 none)
    t.limits.lockout = some (900 * 128000) ∧ t.limits.attempts = 3 ∧ t.purchase.records = [] := by decide

theorem test_pin_checks_of_the_profile_commands :
    let select (pin : Nat) := after (.profileSelect 9#8 (0#8 :: beBytes 2 pin)) (guarded 2 none)
    let write (s : State) := after (.profileWrite 9#8 (1#8 :: beBytes 2 5 ++ [9#8, 0#8, 60#8, 0#8, 0#8])) s
    profileShape (1#8 :: beBytes 2 5 ++ [9#8, 0#8, 60#8, 0#8, 0#8]) = true ∧
    (select 5).limits.lockout = some (900 * 128000) ∧ (select 5).limits.active = 1 ∧
    (select 1234).limits.attempts = 0 ∧ (select 1234).limits.active = 0 ∧
    (write (guarded 0 none)).limits.attempts = 1 ∧ (write (guarded 0 none)).limits.profile1 = State.coldProfile ∧
    (write (guarded 3 (some 1))).command.replyQueue = [.reply 9#8 0x41#8 .lockedOut 0 []] ∧
    (after (.purchase 9#8 (beBytes 2 1 ++ beBytes 2 1234)) (guarded 2 none)).limits.attempts = 0 := by decide

/-- The shop with the event bought. -/
def bought1 (state : PurchaseState) : State :=
  { shop with purchase := { State.coldPurchase with
      limit := 300, debt := 300, nextSeq := 2, records := [{ record1 with state }] } }

theorem test_witness_cancel :
    takesAtOnce (bought1 .provisional) ∧
    (bought1 .provisional).purchase.records.find? (fun r => r.eventId = 1) = some record1 ∧
    record1.state = .provisional ∧ (bought1 .committed).purchase.records.length = 1 ∧
    (∀ r ∈ (bought1 .provisional).purchase.records, r.eventId ≠ 2) ∧
    { bought1 .provisional with clock := State.coldClock }.clock.state = .unset := by decide

theorem test_cancel :
    let t := after (.cancelPurchase 9#8 (beBytes 2 1)) (bought1 .provisional)
    t.purchase.records = [] ∧ t.purchase.debt = 0 := by decide

theorem test_witness_clear_and_credit :
    let s := bought1 .committed
    (∃ r ∈ s.purchase.records, r.state = .committed ∧ r.seq ≤ beNat (beBytes 4 1)) ∧
    (∀ r ∈ s.purchase.records, ¬ (r.state = .committed ∧ r.seq ≤ beNat (beBytes 4 0))) ∧
    (clearPurchases (beBytes 4 1) s).purchase.debt = 0 ∧
    ((clearPurchases (beBytes 4 1) s).purchase.records.map PurchaseRecord.state) = [.collected] ∧
    (creditLimit (beBytes 2 301) s).purchase.limit = 301 := by decide

theorem test_witness_pin_reset :
    (9999 : Nat) < beNat ([0x27#8, 0x10#8] : Bytes) ∧
    (pinReset [0#8, 5#8] (guarded 3 (some 1))).limits.lockout = none ∧
    (pinReset [0x27#8, 0x10#8] (guarded 3 (some 1))).limits.malformed = 1 := by decide

theorem test_collect_fills_the_return_queue :
    let t := collect [] (bought1 .committed)
    t.purchase.returnQueue.length = 1 ∧ t.purchase.tx = .sending ∧ t.lines.onU = t.purchase.returnQueue.head? := by
  decide

theorem test_witness_profiles :
    takesAtOnce (guarded 0 none) ∧ beNat ([3#8] : Bytes) = (3 : Fin 4).val ∧ 4 ≤ beNat ([4#8] : Bytes) ∧
    profileShape [1#8, 4#8, 0xD2#8, 9#8, 5#8, 0xA0#8, 0#8, 0#8] = true ∧ profileShape [] = false ∧
    (guarded 0 none).limits.pin = some (beNat ([4#8, 0xD2#8] : Bytes)) := by decide

theorem test_profile_write :
    let t := after (.profileWrite 9#8 [1#8, 4#8, 0xD2#8, 9#8, 0#8, 60#8, 1#8, 0#8, 120#8, 0#8]) (guarded 0 none)
    t.limits.profile1 = ⟨9, [120], [], 60, 3600⟩ := by decide

theorem test_witness_revoke :
    (∃ e ∈ [(⟨7, 3⟩ : Entitlement)], e.tier = (7#8 : Byte).toNat) ∧
    (∀ e ∈ [(⟨7, 3⟩ : Entitlement)], e.tier ≠ (8#8 : Byte).toNat) := by decide

theorem test_witness_expired :
    shop.clock.state ≠ .unset ∧ ready.clock.state = .unset ∧
    entitled { shop with access := { State.coldAccess 0 with entitlements := [⟨7, 0⟩] } } entry121 none = true ∧
    entitled { midnight with
      clock := { midnight.clock with n := 86400 * 1024 }
      access := { State.coldAccess 0 with entitlements := [⟨7, 0⟩] } } entry121 none = false := by decide

/-- The shop with tier 7 held to day 3. -/
def entitled7 : State := { shop with access := { State.coldAccess 0 with entitlements := [⟨7, 3⟩] } }

theorem test_witness_entitlement_tests :
    let free : EventRecord := { event1 with tier := none }
    entitled shop entry120 none = true ∧ entitled entitled7 entry121 none = true ∧
    entitled entitled7 { entry121 with tier := some 8 } (some event1) = true ∧
    entitled (bought1 .committed) { entry121 with tier := some 8 } (some free) = true ∧
    entitled shop { entry121 with tier := some 8 } (some free) = false := by decide

/-- F0 PRESENTING channel 120 over a LOCKED front, with an event, under limits. -/
def deciding (event : EventRecord) (limits : Limits) : State :=
  let s := watching.setFront .f0 { atSlot (.locked 0) with source := .forced }
  { s with guide := { smallGuide with events := [event] }, limits }

/-- The context of channel 120 on F0 with a decision and a reason. -/
def contextOf (tier : Option Nat) (decision : Decision) (reason : Reason) : Context :=
  ⟨.f0, 120, { entry120 with tier }, some 1, decision, reason, none, false⟩

theorem test_witness_decisions :
    let open1 := deciding event1 State.coldLimits
    let under (p : Profile) (event : EventRecord) (standing : Standing) : Verdict :=
      decideOn (deciding event { State.coldLimits with active := 1, profile1 := p, standing })
        (contextOf none .deny .signal)
    let reason (x : Verdict) := (x.decision, x.reason)
    let tiered (event : EventRecord) := decideOn (deciding event State.coldLimits) (contextOf (some 8) .deny .signal)
    let cold := State.coldProfile
    currentEvent open1 120 = some event1 ∧
    reason (decideOn watching (contextOf none .deny .signal)) = (.deny, .signal) ∧
    reason (decideOn open1 (contextOf none .deny .signal)) = (.present, .none) ∧
    reason (under cold { event1 with blackout := [0] } .inside) = (.deny, .blackout) ∧
    reason (under { cold with locks := [120] } event1 .inside) = (.deny, .channelLock) ∧
    reason (under { cold with ceiling := 4 } event1 .inside) = (.deny, .rating) ∧
    reason (under cold event1 .outside) = (.deny, .window) ∧
    reason (under { cold with allowance := 5, remaining := 0 } event1 .inside) = (.deny, .allowance) ∧
    tiered event1 = ⟨.preview, .none, some 1120, some 1⟩ ∧
    reason (tiered { event1 with previewMinutes := 0 }) = (.deny, .offer) ∧
    reason (tiered { event1 with price := none }) = (.deny, .notEntitled) := by decide

theorem test_purchases_and_profiles_re_decide :
    let s0 := deciding { event1 with previewMinutes := 0 } State.coldLimits
    let s (p : Purchase) (d : Decision) : State := { s0 with
      purchase := p, output := { State.coldOutput with context := some (contextOf (some 8) d .none) } }
    let held (t : State) := t.output.context.map (fun c => (c.decision, c.reason))
    let endedNow : State := { s (bought1 .committed).purchase .present with
      purchase := { (bought1 .committed).purchase with records := [{ record1 with state := .committed, ends := 1000 }] } }
    let strict : State := { s (bought1 .committed).purchase .present with
      limits := { State.coldLimits with profile2 := { State.coldProfile with ceiling := 4 } } }
    held (after (.purchase 9#8 (beBytes 2 1 ++ beBytes 2 0)) (s shop.purchase .deny)) = some (.present, .none) ∧
    held (after (.cancelPurchase 9#8 (beBytes 2 1)) (s (bought1 .provisional).purchase .present)) =
      some (.deny, .offer) ∧
    held (clearPurchases (beBytes 4 1) endedNow) = some (.deny, .offer) ∧
    held (after (.profileSelect 9#8 (2#8 :: beBytes 2 0)) strict) = some (.deny, .rating) := by decide

theorem test_no_key_denies :
    let s := deciding event1 State.coldLimits
    let s := (s.setAcq .f0 { s.acqOf .f0 with scrambled := true }).setSlot .f0
      { State.clearSlot 0 with wait := .expired }
    (decideOn s (contextOf none .present .none)).reason = .noKey := by decide

theorem test_witness_trigger :
    let with1 (s : State) (c : Context) (queue : List OutCell) : State :=
      { s with output := { State.coldOutput with context := some c, queue } }
    let cell : OutCell := .programme ⟨410, none, true, false, 0, .programme, [1#8], []⟩
    let open1 := deciding event1 State.coldLimits
    let opened := trigger (with1 open1 (contextOf none .deny .signal) [])
    let shut := trigger (with1 watching (contextOf none .present .none) [cell])
    let offered := trigger (with1 (deciding { event1 with previewMinutes := 0 } State.coldLimits)
      { contextOf (some 8) .deny .offer with eventId := some 9 } [])
    trigger ready = ready ∧ opened.output.priming = some (50 * 128) ∧ noticeSet .accessChanged opened = true ∧
    LocalCell.marker 120 .present .none ∈ opened.command.replyQueue ∧
    shut.output.flushed = 1 ∧ shut.output.queue.countP OutCell.isProgramme = 0 ∧
    noticeSet .offer offered = true ∧ noticeSet .accessChanged offered = false ∧
    trigger (with1 open1 (contextOf none .present .none) []) = with1 open1 (contextOf none .present .none) [] := by
  decide

/-! ## Witnesses: the laws -/

/-- The smallest state with a purchase, an event, two channels and a presentation; every law holds of it. -/
def lawful : State :=
  { bought1 .provisional with
    acq := watching.acq
    access := { State.coldAccess 0 with entitlements := [⟨7, 3⟩] } }

theorem test_witness_purchase_law : PurchaseLaw lawful := by unfold PurchaseLaw; decide

theorem test_witness_limits_law : LimitsLaw lawful := by
  unfold LimitsLaw Profile.lawful; simp [lawful, bought1, shop, ready, State.reset, State.coldLimits, State.coldProfile]

theorem test_witness_presenting_law : PresentingLaw lawful := by
  refine ⟨?_, by decide⟩; intro f; cases f <;> decide

theorem test_witness_table_laws : EventTableLaw lawful ∧ TablesLaw lawful ∧ CapacityLaw lawful := by
  refine ⟨?_, ?_, ?_⟩
  · unfold EventTableLaw; decide
  · unfold TablesLaw; decide
  · unfold CapacityLaw; decide

theorem test_witness_clock_law : ClockLaw shop ∧ MeterLaw shop := by
  refine ⟨?_, rfl⟩; unfold ClockLaw; decide

/-- Channel 120 presented under profile 1, whose ceiling admits it. -/
def decided : State :=
  let s := metered 60
  { s with
    guide := { smallGuide with watched := some 120, lastEvent := some event1 }
    output := { State.coldOutput with
      context := some ⟨.f0, 120, entry120, some 1, .present, .none, none, false⟩
      queue := [.programme ⟨410, none, true, false, 0, .programme, [1#8], []⟩] } }

theorem test_witness_rating_law : RatingLaw decided := by
  refine ⟨by decide, ?_⟩
  intro c h
  cases h
  exact ⟨rfl, rfl, by decide, by decide⟩

theorem test_witness_clear_output_law : ClearOutputLaw decided := by
  refine ⟨?_, by decide⟩
  intro c h
  simp [decided] at h
  exact h ▸ rfl

theorem test_witness_reply_queue_law : ReplyQueueLaw lawful := by
  refine ⟨by decide, by decide, by decide, by decide, ?_, ?_⟩
  · intro cells h; cases h
  · intro f cell h; cases f <;> cases h

theorem test_witness_network_time :
    (∃ t, exec .clockAdvance shop = .next t ∧ t.clock.n = (shop.clock.n + 1) % 2 ^ 42) :=
  ⟨after .clockAdvance shop, rfl, by decide⟩

theorem test_witness_gate :
    let s := { decided.setFront .f0 (atSlot (.locked 0)) with
      filter := { State.coldFilter with entries := [newEntry .f0 410 .present .acquisition none] } }
    let slot := slotOf 410 0 .programme [1#8]
    let last := { (s.frontOf .f0) with held := slot.take 127, position := 255 }
    let split := s.setFront .f0 last
    slotArrives .f0 slot 128 s ∧ programmeCount (after (.lockedSlot .f0 slot) s) = 2 ∧
    programmeCount (after (.feedByte .f0 ((slot.drop 127).headD ⟨0#8, false⟩)) split) = 2 ∧
    ¬ slotArrives .f0 slot 128 split ∧ (split.frontOf .f0).slot.isSome = true ∧
    slotArrives .f0 slot 128 (withFront (atSlot (.confirm 0))) := by decide

theorem test_witness_local_cells_leave :
    let s := queued (.ofPart (.notice 1)) none
    s.output.queue = .ofPart (.notice 1) :: [] ∧ (after .outputCellWrite s).output.queue = [] := by decide

end Sys2Proof.Tests
end

