-- ==== Sys2Proof/Proofs/Revoke.lean ====
section
/-! PROOFS. O46, REVOKE (R115): a flag that is set outlives a trigger, what a changed entitlement table leaves alone,
and what removing the entries of one tier leaves of the table. -/

namespace Sys2Proof.Machine

/-! ## A flag that is set outlives a re-decision -/

theorem notices_emission (deny : Prop) [Decidable deny] (s : State) :
    (if deny then openPriming s else startPriming s).command.notices = s.command.notices := by
  split <;> rfl

theorem noticeSet_announce_of_set {n : Notice} {s : State} (h : noticeSet n s = true) (c : Nat) (d : Decision)
    (r : Reason) (moved : Bool) : noticeSet n (announce c d r moved s) = true := by
  have flushed : noticeSet n (if d = .deny || moved then flushProgramme s else s) = true := by
    split <;> exact h
  have changed := noticeSet_raise_of_set flushed .accessChanged
  unfold announce; dsimp only
  rw [noticeSet_of_notices (notices_emission ..), noticeSet_of_notices (notices_placeMarker ..)]
  split
  · exact noticeSet_raise_of_set changed _
  · exact changed

theorem noticeSet_settle_of_set {n : Notice} {s : State} (h : noticeSet n s = true) (c : Context) (v : Verdict)
    (created moved : Bool) : noticeSet n (settle c v created moved s) = true := by
  have taken (x : Option Context) : noticeSet n { s with output := { s.output with context := x } } = true := h
  unfold settle
  refine noticeSet_evaluateMeter_of_set ?_
  split
  · exact noticeSet_announce_of_set (taken _) ..
  · split
    · exact noticeSet_raise_of_set (taken _) _
    · exact taken _

/-- A trigger clears no flag (R172, R185). -/
theorem noticeSet_trigger_of_set {n : Notice} {s : State} (h : noticeSet n s = true) :
    noticeSet n (trigger s) = true := by
  unfold trigger; split
  · exact h
  · split
    · exact h
    · exact noticeSet_settle_of_set h ..

/-! ## The entitlement table takes new entries (R114 to R116) -/

theorem entitlementsBecome_same (s : State) : entitlementsBecome s.access.entitlements s = s := by
  simp [entitlementsBecome]

theorem entitlementsBecome_changed {es : List Entitlement} {s : State} (h : es ≠ s.access.entitlements) :
    entitlementsBecome es s =
      trigger (raise .entitlementChanged { s with access := { s.access with entitlements := es } }) := by
  simp [entitlementsBecome, h]

theorem untriggered_entitlementsBecome (es : List Entitlement) (s : State) :
    untriggered (entitlementsBecome es s) =
      untriggered { s with access := { s.access with entitlements := es } } := by
  by_cases h : es = s.access.entitlements
  · rw [h, entitlementsBecome_same]
  · rw [entitlementsBecome_changed h, untriggered_trigger, untriggered_raise]

@[simp] theorem entitlements_entitlementsBecome (es : List Entitlement) (s : State) :
    (entitlementsBecome es s).access.entitlements = es :=
  congrArg (fun x : State => x.access.entitlements) (untriggered_entitlementsBecome es s)

@[simp] theorem purchase_entitlementsBecome (es : List Entitlement) (s : State) :
    (entitlementsBecome es s).purchase = s.purchase :=
  (congrArg State.purchase (untriggered_entitlementsBecome es s) :)

/-- A changed table leaves ENTITLEMENT CHANGED set (R114, R115, R116). -/
theorem noticeSet_entitlementsBecome {es : List Entitlement} {s : State} (h : es ≠ s.access.entitlements) :
    noticeSet .entitlementChanged (entitlementsBecome es s) = true := by
  rw [entitlementsBecome_changed h]
  exact noticeSet_trigger_of_set (noticeSet_raise ..)

/-! ## The entries of the other tiers -/

/-- The table without the entries of a tier. -/
def withoutTier (tier : Nat) (es : List Entitlement) : List Entitlement := es.filter (fun e => e.tier ≠ tier)

theorem withoutTier_eq_self_iff (tier : Nat) (es : List Entitlement) :
    withoutTier tier es = es ↔ ∀ e ∈ es, e.tier ≠ tier := by
  simp [withoutTier, List.filter_eq_self]

theorem withoutTier_withoutTier (tier : Nat) (es : List Entitlement) :
    withoutTier tier (withoutTier tier es) = withoutTier tier es := by
  simp [withoutTier]

/-! ## REVOKE -/

/-- A REVOKE addressed to all passes the checks of R33 in every state and is handed to the Access Unit (R34, R36). -/
theorem managementSection_revokeAll (tier : Byte) (s : State) :
    managementSection [3#8, 2#8, 1#8, tier] s = revoke [tier] s := rfl

theorem revoke_one (tier : Byte) (s : State) :
    revoke [tier] s = entitlementsBecome (withoutTier tier.toNat s.access.entitlements) s := by
  simp [revoke, beNat, withoutTier]

theorem revoke_notHeld {tier : Byte} {s : State} (h : ∀ e ∈ s.access.entitlements, e.tier ≠ tier.toNat) :
    revoke [tier] s = s := by
  rw [revoke_one, (withoutTier_eq_self_iff _ _).2 h, entitlementsBecome_same]

theorem revoke_revoke (tier : Byte) (s : State) : revoke [tier] (revoke [tier] s) = revoke [tier] s := by
  apply revoke_notHeld
  rw [revoke_one, entitlements_entitlementsBecome]
  exact (withoutTier_eq_self_iff _ _).1 (withoutTier_withoutTier _ _)

/-- What a purchase record of the current event entitles needs no tier and no clock (R126). -/
theorem entitled_of_record {s : State} {e : EventRecord} (h : ∃ r ∈ s.purchase.records, r.eventId = e.id)
    (entry : ChannelEntry) : entitled s entry (some e) = true := by
  have hb : bought s.purchase e.id = true := by simpa [bought] using h
  simp [entitled, hb]

/-- Settles O46: the tier is held exactly when the table without it differs, and all else follows from what
`entitlementsBecome` does and leaves alone. -/
theorem revokeRemovesTheTier : Obligations.RevokeRemovesTheTier := by
  intro tier s
  dsimp only
  rw [managementSection_revokeAll, managementSection_revokeAll]
  have purchases : (revoke [tier] s).purchase = s.purchase := by
    rw [revoke_one, purchase_entitlementsBecome]
  refine ⟨?held, revoke_notHeld, revoke_revoke tier s, purchases, ?bought⟩
  case held =>
    rintro ⟨e, he, ht⟩
    have changed : withoutTier tier.toNat s.access.entitlements ≠ s.access.entitlements :=
      fun h => (withoutTier_eq_self_iff _ _).1 h e he ht
    rw [revoke_one]
    exact ⟨entitlementsBecome_changed changed, entitlements_entitlementsBecome _ _,
      noticeSet_entitlementsBecome changed⟩
  case bought =>
    intro entry e h
    exact entitled_of_record (by rwa [purchases]) entry

end Sys2Proof.Machine
end

