-- ==== Sys2Proof/Proofs/Transmitter.lean ====
section
/-! PROOFS. O24, the pulses of the transmitter (R142 to R144): what handing over a cell and raising a flag do to the
purchase unit, and the two meanings of each pulse. -/

namespace Sys2Proof.Machine

/-! ## What the transmitter's operations do to the purchase unit -/

@[simp] theorem purchase_raise (n : Notice) (s : State) : (raise n s).purchase = s.purchase :=
  (congrArg State.purchase (untriggered_raise n s) :)

/-- A hand-over starts a new attempt count; the queue alone says which state it ends in (R142). -/
theorem purchase_handOver (s : State) :
    (handOver s).purchase =
      { s.purchase with
        tx := if s.purchase.returnQueue = [] then .idle else .sending
        attempts := 0, waitTimer := none } := by
  cases queue : s.purchase.returnQueue with
  | nil => simp [handOver, queue]
  | cons cell rest => simp [handOver, queue]

@[simp] theorem spurious_handOver (s : State) : (handOver s).purchase.spurious = s.purchase.spurious := by
  rw [purchase_handOver]

@[simp] theorem sent_handOver (s : State) : (handOver s).purchase.sent = s.purchase.sent := by
  rw [purchase_handOver]

@[simp] theorem spurious_dropHead (s : State) : (dropHead s).purchase.spurious = s.purchase.spurious := rfl

@[simp] theorem sent_dropHead (s : State) : (dropHead s).purchase.sent = s.purchase.sent := rfl

@[simp] theorem spurious_startWait (k : Nat) (s : State) :
    (startWait k s).purchase.spurious = s.purchase.spurious := rfl

@[simp] theorem spurious_dropReturnCell (s : State) :
    (dropReturnCell s).purchase.spurious = s.purchase.spurious := by
  simp [dropReturnCell]

/-! ## A pulse in SENDING and in the other states -/

theorem exec_sentPulse_of_running {s : State} (h : s.running = true) :
    exec .sentPulse s = .next (sentPulse s) := by
  simp [exec, execSentPulse, h]

theorem exec_collidedPulse_of_running {s : State} (h : s.running = true) :
    exec .collidedPulse s = .next (collidedPulse s) := by
  simp [exec, execCollidedPulse, h]

theorem sentPulse_of_not_sending {s : State} (h : s.purchase.tx ≠ .sending) :
    sentPulse s = spuriousOutcome s := if_neg h

theorem collidedPulse_of_not_sending {s : State} (h : s.purchase.tx ≠ .sending) :
    collidedPulse s = spuriousOutcome s := if_neg h

theorem sentPulse_of_sending {s : State} (h : s.purchase.tx = .sending) :
    sentPulse s = handOver (dropHead { s with purchase := { s.purchase with sent := bump s.purchase.sent } }) :=
  if_pos h

theorem collidedPulse_of_sending {s : State} (h : s.purchase.tx = .sending) :
    collidedPulse s =
      if s.purchase.attempts + 1 < 8 then startWait (s.purchase.attempts + 1) s else dropReturnCell s :=
  if_pos h

/-- In SENDING the sent pulse is the outcome of the head cell (R142), not a spurious one. -/
theorem spurious_sentPulse_of_sending {s : State} (h : s.purchase.tx = .sending) :
    (sentPulse s).purchase.spurious = s.purchase.spurious := by
  simp [sentPulse_of_sending h]

theorem sent_sentPulse_of_sending {s : State} (h : s.purchase.tx = .sending) :
    (sentPulse s).purchase.sent = bump s.purchase.sent := by
  simp [sentPulse_of_sending h]

/-- In SENDING a collided pulse is an outcome too, whether it starts a wait or drops the head cell (R143). -/
theorem spurious_collidedPulse_of_sending {s : State} (h : s.purchase.tx = .sending) :
    (collidedPulse s).purchase.spurious = s.purchase.spurious := by
  rw [collidedPulse_of_sending h]
  split
  · exact spurious_startWait _ s
  · exact spurious_dropReturnCell s

/-- Settles O24: outside SENDING both pulses are the spurious outcome, whose whole effect is the count; in SENDING
neither a hand-over nor a wait nor a drop touches that count. -/
theorem spuriousPulsesAreIgnored : Obligations.SpuriousPulsesAreIgnored := by
  intro s running
  rw [exec_sentPulse_of_running running, exec_collidedPulse_of_running running]
  refine ⟨fun resting => ?ignored, fun sending => ⟨?sent, ?collided⟩⟩
  case ignored =>
    have notSending : s.purchase.tx ≠ .sending := by
      rcases resting with h | h <;> simp [h]
    rw [sentPulse_of_not_sending notSending, collidedPulse_of_not_sending notSending]
    exact ⟨rfl, rfl⟩
  case sent =>
    exact ⟨_, rfl, spurious_sentPulse_of_sending sending, sent_sentPulse_of_sending sending⟩
  case collided =>
    exact ⟨_, rfl, spurious_collidedPulse_of_sending sending⟩

end Sys2Proof.Machine
end

section
/-! PROOFS. O33, the attention line (R187): the three conditions that the line is worked out from. -/

namespace Sys2Proof.Machine

theorem ready_iff_running (s : State) : s.ready = true ↔ s.running = true := Iff.rfl

theorem attention_iff (s : State) :
    s.attention = true ↔
      (s.running = true ∧ s.command.notices ≠ 0) ∧ s.command.attentionEnable = true := by
  simp only [State.attention, Bool.and_eq_true, decide_eq_true_eq]

/-- Settles O33: the line is the conjunction of its three conditions, and the ready line is true exactly in a running
part. -/
theorem attentionLine : Obligations.AttentionLine := by
  intro s
  rw [attention_iff, ready_iff_running, and_assoc]

end Sys2Proof.Machine
end

