-- ==== Sys2Proof/Proofs/Atoms.lean ====
section
/-! PROOFS. What a command can do, said once. An `Atom` is a change of one part of the state with what every rule that
makes it guarantees; a `Move` is an atom that no decision reads, or one of the operations that a decision reads and
settles in the same step. Every meaning of the model is a chain of moves, so that a law is kept by every step once each
atom (or each move) keeps it. -/

namespace Sys2Proof.Machine

-- The proofs of a section are elaborated one after another: in parallel each waiting proof holds a thread.
set_option Elab.async false

/-! ## Kinds of atoms that only some commands make -/

/-- What a move may do besides what every command may: count or step network time, let a programme cell into the output
queue, write on P, touch the reserved reply entry, or put the part at reset values. -/
inductive Special where
  | time | gate | write | entry | warm | soft
deriving DecidableEq

/-! ## Changes of one block -/

/-- The clock stepped to a mark (R43, R45). -/
def Clock.stepped (c : Clock) (m : Mark) : Clock :=
  ({ c with n := m.value, s := 0, stepCount := bump c.stepCount } : Clock).marked m

/-- The clock slewed to a mark (R45). -/
def Clock.slewed (c : Clock) (m : Mark) : Clock :=
  ({ c with s := clampInt (-1024) 1024 (markError m.value c.n), slews := bump c.slews } : Clock).marked m

/-- A change of the clock that leaves network time and the step count alone (R41 to R54). -/
inductive ClockMove (c : Clock) : Clock → Prop
  | ticked : ClockMove c { c with lossTimer := tickTimer c.lossTimer }
  | lost (h : c.lossTimer = some 0) : ClockMove c { c with state := .holdover, lossTimer := none }
  | slewed (h : c.state ≠ .unset) (b : Bytes) (src : MarkSource) : ClockMove c (c.slewed (readMark b src))
  | short : ClockMove c { c with shortCells := bump c.shortCells }
  | ignored : ClockMove c { c with marksIgnored := bump c.marksIgnored }
  | minute (h : c.state ≠ .unset) (m : Nat) : ClockMove c { c with lastMinute := some m }
  | credited (d : Nat) : ClockMove c { c with creditedDay := d }
  | configured (vs : List (Option Nat)) : ClockMove c (c.configure vs)

/-- A change of the event table: an upsert (R63) or removals (R68). -/
inductive EventsMove (g : Guide) : Guide → Prop
  | upserted (now : Option Nat) (e : EventRecord) (h : 60 ≤ e.duration) : EventsMove g (upsert now g e)
  | removed (p : EventRecord → Bool) (n : Nat) :
      EventsMove g { g with events := g.events.filter p, rolloverRemovals := n }

/-- A change of the entitlement table: an ENTITLE (R114) or removals (R115, R116). -/
inductive EntitlementsMove (es : List Entitlement) : List Entitlement → Prop
  | fewer {xs : List Entitlement} (h : xs.Sublist es) : EntitlementsMove es xs
  | entitled {xs : List Entitlement} (e : Entitlement) (h : entitleTable e es = some xs) : EntitlementsMove es xs

/-- The purchase unit with the head of its return queue handed over (R142). -/
def Purchase.handedOver (p : Purchase) : Purchase :=
  { p with
    tx := if p.returnQueue = [] then .idle else .sending
    attempts := 0, waitTimer := none }

/-- A change of the purchase unit (chapter 8). -/
inductive PurchaseMove (p : Purchase) : Purchase → Prop
  | taken (e : EventRecord) (price t : Nat) (new : bought p e.id = false) (room : p.records.length < 32)
      (credit : p.debt + price ≤ p.limit) :
      PurchaseMove p { p with
        records := p.records ++ [newPurchase p.nextSeq e price t], debt := p.debt + price,
        nextSeq := followingSeq p.nextSeq }
  | cancelled (r : PurchaseRecord) (held : r ∈ p.records) (h : r.state = .provisional) :
      PurchaseMove p { p with
        records := p.records.filter (fun x => x.eventId ≠ r.eventId), debt := p.debt - r.price }
  | second (t : Nat) :
      PurchaseMove p { p with
        records := (p.records.filter (fun r => !r.leavesAt t)).map (PurchaseRecord.atBoundary t) }
  | limited (n : Nat) (h : n ≤ 65535) : PurchaseMove p { p with limit := n }
  | cleared (q : Nat) (now : Option Nat) :
      PurchaseMove p { p with
        records := (p.records.filter (fun r => !(r.settledBy q && r.over now))).map (PurchaseRecord.collect q)
        debt := p.debt - priceSum (p.records.filter (PurchaseRecord.settledBy q)) }
  | reported (cells : List Bytes) (h : cells.length ≤ max 1 ((p.records.length + 3) / 4)) :
      PurchaseMove p ({ p with returnQueue := cells } : Purchase).handedOver
  | headSent : PurchaseMove p ({ p with sent := bump p.sent, returnQueue := p.returnQueue.tail } : Purchase).handedOver
  | headDropped :
      PurchaseMove p ({ p with dropped := bump p.dropped, returnQueue := p.returnQueue.tail } : Purchase).handedOver
  | waits (k : Nat) (left : Ticks) (h : p.tx = .sending) (hk : k < 8) :
      PurchaseMove p { p with tx := .waiting, attempts := k, waitTimer := some left }
  | retried (h : p.waitTimer = some 0) : PurchaseMove p { p with tx := .sending, waitTimer := none }
  | ticked : PurchaseMove p { p with waitTimer := tickTimer p.waitTimer }
  | malformed : PurchaseMove p { p with malformed := bump p.malformed }
  | ignored : PurchaseMove p { p with ignoredCollects := bump p.ignoredCollects }
  | spurious : PurchaseMove p { p with spurious := bump p.spurious }
  | cold : PurchaseMove p State.coldPurchase

/-- A change of the limits unit (chapter 9). -/
inductive LimitsMove (l : Limits) : Limits → Prop
  | running (b : Bool) : LimitsMove l { l with running := b }
  | standing (x : Standing) : LimitsMove l { l with standing := x }
  | part (t : Ticks) : LimitsMove l { l with part := t }
  | active (p : Fin 4) : LimitsMove l { l with active := p }
  | written (p : Fin 4) (x : ProfileParams) (h : x.allowance ≤ 1440) :
      LimitsMove l (setProfile l p ((profileOf l p).written x))
  | restored : LimitsMove l { l with
      profile1 := l.profile1.restored, profile2 := l.profile2.restored, profile3 := l.profile3.restored }
  | spent : LimitsMove l (spendSecond l)
  | checked (param : Nat) : LimitsMove l (pinCheck param l).2
  | pinSet (pin : Option Nat) (h : ∀ v, pin = some v → v ≤ 9999) (unlocked : l.lockout = none) :
      LimitsMove l { l with pin, attempts := 0 }
  | pinReset (pin : Option Nat) (h : ∀ v, pin = some v → v ≤ 9999) :
      LimitsMove l { l with pin, attempts := 0, lockout := none }
  | unlocked : LimitsMove l { l with lockout := none, attempts := 0 }
  | ticked : LimitsMove l { l with lockout := tickTimer l.lockout }
  | malformed : LimitsMove l { l with malformed := bump l.malformed }
  | cold : LimitsMove l State.coldLimits

/-- A change of the record of f: where its pending reply is formed now, what lets it be PRESENTING, and what lets it take
the PRESENT role (R88, R89). -/
structure RecordMove (f : Feed) (s : State) (r : AcqRecord) : Prop where
  formed : ∀ cell, r.pending = .formed cell → (s.acqOf f).pending = .formed cell ∨ cell.isNotice = false
  presenting : r.state = .presenting → r.role = .present ∨
    ((s.acqOf f).state = .presenting ∧ (r.role = (s.acqOf f).role ∨ f ≠ presentationFeed s))
  present : r.role = .present → (s.acqOf f).role = .present ∨ (s.acqOf (otherFeed f)).role ≠ .present

/-- The feed and stream of a filter entry (R20). -/
def FilterEntry.key (e : FilterEntry) : Feed × Nat := (e.feed, e.stream)

/-- s with every block at what SOFT RESET keeps of it, before the fronts take up work again (R190). -/
def softened (s : State) : State :=
  { s with
    lines := s.lines.softReset
    front := ⟨s.front.f0.softReset, s.front.f1.softReset⟩
    filter := State.coldFilter
    assembler := State.coldAssembler
    clock := s.clock.softReset
    guide := s.guide.softReset
    acq := s.acq.softReset
    access := s.access.kept
    purchase := s.purchase.kept
    limits := s.limits.kept
    output := s.output.softReset
    command := s.command.softReset }

theorem softReset_eq (s : State) : softReset s = takeUpWork (softened s) := rfl

/-! ## Atoms -/

/-- A change of one part of the state. The special ones are made only where K lets them. -/
inductive Atom (K : Special → Prop) (s : State) : State → Prop
  | raise (n : Notice) : Atom K s (raise n s)
  | place (cells : List LocalCell) (room : cells.length ≤ freeEntries s)
      (h : ∀ c ∈ cells, c.isNotice = false) : Atom K s (placeCells cells s)
  | output (x : Output) (h : x.queue = s.output.queue) : Atom K s { s with output := x }
  | flush : Atom K s (flushProgramme s)
  | guide (x : Guide) (hc : x.channels = s.guide.channels) (he : x.events = s.guide.events) :
      Atom K s { s with guide := x }
  | channels (rs : List ChannelRecord) : Atom K s { s with guide := takeChannelRecords rs s.guide }
  | events (x : Guide) (h : EventsMove s.guide x) : Atom K s { s with guide := x }
  | limits (x : Limits) (h : LimitsMove s.limits x) : Atom K s { s with limits := x }
  | lines (x : Lines) (h : x.onP = s.lines.onP) : Atom K s { s with lines := x }
  | front (x : PerFeed Front) : Atom K s { s with front := x }
  | strap (b : Bool) : Atom K s { s with f1Present := b }
  | filter (x : Filter) (h : (x.entries.map FilterEntry.key).Sublist (s.filter.entries.map FilterEntry.key)) :
      Atom K s { s with filter := x }
  | addEntry (e : FilterEntry) (room : s.filter.entries.length < 24) (new : entryAt s e.feed e.stream = none) :
      Atom K s { s with filter := { s.filter with entries := s.filter.entries ++ [e] } }
  | assembler (x : Assembler) (h : x.buffers.length ≤ max 12 s.assembler.buffers.length) :
      Atom K s { s with assembler := x }
  | clock (x : Clock) (h : ClockMove s.clock x) : Atom K s { s with clock := x }
  | record (f : Feed) (r : AcqRecord) (h : RecordMove f s r) : Atom K s (s.setAcq f r)
  | acq (x : Acquisition) (h : x.record = s.acq.record) : Atom K s { s with acq := x }
  | access (x : Access) (h : EntitlementsMove s.access.entitlements x.entitlements) :
      Atom K s { s with access := x }
  | purchase (x : Purchase) (h : PurchaseMove s.purchase x) : Atom K s { s with purchase := x }
  | command (x : CommandUnit) (hi : x.intake.length ≤ max 8 s.command.intake.length)
      (hq : x.replyQueue = s.command.replyQueue) (hr : x.reserved = s.command.reserved)
      (hh : x.heldReply = s.command.heldReply) (hn : x.noticePending = s.command.noticePending) :
      Atom K s { s with command := x }
  | clearFlags (m : BitVec 16) : Atom K s (clearFlags m s)
  | placeFormed (f : Feed) (cell : LocalCell) (h : (s.acqOf f).pending = .formed cell)
      (room : 0 < freeEntries s) : Atom K s (placeCells [cell] s)
  | placeNotice (h : s.command.noticePending = true) (room : 0 < freeEntries s) :
      Atom K s (placePendingNotice s)
  | transfer : Atom K s (transferLocal s)
  | reserve (hk : K .entry) (room : 0 < freeEntries s) : Atom K s (reserve s)
  | endReservation (hk : K .entry) (h : s.command.heldReply = none) : Atom K s (endReservation s)
  | reply (hk : K .entry) (cells : List LocalCell) (hr : s.command.reserved = true)
      (hh : s.command.heldReply = none) (room : cells.length - 1 ≤ freeEntries s)
      (hn : ∀ c ∈ cells, c.isNotice = false) : Atom K s (placeCells cells (endReservation s))
  | hold (hk : K .entry) (cells : List LocalCell) (hr : s.command.reserved = true)
      (hn : ∀ c ∈ cells, c.isNotice = false) :
      Atom K s { s with command := { s.command with heldReply := some cells } }
  | placeHeld (hk : K .entry) (cells : List LocalCell) (h : s.command.heldReply = some cells)
      (room : cells.length - 1 ≤ freeEntries s) : Atom K s (placeHeld cells s)
  | enqueue (hk : K .gate) (c : Cell) (clear : c.phase = none) (hp : programmeCount s < 60)
      (hq : s.output.queue.length < 64) :
      Atom K s { s with output := { s.output with queue := s.output.queue ++ [.programme c] } }
  | write (hk : K .write) : Atom K s (writeCell s)
  | advance (hk : K .time) : Atom K s { s with clock := s.clock.advanced }
  | step (hk : K .time) (b : Bytes) (src : MarkSource) :
      Atom K s { s with clock := s.clock.stepped (readMark b src) }
  | warm (hk : K .warm) : Atom K s (warmReset s)
  | soft (hk : K .soft) : Atom K s (softened s)

/-- A chain of atoms. -/
abbrev Atoms (K : Special → Prop) : State → State → Prop := Relation.ReflTransGen (Atom K)

/-! ## Moves -/

/-- What the meter and a standing decision rest on (R148, R160, R168) is the same in t as in s. -/
structure SameView (s t : State) : Prop where
  context : t.output.context = s.output.context
  watched : t.guide.watched = s.guide.watched
  lastEvent : t.guide.lastEvent = s.guide.lastEvent
  current : ∀ c, currentEvent t c = currentEvent s c
  running : t.limits.running = s.limits.running
  active : t.limits.active = s.limits.active
  profiles : ∀ p, profileOf t.limits p = profileOf s.limits p

/-- s with a step to a mark on its clock, and CLOCK STEPPED raised, before the boundary it brings (R43, R45). -/
def stepTo (m : Mark) (s : State) : State :=
  raise .clockStepped { s with clock := s.clock.stepped m }

/-- s with the records of a section taken one after the other, and GUIDE CHANGED where that changed the table, before
the watched channel is compared (R63, R67). -/
def upserted (es : List EventRecord) (s : State) : State :=
  let s1 := { s with guide := es.foldl (upsert s.now) s.guide }
  if s1.guide.events = s.guide.events then s1 else raise .guideChanged s1

/-- A change of the state after which the meter and the decisions are as the rules want them again. -/
inductive Move (K : Special → Prop) (s : State) : State → Prop
  | atom {t : State} (h : Atom K s t) (v : SameView s t) : Move K s t
  | trigger : Move K s (trigger s)
  | takeContext (f : Feed) (e : ChannelEntry) : Move K s (takeContext f e s)
  | setChanging : Move K s (setChanging s)
  | removeContext : Move K s (removeContext s)
  | refreshEntry (e : ChannelEntry) : Move K s (refreshEntry e s)
  | lost (h : s.clock.lossTimer = some 0) :
      Move K s { s with clock := { s.clock with state := .holdover, lossTimer := none } }
  | advance (hk : K .time) : Move K s (compareWatched { s with clock := s.clock.advanced })
  | step (hk : K .time) (b : Bytes) (src : MarkSource) : Move K s (compareWatched (stepTo (readMark b src) s))
  | upserts (es : List EventRecord) (h : ∀ e ∈ es, 60 ≤ e.duration) : Move K s (compareWatched (upserted es s))
  | guideRollover (d : Int) : Move K s (guideRollover d s)
  | switchProfile (p : Fin 4) : Move K s (switchProfile p s)
  | writeProfile (p : Fin 4) (x : ProfileParams) (h : x.allowance ≤ 1440) : Move K s
      (afterProfileWrite p { s with limits := setProfile s.limits p ((profileOf s.limits p).written x) })
  | limitsRollover : Move K s (limitsRollover s)
  | meterSecond : Move K s (meterSecond s)
  | coldRetained (region : Nat) : Move K s (coldRetained region s)
  | warm (hk : K .warm) : Move K s (warmReset s)
  | soft (hk : K .soft) : Move K s (softened s)

/-- A chain of moves. -/
abbrev Moves (K : Special → Prop) : State → State → Prop := Relation.ReflTransGen (Move K)

variable {K : Special → Prop}

/-- An atom that changes nothing a decision reads. -/
theorem Moves.off {s t : State} (h : Atom K s t)
    (v : SameView s t := by exact ⟨rfl, rfl, rfl, fun _ => rfl, rfl, rfl, fun _ => rfl⟩) : Moves K s t :=
  .single (.atom h v)

theorem Moves.ite {c : Prop} [Decidable c] {s t u : State} (h : c → Moves K s t) (h' : ¬ c → Moves K s u) :
    Moves K s (if c then t else u) := by
  split
  · exact h ‹_›
  · exact h' ‹_›

/-! ## Decisions -/

theorem SameView.of_untriggered {s t : State} (h : untriggered t = untriggered s)
    (hc : t.output.context = s.output.context) (hr : t.limits.running = s.limits.running) : SameView s t where
  context := hc
  watched := (congrArg (fun x : State => x.guide.watched) h :)
  lastEvent := (congrArg (fun x : State => x.guide.lastEvent) h :)
  current c := by
    have key : ∀ x : State, currentEvent x c = currentEvent (untriggered x) c := fun _ => rfl
    rw [key t, h, ← key s]
  running := hr
  active := (congrArg (fun x : State => x.limits.active) h :)
  profiles p := by
    have key : ∀ x : State, profileOf x.limits p = profileOf (untriggered x).limits p := by
      intro x; match p with | 0 => rfl | 1 => rfl | 2 => rfl | 3 => rfl
    rw [key t, h, ← key s]

theorem sameView_raise (n : Notice) (s : State) : SameView s (raise n s) :=
  .of_untriggered (untriggered_raise n s) (context_raise n s) (running_raise n s)

theorem moves_raise (n : Notice) (s : State) : Moves K s (raise n s) := .off (.raise n) (sameView_raise n s)

end Sys2Proof.Machine
end

