-- ==== Sys2Proof/Proofs/MovesOfCommands.lean ====
section
/-! PROOFS. The operations on fronts, channels, the filter and the acquisition as chains of moves. -/

namespace Sys2Proof.Machine

set_option Elab.async false

variable {K : Special → Prop}

theorem moves_place (cells : List LocalCell) (s : State) (room : cells.length ≤ freeEntries s)
    (h : ∀ c ∈ cells, c.isNotice = false) : Moves K s (placeCells cells s) := .off (.place cells room h)

theorem moves_trigger (s : State) : Moves K s (trigger s) := .single .trigger

theorem moves_triggers (k : Nat) (s : State) : Moves K s (triggers k s) := by
  induction k generalizing s with
  | zero => exact .refl
  | succ k ih => exact (moves_trigger s).trans (ih _)

theorem moves_purchaseChanged (k : Nat) (s : State) : Moves K s (purchaseChanged k s) :=
  (moves_raise _ s).trans (moves_triggers k _)

theorem moves_evaluateStanding (s : State) : Moves K s (evaluateStanding s) :=
  .off (.limits _ (.standing _)) ⟨rfl, rfl, rfl, fun _ => rfl, rfl, rfl, by
    intro p; match p with | 0 => rfl | 1 => rfl | 2 => rfl | 3 => rfl⟩

theorem moves_windowCheck (s : State) : Moves K s (windowCheck s) :=
  .ite (fun _ => .refl) fun _ => (moves_evaluateStanding s).trans (moves_trigger _)

theorem moves_decisionSecond (step : Bool) (s : State) : Moves K s (decisionSecond step s) := by
  have preview (due : Bool) : Moves K s (if due then trigger s else s) := .ite (fun _ => moves_trigger s) fun _ => .refl
  unfold decisionSecond
  cases step
  · exact preview _
  · exact (preview _).trans (moves_trigger _)

/-! ## Filter and assembler -/

theorem moves_filter (x : Filter) (s : State)
    (h : (x.entries.map FilterEntry.key).Sublist (s.filter.entries.map FilterEntry.key)) :
    Moves K s { s with filter := x } := .off (.filter x h)

/-- Entries changed one by one, each with its feed and stream. -/
theorem map_key_map {g : FilterEntry → FilterEntry} (h : ∀ e, (g e).key = e.key) (es : List FilterEntry) :
    ((es.map g).map FilterEntry.key).Sublist (es.map FilterEntry.key) := by
  rw [List.map_map, show FilterEntry.key ∘ g = FilterEntry.key from funext h]

theorem moves_addEntry (e : FilterEntry) (s : State) : Moves K s (addEntry e s) := by
  refine .ite (fun h => ?_) fun _ => .refl
  simp only [Bool.and_eq_true, decide_eq_true_eq, Option.isNone_iff_eq_none] at h
  exact .off (.addEntry e h.1 h.2)

theorem moves_addEntries (es : List FilterEntry) (s : State) : Moves K s (addEntries es s) := by
  induction es generalizing s with
  | nil => exact .refl
  | cons e es ih => exact (moves_addEntry e s).trans (ih _)

theorem moves_fewerBuffers (x : Assembler) (s : State) (h : x.buffers.length ≤ s.assembler.buffers.length) :
    Moves K s { s with assembler := x } := .off (.assembler x (by omega))

theorem moves_abandon (f : Feed) (p : Nat → Bool) (s : State) : Moves K s (abandon f p s) :=
  moves_fewerBuffers _ s (List.length_filter_le ..)

theorem moves_removeEntries (f : Feed) (p : FilterEntry → Bool) (s : State) : Moves K s (removeEntries f p s) :=
  (moves_filter _ s (List.filter_sublist.map _)).trans (moves_abandon ..)

theorem moves_removeAcqEntries (f : Feed) (s : State) : Moves K s (removeAcqEntries f s) := moves_removeEntries ..

theorem moves_requestEntries (f : Feed) (ps : List (Nat × Consumer)) (s : State) :
    Moves K s (requestEntries f ps s).2 := by
  unfold requestEntries; dsimp only
  split
  · exact moves_addEntries ..
  · exact .refl

/-! ## Fronts, records and key slots -/

theorem moves_setFront (f : Feed) (x : Front) (s : State) : Moves K s (s.setFront f x) := .off (.front _)

theorem moves_lines (x : Lines) (s : State) (h : x.onP = s.lines.onP := by rfl) : Moves K s { s with lines := x } :=
  .off (.lines x h)

theorem moves_access (x : Access) (s : State) (h : x.entitlements = s.access.entitlements := by rfl) :
    Moves K s { s with access := x } := .off (.access x (.fewer (by rw [h])))

theorem moves_setSlot (f : Feed) (k : KeySlot) (s : State) : Moves K s (s.setSlot f k) := moves_access ..

theorem moves_acq (x : Acquisition) (s : State) (h : x.record = s.acq.record := by rfl) : Moves K s { s with acq := x } :=
  .off (.acq x h)

theorem moves_setAcq (f : Feed) (r : AcqRecord) (s : State) (h : RecordMove f s r) : Moves K s (s.setAcq f r) :=
  .off (.record f r h)

/-- A record that keeps its role and forms no reply, and does not become PRESENTING. -/
theorem RecordMove.of_role {f : Feed} {s : State} {r : AcqRecord} (role : r.role = (s.acqOf f).role)
    (state : r.state = (s.acqOf f).state ∨ r.state ≠ .presenting)
    (pending : r.pending = (s.acqOf f).pending ∨ ∀ cell, r.pending ≠ .formed cell) : RecordMove f s r where
  formed cell h := by
    rcases pending with p | p
    · exact .inl (p ▸ h)
    · exact absurd h (p cell)
  presenting h := by
    rcases state with x | x
    · exact .inr ⟨x ▸ h, .inl role⟩
    · exact absurd h x
  present h := .inl (role ▸ h)

/-- A change of a record that keeps role, state and pending reply. -/
theorem moves_keepAcq (f : Feed) (g : AcqRecord → AcqRecord) (s : State)
    (role : ∀ r, (g r).role = r.role := by intro _; rfl) (state : ∀ r, (g r).state = r.state := by intro _; rfl)
    (pending : ∀ r, (g r).pending = r.pending := by intro _; rfl) : Moves K s (s.changeAcq f g) :=
  moves_setAcq f _ s (.of_role (role _) (.inl (state _)) (.inl (pending _)))

/-- A change of a record that keeps role and pending reply, to a state that is not PRESENTING. -/
theorem moves_enterAcq (f : Feed) (g : AcqRecord → AcqRecord) (s : State)
    (role : ∀ r, (g r).role = r.role := by intro _; rfl)
    (state : ∀ r, (g r).state ≠ .presenting := by intro _; exact AcqState.noConfusion)
    (pending : ∀ r, (g r).pending = r.pending := by intro _; rfl) : Moves K s (s.changeAcq f g) :=
  moves_setAcq f _ s (.of_role (role _) (.inr (state _)) (.inl (pending _)))

theorem moves_clearKeySlot (f : Feed) (s : State) : Moves K s (clearKeySlot f s) := moves_setSlot ..

theorem moves_startKeyWait (f : Feed) (s : State) : Moves K s (startKeyWait f s) := moves_setSlot ..

/-- The ACQUISITION entries of f go and its key slot is cleared (R92, R104, R108). -/
theorem moves_clearFeed (f : Feed) (s : State) : Moves K s (clearKeySlot f (removeAcqEntries f s)) :=
  (moves_removeAcqEntries f s).trans (moves_clearKeySlot ..)

theorem moves_leaveLocked (f : Feed) (s : State) : Moves K s (leaveLocked f s) := by
  refine (moves_setFront f _ s).trans (.trans (moves_filter _ _ (map_key_map ?_ _)) (moves_abandon ..))
  intro e; split <;> rfl

theorem moves_tuneFront (f : Feed) (s : State) : Moves K s (tuneFront f s) := by
  unfold tuneFront
  split
  case h_1 => exact .refl
  case h_2 => exact moves_setFront ..
  case h_3 => exact moves_setFront ..
  case h_4 => exact (moves_setFront ..).trans (moves_leaveLocked ..)

/-! ## Acquisition -/

theorem moves_answerPending (f : Feed) (o : ReplyOutcome) (b : Bytes) (s : State) :
    Moves K s (answerPending f o b s) := by
  unfold answerPending
  split
  · rename_i tag code picked waiting
    have ended : Moves K s (s.changeAcq f (fun r => { r with pending := .none })) :=
      moves_setAcq f _ s (.of_role rfl (.inl rfl) (.inr nofun))
    have formed : Moves K s (s.changeAcq f (fun r =>
        { r with pending := .formed (.reply tag code o 0 (one (feedPosition f) ++ b)) })) := by
      refine moves_setAcq f _ s ⟨?_, fun h => .inr ⟨h, .inl rfl⟩, fun h => .inl h⟩
      intro cell h; cases h; exact .inr rfl
    exact .ite (fun room => ended.trans (moves_place _ _ (by exact room) (List.forall_mem_singleton.2 rfl)))
      fun _ => formed.trans (moves_acq ..)
  · exact .refl

theorem moves_supersede (f : Feed) (s : State) : Moves K s (supersede f s) := moves_answerPending ..

theorem moves_tellDecision (f : Feed) (s : State) : Moves K s (tellDecision f s) := by
  unfold tellDecision
  split
  · exact .single (.takeContext ..)
  · exact .refl

theorem moves_fail (f : Feed) (c : FailCause) (a : FilterAnswer) (s : State) : Moves K s (fail f c a s) := by
  have failed : Moves K s ((clearKeySlot f (removeAcqEntries f s)).changeAcq f (fun r =>
      { r with state := .failed, cause := some c, timer := none, components := [] })) :=
    (moves_clearFeed f s).trans (moves_enterAcq ..)
  have told := (failed.trans (moves_answerPending f .failed (failedResults (s.acqOf f) c a) _)).trans
    (moves_raise .feedFault _)
  exact .ite (fun _ => told.trans (moves_tellDecision ..)) fun _ => told

theorem moves_enterParked (f : Feed) (s : State) : Moves K s (enterParked f s) :=
  (moves_enterAcq ..).trans (moves_answerPending ..)

theorem moves_decisionStep (f : Feed) (s : State) : Moves K s (decisionStep f s) := by
  unfold decisionStep; dsimp only
  split
  · rename_i present
    have presenting : Moves K s (s.changeAcq f (fun r => { r with state := .presenting, timer := none })) :=
      moves_setAcq _ _ _ ⟨fun _ h => .inl h, fun _ => .inl present, fun h => .inl h⟩
    exact (presenting.trans (moves_tellDecision ..)).trans (moves_answerPending ..)
  · exact (moves_enterAcq ..).trans
      (moves_answerPending ..)

theorem moves_enterKeying (f : Feed) (s : State) : Moves K s (enterKeying f s) := by
  have keying : Moves K s (s.changeAcq f (fun r => { r with state := .keying, timer := none })) :=
    moves_enterAcq ..
  exact .ite (fun _ => keying.trans (moves_decisionStep ..)) fun _ =>
    .ite (fun _ => keying.trans (moves_startKeyWait ..)) fun _ => keying

theorem moves_enterMapping (f : Feed) (e : ChannelEntry) (s : State) : Moves K s (enterMapping f e s) := by
  have mapping : Moves K s (s.changeAcq f (fun r =>
      { r with state := .mapping, timer := some (.map, msTicks s.acq.timing.map) })) :=
    moves_enterAcq ..
  refine .ite (fun _ => mapping) fun _ => ?_
  have asked := mapping.trans (moves_requestEntries f [(e.mapStream, .sections)] _)
  split
  · rename_i h; rw [h] at asked; exact asked
  · rename_i h; rw [h] at asked; exact asked.trans (moves_fail ..)

theorem moves_afterSyncing (f : Feed) (s : State) : Moves K s (afterSyncing f s) := by
  unfold afterSyncing
  split
  · exact moves_enterMapping ..
  · exact moves_enterParked ..

theorem moves_enterSyncing (f : Feed) (s : State) : Moves K s (enterSyncing f s) := by
  have syncing : Moves K s (s.changeAcq f (fun r =>
      { r with state := .syncing, timer := some (.sync, msTicks s.acq.timing.sync) })) :=
    moves_enterAcq ..
  exact .ite (fun _ => syncing.trans (moves_afterSyncing ..)) fun _ => syncing

theorem moves_enterLocking (f : Feed) (s : State) : Moves K s (enterLocking f s) := by
  have locking : Moves K s (s.changeAcq f (fun r =>
      { r with state := .locking, timer := some (.lock, msTicks s.acq.timing.lock) })) :=
    moves_enterAcq ..
  exact .ite (fun _ => locking.trans (moves_enterSyncing ..)) fun _ => locking

theorem moves_enterTuning (f : Feed) (s : State) : Moves K s (enterTuning f s) := by
  have tuning : Moves K s (s.changeAcq f (fun r =>
      { r with state := .tuning, timer := some (.settle, msTicks s.acq.timing.settle) })) :=
    moves_enterAcq ..
  refine .ite (fun _ => ?_) fun _ => tuning
  have tuned := tuning.trans (moves_keepAcq f (fun r => { r with tunedCarrier := r.targetCarrier }) _)
  exact (tuned.trans (moves_lines ..)).trans (moves_tuneFront ..)

theorem moves_retryOrFail (f : Feed) (c : FailCause) (s : State) : Moves K s (retryOrFail f c s) :=
  .ite (fun _ => (moves_keepAcq f (fun r => { r with attempts := r.attempts + 1 }) s).trans
    (moves_enterTuning ..)) fun _ => moves_fail ..

theorem moves_deliverIndication (f : Feed) (b : Bool) (s : State) : Moves K s (deliverIndication f b s) :=
  .ite (fun _ => .ite (fun _ => moves_enterSyncing ..) fun _ => .refl) fun _ => .refl

theorem moves_enteredLocked (f : Feed) (s : State) : Moves K s (enteredLocked f s) :=
  .ite (fun _ => moves_afterSyncing ..) fun _ => .refl

theorem moves_lockLoss (f : Feed) (s : State) : Moves K s (lockLoss f s) := by
  have lost := ((moves_keepAcq (K := K) f (fun r => { r with attempts := 1 }) s).trans (moves_enterLocking f _)).trans (moves_raise .feedFault _)
  exact .ite (fun _ => lost.trans (moves_trigger _)) fun _ => lost

theorem moves_recordLeftLocked (f : Feed) (c : LeaveCause) (s : State) : Moves K s (recordLeftLocked f c s) := by
  refine .ite (fun _ => ?_) fun _ => .refl
  split
  case h_1 => exact moves_lockLoss ..
  case h_2 => exact moves_lockLoss ..
  case h_3 => exact moves_lockLoss ..
  case h_4 => exact moves_enterLocking ..
  case h_5 => exact moves_enterLocking ..
  case h_6 => exact .refl

theorem moves_leftLocked (f : Feed) (c : LeaveCause) (s : State) : Moves K s (leftLocked f c s) :=
  (moves_leaveLocked f s).trans (moves_recordLeftLocked ..)

/-! ## Programme maps -/

theorem moves_takeComponents (f : Feed) (new : List Component) (v : Nat) (s : State) :
    Moves K s (takeComponents f new v s) := by
  have taken : Moves K s (s.changeAcq f (fun r =>
      { r with components := new, version := some v, scrambled := (keyStreamOf new).isSome })) :=
    moves_keepAcq ..
  unfold takeComponents; dsimp only
  refine .trans ?_ (moves_setSlot ..)
  exact Moves.ite (fun _ => taken) fun _ => taken.trans (moves_clearKeySlot ..)

theorem moves_installComponents (f : Feed) (new : List Component) (v : Nat) (s : State) :
    Moves K s (installComponents f new v s).2 := by
  unfold installComponents; dsimp only
  have dropped : Moves K s (dropComponents f new s) := moves_removeEntries ..
  have asked := dropped.trans (moves_requestEntries f
    ((new.map Component.pair).filter (fun p => !holdsPair (dropComponents f new s) f p)) _)
  split
  · rename_i h; rw [h] at asked; exact asked.trans (moves_takeComponents ..)
  · rename_i h; rw [h] at asked; exact asked.trans (moves_fail ..)

theorem moves_mapStands (f : Feed) (s : State) : Moves K s (mapStands f s) :=
  .ite (fun _ => moves_enterKeying ..) fun _ => moves_decisionStep ..

theorem moves_mapInMapping (f : Feed) (new : List Component) (v : Nat) (s : State) :
    Moves K s (mapInMapping f new v s) := by
  refine .ite (fun _ => ?_) fun _ => moves_mapStands ..
  have installed := moves_installComponents (K := K) f new v s
  split
  · rename_i h; rw [h] at installed; exact installed.trans (moves_mapStands ..)
  · rename_i h; rw [h] at installed; exact installed

theorem moves_afterNewVersion (f : Feed) (x : AcqState) (s : State) : Moves K s (afterNewVersion f x s) := by
  unfold afterNewVersion
  split
  · exact moves_trigger s
  · exact .ite (fun _ => .ite (fun _ => moves_startKeyWait ..) fun _ => .refl) fun _ => moves_decisionStep ..
  · exact .refl

theorem moves_newMapVersion (f : Feed) (new : List Component) (v : Nat) (s : State) :
    Moves K s (newMapVersion f new v s) := by
  refine .ite (fun _ => .refl) fun _ => ?_
  have installed := moves_installComponents (K := K) f new v s
  split
  · rename_i h; rw [h] at installed; exact installed.trans (moves_afterNewVersion ..)
  · rename_i h; rw [h] at installed; exact installed

theorem moves_programmeMapSection (f : Feed) (v key : Nat) (body : Bytes) (s : State) :
    Moves K s (programmeMapSection f v key body s) := by
  unfold programmeMapSection
  split
  · exact moves_acq ..
  · exact .ite (fun _ => .ite (fun _ => moves_mapInMapping ..) fun _ => moves_newMapVersion ..)
      fun _ => moves_acq ..

/-! ## Starting and releasing -/

/-- A record begun on f with a role it may take (R92). -/
theorem moves_beginRecord (f : Feed) (role : Role) (target : Option ChannelEntry) (carrier : Nat)
    (pending : PendingReply) (s : State)
    (formed : ∀ cell, pending = .formed cell → (s.acqOf f).pending = .formed cell)
    (presenting : (s.acqOf f).state = .presenting → role = .present ∨ f ≠ presentationFeed s)
    (present : role = .present → (s.acqOf f).role = .present ∨ (s.acqOf (otherFeed f)).role ≠ .present) :
    Moves K s (beginRecord f role target carrier pending s) := by
  refine (moves_clearFeed f s).trans (moves_setAcq _ _ _ ⟨fun c h => .inl (formed c h), fun h => ?_, present⟩)
  rcases presenting h with p | p
  · exact .inl p
  · exact .inr ⟨h, .inr p⟩

theorem moves_proceed (f : Feed) (carrier : Nat) (s : State) : Moves K s (proceed f carrier s) := by
  have begun : Moves K s (s.changeAcq f (fun r => { r with attempts := 1 })) :=
    moves_keepAcq ..
  exact .ite (fun _ => begun.trans (moves_afterSyncing ..)) fun _ => begun.trans (moves_enterTuning ..)

theorem moves_releaseRecord (f : Feed) (s : State) : Moves K s (releaseRecord f s) := by
  have idle : Moves K s ((clearKeySlot f (removeAcqEntries f s)).changeAcq f (fun r =>
      { r with role := .none, state := .idle, cause := none, target := none, targetCarrier := none,
               attempts := 0, timer := none, components := [], version := none })) :=
    (moves_clearFeed f s).trans (moves_setAcq _ _ _ ⟨fun _ h => .inl h, by simp, by simp⟩)
  exact .ite (fun _ => idle.tail .removeContext) fun _ => idle

/-! ## Access unit -/

theorem moves_entitlementsBecome (es : List Entitlement) (s : State)
    (h : EntitlementsMove s.access.entitlements es) : Moves K s (entitlementsBecome es s) := by
  refine .ite (fun _ => .refl) fun _ => ?_
  have taken : Moves K s { s with access := { s.access with entitlements := es } } := .off (.access _ h)
  exact (taken.trans (moves_raise ..)).trans (moves_trigger _)

theorem moves_accessMalformed (s : State) : Moves K s (accessMalformed s) := moves_access ..

theorem moves_entitle (params : Bytes) (s : State) : Moves K s (entitle params s) := by
  refine .ite (fun _ => moves_accessMalformed s) fun _ => ?_
  split
  · rename_i h; exact moves_entitlementsBecome _ s (.entitled _ h)
  · exact moves_access ..

theorem moves_revoke (params : Bytes) (s : State) : Moves K s (revoke params s) :=
  .ite (fun _ => moves_accessMalformed s) fun _ => moves_entitlementsBecome _ s (.fewer List.filter_sublist)

theorem moves_accessRollover (day : Nat) (s : State) : Moves K s (accessRollover day s) :=
  moves_entitlementsBecome _ s (.fewer List.filter_sublist)

theorem moves_region (params : Bytes) (s : State) : Moves K s (region params s) :=
  .ite (fun _ => moves_accessMalformed s) fun _ => .ite (fun _ => .refl) fun _ =>
    (moves_access ..).trans (moves_trigger _)

theorem moves_groupAssign (params : Bytes) (s : State) : Moves K s (groupAssign params s) := by
  refine .ite (fun _ => moves_accessMalformed s) fun _ => ?_
  split
  · exact moves_access ..
  · exact moves_access ..
  · exact moves_accessMalformed s

theorem entitlements_storeGeneration (g : Generation) (a : Access) :
    (storeGeneration g a).entitlements = a.entitlements := by
  unfold storeGeneration
  split
  case h_1 => rfl
  case h_2 => split <;> rfl
  case h_3 => split <;> rfl
  case h_4 => split_ifs <;> rfl

theorem moves_serviceKey (params : Bytes) (s : State) : Moves K s (serviceKey params s) :=
  .ite (fun _ => moves_accessMalformed s) fun _ => moves_access _ s (entitlements_storeGeneration ..)

theorem moves_validWord (f : Feed) (s : State) : Moves K s (validWord f s) := by
  have stopped : Moves K s (stopKeyWait f s) := moves_setSlot ..
  have keyed : Moves K s (if ((stopKeyWait f s).acqOf f).state = .keying then decisionStep f (stopKeyWait f s)
      else stopKeyWait f s) :=
    .ite (fun _ => stopped.trans (moves_decisionStep ..)) fun _ => stopped
  exact .ite (fun _ => keyed.trans (moves_trigger _)) fun _ => keyed

theorem moves_storeWord (f : Feed) (p : Phase) (w : Bytes) (s : State) : Moves K s (storeWord f p w s) := by
  have stored : Moves K s (s.setSlot f ((s.slotOf f).setWord p (some w))) := moves_setSlot ..
  exact .ite (fun _ => stored.trans (moves_validWord ..)) fun _ => stored

theorem moves_programmeKeySection (f : Feed) (key : Nat) (body : Bytes) (s : State) :
    Moves K s (programmeKeySection f key body s) := by
  refine .ite (fun _ => moves_access ..) fun _ => ?_
  split
  · exact moves_access ..
  · refine .ite (fun _ => moves_access ..) fun _ => ?_
    split
    · exact moves_access ..
    · exact moves_storeWord ..

theorem moves_phaseChange (f : Feed) (p : Phase) (s : State) : Moves K s (phaseChange f p s) := by
  have seen : Moves K s (s.setSlot f ((s.slotOf f).seePhase p)) := moves_setSlot ..
  exact .ite (fun _ => seen.trans (moves_validWord ..)) fun _ => seen

theorem moves_keyMiss (f : Feed) (s : State) : Moves K s (keyMiss f s) := by
  have missed : Moves K s (s.setSlot f { s.slotOf f with misses := bump (s.slotOf f).misses }) := moves_setSlot ..
  exact .ite (fun _ => missed.trans (moves_startKeyWait ..)) fun _ => missed

theorem moves_keyWaitOver (f : Feed) (s : State) : Moves K s (keyWaitOver f s) := by
  refine .ite (fun _ => .trans (moves_setSlot f { s.slotOf f with wait := .expired } s) ?_) fun _ => .refl
  unfold reportExpiry
  split
  · exact moves_decisionStep ..
  · exact moves_trigger _
  · exact .refl

/-! ## Guide sections -/

theorem moves_guideCount (x : Guide) (s : State) (hc : x.channels = s.guide.channels)
    (he : x.events = s.guide.events) (hw : x.watched = s.guide.watched) (hl : x.lastEvent = s.guide.lastEvent) :
    Moves K s { s with guide := x } := by
  refine .off (.guide x hc he) ⟨rfl, hw, hl, fun c => ?_, rfl, rfl, fun _ => rfl⟩
  unfold currentEvent eventAt eventsOf
  rw [he]; rfl

/-- The records of a channel map section touch the map and two counts (R57 to R59). -/
theorem takeChannelRecord_frame (g : Guide) (r : ChannelRecord) :
    (takeChannelRecord g r).events = g.events ∧ (takeChannelRecord g r).watched = g.watched ∧
    (takeChannelRecord g r).lastEvent = g.lastEvent := by
  unfold takeChannelRecord applyChannelRecord
  split_ifs <;> exact ⟨rfl, rfl, rfl⟩

theorem foldl_takeChannelRecord_frame (rs : List ChannelRecord) (g : Guide) :
    (rs.foldl takeChannelRecord g).events = g.events ∧ (rs.foldl takeChannelRecord g).watched = g.watched ∧
    (rs.foldl takeChannelRecord g).lastEvent = g.lastEvent := by
  induction rs generalizing g with
  | nil => exact ⟨rfl, rfl, rfl⟩
  | cons r rs ih =>
    obtain ⟨he, hw, hl⟩ := ih (takeChannelRecord g r)
    obtain ⟨he', hw', hl'⟩ := takeChannelRecord_frame g r
    exact ⟨he.trans he', hw.trans hw', hl.trans hl'⟩

theorem takeChannelRecords_frame (rs : List ChannelRecord) (g : Guide) :
    (takeChannelRecords rs g).events = g.events ∧ (takeChannelRecords rs g).watched = g.watched ∧
    (takeChannelRecords rs g).lastEvent = g.lastEvent := by
  obtain ⟨he, hw, hl⟩ := foldl_takeChannelRecord_frame (rs.filter ChannelRecord.withdraws) g
  obtain ⟨he', hw', hl'⟩ := foldl_takeChannelRecord_frame (rs.filter (fun r => !r.withdraws))
    ((rs.filter ChannelRecord.withdraws).foldl takeChannelRecord g)
  exact ⟨he'.trans he, hw'.trans hw, hl'.trans hl⟩

theorem moves_channels (rs : List ChannelRecord) (s : State) :
    Moves K s { s with guide := takeChannelRecords rs s.guide } := by
  obtain ⟨he, hw, hl⟩ := takeChannelRecords_frame rs s.guide
  refine .off (.channels rs) ⟨rfl, hw, hl, fun c => ?_, rfl, rfl, fun _ => rfl⟩
  unfold currentEvent eventAt eventsOf
  dsimp only
  rw [he]; rfl

theorem moves_channelMapSection (body : Bytes) (s : State) : Moves K s (channelMapSection body s) := by
  unfold channelMapSection
  split
  · exact moves_guideCount _ s rfl rfl rfl rfl
  · rename_i rs _
    have taken := moves_channels (K := K) rs s
    have told : Moves K s (if (takeChannelRecords rs s.guide).channels = s.guide.channels then
        { s with guide := takeChannelRecords rs s.guide }
        else raise .guideChanged { s with guide := takeChannelRecords rs s.guide }) :=
      .ite (fun _ => taken) fun _ => taken.trans (moves_raise ..)
    unfold channelMapEffects; dsimp only
    split
    · exact told.tail (.refreshEntry _)
    · exact told

theorem duration_readEvent (channel : Nat) (b : Bytes) : 60 ≤ (readEvent channel b).duration := by
  simp only [readEvent, clampNat]; omega

/-- Every record read lasts 60 s or more (R62). -/
theorem duration_of_mem_readEvents (channel : Nat) : ∀ (k : Nat) (b : Bytes) (es : List EventRecord),
    readEvents channel k b = some es → ∀ e ∈ es, 60 ≤ e.duration
  | 0, [], es, h => by cases h; simp
  | 0, _ :: _, es, h => by cases h
  | k + 1, b, es, h => by
    simp only [readEvents] at h
    split at h
    · obtain ⟨xs, hx, rfl⟩ := Option.map_eq_some_iff.1 h
      intro e he
      rcases List.mem_cons.1 he with rfl | he
      · exact duration_readEvent ..
      · exact duration_of_mem_readEvents channel k _ xs hx e he
    · cases h

theorem moves_guideEventsSection (key : Nat) (body : Bytes) (s : State) :
    Moves K s (guideEventsSection key body s) := by
  unfold guideEventsSection
  split
  · exact moves_guideCount _ s rfl rfl rfl rfl
  · rename_i es h
    refine .single (.upserts es ?_)
    unfold readGuideEvents at h; dsimp only at h
    split at h
    · exact duration_of_mem_readEvents _ _ _ _ h
    · cases h

/-! ## Purchases -/

theorem moves_purchase (x : Purchase) (s : State) (h : PurchaseMove s.purchase x) :
    Moves K s { s with purchase := x } := .off (.purchase x h)

theorem moves_purchaseMalformed (s : State) : Moves K s (purchaseMalformed s) := moves_purchase _ s .malformed

theorem moves_purchaseSecond (t : Nat) (s : State) : Moves K s (purchaseSecond t s) :=
  .ite (fun _ => (moves_purchase _ s (.second t)).trans (moves_purchaseChanged ..)) fun _ => .refl

theorem beNat_lt (bs : Bytes) : beNat bs < 256 ^ bs.length := by
  have step : ∀ (bs : Bytes) (acc n : Nat), acc < n →
      bs.foldl (fun acc b => acc * 256 + b.toNat) acc < n * 256 ^ bs.length := by
    intro bs
    induction bs with
    | nil => intro acc n h; simpa using h
    | cons b bs ih =>
      intro acc n h
      have hb := b.isLt
      have := ih (acc * 256 + b.toNat) (n * 256) (by omega)
      simpa [pow_succ, Nat.mul_assoc, Nat.mul_comm, Nat.mul_left_comm] using this
  simpa [beNat] using step bs 0 1 (by omega)

theorem moves_creditLimit (params : Bytes) (s : State) : Moves K s (creditLimit params s) := by
  refine .ite (fun _ => moves_purchaseMalformed s) fun h => .ite (fun _ => .refl) fun _ => ?_
  have small := beNat_lt params
  rw [not_not.1 h] at small
  exact (moves_purchase _ s (.limited _ (by omega))).trans (moves_raise ..)

/-- A hand-over is a move of the purchase unit and of U (R142). -/
theorem moves_handOver (x : Purchase) (s : State) (h : PurchaseMove s.purchase x.handedOver) :
    Moves K s (handOver { s with purchase := x }) := by
  have moved : Moves K s { s with purchase := x.handedOver } := moves_purchase _ s h
  unfold handOver
  split
  · rename_i queue
    have : x.handedOver = { x with tx := .idle, attempts := 0, waitTimer := none } := by
      dsimp only at queue
      simp [Purchase.handedOver, queue]
    rw [this] at moved
    exact moved
  · rename_i cell rest queue
    have : x.handedOver = { x with tx := .sending, attempts := 0, waitTimer := none } := by
      dsimp only at queue
      simp [Purchase.handedOver, queue]
    rw [this] at moved
    exact moved.trans (moves_lines ..)

theorem length_reportGroups (rs : List PurchaseRecord) :
    (reportGroups rs).length = max 1 ((rs.length + 3) / 4) := by simp [reportGroups]

theorem moves_collect (params : Bytes) (s : State) : Moves K s (collect params s) := by
  refine .ite (fun _ => moves_purchaseMalformed s) fun _ => .ite (fun _ => moves_purchase _ s .ignored) fun _ => ?_
  refine moves_handOver { s.purchase with returnQueue := _ } s (.reported _ ?_)
  rw [List.length_map, length_reportGroups]
  have := List.length_filter_le (fun r : PurchaseRecord => decide (r.state = .committed)) s.purchase.records
  omega

theorem moves_clearPurchases (params : Bytes) (s : State) : Moves K s (clearPurchases params s) :=
  .ite (fun _ => moves_purchaseMalformed s) fun _ => .ite (fun _ => .refl) fun _ =>
    (moves_purchase _ s (.cleared _ _)).trans (moves_purchaseChanged ..)

theorem moves_spuriousOutcome (s : State) : Moves K s (spuriousOutcome s) := moves_purchase _ s .spurious

theorem moves_sentPulse (s : State) : Moves K s (sentPulse s) :=
  .ite (fun _ => moves_handOver { s.purchase with sent := _, returnQueue := _ } s .headSent)
    fun _ => moves_spuriousOutcome s

/-- A notice reads nothing of the purchase unit. -/
theorem raise_purchase (n : Notice) (x : Purchase) (s : State) :
    raise n { s with purchase := x } = { raise n s with purchase := x } := by
  have waits : noticeWaits { s with purchase := x } = noticeWaits s := rfl
  unfold raise reportRaise noticeSet noticeWaits freeEntries
  split_ifs <;> rfl

theorem moves_dropReturnCell (s : State) : Moves K s (dropReturnCell s) := by
  have eq : dropReturnCell s = handOver { raise .returnFailed s with purchase :=
      { s.purchase with dropped := bump s.purchase.dropped, returnQueue := s.purchase.returnQueue.tail } } :=
    congrArg handOver (raise_purchase .returnFailed _ s)
  rw [eq]
  refine (moves_raise .returnFailed s).trans (moves_handOver _ _ ?_)
  rw [purchase_raise]
  exact .headDropped

theorem moves_collidedPulse (s : State) : Moves K s (collidedPulse s) :=
  .ite (fun sending => .ite (fun h => moves_purchase _ s (.waits _ _ sending h)) fun _ => moves_dropReturnCell s)
    fun _ => moves_spuriousOutcome s

theorem moves_returnWaitOver (s : State) : Moves K s (returnWaitOver s) :=
  .ite (fun h => (moves_purchase _ s (.retried ((ranOut_iff _).1 h))).trans (moves_lines ..)) fun _ => .refl

end Sys2Proof.Machine
end

