-- ==== Sys2Proof/Proofs/MovesOfUnits.lean ====
section
/-! PROOFS. The operations of the limits unit, the clock, the sections and the resets as chains of moves. -/

namespace Sys2Proof.Machine

set_option Elab.async false

variable {K : Special → Prop}

/-! ## Limits unit -/

theorem moves_limits (x : Limits) (s : State) (h : LimitsMove s.limits x)
    (running : x.running = s.limits.running := by rfl) (active : x.active = s.limits.active := by rfl)
    (p1 : x.profile1 = s.limits.profile1 := by rfl) (p2 : x.profile2 = s.limits.profile2 := by rfl)
    (p3 : x.profile3 = s.limits.profile3 := by rfl) : Moves K s { s with limits := x } :=
  .off (.limits x h) ⟨rfl, rfl, rfl, fun _ => rfl, running, active,
    fun | 0 => rfl | 1 => p1 | 2 => p2 | 3 => p3⟩

theorem pinCheck_frame (param : Nat) (l : Limits) :
    (pinCheck param l).2.running = l.running ∧ (pinCheck param l).2.active = l.active ∧
    (pinCheck param l).2.profile1 = l.profile1 ∧ (pinCheck param l).2.profile2 = l.profile2 ∧
    (pinCheck param l).2.profile3 = l.profile3 := by
  unfold pinCheck wrongAttempt
  split
  · exact ⟨rfl, rfl, rfl, rfl, rfl⟩
  · split
    · exact ⟨rfl, rfl, rfl, rfl, rfl⟩
    · dsimp only; split_ifs <;> exact ⟨rfl, rfl, rfl, rfl, rfl⟩

theorem moves_pinCheck (param : Nat) (s : State) : Moves K s { s with limits := (pinCheck param s.limits).2 } := by
  obtain ⟨running, active, p1, p2, p3⟩ := pinCheck_frame param s.limits
  exact moves_limits _ s (.checked param) running active p1 p2 p3

theorem moves_lockoutOver (s : State) : Moves K s (lockoutOver s) :=
  .ite (fun _ => moves_limits _ s .unlocked) fun _ => .refl

theorem newPin_le {n v : Nat} (h : newPin n = some (some v)) : v ≤ 9999 := by
  unfold newPin at h
  split at h
  · cases h; assumption
  · split at h <;> cases h

theorem moves_pinReset (params : Bytes) (s : State) : Moves K s (pinReset params s) := by
  refine .ite (fun _ => moves_limits _ s .malformed) fun _ => ?_
  split
  · exact moves_limits _ s .malformed
  · rename_i pin h
    exact moves_limits _ s (.pinReset pin fun v hv => newPin_le (hv ▸ h))

/-! ## Network clock -/

/-- The current event reads the whole seconds and whether the clock is UNSET (R69). -/
theorem currentEvent_clock {x : Clock} {s : State} (state : x.state = .unset ↔ s.clock.state = .unset)
    (n : s.clock.state ≠ .unset → x.n / 1024 = s.clock.n / 1024) (c : Nat) :
    currentEvent { s with clock := x } c = currentEvent s c := by
  unfold currentEvent State.now State.seconds
  dsimp only
  by_cases h : s.clock.state = .unset
  · rw [if_pos h, if_pos (state.2 h)]
  · rw [if_neg h, if_neg (mt state.1 h), n h]

theorem moves_clock (x : Clock) (s : State) (h : ClockMove s.clock x)
    (state : x.state = .unset ↔ s.clock.state = .unset := by rfl) (n : x.n = s.clock.n := by rfl) :
    Moves K s { s with clock := x } :=
  .off (.clock x h) ⟨rfl, rfl, rfl, currentEvent_clock state (fun _ => by rw [n]), rfl, rfl, fun _ => rfl⟩

/-- A minute boundary of a clock that is not UNSET (R52). -/
theorem moves_minuteBoundary (s : State) (h : s.clock.state ≠ .unset) : Moves K s (minuteBoundary s) :=
  .ite (fun _ => .refl) fun _ => (moves_clock _ s (.minute h _)).trans (moves_windowCheck _)

theorem moves_dayRollover (s : State) : Moves K s (dayRollover s) := by
  refine .ite (fun _ => ?_) fun _ => .refl
  have credited : Moves K s { s with clock := { s.clock with creditedDay := s.day } } := moves_clock _ s (.credited _)
  exact ((credited.tail (.guideRollover _)).trans (moves_accessRollover ..)).tail .limitsRollover

theorem clock_of_undecided {s t : State} (h : undecided t = undecided s) : t.clock = s.clock :=
  (congrArg State.clock h :)

theorem undecided_purchaseSecond_clock (t : Nat) (s : State) : (purchaseSecond t s).clock = s.clock := by
  unfold purchaseSecond; dsimp only
  split
  · exact (clock_of_undecided (undecided_purchaseChanged _ _)).trans rfl
  · rfl

theorem clock_secondBoundary (step : Bool) (s : State) : (secondBoundary step s).clock = s.clock := by
  have second : (decisionSecond step (purchaseSecond s.seconds (compareWatched s))).clock = s.clock := by
    rw [clock_of_undecided (undecided_decisionSecond ..), undecided_purchaseSecond_clock,
      clock_of_undecided (undecided_compareWatched s)]
  unfold secondBoundary; dsimp only
  split
  · rw [clock_of_undecided (undecided_windowCheck _), second]
  · exact second

/-- A second boundary after its first subscriber, the watched channel's comparison (R51). -/
theorem moves_secondBoundary (step : Bool) (s : State) : Moves K (compareWatched s) (secondBoundary step s) := by
  have decided := (moves_purchaseSecond (K := K) s.seconds (compareWatched s)).trans (moves_decisionSecond step _)
  exact .ite (fun _ => decided.trans (moves_windowCheck _)) fun _ => decided

theorem evaluateBoundary_set {s : State} (h : s.clock.state ≠ .unset) (kind : Evaluation) :
    evaluateBoundary kind s = dayRollover (minuteBoundary (match kind with
      | .advance => secondBoundary false s
      | .step => secondBoundary true s
      | .offset => s)) := by
  unfold evaluateBoundary
  exact (if_neg h).trans (by cases kind <;> rfl)

/-- A boundary evaluation of the advance or step kind, after the watched channel's comparison (R50, R51). -/
theorem moves_evaluateBoundary {s : State} (h : s.clock.state ≠ .unset) {kind : Evaluation}
    (second : kind ≠ .offset) : Moves K (compareWatched s) (evaluateBoundary kind s) := by
  have made (step : Bool) : Moves K (compareWatched s) (dayRollover (minuteBoundary (secondBoundary step s))) :=
    ((moves_secondBoundary step s).trans (moves_minuteBoundary _ (by rwa [clock_secondBoundary]))).trans
      (moves_dayRollover _)
  rw [evaluateBoundary_set h]
  cases kind with
  | advance => exact made false
  | step => exact made true
  | offset => exact absurd rfl second

theorem moves_offsetBoundary {s : State} (h : s.clock.state ≠ .unset) : Moves K s (evaluateBoundary .offset s) := by
  rw [evaluateBoundary_set h]
  exact (moves_minuteBoundary s h).trans (moves_dayRollover _)

/-- Time that brings no second boundary, or runs while the clock is UNSET, changes no current event (R47, R69). -/
theorem sameView_advanced {s : State}
    (h : s.clock.advanced.n / 1024 = s.clock.n / 1024 ∨ s.clock.state = .unset) :
    SameView s { s with clock := s.clock.advanced } :=
  ⟨rfl, rfl, rfl, currentEvent_clock Iff.rfl (fun set => h.resolve_right set), rfl, rfl, fun _ => rfl⟩

theorem moves_advanceClock (hk : K .time) (s : State) : Moves K s (advanceClock s) := by
  refine .ite (fun same => .off (.advance hk) (sameView_advanced (.inl same))) fun _ => ?_
  by_cases unset : s.clock.state = .unset
  · have quiet : evaluateBoundary .advance { s with clock := s.clock.advanced } =
        { s with clock := s.clock.advanced } := if_pos unset
    rw [quiet]
    exact .off (.advance hk) (sameView_advanced (.inr unset))
  · exact .head (.advance hk) (moves_evaluateBoundary (s := { s with clock := s.clock.advanced }) unset (by decide))

theorem moves_advanceClockBy (hk : K .time) (k : Nat) (s : State) : Moves K s (advanceClockBy k s) := by
  induction k generalizing s with
  | zero => exact .refl
  | succ k ih => exact (moves_advanceClock hk s).trans (ih _)

theorem moves_tickTimers (s : State) : Moves K s (tickTimers s) := by
  have loss := moves_clock (K := K) _ s .ticked
  have record0 := loss.trans (moves_setAcq .f0 s.acq.record.f0.ticked _ (.of_role rfl (.inl rfl) (.inl rfl)))
  have record1 := record0.trans (moves_setAcq .f1 s.acq.record.f1.ticked _ (.of_role rfl (.inl rfl) (.inl rfl)))
  have slot0 := record1.trans (moves_setSlot .f0 s.access.keySlot.f0.ticked _)
  have slot1 := slot0.trans (moves_setSlot .f1 s.access.keySlot.f1.ticked _)
  have wait := slot1.trans (moves_purchase _ _ .ticked)
  have lockout := wait.trans (moves_limits _ _ .ticked)
  have part := lockout.trans (moves_limits _ _ (.part
    (if s.limits.running then min (s.limits.part + advanceTicks) secondTicks else s.limits.part)))
  exact part.trans (Moves.off (.output { s.output with priming := tickTimer s.output.priming } rfl))

theorem moves_clockAdvance (hk : K .time) (s : State) : Moves K s (clockAdvance s) :=
  .ite (fun _ => .refl) fun _ => .ite (fun _ => (moves_tickTimers s).trans (moves_advanceClock hk _))
    fun _ => moves_advanceClock hk s

theorem moves_lossTimerOver (s : State) : Moves K s (lossTimerOver s) :=
  .ite (fun h => .single (.lost ((ranOut_iff _).1 h))) fun _ => .refl

theorem moves_applyStep (hk : K .time) (b : Bytes) (src : MarkSource) (s : State) :
    Moves K s (applyStep (readMark b src) s) := by
  have eq : applyStep (readMark b src) s = evaluateBoundary .step (stepTo (readMark b src) s) := rfl
  rw [eq]
  refine .head (.step hk b src) (moves_evaluateBoundary ?_ (by decide))
  unfold stepTo
  rw [clock_of_undecided (undecided_raise ..)]
  exact nofun

theorem Clock.state_slewed (c : Clock) (m : Mark) : (c.slewed m).state = .set := rfl

theorem Clock.n_slewed (c : Clock) (m : Mark) : (c.slewed m).n = c.n := by
  unfold Clock.slewed Clock.marked; rfl

theorem applySlew_eq (m : Mark) (s : State) : applySlew m s =
    if m.offset = s.clock.offset then { s with clock := s.clock.slewed m }
    else evaluateBoundary .offset { s with clock := s.clock.slewed m } := rfl

theorem moves_applySlew (b : Bytes) (src : MarkSource) {s : State} (h : s.clock.state ≠ .unset) :
    Moves K s (applySlew (readMark b src) s) := by
  have move : ClockMove s.clock (s.clock.slewed (readMark b src)) := .slewed h b src
  rw [applySlew_eq]
  generalize readMark b src = m at move ⊢
  have set : (s.clock.slewed m).state ≠ .unset := by rw [Clock.state_slewed]; decide
  have slewed := moves_clock (K := K) _ s move (iff_of_false set h) (Clock.n_slewed _ m)
  exact .ite (fun _ => slewed) fun _ => slewed.trans (moves_offsetBoundary set)

theorem moves_applyMark (hk : K .time) (b : Bytes) (src : MarkSource) (s : State) :
    Moves K s (applyMark (readMark b src) s) := by
  unfold applyMark
  split
  · exact moves_applyStep hk ..
  · exact moves_applyStep hk ..
  · rename_i h
    refine moves_applySlew b src fun unset => ?_
    simp [markKind, unset] at h

/-! ## Sections -/

theorem moves_assemblerCount (x : Assembler) (s : State) (h : x.buffers = s.assembler.buffers := by rfl) :
    Moves K s { s with assembler := x } := moves_fewerBuffers x s (by rw [h])

theorem moves_managementSection (body : Bytes) (s : State) : Moves K s (managementSection body s) := by
  have fate (x : MessageFate) : Moves K s (takeFate x s) := by
    cases x with
    | malformed => exact moves_assemblerCount ..
    | notAddressed => exact .refl
    | unknownKind => exact moves_assemblerCount ..
    | noKey => exact moves_assemblerCount ..
    | integrityFailure => exact moves_assemblerCount ..
    | taken kind params =>
      cases kind with
      | entitle => exact moves_entitle ..
      | revoke => exact moves_revoke ..
      | region => exact moves_region ..
      | groupAssign => exact moves_groupAssign ..
      | serviceKey => exact moves_serviceKey ..
      | creditLimit => exact moves_creditLimit ..
      | collect => exact moves_collect ..
      | clear => exact moves_clearPurchases ..
      | pinReset => exact moves_pinReset ..
  unfold managementSection
  split
  · exact fate _
  · exact fate _

/-- The cells of an answer are REPLY cells (R182). -/
theorem isNotice_replyCells (tag code : Byte) (o : ReplyOutcome) (results : Bytes) :
    ∀ c ∈ replyCells tag code o results, c.isNotice = false := by
  intro c h
  unfold replyCells at h
  obtain ⟨i, _, rfl⟩ := List.mem_mapIdx.1 h
  rfl

theorem moves_tapSection (f : Feed) (stream : Nat) (b : Bytes) (s : State) : Moves K s (tapSection f stream b s) := by
  unfold tapSection
  split
  · exact .refl
  · refine .ite (fun room => moves_place _ s room (isNotice_replyCells _ _ _ _)) fun _ =>
      moves_filter _ s (map_key_map (fun e => ?_) _)
    split <;> rfl

theorem moves_handOn (f : Feed) (b : Bytes) (s : State) : Moves K s (handOn f b s) := by
  unfold handOn; dsimp only
  split
  · exact moves_channelMapSection ..
  · exact moves_programmeMapSection ..
  · exact moves_guideEventsSection ..
  · exact moves_managementSection ..
  · exact moves_programmeKeySection ..
  · exact .refl

theorem moves_completeSection (f : Feed) (stream : Nat) (consumer : Consumer) (b : Bytes) (s : State) :
    Moves K s (completeSection f stream consumer b s) :=
  .ite (fun _ => .ite (fun _ => moves_tapSection ..) fun _ => moves_handOn ..) fun _ => moves_assemblerCount ..

theorem moves_beginSection (f : Feed) (e : FilterEntry) (c : Cell) (s : State) :
    Moves K s (beginSection f e c s) := by
  refine .ite (fun _ => .refl) fun _ => .ite (fun _ => moves_assemblerCount ..) fun _ =>
    .ite (fun _ => moves_assemblerCount ..) fun _ => .ite (fun _ => moves_assemblerCount ..) fun _ =>
    .ite (fun _ => moves_assemblerCount ..) fun room => ?_
  refine .ite (fun _ => moves_completeSection ..) fun _ => .off (.assembler _ ?_)
  simp only [List.length_append, List.length_singleton]
  omega

theorem moves_continueSection (f : Feed) (stream : Nat) (c : Cell) (s : State) :
    Moves K s (continueSection f stream c s) := by
  unfold continueSection
  split
  · exact .refl
  · exact .ite (fun _ => moves_abandon ..) fun _ => .ite
      (fun _ => .trans (moves_fewerBuffers _ s (List.length_filter_le ..)) (moves_completeSection ..))
      fun _ => moves_fewerBuffers _ s (by simp)

theorem moves_sectionCell (f : Feed) (e : FilterEntry) (c : Cell) (s : State) : Moves K s (sectionCell f e c s) :=
  .ite (fun _ => (moves_abandon ..).trans (moves_beginSection ..)) fun _ => moves_continueSection ..

/-! ## Feed fronts

A cell that a front hands on ends in at most one of two special ways: through the open gate, or as a mark on the clock. -/

/-- What a feed row makes of s: moves, and after them at most one programme cell through the open gate of f, or one mark
applied. -/
inductive Handled (K : Special → Prop) (f : Feed) (s : State) : State → Prop
  | plain {t : State} (h : Moves K s t) : Handled K f s t
  | gated {u : State} (h : Moves K s u) (c : Cell) (clear : c.phase = none) (opened : gateOpen u f = true) :
      Handled K f s (enqueueProgramme c u)
  | marked {u : State} (h : Moves K s u) (b : Bytes) (src : MarkSource) :
      Handled K f s (applyMark (readMark b src) u)

theorem Handled.after {f : Feed} {s u t : State} (h : Handled K f u t) (first : Moves K s u) : Handled K f s t := by
  cases h with
  | plain h => exact .plain (first.trans h)
  | gated h c clear opened => exact .gated (first.trans h) c clear opened
  | marked h b src => exact .marked (first.trans h) b src

theorem Handled.ite {c : Prop} [Decidable c] {f : Feed} {s t u : State} (h : c → Handled K f s t)
    (h' : ¬ c → Handled K f s u) : Handled K f s (if c then t else u) := by
  split
  · exact h ‹_›
  · exact h' ‹_›

theorem moves_outputCount (x : Output) (s : State) (hq : x.queue = s.output.queue := by rfl)
    (hc : x.context = s.output.context := by rfl) : Moves K s { s with output := x } :=
  .off (.output x hq) ⟨hc, rfl, rfl, fun _ => rfl, rfl, rfl, fun _ => rfl⟩

theorem moves_enqueueProgramme (hk : K .gate) (c : Cell) (clear : c.phase = none) (s : State) :
    Moves K s (enqueueProgramme c s) := by
  refine .ite (fun h => ?_) fun _ => moves_outputCount ..
  simp only [Bool.and_eq_true, decide_eq_true_eq] at h
  have entered : Moves K s { s with output := { s.output with queue := s.output.queue ++ [.programme c] } } :=
    .off (.enqueue hk c clear h.1 h.2)
  exact .ite (fun _ => entered.trans (moves_outputCount ..)) fun _ => entered

theorem Handled.moves {f : Feed} {s t : State} (hg : K .gate) (ht : K .time) (h : Handled K f s t) : Moves K s t := by
  cases h with
  | plain h => exact h
  | gated h c clear _ => exact h.trans (moves_enqueueProgramme hg c clear _)
  | marked h b src => exact h.trans (moves_applyMark ht b src _)

theorem handled_outputGate (f : Feed) (c : Cell) (clear : c.phase = none) (s : State) :
    Handled K f s (outputGate f c s) :=
  .ite (fun opened => .gated .refl c clear opened) fun _ => .plain (moves_outputCount ..)

theorem handled_descramble (f : Feed) (c : Cell) (s : State) : Handled K f s (descramble f c s) := by
  unfold descramble
  split
  · rename_i clear; exact handled_outputGate f c clear s
  · dsimp only
    split
    · exact (handled_outputGate f _ rfl _).after (moves_phaseChange ..)
    · exact .plain ((moves_phaseChange ..).trans (moves_keyMiss ..))

theorem handled_timeCell (f : Feed) (payload : Bytes) (s : State) : Handled K f s (timeCell f payload s) :=
  .ite (fun _ => .plain (moves_clock _ s .short)) fun _ => .ite (fun _ => .marked .refl _ _)
    fun _ => .plain (moves_clock _ s .ignored)

theorem moves_filterCount (x : Filter) (s : State) (h : x.entries = s.filter.entries := by rfl) :
    Moves K s { s with filter := x } := moves_filter x s (by rw [h])

theorem handled_routeCell (f : Feed) (e : FilterEntry) (c : Cell) (s : State) :
    Handled K f s (routeCell f e c s) := by
  unfold routeCell
  split
  case h_1 => exact handled_descramble ..
  case h_2 => exact .plain (moves_sectionCell ..)
  case h_3 => exact .plain (moves_sectionCell ..)
  case h_4 => exact .ite (fun _ => handled_timeCell ..) fun _ => .plain (moves_filterCount ..)
  case h_5 => exact .plain (moves_filterCount ..)

theorem moves_moveExpectation (f : Feed) (stream c : Nat) (isGap : Bool) (s : State) :
    Moves K s (moveExpectation f stream c isGap s) :=
  moves_filter _ s (map_key_map (fun e => by split <;> rfl) _)

theorem handled_filterCell (f : Feed) (c : Cell) (s : State) : Handled K f s (filterCell f c s) := by
  unfold filterCell
  split
  · exact .plain (moves_filterCount ..)
  · unfold matchedCell
    split
    · exact .plain .refl
    · exact (handled_routeCell ..).after (moves_moveExpectation ..)
    · exact (handled_routeCell ..).after ((moves_moveExpectation ..).trans (moves_abandon ..))

theorem moves_goDown (f : Feed) (c : LeaveCause) (s : State) : Moves K s (goDown f c s) := by
  have down : Moves K s (s.setFront f { s.frontOf f with sync := .down, position := 0, slot := none, held := [] }) :=
    moves_setFront ..
  exact .ite (fun _ => down.trans (moves_leftLocked ..)) fun _ => down

theorem moves_reworkLock (f : Feed) (s : State) : Moves K s (reworkLock f s) :=
  .ite (fun _ => .ite (fun _ => moves_setFront ..) fun _ => .refl) fun _ => .ite (fun _ => .refl)
    fun _ => moves_goDown ..

theorem moves_relock (f : Feed) (g : State → State) (s : State) (h : Moves K s (g s)) : Moves K s (relock f g s) :=
  (h.trans (moves_reworkLock ..)).trans (moves_deliverIndication ..)

theorem moves_lockLineChange (f : Feed) (high : Bool) (s : State) : Moves K s (lockLineChange f high s) := by
  have set : Moves K s (setLockLine f high s) := moves_lines ..
  exact .ite (fun _ => moves_relock f _ s set) fun _ => set

theorem handled_checkCell (f : Feed) (slot : List FeedByte) (s : State) : Handled K f s (checkCell f slot s) := by
  unfold checkCell; dsimp only
  split
  · exact .plain (moves_setFront ..)
  · exact .plain (moves_setFront ..)
  · exact .plain .refl
  · exact .plain (moves_setFront ..)
  · exact (handled_filterCell ..).after (moves_setFront ..)

theorem moves_enterLocked (f : Feed) (s : State) : Moves K s (enterLocked f s) :=
  ((moves_setFront ..).trans (moves_enteredLocked ..)).trans (moves_deliverIndication ..)

theorem moves_confirmSlot (f : Feed) (n : Fin 3) (slot : List FeedByte) (s : State) :
    Moves K s (confirmSlot f n slot s) := by
  refine .ite (fun _ => ?_) fun _ => moves_setFront ..
  split
  · exact moves_setFront ..
  · exact moves_setFront ..
  · exact moves_enterLocked ..

theorem moves_badSlot (f : Feed) (b : Fin 3) (slot : List FeedByte) (s : State) : Moves K s (badSlot f b slot s) := by
  unfold badSlot; dsimp only
  split
  · exact moves_setFront ..
  · exact moves_setFront ..
  · exact (moves_setFront ..).trans (moves_leftLocked ..)

theorem handled_lockedSlot (f : Feed) (b : Fin 3) (slot : List FeedByte) (s : State) :
    Handled K f s (lockedSlot f b slot s) :=
  .ite (fun _ => (handled_checkCell ..).after (moves_setFront ..)) fun _ => .plain (moves_badSlot ..)

theorem handled_slotByte (f : Feed) (b : FeedByte) (whole : List FeedByte → State → State) (s : State)
    (h : ∀ slot, Handled K f s (whole slot s)) : Handled K f s (slotByte f b whole s) :=
  .ite (fun _ => .plain (moves_setFront ..)) fun _ => .ite (fun _ => .plain (moves_setFront ..)) fun _ => h _

theorem handled_feedByte (f : Feed) (b : FeedByte) (s : State) : Handled K f s (feedByte f b s) := by
  refine .ite (fun _ => ?_) fun _ => .plain .refl
  unfold takeByte
  split
  · exact .plain .refl
  · exact .plain (moves_setFront ..)
  · exact handled_slotByte _ _ _ _ fun _ => .plain (moves_confirmSlot ..)
  · exact handled_slotByte _ _ _ _ fun _ => handled_lockedSlot ..

theorem moves_feedBytes (hg : K .gate) (ht : K .time) (f : Feed) (bs : List FeedByte) (s : State) :
    Moves K s (feedBytes f bs s) := by
  induction bs generalizing s with
  | nil => exact .refl
  | cons b bs ih => exact ((handled_feedByte f b s).moves hg ht).trans (ih _)

theorem moves_confirmSlotRow (hg : K .gate) (ht : K .time) (f : Feed) (bs : List FeedByte) (s : State) :
    Moves K s (confirmSlotRow f bs s) := by
  unfold confirmSlotRow
  split
  · exact .ite (fun _ => moves_confirmSlot ..) fun _ => moves_feedBytes hg ht f bs s
  · exact moves_feedBytes hg ht f bs s

theorem moves_lockedSlotRow (hg : K .gate) (ht : K .time) (f : Feed) (bs : List FeedByte) (s : State) :
    Moves K s (lockedSlotRow f bs s) := by
  unfold lockedSlotRow
  split
  · exact .ite (fun _ => (handled_lockedSlot ..).moves hg ht) fun _ => moves_feedBytes hg ht f bs s
  · exact moves_feedBytes hg ht f bs s

theorem moves_disableFeed (f : Feed) (s : State) : Moves K s (disableFeed f s) := by
  have disabled : Moves K s (setEnable f false s) := moves_setFront ..
  have released := (disabled.trans (moves_goDown f .disable _)).trans (moves_releaseRecord f _)
  have cleared := released.trans (moves_removeEntries f (fun e => e.owner = .fixed) _)
  exact Relation.ReflTransGen.trans (cleared.trans (moves_setFront ..)) (moves_lines ..)

theorem moves_enableFeed (f : Feed) (s : State) : Moves K s (enableFeed f s) :=
  moves_relock f _ s ((moves_addEntries ..).trans (moves_setFront ..))

theorem moves_configureEnable (f : Feed) (asked : Bool) (s : State) : Moves K s (configureEnable f asked s) := by
  unfold configureEnable
  split
  · exact moves_disableFeed ..
  · exact moves_enableFeed ..
  · exact .refl

end Sys2Proof.Machine
end

