-- ==== Sys2Proof/Proofs/MovesOfResets.lean ====
section
/-! PROOFS. The resets and start-up (R16 to R21) as chains of moves. -/

namespace Sys2Proof.Machine

set_option Elab.async false

variable {K : Special → Prop}

/-! ## Resets and start-up -/

theorem moves_makeFixedEntries (s : State) : Moves K s (makeFixedEntries s) := by
  have made (f : Feed) (s : State) :
      Moves K s (if (s.frontOf f).enabled then addEntries (fixedEntries f) s else s) :=
    .ite (fun _ => moves_addEntries ..) fun _ => .refl
  exact (made .f0 s).trans (made .f1 _)

theorem moves_takeUpWork (s : State) : Moves K s (takeUpWork s) :=
  ((moves_makeFixedEntries s).trans ((moves_reworkLock ..).trans (moves_reworkLock ..))).trans
    (moves_evaluateStanding _)

theorem moves_softReset (hk : K .soft) (s : State) : Moves K s (softReset s) :=
  .head (.soft hk) (moves_takeUpWork _)

/-- A change of the Command Unit outside its queues and its reservation. -/
theorem moves_command (x : CommandUnit) (s : State) (intake : x.intake = s.command.intake := by rfl)
    (queue : x.replyQueue = s.command.replyQueue := by rfl) (reserved : x.reserved = s.command.reserved := by rfl)
    (held : x.heldReply = s.command.heldReply := by rfl)
    (notice : x.noticePending = s.command.noticePending := by rfl) : Moves K s { s with command := x } :=
  .off (.command x (by rw [intake]; omega) queue reserved held notice)

theorem moves_coldIfUnmarked (s : State) : Moves K s (coldIfUnmarked s) :=
  .ite (fun _ => .refl) fun _ => .single (.coldRetained 0)

theorem moves_standbyLevel (good : Bool) (s : State) : Moves K s (standbyLevel good s) :=
  Relation.ReflTransGen.trans (moves_lines { s.lines with standbyGood := good } s)
    (moves_command { s.command with retainedValid := s.command.retainedValid && good } _)

theorem moves_resetLine (asserted : Bool) (s : State) : Moves K s (resetLine asserted s) := moves_lines ..

theorem moves_enterStarting (hk : K .warm) (s : State) : Moves K s (enterStarting s) :=
  .head (.warm hk) (moves_coldIfUnmarked _)

theorem moves_powerOn (hk : K .warm) (asserted good : Bool) (s : State) : Moves K s (powerOn asserted good s) :=
  ((moves_resetLine ..).trans (moves_standbyLevel ..)).trans (moves_enterStarting hk _)

theorem moves_assertReset (hk : K .warm) (s : State) : Moves K s (assertReset s) :=
  (moves_resetLine ..).trans (moves_enterStarting hk _)

theorem moves_standbyFall (s : State) : Moves K s (standbyFall s) :=
  .ite (fun _ => moves_standbyLevel ..) fun _ => (moves_standbyLevel ..).trans (moves_coldIfUnmarked _)

theorem moves_sampleStrap (present : Bool) (s : State) : Moves K s (sampleStrap present s) :=
  .trans (.single (.atom (.strap present) ⟨rfl, rfl, rfl, fun _ => rfl, rfl, rfl, fun _ => rfl⟩)) (moves_setFront ..)

theorem moves_readMemory (b : Bytes) (s : State) : Moves K s (readMemory b s) :=
  .ite (fun _ => moves_command ..) fun _ =>
    .trans (moves_command { s.command with memory := .failed, unitAddress := 0 } s) (moves_raise ..)

theorem moves_classStart (region : Nat) (s : State) : Moves K s (classStart region s) :=
  .ite (fun _ => moves_command ..) fun _ => .head (.coldRetained region)
    (moves_command { (coldRetained region s).command with startKind := .cold } _)

theorem moves_goReady (s : State) : Moves K s (goReady s) := moves_command ..

theorem moves_startUp (hk : K .time) (i : StartInputs) (s : State) : Moves K s (startUp i s) := by
  refine .ite (fun _ => .refl) fun _ => ?_
  have counted := (moves_resetLine (K := K) false s).trans (moves_advanceClockBy hk i.advances _)
  have read := (counted.trans (moves_sampleStrap i.strapPresent _)).trans (moves_readMemory (memoryBytes i.memory) _)
  have classed := (read.trans (moves_standbyLevel i.standbyGood _)).trans
    (moves_classStart (factoryRegion (memoryBytes i.memory)) _)
  exact (classed.trans (moves_goReady _)).trans (moves_takeUpWork _)


end Sys2Proof.Machine
end

