-- ==== Sys2Proof/Proofs/MovesAreAtoms.lean ====
section
/-! PROOFS. Every move is a chain of atoms, so a law that each atom keeps is kept by each chain of moves. -/

namespace Sys2Proof.Machine

set_option Elab.async false

variable {K : Special → Prop}

/-! ## Each move is a chain of atoms -/

theorem Atoms.ite {c : Prop} [Decidable c] {s t u : State} (h : c → Atoms K s t) (h' : ¬ c → Atoms K s u) :
    Atoms K s (if c then t else u) := by
  split
  · exact h ‹_›
  · exact h' ‹_›

theorem atoms_raise (n : Notice) (s : State) : Atoms K s (raise n s) := .single (.raise n)

theorem atoms_output (x : Output) (s : State) (h : x.queue = s.output.queue := by rfl) :
    Atoms K s { s with output := x } := .single (.output x h)

theorem atoms_limits (x : Limits) (s : State) (h : LimitsMove s.limits x) : Atoms K s { s with limits := x } :=
  .single (.limits x h)

theorem atoms_guide (x : Guide) (s : State) (hc : x.channels = s.guide.channels := by rfl)
    (he : x.events = s.guide.events := by rfl) : Atoms K s { s with guide := x } := .single (.guide x hc he)

theorem atoms_evaluateMeter (s : State) : Atoms K s (evaluateMeter s) := by
  have started : Atoms K s { s with limits := { s.limits with running := true } } := atoms_limits _ s (.running _)
  exact .ite (fun _ => .ite (fun _ => .refl) fun _ => .ite (fun _ => started.trans (atoms_raise ..)) fun _ => started)
    fun _ => atoms_limits _ s (.running _)

theorem atoms_evaluateStanding (s : State) : Atoms K s (evaluateStanding s) := atoms_limits _ s (.standing _)

theorem atoms_placeMarker (m : Marker) (s : State) : Atoms K s (placeMarker m s) :=
  .ite (fun _ => atoms_output ..) fun _ => .ite
    (fun room => .single (.place _ room (List.forall_mem_singleton.2 rfl))) fun _ => atoms_output ..

theorem atoms_announce (c : Nat) (d : Decision) (r : Reason) (moved : Bool) (s : State) :
    Atoms K s (announce c d r moved s) := by
  have flushed : Atoms K s (if d = .deny || moved then flushProgramme s else s) :=
    .ite (fun _ => .single .flush) fun _ => .refl
  have changed := flushed.trans (atoms_raise .accessChanged _)
  have offered : Atoms K s (if d = .deny && r = .offer then
      raise .offer (raise .accessChanged (if d = .deny || moved then flushProgramme s else s))
      else raise .accessChanged (if d = .deny || moved then flushProgramme s else s)) :=
    .ite (fun _ => changed.trans (atoms_raise ..)) fun _ => changed
  have marked := offered.trans (atoms_placeMarker ⟨c, d, r⟩ _)
  exact .ite (fun _ => Relation.ReflTransGen.trans marked (atoms_output ..))
    fun _ => Relation.ReflTransGen.trans marked (atoms_output ..)

theorem atoms_settle (c : Context) (v : Verdict) (created moved : Bool) (s : State) :
    Atoms K s (settle c v created moved s) := by
  have set (x : Option Context) : Atoms K s { s with output := { s.output with context := x } } := atoms_output ..
  refine Relation.ReflTransGen.trans ?_ (atoms_evaluateMeter _)
  exact Atoms.ite (fun _ => (set _).trans (atoms_announce ..)) fun _ =>
    .ite (fun _ => (set _).trans (atoms_raise ..)) fun _ => set _

theorem atoms_trigger (s : State) : Atoms K s (trigger s) := by
  unfold trigger
  split
  · exact .refl
  · exact .ite (fun _ => .refl) fun _ => atoms_settle ..

theorem atoms_takeContext (f : Feed) (e : ChannelEntry) (s : State) : Atoms K s (takeContext f e s) := by
  have set (x : Option Context) : Atoms K s { s with output := { s.output with context := x } } := atoms_output ..
  have watched (x : State) : Atoms K x (watch e.number x) := atoms_guide ..
  unfold takeContext
  split
  · exact ((set _).trans (watched _)).trans (atoms_settle ..)
  · refine Relation.ReflTransGen.trans ?_ (atoms_settle ..)
    exact Atoms.ite (fun _ => set _) fun _ => (set _).trans (watched _)

theorem atoms_setChanging (s : State) : Atoms K s (setChanging s) := by
  unfold setChanging
  split
  · exact .refl
  · exact .ite (fun _ => .refl) fun _ => atoms_settle ..

theorem atoms_removeContext (s : State) : Atoms K s (removeContext s) := by
  unfold removeContext
  split
  · exact .refl
  · rename_i c _
    have removed := Relation.ReflTransGen.trans (atoms_announce (K := K) c.channel .deny .ended false s)
      (atoms_output { (announce c.channel .deny .ended false s).output with context := none } _)
    exact (removed.trans (atoms_guide _ _)).trans (atoms_evaluateMeter _)

theorem atoms_refreshEntry (e : ChannelEntry) (s : State) : Atoms K s (refreshEntry e s) := by
  unfold refreshEntry
  split
  · exact .refl
  · exact .trans (atoms_output _ s) (atoms_trigger _)

theorem atoms_compareWatched (s : State) : Atoms K s (compareWatched s) := by
  unfold compareWatched
  split
  · exact .refl
  · exact .ite (fun _ => .refl) fun _ => .trans (.trans (atoms_raise .eventChanged s) (atoms_guide _ _)) (atoms_trigger _)

theorem atoms_upserted (es : List EventRecord) (h : ∀ e ∈ es, 60 ≤ e.duration) (s : State) :
    Atoms K s (upserted es s) := by
  have fold (now : Option Nat) : ∀ (es : List EventRecord), (∀ e ∈ es, 60 ≤ e.duration) → ∀ s : State,
      Atoms K s { s with guide := es.foldl (upsert now) s.guide } := by
    intro es
    induction es with
    | nil => exact fun _ s => .refl
    | cons e es ih =>
      intro h s
      obtain ⟨he, hes⟩ := List.forall_mem_cons.1 h
      exact .head (.events _ (.upserted now e he)) (ih hes { s with guide := upsert now s.guide e })
  have taken := fold s.now es h s
  exact .ite (fun _ => taken) fun _ => taken.trans (atoms_raise ..)

theorem atoms_guideRollover (d : Int) (s : State) : Atoms K s (guideRollover d s) := by
  refine .ite (fun _ => .refl) fun _ => ?_
  have removed : Atoms K s { s with guide := { s.guide with
      events := s.guide.events.filter (fun e => d < (e.ends : Int))
      rolloverRemovals := bumpBy (s.guide.events.length - (s.guide.events.filter (fun e => d < (e.ends : Int))).length)
        s.guide.rolloverRemovals } } := .single (.events _ (.removed _ _))
  exact (removed.trans (atoms_raise ..)).trans (atoms_compareWatched _)

/-- The standing, the meter and the decision are worked out again (R153, R156). -/
theorem atoms_reevaluate (s : State) : Atoms K s (trigger (evaluateMeter (evaluateStanding s))) :=
  ((atoms_evaluateStanding s).trans (atoms_evaluateMeter _)).trans (atoms_trigger _)

theorem atoms_switchProfile (p : Fin 4) (s : State) : Atoms K s (switchProfile p s) := by
  refine .ite (fun _ => .refl) fun _ => ?_
  have active := atoms_limits (K := K) _ s (.active p)
  exact (active.trans (atoms_limits _ _ (.part 0))).trans (atoms_reevaluate _)

theorem atoms_afterProfileWrite (p : Fin 4) (x : ProfileParams) (h : x.allowance ≤ 1440) (s : State) : Atoms K s
    (afterProfileWrite p { s with limits := setProfile s.limits p ((profileOf s.limits p).written x) }) := by
  have written := atoms_limits (K := K) _ s (.written p x h)
  exact .ite (fun _ => written.trans (atoms_reevaluate _)) fun _ => written

theorem atoms_limitsRollover (s : State) : Atoms K s (limitsRollover s) := by
  have restored := (atoms_limits (K := K) _ s .restored).trans (atoms_limits _ _ (.part 0))
  exact (restored.trans (atoms_evaluateMeter _)).trans (atoms_trigger _)

theorem atoms_meterSecond (s : State) : Atoms K s (meterSecond s) := by
  refine .ite (fun _ => ?_) fun _ => .refl
  have spent := atoms_limits (K := K) _ s .spent
  exact .ite (fun _ => ((spent.trans (atoms_evaluateMeter _)).trans (atoms_raise ..)).trans (atoms_trigger _))
    fun _ => .ite (fun _ => spent.trans (atoms_raise ..)) fun _ => spent

theorem atoms_coldRetained (region : Nat) (s : State) : Atoms K s (coldRetained region s) := by
  have clock : Atoms K s { s with clock := { s.clock with creditedDay := 0 } } := .single (.clock _ (.credited 0))
  have access := Relation.ReflTransGen.tail clock (.access (State.coldAccess region) (.fewer (List.nil_sublist _)))
  exact (access.tail (.purchase _ .cold)).tail (.limits _ .cold)

theorem Move.atoms {s t : State} (h : Move K s t) : Atoms K s t := by
  cases h with
  | atom h _ => exact .single h
  | trigger => exact atoms_trigger s
  | takeContext f e => exact atoms_takeContext f e s
  | setChanging => exact atoms_setChanging s
  | removeContext => exact atoms_removeContext s
  | refreshEntry e => exact atoms_refreshEntry e s
  | lost h => exact .single (.clock _ (.lost h))
  | advance hk => exact .head (.advance hk) (atoms_compareWatched _)
  | step hk b src => exact .head (.step hk b src) ((atoms_raise ..).trans (atoms_compareWatched _))
  | upserts es h => exact (atoms_upserted es h s).trans (atoms_compareWatched _)
  | guideRollover d => exact atoms_guideRollover d s
  | switchProfile p => exact atoms_switchProfile p s
  | writeProfile p x h => exact atoms_afterProfileWrite p x h s
  | limitsRollover => exact atoms_limitsRollover s
  | meterSecond => exact atoms_meterSecond s
  | coldRetained region => exact atoms_coldRetained region s
  | warm hk => exact .single (.warm hk)
  | soft hk => exact .single (.soft hk)

theorem Moves.atoms {s t : State} (h : Moves K s t) : Atoms K s t := by
  induction h with
  | refl => exact .refl
  | tail _ h ih => exact ih.trans h.atoms

/-- What every atom keeps holds after a chain of moves. -/
theorem Moves.kept {s t : State} (h : Moves K s t) {P : State → Prop} (hs : P s)
    (keep : ∀ s t, Atom K s t → P s → P t) : P t := by
  have atoms := h.atoms
  clear h
  induction atoms with
  | refl => exact hs
  | tail _ h ih => exact keep _ _ h ih

/-! ## Answers of a command taken -/

/-- A command has been taken: an entry is reserved for its answer, and no reply is held (R182). -/
def Taken (s : State) : Prop := s.command.reserved = true ∧ s.command.heldReply = none

/-- The moves that touch no reply entry and reset nothing. -/
def NoEntry (k : Special) : Prop := k ≠ .entry ∧ k ≠ .warm ∧ k ≠ .soft

/-- An atom that is not special to the reservation and the held reply leaves both alone. -/
theorem Atom.taken {s t : State} (h : Atom NoEntry s t) (hs : Taken s) : Taken t := by
  have notEntry {k : Special} (hk : NoEntry k) (h : k = .entry ∨ k = .warm ∨ k = .soft) : Taken t := by
    obtain ⟨h1, h2, h3⟩ := hk
    rcases h with h | h | h <;> contradiction
  cases h with
  | raise n =>
    have h := congrArg State.command (undecided_raise n s)
    have hr : (Machine.raise n s).command.reserved = s.command.reserved := (congrArg CommandUnit.reserved h :)
    have hh : (Machine.raise n s).command.heldReply = s.command.heldReply := (congrArg CommandUnit.heldReply h :)
    exact ⟨hr.trans hs.1, hh.trans hs.2⟩
  | command x _ _ hr hh _ => exact ⟨hr.trans hs.1, hh.trans hs.2⟩
  | transfer => unfold transferLocal; split <;> [skip; split] <;> exact hs
  | write => unfold writeCell writeHead; (repeat' split) <;> exact hs
  | reserve h | endReservation h | reply h | hold h | placeHeld h => exact notEntry h (.inl rfl)
  | warm h => exact notEntry h (.inr (.inl rfl))
  | soft h => exact notEntry h (.inr (.inr rfl))
  | _ => exact hs

/-- Moves that touch no reply entry keep the command taken. -/
theorem Moves.taken {s t : State} (h : Moves NoEntry s t) (hs : Taken s) : Taken t := h.kept hs fun _ _ => Atom.taken

end Sys2Proof.Machine
end

