-- ==== Sys2Proof/Proofs/MovesOfSteps.lean ====
section
/-! PROOFS. The command rows and the other commands as chains of moves, and so every step of the model. -/

namespace Sys2Proof.Machine

set_option Elab.async false

variable {K : Special → Prop}

theorem moves_answer (hk : K .entry) {s : State} (h : Taken s) (c : CommandCell) (o : ReplyOutcome) (b : Bytes) :
    Moves K s (answer c o b s) :=
  .off (.reply hk _ h.1 h.2 (Nat.zero_le _) (List.forall_mem_singleton.2 rfl))

theorem moves_answerLong (hk : K .entry) {s : State} (h : Taken s) (c : CommandCell) (o : ReplyOutcome)
    (b : Bytes) : Moves K s (answerLong c o b s) :=
  .ite (fun room => .off (.reply hk _ h.1 h.2 room (isNotice_replyCells _ _ _ _)))
    fun _ => .off (.hold hk _ h.1 (isNotice_replyCells _ _ _ _))

/-- A command that moves the part, by moves that touch no reply entry, and is then answered. -/
theorem moves_thenAnswer (hk : K .entry) {s t : State} (h : Taken s) (move : Moves K s t) (quiet : Moves NoEntry s t)
    (c : CommandCell) (o : ReplyOutcome) (b : Bytes) : Moves K s (answer c o b t) :=
  move.trans (moves_answer hk (quiet.taken h) c o b)

theorem moves_badParameter (hk : K .entry) {s : State} (h : Taken s) (c : CommandCell) :
    Moves K s (badParameter c s) := moves_answer hk h ..

theorem moves_refuse (hk : K .entry) {s : State} (h : Taken s) (c : CommandCell) (o : ReplyOutcome) :
    Moves K s (refuse c o s) := moves_answer hk h ..

section Commands

variable (hk : K .entry) {s : State} (h : Taken s) (c : CommandCell)
include hk h

/-! ## The Command Unit's own commands -/

theorem moves_actStatusRead : Moves K s (actStatusRead c s) := by
  refine .ite (fun _ => ?_) fun _ => moves_badParameter hk h c
  split
  case h_1 =>
    exact moves_thenAnswer hk h ((moves_setFront ..).trans (moves_setFront ..))
      ((moves_setFront ..).trans (moves_setFront ..)) ..
  case h_2 => exact moves_answerLong hk h ..
  case h_5 => exact moves_answerLong hk h ..
  case h_9 => exact moves_badParameter hk h c
  all_goals exact moves_answer hk h ..

theorem moves_actFlagsClear : Moves K s (actFlagsClear c s) := by
  have cleared {K : Special → Prop} : Moves K s (clearFlags (BitVec.ofNat 16 (c.number 0 2)) s) := .off (.clearFlags _)
  exact .ite (fun _ => moves_thenAnswer hk h cleared cleared ..) fun _ => moves_badParameter hk h c

theorem moves_actInvalid : Moves K s (actInvalid c s) :=
  moves_thenAnswer hk h (moves_command ..) (moves_command ..) ..

omit hk h in
theorem moves_storeFields (vs : List (Option Nat)) (s : State) : Moves K s (storeFields vs s) := by
  have clock := moves_clock (K := K) _ s (.configured vs)
  have timing := clock.trans (moves_acq { s.acq with timing := s.acq.timing.configure vs } _)
  exact (timing.trans (moves_outputCount (s.output.configure vs) _)).trans (moves_command (s.command.configure vs) _)

omit hk h in
theorem moves_applyFields (vs : List (Option Nat)) (s : State) : Moves K s (applyFields vs s) := by
  have source (f : Feed) (v : Option Nat) (s : State) : Moves K s (applySource f v s) := by
    unfold applySource
    split
    · exact .refl
    · exact moves_relock f _ s (moves_setFront ..)
  have enable (f : Feed) (v : Option Nat) (s : State) : Moves K s (applyEnable f v s) := by
    unfold applyEnable
    split
    · exact .refl
    · exact moves_configureEnable ..
  have first := ((moves_storeFields vs s).trans (source .f0 (fieldValue vs 1) _)).trans
    (enable .f0 (fieldValue vs 0) _)
  exact (first.trans (source .f1 (fieldValue vs 3) _)).trans (enable .f1 (fieldValue vs 2) _)

theorem moves_actConfigure : Moves K s (actConfigure c s) := by
  unfold actConfigure
  split
  · exact moves_badParameter hk h c
  · rename_i vs _
    have supersedes (f : Feed) (t : State) : Moves K t (supersedeDisabled s f t) :=
      .ite (fun _ => moves_supersede ..) fun _ => .refl
    exact ((moves_thenAnswer hk h (moves_applyFields vs s) (moves_applyFields vs s) ..).trans
      (supersedes .f0 _)).trans (supersedes .f1 _)

theorem moves_actTapOpen : Moves K s (actTapOpen c s) := by
  refine .ite (fun _ => ?_) fun _ => moves_badParameter hk h c
  split
  · exact moves_badParameter hk h c
  · refine .ite (fun _ => ?_) fun _ => moves_badParameter hk h c
    exact .ite (fun _ => moves_refuse hk h ..) fun _ => .ite (fun _ => moves_refuse hk h ..) fun _ =>
      .ite (fun _ => moves_refuse hk h ..) fun _ => .ite (fun _ => moves_refuse hk h ..) fun _ =>
      moves_thenAnswer hk h (moves_addEntry ..) (moves_addEntry ..) ..

theorem moves_actTapClose : Moves K s (actTapClose c s) := by
  refine .ite (fun _ => ?_) fun _ => moves_badParameter hk h c
  split
  · exact moves_refuse hk h ..
  · unfold closeTap
    split
    · exact moves_refuse hk h ..
    · exact moves_thenAnswer hk h (moves_removeEntries ..) (moves_removeEntries ..) ..

/-! ## Guide commands -/

theorem moves_actChannelRead : Moves K s (actChannelRead c s) := by
  have lookup (found : Option ChannelEntry) (o : ReplyOutcome) : Moves K s (answerEntry c found o s) := by
    unfold answerEntry
    split
    · exact moves_answer hk h ..
    · exact moves_answer hk h ..
  refine .ite (fun _ => ?_) fun _ => moves_badParameter hk h c
  split
  · exact lookup ..
  · exact lookup ..
  · exact moves_badParameter hk h c

theorem moves_actGuideSearch : Moves K s (actGuideSearch c s) :=
  .ite (fun _ => moves_answer hk h ..) fun _ => moves_badParameter hk h c

theorem moves_actGuideRead : Moves K s (actGuideRead c s) :=
  .ite (fun _ => .ite (fun _ => .ite (fun _ => moves_answer hk h ..) fun _ => moves_refuse hk h ..)
    fun _ => .ite (fun _ => moves_answer hk h ..) fun _ => moves_answerLong hk h ..)
    fun _ => moves_badParameter hk h c

theorem moves_actSetClock (ht : K .time) : Moves K s (actSetClock c s) :=
  .ite (fun _ => .ite
    (fun _ => moves_thenAnswer hk h (moves_applyMark ht ..) (moves_applyMark (by simp [NoEntry]) ..) ..)
    fun _ => moves_refuse hk h ..) fun _ => moves_badParameter hk h c

/-! ## Purchases and limits -/

omit hk h c in
/-- A PIN check that passes leaves no lockout running (R149). -/
theorem lockout_of_pinCheck_passed {param : Nat} {l : Limits} (h : (pinCheck param l).1.refusal = none) :
    (pinCheck param l).2.lockout = none := by
  unfold pinCheck at h ⊢
  split
  · rename_i locked; rw [if_pos locked] at h; cases h
  · rename_i free
    rw [if_neg free] at h
    have unlocked : l.lockout = none := by simpa using free
    split
    · exact unlocked
    · rename_i v pin
      split
      · exact unlocked
      · rename_i wrong; rw [pin] at h; simp [wrong, PinResult.refusal] at h

/-- A command behind the PIN check: the check, and then what the command does where it passed (R149). -/
theorem moves_withPin (param : Nat) (go : State → State)
    (passed : ∀ l, l = (pinCheck param s.limits).2 → l.lockout = none → Taken { s with limits := l } →
      Moves K { s with limits := l } (go { s with limits := l })) : Moves K s (withPin c param go s) := by
  unfold withPin; dsimp only
  refine (moves_pinCheck param s).trans ?_
  have taken : Taken { s with limits := (pinCheck param s.limits).2 } := h
  split
  · exact moves_refuse hk taken ..
  · rename_i pass; exact passed _ rfl (lockout_of_pinCheck_passed pass) taken

omit hk h c in
/-- What a purchase that passes the checks of R131 rests on. -/
theorem purchaseChecks_ok {id : Nat} {e : EventRecord} {p t : Nat} (ok : purchaseChecks id s = .ok (e, p, t)) :
    bought s.purchase e.id = false ∧ s.purchase.records.length < 32 ∧ s.purchase.debt + p ≤ s.purchase.limit := by
  unfold purchaseChecks at ok
  split at ok
  · cases ok
  · split at ok
    · cases ok
    · rename_i found
      have held : e.id = id → ¬ bought s.purchase id = true → bought s.purchase e.id = false := by
        intro h hb; rw [h]; simpa using hb
      obtain ⟨byId, _⟩ := Option.filter_eq_some_iff.1 found
      have hid := List.find?_some byId
      split at ok
      · cases ok
      · split_ifs at ok with ended blackout own full credit
        cases ok
        exact ⟨held (by simpa using hid) own, by omega, by omega⟩

theorem moves_takePurchase (e : EventRecord) (p t : Nat) (new : bought s.purchase e.id = false)
    (room : s.purchase.records.length < 32) (credit : s.purchase.debt + p ≤ s.purchase.limit) :
    Moves K s (takePurchase c e p t s) := by
  have bought {K : Special → Prop} := (moves_purchase (K := K) _ s (.taken e p t new room credit)).trans
    (moves_purchaseChanged 1 _)
  exact moves_thenAnswer hk h bought bought ..

theorem moves_actPurchase : Moves K s (actPurchase c s) := by
  refine .ite (fun _ => ?_) fun _ => moves_badParameter hk h c
  split
  · exact moves_refuse hk h ..
  · rename_i ok
    obtain ⟨new, room, credit⟩ := purchaseChecks_ok ok
    exact .ite (fun _ => moves_withPin hk h c _ _ fun l _ _ taken => moves_takePurchase hk taken c _ _ _ new room credit)
      fun _ => moves_takePurchase hk h c _ _ _ new room credit

theorem moves_actCancelPurchase : Moves K s (actCancelPurchase c s) := by
  refine .ite (fun _ => ?_) fun _ => moves_badParameter hk h c
  split
  · exact moves_refuse hk h ..
  · rename_i r found
    refine .ite (fun _ => moves_refuse hk h ..) fun provisional => .ite (fun _ => moves_refuse hk h ..) fun _ => ?_
    have cancelled {K : Special → Prop} := (moves_purchase (K := K) _ s
      (.cancelled r (List.mem_of_find?_eq_some found) (not_not.1 provisional))).trans (moves_purchaseChanged 1 _)
    exact moves_thenAnswer hk h cancelled cancelled ..

theorem moves_actPurchaseRead : Moves K s (actPurchaseRead c s) :=
  .ite (fun _ => .ite (fun _ => moves_answer hk h ..) fun _ => moves_answer hk h ..)
    fun _ => moves_badParameter hk h c

theorem moves_takeProfileSelect (p : Fin 4) : Moves K s (takeProfileSelect c p s) :=
  moves_thenAnswer hk h (.single (.switchProfile p)) (.single (.switchProfile p)) ..

theorem moves_actProfileSelect : Moves K s (actProfileSelect c s) := by
  refine .ite (fun _ => ?_) fun _ => moves_badParameter hk h c
  split
  · exact moves_badParameter hk h c
  · exact .ite (fun _ => moves_withPin hk h c _ _ fun _ _ _ taken => moves_takeProfileSelect hk taken c _)
      fun _ => moves_takeProfileSelect hk h c _

theorem moves_takeProfileWrite (p : Fin 4) : Moves K s (takeProfileWrite c p s) := by
  have allowance : (readProfile c.params).allowance ≤ 1440 := Nat.min_le_right ..
  exact moves_thenAnswer hk h (.single (.writeProfile p _ allowance)) (.single (.writeProfile p _ allowance)) ..

theorem moves_actProfileWrite : Moves K s (actProfileWrite c s) := by
  unfold actProfileWrite
  split
  · exact moves_badParameter hk h c
  · exact .ite (fun _ => moves_withPin hk h c _ _ fun _ _ _ taken => moves_takeProfileWrite hk taken c _)
      fun _ => moves_badParameter hk h c

theorem moves_actProfileRead : Moves K s (actProfileRead c s) := by
  refine .ite (fun _ => ?_) fun _ => moves_badParameter hk h c
  split
  · exact moves_badParameter hk h c
  · exact moves_answer hk h ..

theorem moves_actPinChange : Moves K s (actPinChange c s) := by
  refine .ite (fun _ => ?_) fun _ => moves_badParameter hk h c
  split
  · exact moves_badParameter hk h c
  · rename_i pin valid
    refine moves_withPin hk h c _ _ fun l _ unlocked taken => ?_
    have set {K : Special → Prop} : Moves K { s with limits := l } { s with limits := { l with pin, attempts := 0 } } :=
      moves_limits { l with pin, attempts := 0 } { s with limits := l }
        (.pinSet pin (fun v hv => newPin_le (hv ▸ valid)) unlocked)
    exact moves_thenAnswer hk taken set set ..

end Commands

/-! ## Acquisition commands -/

/-- An answer given to an acquisition command moves no role. -/
theorem role_answerPending (g f : Feed) (o : ReplyOutcome) (b : Bytes) (s : State) :
    ((answerPending f o b s).acqOf g).role = (s.acqOf g).role := by
  unfold answerPending
  split
  · dsimp only; split <;> cases f <;> cases g <;> rfl
  · rfl

theorem presentationFeed_congr {s t : State} (h : ∀ g, (t.acqOf g).role = (s.acqOf g).role) :
    presentationFeed t = presentationFeed s := by
  unfold presentationFeed
  rw [h, h]

/-- The presentation feed has the PRESENT role, or the other one has not (R88). -/
theorem role_presentationFeed (s : State) : (s.acqOf (presentationFeed s)).role = .present ∨
    (s.acqOf (otherFeed (presentationFeed s))).role ≠ .present := by
  unfold presentationFeed
  split
  · exact .inl ‹_›
  · split
    · exact .inl ‹_›
    · exact .inr ‹_›

theorem moves_endReservation (hk : K .entry) {s : State} (h : s.command.heldReply = none) :
    Moves K s (endReservation s) := .off (.endReservation hk h)

section Acquisition

variable (hk : K .entry) {s : State} (h : Taken s) (c : CommandCell)
include hk h

/-- A record begun on the presentation feed with the PRESENT role, or on the other with the BACKGROUND role (R92). -/
theorem moves_startChannel {f : Feed} {role : Role}
    (feed : role = .present ∧ f = presentationFeed s ∨ role = .background ∧ f ≠ presentationFeed s)
    (entry : ChannelEntry) (picked : Option Nat) : Moves K s (startChannel f role entry c picked s) := by
  have released : Moves K s (supersede f (endReservation s)) :=
    (moves_endReservation hk h.2).trans (moves_supersede ..)
  have presentation : presentationFeed (supersede f (endReservation s)) = presentationFeed s :=
    presentationFeed_congr fun g => role_answerPending ..
  have begun : Moves K s (beginRecord f role (some entry) entry.carrier (c.awaits picked)
      (supersede f (endReservation s))) := by
    refine released.trans (moves_beginRecord _ _ _ _ _ _ nofun ?_ ?_)
    · rw [presentation]
      exact fun _ => feed.imp And.left And.right
    · intro present
      rcases feed with ⟨_, feed⟩ | ⟨rfl, _⟩
      · have role := role_presentationFeed (supersede f (endReservation s))
        rwa [presentation, ← feed] at role
      · cases present
  refine Relation.ReflTransGen.trans ?_ (moves_proceed ..)
  exact Moves.ite (fun _ => begun.tail .setChanging) fun _ => begun

theorem moves_startPark {f : Feed} (feed : f ≠ presentationFeed s) (carrier : Nat) :
    Moves K s (startPark f carrier c s) := by
  refine .ite (fun _ => ?_) fun _ => ?_
  · have begun {K : Special → Prop} : Moves K s (beginRecord f .background none carrier (s.acqOf f).pending s) :=
      moves_beginRecord _ _ _ _ _ s (fun _ h => h) (fun _ => .inr feed) nofun
    have parked {K : Special → Prop} := (begun (K := K)).trans
      (moves_enterAcq f (fun r => { r with state := .parked, attempts := 1 }) _)
    exact (moves_thenAnswer hk h parked parked ..).trans (moves_supersede ..)
  · have released : Moves K s (supersede f (endReservation s)) :=
      (moves_endReservation hk h.2).trans (moves_supersede ..)
    have presentation : presentationFeed (supersede f (endReservation s)) = presentationFeed s :=
      presentationFeed_congr fun g => role_answerPending ..
    have begun : Moves K s (beginRecord f .background none carrier (c.awaits none) (supersede f (endReservation s))) :=
      released.trans (moves_beginRecord _ _ _ _ _ _ nofun (fun _ => .inr (by rwa [presentation])) nofun)
    exact begun.trans (moves_proceed ..)

omit hk h in
theorem moves_swapRoles (p : Feed) (s : State) : Moves K s (swapRoles p (otherFeed p) s) := by
  have out : Moves K s ((clearKeySlot p (removeAcqEntries p s)).changeAcq p (fun x => x.swappedOut (locked s p))) := by
    refine (moves_clearFeed p s).trans (moves_setAcq _ _ _ ⟨fun _ h => .inl h, fun h => ?_, nofun⟩)
    unfold AcqRecord.swappedOut at h
    dsimp only at h
    split_ifs at h
  refine out.trans (moves_setAcq _ _ _ ⟨fun _ h => .inl h, fun _ => .inl rfl, fun _ => .inr ?_⟩)
  rw [otherFeed_otherFeed, acqOf_changeAcq_same]
  exact nofun

theorem moves_roleSwap (p : Feed) (picked : Option Nat) : Moves K s (roleSwap p (otherFeed p) c picked s) := by
  have told {K : Special → Prop} : Moves K s (tellDecision (otherFeed p) (swapRoles p (otherFeed p) s)) :=
    (moves_swapRoles p s).trans (moves_tellDecision ..)
  exact (moves_thenAnswer hk h told told ..).trans (moves_supersede ..)

theorem moves_selectChannel (n : Nat) (picked : Option Nat) : Moves K s (selectChannel c n picked s) := by
  refine .ite (fun _ => moves_answer hk h ..) fun _ => ?_
  split
  · exact moves_answer hk h ..
  · exact .ite (fun _ => moves_answer hk h ..) fun _ => .ite (fun _ => moves_roleSwap hk h c _ picked)
      fun _ => moves_startChannel hk h c (.inl ⟨rfl, rfl⟩) _ picked

theorem moves_actSelect : Moves K s (actSelect c s) :=
  .ite (fun _ => moves_selectChannel hk h c _ _) fun _ => moves_badParameter hk h c

theorem moves_selectPicked (lookup : Guide → Nat → Option Nat) : Moves K s (selectPicked lookup c s) := by
  refine .ite (fun _ => moves_answer hk h ..) fun _ => ?_
  split
  · exact moves_answer hk h ..
  · exact moves_selectChannel hk h c _ _

theorem moves_actPretune : Moves K s (actPretune c s) := by
  refine .ite (fun _ => ?_) fun _ => moves_badParameter hk h c
  refine .ite (fun _ => moves_answer hk h ..) fun _ => .ite (fun _ => moves_answer hk h ..) fun _ => ?_
  split
  · exact moves_answer hk h ..
  · exact .ite (fun _ => moves_answer hk h ..) fun _ => .ite (fun _ => moves_answer hk h ..)
      fun _ => moves_startChannel hk h c (.inr ⟨rfl, otherFeed_ne _⟩) _ none

theorem moves_actPark : Moves K s (actPark c s) :=
  .ite (fun _ => .ite (fun _ => moves_answer hk h ..) fun _ => .ite (fun _ => moves_answer hk h ..)
    fun _ => moves_startPark hk h c (otherFeed_ne _) _) fun _ => moves_badParameter hk h c

theorem moves_actRelease : Moves K s (actRelease c s) := by
  refine .ite (fun _ => ?_) fun _ => moves_badParameter hk h c
  split
  · exact (moves_thenAnswer hk h (moves_releaseRecord ..) (moves_releaseRecord ..) ..).trans (moves_supersede ..)
  · exact moves_badParameter hk h c

omit hk h in
theorem moves_standbyBackground (p b : Feed) (s : State) : Moves K s (standbyBackground p b s) := by
  refine .ite (fun idle => ?_) fun _ => .refl
  simp only [Bool.and_eq_true, decide_eq_true_eq] at idle
  split
  · rename_i carrier _
    have begun : Moves K s (beginRecord b .background none carrier .none s) :=
      moves_beginRecord _ _ _ _ _ s nofun (fun h => by rw [idle.1] at h; cases h) nofun
    exact begun.trans (moves_proceed ..)
  · exact .refl

theorem moves_actStandby : Moves K s (actStandby c s) := by
  refine .ite (fun _ => moves_answer hk h ..) fun _ => ?_
  have left {K : Special → Prop} := ((moves_releaseRecord (K := K) (presentationFeed s) s).trans
    (moves_standbyBackground (presentationFeed s) (backgroundFeed s) _))
  have stood {K : Special → Prop} := Relation.ReflTransGen.trans (left (K := K)) (moves_acq
    { (standbyBackground (presentationFeed s) (backgroundFeed s) (releaseRecord (presentationFeed s) s)).acq with
      standby := true } _)
  exact (moves_thenAnswer hk h stood stood ..).trans (moves_answerPending ..)

theorem moves_actWake : Moves K s (actWake c s) :=
  moves_thenAnswer hk h (moves_acq { s.acq with standby := false } s) (moves_acq { s.acq with standby := false } s) ..

end Acquisition

/-! ## SOFT RESET -/

/-- The fronts of a part just reset stand in DOWN, so that they hunt or rest and report nothing (R19). -/
theorem command_reworkLock_of_down {f : Feed} {s : State} (h : (s.frontOf f).sync = .down) :
    (reworkLock f s).command = s.command := by
  unfold reworkLock
  rw [if_pos h, if_pos h]
  split <;> rfl

theorem command_addEntries (es : List FilterEntry) (s : State) : (addEntries es s).command = s.command ∧
    (addEntries es s).front = s.front := by
  induction es generalizing s with
  | nil => exact ⟨rfl, rfl⟩
  | cons e es ih =>
    obtain ⟨hc, hf⟩ := ih (addEntry e s)
    have one : (addEntry e s).command = s.command ∧ (addEntry e s).front = s.front := by
      unfold addEntry; split <;> exact ⟨rfl, rfl⟩
    exact ⟨hc.trans one.1, hf.trans one.2⟩

theorem command_makeFixedEntries (s : State) : (makeFixedEntries s).command = s.command ∧
    (makeFixedEntries s).front = s.front := by
  have made (f : Feed) (s : State) :
      (if (s.frontOf f).enabled then addEntries (fixedEntries f) s else s).command = s.command ∧
      (if (s.frontOf f).enabled then addEntries (fixedEntries f) s else s).front = s.front := by
    split
    · exact command_addEntries ..
    · exact ⟨rfl, rfl⟩
  obtain ⟨hc, hf⟩ := made .f0 s
  obtain ⟨hc', hf'⟩ := made .f1 (if (s.frontOf .f0).enabled then addEntries (fixedEntries .f0) s else s)
  exact ⟨hc'.trans hc, hf'.trans hf⟩

/-- Taking up work after a reset moves nothing of the Command Unit (R190, R191). -/
theorem command_takeUpWork {s : State} (down : ∀ f, (s.frontOf f).sync = .down) :
    (takeUpWork s).command = s.command := by
  obtain ⟨hc, hf⟩ := command_makeFixedEntries s
  have down0 : ((makeFixedEntries s).frontOf .f0).sync = .down := by
    rw [State.frontOf, hf]; exact down .f0
  have down1 : ((reworkLock .f0 (makeFixedEntries s)).frontOf .f1).sync = .down := by
    have same : (reworkLock .f0 (makeFixedEntries s)).front.f1 = s.front.f1 := by
      rw [← hf]
      unfold reworkLock
      rw [if_pos down0, if_pos down0]
      split <;> rfl
    exact (congrArg Front.sync same).trans (down .f1)
  calc (takeUpWork s).command
      = (reworkLock .f1 (reworkLock .f0 (makeFixedEntries s))).command := rfl
    _ = (reworkLock .f0 (makeFixedEntries s)).command := command_reworkLock_of_down down1
    _ = (makeFixedEntries s).command := command_reworkLock_of_down down0
    _ = s.command := hc

theorem command_softReset (s : State) : (softReset s).command = s.command.softReset :=
  command_takeUpWork (s := softened s) fun f => by cases f <;> rfl

/-- SOFT RESET empties the reply queue first, so that its own reply stands first in it (R190). -/
theorem moves_actSoftReset (hk : K .entry) (hs : K .soft) (c : CommandCell) (s : State) :
    Moves K s (actSoftReset c s) := by
  have command := command_softReset s
  have ended : Moves K (softReset s) (endReservation (softReset s)) :=
    .off (.endReservation hk (by rw [command]; rfl))
  refine ((moves_softReset hs s).trans ended).trans (moves_place _ _ ?_ (List.forall_mem_singleton.2 rfl))
  simp [freeEntries, endReservation, command, CommandUnit.softReset, CommandUnit.warmReset, State.coldCommand]

/-! ## Dispatch -/

theorem moves_actByCode (hk : K .entry) {s : State} (h : Taken s) (c : CommandCell) (ht : c.code = 0x25#8 → K .time)
    (hs : c.code = 0x02#8 → K .soft) : Moves K s (actByCode c s) := by
  generalize act : actByCode c = f
  unfold actByCode at act
  split at act <;> subst act
  case h_1 => exact moves_answer hk h ..
  case h_2 code => exact moves_actSoftReset hk (hs (BitVec.eq_of_toNat_eq code)) c s
  case h_3 => exact moves_actConfigure hk h c
  case h_4 => exact moves_actStatusRead hk h c
  case h_5 => exact moves_actFlagsClear hk h c
  case h_6 => exact moves_actSelect hk h c
  case h_7 => exact moves_selectPicked hk h c _
  case h_8 => exact moves_selectPicked hk h c _
  case h_9 => exact moves_actPretune hk h c
  case h_10 => exact moves_actPark hk h c
  case h_11 => exact moves_actRelease hk h c
  case h_12 => exact moves_actStandby hk h c
  case h_13 => exact moves_actWake hk h c
  case h_14 => exact moves_actChannelRead hk h c
  case h_15 => exact moves_actGuideSearch hk h c
  case h_16 => exact moves_actGuideRead hk h c
  case h_17 => exact moves_actTapOpen hk h c
  case h_18 => exact moves_actTapClose hk h c
  case h_19 code => exact moves_actSetClock hk h c (ht (BitVec.eq_of_toNat_eq code))
  case h_20 => exact moves_actPurchase hk h c
  case h_21 => exact moves_actCancelPurchase hk h c
  case h_22 => exact moves_actPurchaseRead hk h c
  case h_23 => exact moves_actProfileSelect hk h c
  case h_24 => exact moves_actProfileWrite hk h c
  case h_25 => exact moves_actProfileRead hk h c
  case h_26 => exact moves_actPinChange hk h c
  case h_27 => exact moves_actInvalid hk h c

/-! ## Local port, output port and arbiter -/

theorem moves_offerIntake (c : CommandCell) (s : State) : Moves K s (offerIntake c s) := by
  refine .ite (fun room => .off (.command _ ?_ rfl rfl rfl rfl)) fun _ =>
    .trans (moves_command { s.command with overruns := bump s.command.overruns } s) (moves_raise ..)
  simp only [List.length_append, List.length_singleton]
  omega

theorem moves_receiveFrame (frame : LocalFrame) (s : State) : Moves K s (receiveFrame frame s) := by
  refine .ite (fun _ => .refl) fun _ => ?_
  split
  case h_3 => exact .refl
  case h_7 => exact moves_offerIntake ..
  all_goals exact moves_command ..

theorem moves_transferLocal (s : State) : Moves K s (transferLocal s) := by
  refine .off .transfer ?_
  unfold transferLocal
  split
  · exact ⟨rfl, rfl, rfl, fun _ => rfl, rfl, rfl, fun _ => rfl⟩
  · split <;> exact ⟨rfl, rfl, rfl, fun _ => rfl, rfl, rfl, fun _ => rfl⟩

theorem moves_writeCell (hk : K .write) (s : State) : Moves K s (writeCell s) := by
  refine .off (.write hk) ?_
  unfold writeCell writeHead
  (repeat' split) <;> exact ⟨rfl, rfl, rfl, fun _ => rfl, rfl, rfl, fun _ => rfl⟩

theorem moves_reserve (hk : K .entry) {s : State} (room : 0 < freeEntries s) : Moves K s (reserve s) :=
  .off (.reserve hk room)

theorem moves_placeFormed (f : Feed) (rest : List Feed) {s : State} (room : 0 < freeEntries s) :
    Moves K s (placeFormed f rest s) := by
  unfold placeFormed; dsimp only
  split
  · rename_i cell formed
    have placed : Moves K s (placeCells [cell] s) := .off (.placeFormed f cell formed room)
    have ordered := Relation.ReflTransGen.trans placed (moves_acq { s.acq with formedOrder := rest } _)
    exact ordered.trans (moves_setAcq f { s.acqOf f with pending := .none } _ (.of_role rfl (.inl rfl) (.inr nofun)))
  · exact moves_acq ..

theorem moves_arbiterLater (hk : K .entry) {s : State} (room : 0 < freeEntries s)
    (ht : ∀ c, s.command.intake.head? = some c → c.code = 0x25#8 → K .time)
    (hs : ∀ c, s.command.intake.head? = some c → c.code = 0x02#8 → K .soft) : Moves K s (arbiterLater s) := by
  unfold arbiterLater
  split
  · rename_i m _
    exact .trans (moves_place [.marker m.channel m.decision m.reason] s room (List.forall_mem_singleton.2 rfl))
      (moves_outputCount { s.output with pendingMarker := none } _)
  · refine .ite (fun pending => .off (.placeNotice pending room)) fun _ => .ite (fun _ => .refl) fun held => ?_
    split
    · exact .refl
    · rename_i c rest intake
      have none : s.command.heldReply = none := by simpa using held
      have taken : Moves K s { s with command := { s.command with intake := rest } } :=
        .off (.command _ (by rw [intake]; simp only [List.length_cons]; omega) rfl rfl rfl rfl)
      refine (taken.trans (moves_reserve hk (by exact room))).trans ?_
      exact moves_actByCode (s := reserve { s with command := { s.command with intake := rest } }) hk ⟨rfl, none⟩ c (ht c (by rw [intake]; rfl)) (hs c (by rw [intake]; rfl))

theorem moves_arbiter (hk : K .entry) (s : State)
    (ht : ∀ c, s.command.intake.head? = some c → c.code = 0x25#8 → K .time)
    (hs : ∀ c, s.command.intake.head? = some c → c.code = 0x02#8 → K .soft) : Moves K s (arbiter s) := by
  refine .ite (fun _ => .refl) fun some => ?_
  have room : 0 < freeEntries s := Nat.pos_of_ne_zero some
  split
  · exact moves_placeFormed _ _ room
  · split
    · rename_i cells held
      exact .ite (fun fits => .off (.placeHeld hk cells held fits)) fun _ => moves_arbiterLater hk room ht hs
    · exact moves_arbiterLater hk room ht hs

/-! ## Every command -/

/-- What a command may do besides what every command may: the specials of its row, read in s where it takes a command
cell of the intake. -/
def Needs (s : State) : Instr → Special → Prop
  | .powerOn _ _, k => k = .warm
  | .resetLineAssert, k => k = .warm
  | .startUp _, k => k = .time
  | .feedByte _ _, k => k = .time ∨ k = .gate
  | .confirmSlot _ _, k => k = .time ∨ k = .gate
  | .lockedSlot _ _, k => k = .time ∨ k = .gate
  | .clockAdvance, k => k = .time
  | .outputCellWrite, k => k = .write
  | .replyEntryArbiter, k => k = .entry ∨
      ∃ c, s.command.intake.head? = some c ∧ (k = .time ∧ c.code = 0x25#8 ∨ k = .soft ∧ c.code = 0x02#8)
  | .softReset _ _, k => k = .entry ∨ k = .soft
  | .setClock _ _, k => k = .entry ∨ k = .time
  | .invalidCommand _ code _, k => k = .entry ∨ k = .time ∧ code = 0x25#8 ∨ k = .soft ∧ code = 0x02#8
  | _, k => k = .entry

theorem moves_commandRow (hk : K .entry) {act : CommandCell → State → State} {c : CommandCell} (s : State)
    (h : ∀ t, Taken t → Moves K t (act c t)) : Moves K s (commandRow act c s) := by
  refine .ite (fun _ => .refl) fun _ => .ite (fun may => ?_) fun _ => moves_offerIntake ..
  obtain ⟨_, _, held, _, _, _, room⟩ := (mayTake_iff s).1 may
  exact (moves_reserve hk room).trans (h _ ⟨rfl, held⟩)

theorem moves_running {s t : State} (h : Moves K s t) : Moves K s (if s.running then t else s) :=
  .ite (fun _ => h) fun _ => .refl

/-- Every command moves the part by moves that its row lets it make. -/
theorem moves_exec {c : Instr} {s t : State} (h : exec c s = .next t) (hK : ∀ k, Needs s c k → K k) :
    Moves K s t := by
  cases c with
  | powerOn => cases h; exact moves_powerOn (hK _ rfl) ..
  | resetLineAssert => cases h; exact moves_assertReset (hK _ rfl) _
  | startUp => cases h; exact moves_startUp (hK _ rfl) ..
  | standbyGoodFall => cases h; exact moves_standbyFall _
  | feedByte => cases h; exact (handled_feedByte ..).moves (hK _ (.inr rfl)) (hK _ (.inl rfl))
  | confirmSlot => cases h; exact moves_confirmSlotRow (hK _ (.inr rfl)) (hK _ (.inl rfl)) ..
  | lockedSlot => cases h; exact moves_lockedSlotRow (hK _ (.inr rfl)) (hK _ (.inl rfl)) ..
  | lockLineChange => cases h; exact moves_lockLineChange ..
  | clockAdvance => cases h; exact moves_clockAdvance (hK _ rfl) _
  | lossTimerExpiry => cases h; exact moves_running (moves_lossTimerOver s)
  | settleTimerExpiry => cases h; exact moves_running (.ite (fun _ => moves_enterLocking ..) fun _ => .refl)
  | lockTimerExpiry => cases h; exact moves_running (.ite (fun _ => moves_retryOrFail ..) fun _ => .refl)
  | syncTimerExpiry => cases h; exact moves_running (.ite (fun _ => moves_retryOrFail ..) fun _ => .refl)
  | mapTimerExpiry => cases h; exact moves_running (.ite (fun _ => moves_fail ..) fun _ => .refl)
  | keyWaitExpiry => cases h; exact moves_running (moves_keyWaitOver ..)
  | lockoutExpiry => cases h; exact moves_running (moves_lockoutOver s)
  | meterSecond => cases h; exact moves_running (.single .meterSecond)
  | primingTimerExpiry => cases h; exact moves_running (.ite (fun _ => moves_outputCount ..) fun _ => .refl)
  | sentPulse => cases h; exact moves_running (moves_sentPulse s)
  | collidedPulse => cases h; exact moves_running (moves_collidedPulse s)
  | returnWaitExpiry => cases h; exact moves_running (moves_returnWaitOver s)
  | holdLineChange => cases h; exact moves_lines ..
  | outputCellWrite => cases h; exact moves_running (moves_writeCell (hK _ rfl) s)
  | localCellTransfer => cases h; exact moves_running (moves_transferLocal s)
  | localCellReceive => cases h; exact moves_running (moves_receiveFrame ..)
  | replyEntryArbiter =>
    cases h
    exact moves_running (moves_arbiter (hK _ (.inl rfl)) s
      (fun c head code => hK _ (.inr ⟨c, head, .inl ⟨rfl, code⟩⟩))
      fun c head code => hK _ (.inr ⟨c, head, .inr ⟨rfl, code⟩⟩))
  | invalidCommand =>
    cases h
    exact moves_commandRow (hK _ (.inl rfl)) s fun _ taken => moves_actByCode (hK _ (.inl rfl)) taken _
      (fun code => hK _ (.inr (.inl ⟨rfl, code⟩))) fun code => hK _ (.inr (.inr ⟨rfl, code⟩))
  | softReset =>
    cases h
    exact moves_commandRow (hK _ (.inl rfl)) s fun t _ => moves_actSoftReset (hK _ (.inl rfl)) (hK _ (.inr rfl)) _ t
  | setClock =>
    cases h
    exact moves_commandRow (hK _ (.inl rfl)) s fun _ taken =>
      moves_actSetClock (hK _ (.inl rfl)) taken _ (hK _ (.inr rfl))
  | noOperation => cases h; exact moves_commandRow (hK _ rfl) s fun _ taken => moves_answer (hK _ rfl) taken ..
  | configure => cases h; exact moves_commandRow (hK _ rfl) s fun _ taken => moves_actConfigure (hK _ rfl) taken _
  | statusReadFeeds =>
    cases h
    exact moves_commandRow (hK _ rfl) s fun _ taken => moves_thenAnswer (hK _ rfl) taken
      ((moves_setFront ..).trans (moves_setFront ..)) ((moves_setFront ..).trans (moves_setFront ..)) ..
  | statusReadFilter => cases h; exact moves_commandRow (hK _ rfl) s fun _ taken => moves_answerLong (hK _ rfl) taken ..
  | statusReadClock => cases h; exact moves_commandRow (hK _ rfl) s fun _ taken => moves_answer (hK _ rfl) taken ..
  | statusReadAcquisition => cases h; exact moves_commandRow (hK _ rfl) s fun _ taken => moves_answer (hK _ rfl) taken ..
  | statusReadAccess => cases h; exact moves_commandRow (hK _ rfl) s fun _ taken => moves_answerLong (hK _ rfl) taken ..
  | statusReadPurchases => cases h; exact moves_commandRow (hK _ rfl) s fun _ taken => moves_answer (hK _ rfl) taken ..
  | statusReadLimits => cases h; exact moves_commandRow (hK _ rfl) s fun _ taken => moves_answer (hK _ rfl) taken ..
  | statusReadCounters => cases h; exact moves_commandRow (hK _ rfl) s fun _ taken => moves_answer (hK _ rfl) taken ..
  | flagsClear => cases h; exact moves_commandRow (hK _ rfl) s fun _ taken => moves_actFlagsClear (hK _ rfl) taken _
  | select => cases h; exact moves_commandRow (hK _ rfl) s fun _ taken => moves_actSelect (hK _ rfl) taken _
  | selectNext => cases h; exact moves_commandRow (hK _ rfl) s fun _ taken => moves_selectPicked (hK _ rfl) taken _ _
  | selectPrevious => cases h; exact moves_commandRow (hK _ rfl) s fun _ taken => moves_selectPicked (hK _ rfl) taken _ _
  | pretune => cases h; exact moves_commandRow (hK _ rfl) s fun _ taken => moves_actPretune (hK _ rfl) taken _
  | park => cases h; exact moves_commandRow (hK _ rfl) s fun _ taken => moves_actPark (hK _ rfl) taken _
  | release => cases h; exact moves_commandRow (hK _ rfl) s fun _ taken => moves_actRelease (hK _ rfl) taken _
  | standby => cases h; exact moves_commandRow (hK _ rfl) s fun _ taken => moves_actStandby (hK _ rfl) taken _
  | wake => cases h; exact moves_commandRow (hK _ rfl) s fun _ taken => moves_actWake (hK _ rfl) taken _
  | channelRead => cases h; exact moves_commandRow (hK _ rfl) s fun _ taken => moves_actChannelRead (hK _ rfl) taken _
  | guideSearch => cases h; exact moves_commandRow (hK _ rfl) s fun _ taken => moves_actGuideSearch (hK _ rfl) taken _
  | guideRead => cases h; exact moves_commandRow (hK _ rfl) s fun _ taken => moves_actGuideRead (hK _ rfl) taken _
  | tapOpen => cases h; exact moves_commandRow (hK _ rfl) s fun _ taken => moves_actTapOpen (hK _ rfl) taken _
  | tapClose => cases h; exact moves_commandRow (hK _ rfl) s fun _ taken => moves_actTapClose (hK _ rfl) taken _
  | purchase => cases h; exact moves_commandRow (hK _ rfl) s fun _ taken => moves_actPurchase (hK _ rfl) taken _
  | cancelPurchase => cases h; exact moves_commandRow (hK _ rfl) s fun _ taken => moves_actCancelPurchase (hK _ rfl) taken _
  | purchaseRead => cases h; exact moves_commandRow (hK _ rfl) s fun _ taken => moves_actPurchaseRead (hK _ rfl) taken _
  | profileSelect => cases h; exact moves_commandRow (hK _ rfl) s fun _ taken => moves_actProfileSelect (hK _ rfl) taken _
  | profileWrite => cases h; exact moves_commandRow (hK _ rfl) s fun _ taken => moves_actProfileWrite (hK _ rfl) taken _
  | profileRead => cases h; exact moves_commandRow (hK _ rfl) s fun _ taken => moves_actProfileRead (hK _ rfl) taken _
  | pinChange => cases h; exact moves_commandRow (hK _ rfl) s fun _ taken => moves_actPinChange (hK _ rfl) taken _

/-- A step is a chain of moves behind the queue of waiting commands. -/
theorem moves_step {s t : State} (h : step s = .next t) :
    t = s ∨ ∃ c, Moves (Needs s c) s.popped t := by
  unfold step at h
  split at h
  · cases h; exact .inl rfl
  · rename_i c _ _
    exact .inr ⟨c, moves_exec h fun _ hk => by cases c <;> exact hk⟩

end Sys2Proof.Machine
end

