-- ==== Sys2Proof/Proofs/UnitLaws.lean ====
section
/-! PROOFS. O48, O49 and O57: the laws of the purchase unit, the limits unit and the network clock are kept. -/

namespace Sys2Proof.Machine

set_option Elab.async false

variable {K : Special → Prop}

/-! ## Laws kept by atoms -/

/-- A law that does not read the queue of waiting commands, and that every atom keeps, is kept by every step. -/
theorem keptByEveryStep_of_atom {law : State → Prop} (popped : ∀ s, law s → law s.popped)
    (keep : ∀ (K : Special → Prop) (s t : State), Atom K s t → law s → law t) : KeptByEveryStep law := by
  intro s t hs h
  rcases moves_step h with rfl | ⟨c, moves⟩
  · exact hs
  · exact moves.kept (popped s hs) fun s t => keep _ s t

theorem undecided_transferLocal (s : State) : undecided (transferLocal s) = undecided s := by
  unfold transferLocal
  split
  · rfl
  · split <;> rfl

/-- The output port moves its own queue, its count, its line and the free bytes (R176). -/
theorem writeCell_frame (s : State) :
    (writeCell s).clock = s.clock ∧ (writeCell s).guide = s.guide ∧ (writeCell s).acq = s.acq ∧
    (writeCell s).access = s.access ∧ (writeCell s).purchase = s.purchase ∧ (writeCell s).limits = s.limits ∧
    (writeCell s).command = s.command ∧ (writeCell s).filter = s.filter ∧
    (writeCell s).assembler = s.assembler := by
  unfold writeCell writeHead
  (repeat' split) <;> exact ⟨rfl, rfl, rfl, rfl, rfl, rfl, rfl, rfl, rfl⟩

/-! ## Purchases and debt (R129, R130, R141 to R143) -/

theorem Atom.purchase_cases {s t : State} (h : Atom K s t) :
    t.purchase = s.purchase ∨ PurchaseMove s.purchase t.purchase ∨ t.purchase = s.purchase.kept := by
  cases h with
  | raise n => exact .inl (purchase_raise n s)
  | transfer => exact .inl (congrArg State.purchase (undecided_transferLocal s) :)
  | write => obtain ⟨_, _, _, _, h, _⟩ := writeCell_frame s; exact .inl h
  | purchase x h => exact .inr (.inl h)
  | warm | soft => exact .inr (.inr rfl)
  | _ => exact .inl rfl

/-- The prices of the records that count in the debt. -/
def owedSum (rs : List PurchaseRecord) : Nat :=
  ((rs.filter (fun r => r.state ≠ .collected)).map PurchaseRecord.price).sum

theorem owedSum_cons (r : PurchaseRecord) (rs : List PurchaseRecord) :
    owedSum (r :: rs) = (if r.state = .collected then 0 else r.price) + owedSum rs := by
  by_cases h : r.state = .collected <;> simp [owedSum, h]

theorem owedSum_append (rs xs : List PurchaseRecord) : owedSum (rs ++ xs) = owedSum rs + owedSum xs := by
  simp [owedSum]

structure Purchase.Lawful (p : Purchase) : Prop where
  size : p.records.length ≤ 32
  distinct : (p.records.map PurchaseRecord.eventId).Nodup
  debt : p.debt = owedSum p.records
  debtMax : p.debt ≤ 65535
  limitMax : p.limit ≤ 65535
  queue : p.returnQueue.length ≤ 8
  idle : p.tx = .idle ↔ p.returnQueue = []
  waits : p.waitTimer.isSome ↔ p.tx = .waiting
  attempts : p.attempts ≤ 7

theorem purchaseLaw_iff (s : State) : PurchaseLaw s ↔ s.purchase.Lawful :=
  ⟨fun ⟨a, b, c, d, e, f, g, h, i⟩ => ⟨a, b, c, d, e, f, g, h, i⟩,
    fun ⟨a, b, c, d, e, f, g, h, i⟩ => ⟨a, b, c, d, e, f, g, h, i⟩⟩

/-- Removing the one record of an event takes its price from the debt. -/
theorem owedSum_without {rs : List PurchaseRecord} (distinct : (rs.map PurchaseRecord.eventId).Nodup)
    {r : PurchaseRecord} (held : r ∈ rs) (owed : r.state ≠ .collected) :
    owedSum (rs.filter (fun x => x.eventId ≠ r.eventId)) + r.price = owedSum rs := by
  induction rs with
  | nil => cases held
  | cons x xs ih =>
    obtain ⟨notIn, rest⟩ := List.nodup_cons.1 distinct
    rcases List.mem_cons.1 held with rfl | later
    · have others : xs.filter (fun x => x.eventId ≠ r.eventId) = xs :=
        List.filter_eq_self.2 fun y hy => by
          simpa using fun same : y.eventId = r.eventId => notIn (same ▸ List.mem_map_of_mem hy)
      rw [List.filter_cons_of_neg (by simp), others, owedSum_cons, if_neg owed, Nat.add_comm]
    · have differs : x.eventId ≠ r.eventId := fun same => notIn (same ▸ List.mem_map_of_mem later)
      rw [List.filter_cons_of_pos (by simpa using differs), owedSum_cons, owedSum_cons, ← ih rest later]
      omega

/-- What commits or leaves at a second boundary moves no debt (R134). -/
theorem owedSum_second (t : Nat) (rs : List PurchaseRecord) :
    owedSum ((rs.filter (fun r => !r.leavesAt t)).map (PurchaseRecord.atBoundary t)) = owedSum rs := by
  induction rs with
  | nil => rfl
  | cons r rs ih =>
    by_cases leaves : r.leavesAt t
    · have collected : r.state = .collected := by
        simp only [PurchaseRecord.leavesAt, Bool.and_eq_true, decide_eq_true_eq] at leaves; exact leaves.1
      rw [List.filter_cons_of_neg (by simp [leaves]), ih, owedSum_cons, if_pos collected, Nat.zero_add]
    · have same : (if (r.atBoundary t).state = .collected then 0 else (r.atBoundary t).price) =
          if r.state = .collected then 0 else r.price := by
        unfold PurchaseRecord.atBoundary
        split
        · rename_i commits
          simp only [PurchaseRecord.commitsAt, Bool.and_eq_true, decide_eq_true_eq] at commits
          simp [commits.1]
        · rfl
      rw [List.filter_cons_of_pos (by simp [leaves]), List.map_cons, owedSum_cons, ih, owedSum_cons, same]

theorem priceSum_cons (r : PurchaseRecord) (rs : List PurchaseRecord) :
    priceSum (r :: rs) = r.price + priceSum rs := by simp [priceSum]

/-- What a CLEAR settles leaves the debt (R140). -/
theorem owedSum_cleared (q : Nat) (now : Option Nat) (rs : List PurchaseRecord) :
    owedSum ((rs.filter (fun r => !(r.settledBy q && r.over now))).map (PurchaseRecord.collect q)) +
      priceSum (rs.filter (PurchaseRecord.settledBy q)) = owedSum rs := by
  induction rs with
  | nil => rfl
  | cons r rs ih =>
    rw [owedSum_cons, ← ih]
    by_cases settled : r.settledBy q
    · have committed : r.state = .committed := by
        simp only [PurchaseRecord.settledBy, Bool.and_eq_true, decide_eq_true_eq] at settled; exact settled.1
      have gone : r.collect q = { r with state := .collected } := if_pos settled
      by_cases ended : r.over now
      · simp [settled, ended, committed, priceSum_cons]; omega
      · simp [settled, ended, committed, priceSum_cons, owedSum_cons, gone]; omega
    · have stays : r.collect q = r := if_neg settled
      simp [settled, owedSum_cons, stays]; omega

theorem eventId_atBoundary (t : Nat) (r : PurchaseRecord) : (r.atBoundary t).eventId = r.eventId := by
  unfold PurchaseRecord.atBoundary; split <;> rfl

theorem eventId_collect (q : Nat) (r : PurchaseRecord) : (r.collect q).eventId = r.eventId := by
  unfold PurchaseRecord.collect; split <;> rfl

/-- Some of the records, each with its event, are as many at most and as distinct. -/
theorem nodup_eventIds {g : PurchaseRecord → PurchaseRecord} (hg : ∀ r, (g r).eventId = r.eventId)
    (p : PurchaseRecord → Bool) {rs : List PurchaseRecord} (h : (rs.map PurchaseRecord.eventId).Nodup) :
    (((rs.filter p).map g).map PurchaseRecord.eventId).Nodup := by
  rw [List.map_map, show PurchaseRecord.eventId ∘ g = PurchaseRecord.eventId from funext hg]
  exact h.sublist (List.filter_sublist.map _)

/-- A hand-over makes transmitter and queue agree (R142). -/
theorem Purchase.Lawful.handedOver {p x : Purchase} (h : p.Lawful) (records : x.records = p.records)
    (debt : x.debt = p.debt) (limit : x.limit = p.limit) (queue : x.returnQueue.length ≤ 8) :
    x.handedOver.Lawful where
  size := (records ▸ h.size : x.records.length ≤ 32)
  distinct := (records ▸ h.distinct : (x.records.map PurchaseRecord.eventId).Nodup)
  debt := (debt.trans (records ▸ h.debt) : x.debt = owedSum x.records)
  debtMax := (debt ▸ h.debtMax : x.debt ≤ 65535)
  limitMax := (limit ▸ h.limitMax : x.limit ≤ 65535)
  queue := queue
  idle := by unfold Purchase.handedOver; split <;> simp [*]
  waits := by unfold Purchase.handedOver; split <;> simp
  attempts := Nat.zero_le _

theorem PurchaseMove.lawful {p x : Purchase} (m : PurchaseMove p x) (h : p.Lawful) : x.Lawful := by
  cases m with
  | taken e price t new room credit =>
    have owed : (newPurchase p.nextSeq e price t).state ≠ .collected := by
      unfold newPurchase; dsimp only; split <;> simp
    refine { h with size := ?_, distinct := ?_, debt := ?_, debtMax := credit.trans h.limitMax }
    · simpa using room
    · have fresh : ∀ r ∈ p.records, r.eventId ≠ e.id := by simpa [bought] using new
      rw [List.map_append, List.nodup_append]
      refine ⟨h.distinct, by simp, ?_⟩
      intro a ha b hb
      obtain ⟨r, hr, rfl⟩ := List.mem_map.1 ha
      obtain rfl : b = e.id := by simpa [newPurchase] using hb
      exact fresh r hr
    · rw [owedSum_append, owedSum_cons, if_neg owed, ← h.debt]; rfl
  | cancelled r held provisional =>
    have sum := owedSum_without h.distinct held (by simp [provisional])
    have debt := h.debt
    refine { h with
      size := (List.length_filter_le ..).trans h.size
      distinct := h.distinct.sublist (List.filter_sublist.map _), debt := ?_
      debtMax := (Nat.sub_le ..).trans h.debtMax }
    dsimp only
    omega
  | second t =>
    exact { h with
      size := by simpa using (List.length_filter_le ..).trans h.size
      distinct := nodup_eventIds (eventId_atBoundary t) _ h.distinct
      debt := h.debt.trans (owedSum_second ..).symm }
  | limited n small => exact { h with limitMax := small }
  | cleared q now =>
    have sum := owedSum_cleared q now p.records
    have debt := h.debt
    refine { h with
      size := by simpa using (List.length_filter_le ..).trans h.size
      distinct := nodup_eventIds (eventId_collect q) _ h.distinct, debt := ?_
      debtMax := (Nat.sub_le ..).trans h.debtMax }
    dsimp only
    omega
  | reported cells few =>
    have size := h.size
    exact h.handedOver rfl rfl rfl (by dsimp only; omega)
  | headSent => exact h.handedOver rfl rfl rfl (by have := h.queue; simp only [List.length_tail]; omega)
  | headDropped => exact h.handedOver rfl rfl rfl (by have := h.queue; simp only [List.length_tail]; omega)
  | waits k left sending few =>
    have queue : p.returnQueue ≠ [] := fun empty => by
      have := h.idle.2 empty
      rw [sending] at this; cases this
    exact { h with idle := by simpa using queue, waits := by simp, attempts := by dsimp only; omega }
  | retried out =>
    have waiting : p.tx = .waiting := h.waits.1 (by rw [out]; rfl)
    have queue : p.returnQueue ≠ [] := fun empty => by
      have := h.idle.2 empty
      rw [waiting] at this; cases this
    exact { h with idle := by simpa using queue, waits := by simp }
  | ticked => exact { h with waits := by simpa [tickTimer] using h.waits }
  | malformed => exact { h with }
  | ignored => exact { h with }
  | spurious => exact { h with }
  | cold => constructor <;> simp [State.coldPurchase, owedSum]

theorem Purchase.Lawful.kept {p : Purchase} (h : p.Lawful) : p.kept.Lawful :=
  { h with
    queue := by simp [Purchase.kept, State.coldPurchase], idle := by simp [Purchase.kept, State.coldPurchase]
    waits := by simp [Purchase.kept, State.coldPurchase], attempts := by simp [Purchase.kept, State.coldPurchase] }

/-- Settles O48: each change of the purchase unit keeps list, debt and transmitter in agreement, and no other atom
touches them. -/
theorem purchaseLawIsKept : Obligations.PurchaseLawIsKept := by
  refine keptByEveryStep_of_atom (fun _ h => h) fun K s t atom h => ?_
  rw [purchaseLaw_iff] at h ⊢
  rcases atom.purchase_cases with same | move | kept
  · rwa [same]
  · exact move.lawful h
  · rw [kept]; exact h.kept

/-! ## Allowances and PIN (R149, R151, R163) -/

theorem limits_raise (n : Notice) (s : State) : (raise n s).limits = s.limits := by
  unfold raise reportRaise
  split_ifs <;> rfl

theorem Atom.limits_cases {s t : State} (h : Atom K s t) :
    t.limits = s.limits ∨ LimitsMove s.limits t.limits ∨ t.limits = s.limits.kept := by
  cases h with
  | raise n => exact .inl (limits_raise n s)
  | transfer =>
    refine .inl ?_
    unfold transferLocal
    split
    · rfl
    · split <;> rfl
  | write => obtain ⟨_, _, _, _, _, h, _⟩ := writeCell_frame s; exact .inl h
  | limits x h => exact .inr (.inl h)
  | warm | soft => exact .inr (.inr rfl)
  | _ => exact .inl rfl

structure Limits.Lawful (l : Limits) : Prop where
  profile1 : l.profile1.lawful
  profile2 : l.profile2.lawful
  profile3 : l.profile3.lawful
  attempts : l.attempts ≤ 3
  lockout : l.lockout.isSome ↔ l.attempts = 3
  pin : ∀ v, l.pin = some v → v ≤ 9999

theorem limitsLaw_iff (s : State) : LimitsLaw s ↔ s.limits.Lawful :=
  ⟨fun ⟨a, b, c, d, e, f⟩ => ⟨a, b, c, d, e, f⟩, fun ⟨a, b, c, d, e, f⟩ => ⟨a, b, c, d, e, f⟩⟩

theorem household_lawful : household.lawful := ⟨by decide, by decide⟩

theorem Limits.Lawful.profileOf {l : Limits} (h : l.Lawful) (p : Fin 4) : (profileOf l p).lawful :=
  match p with
  | 0 => household_lawful
  | 1 => h.profile1
  | 2 => h.profile2
  | 3 => h.profile3

theorem Limits.Lawful.setProfile {l : Limits} (h : l.Lawful) (p : Fin 4) {x : Profile} (hx : x.lawful) :
    (setProfile l p x).Lawful :=
  match p with
  | 0 => h
  | 1 => { h with profile1 := hx }
  | 2 => { h with profile2 := hx }
  | 3 => { h with profile3 := hx }

theorem Profile.lawful_written {p : Profile} {x : ProfileParams} (hx : x.allowance ≤ 1440) : (p.written x).lawful := by
  refine ⟨hx, ?_⟩
  unfold Profile.written; dsimp only
  split <;> omega

theorem Profile.lawful.restored {p : Profile} (h : p.lawful) : p.restored.lawful := ⟨h.1, Nat.le_refl _⟩

theorem Limits.Lawful.pinCheck {l : Limits} (h : l.Lawful) (param : Nat) : (pinCheck param l).2.Lawful := by
  unfold Machine.pinCheck
  split
  · exact h
  · rename_i free
    have unlocked : l.lockout = none := by simpa using free
    have few : l.attempts ≠ 3 := fun three => free (h.lockout.2 three)
    have attempts := h.attempts
    split
    · exact h
    · split
      · exact { h with attempts := Nat.zero_le _, lockout := by simp [unlocked] }
      · unfold wrongAttempt; dsimp only
        split
        · rename_i three
          exact { h with attempts := by dsimp only; omega, lockout := by simp [three] }
        · rename_i two
          exact { h with attempts := by dsimp only; omega, lockout := by simp [unlocked, two] }

theorem LimitsMove.lawful {l x : Limits} (m : LimitsMove l x) (h : l.Lawful) : x.Lawful := by
  cases m with
  | running | standing | part | active | malformed => exact { h with }
  | written p x small => exact h.setProfile p (Profile.lawful_written small)
  | restored =>
    exact { h with profile1 := h.profile1.restored, profile2 := h.profile2.restored, profile3 := h.profile3.restored }
  | spent =>
    have part : ({ l with part := 0 } : Limits).Lawful := { h with }
    obtain ⟨allowance, remaining⟩ := h.profileOf l.active
    exact part.setProfile l.active ⟨allowance, (Nat.sub_le ..).trans remaining⟩
  | checked param => exact h.pinCheck param
  | pinSet pin small unlocked =>
    exact { h with attempts := Nat.zero_le _, lockout := by simp [unlocked], pin := small }
  | pinReset pin small => exact { h with attempts := Nat.zero_le _, lockout := by simp, pin := small }
  | unlocked => exact { h with attempts := Nat.zero_le _, lockout := by simp }
  | ticked => exact { h with lockout := by simpa [tickTimer] using h.lockout }
  | cold => constructor <;> simp [State.coldLimits, State.coldProfile, Profile.lawful]

/-- Settles O49: each change of the limits unit keeps the ranges of allowances, attempts and PIN. -/
theorem limitsLawIsKept : Obligations.LimitsLawIsKept := by
  refine keptByEveryStep_of_atom (fun _ h => h) fun K s t atom h => ?_
  rw [limitsLaw_iff] at h ⊢
  rcases atom.limits_cases with same | move | kept
  · rwa [same]
  · exact move.lawful h
  · rw [kept]; exact { h with }

/-! ## The clock (R40 to R54) -/

structure Clock.Lawful (c : Clock) : Prop where
  n : c.n < 2 ^ 42
  sMin : -1024 ≤ c.s
  sMax : c.s ≤ 1024
  k : c.k ≤ 15
  offsetMin : -48 ≤ c.offset
  offsetMax : c.offset ≤ 56
  stepCount : c.stepCount ≤ 65535
  thresholdMin : 64 ≤ c.threshold
  thresholdMax : c.threshold ≤ 16384
  lossMin : 10 ≤ c.lossTime
  lossMax : c.lossTime ≤ 600
  unset : c.state = .unset → c.lossTimer = none ∧ c.lastMinute = none

theorem clockLaw_iff (s : State) : ClockLaw s ↔ s.clock.Lawful :=
  ⟨fun ⟨a, b, c, d, e, f, g, h, i, j, k, l⟩ => ⟨a, b, c, d, e, f, g, h, i, j, k, l⟩,
    fun ⟨a, b, c, d, e, f, g, h, i, j, k, l⟩ => ⟨a, b, c, d, e, f, g, h, i, j, k, l⟩⟩

/-- A change of the clock: one that leaves network time alone, one of network time, or a reset. -/
inductive ClockAtom (K : Special → Prop) (c : Clock) : Clock → Prop
  | same : ClockAtom K c c
  | move {x : Clock} (h : ClockMove c x) : ClockAtom K c x
  | advance (hk : K .time) : ClockAtom K c c.advanced
  | step (hk : K .time) (b : Bytes) (src : MarkSource) : ClockAtom K c (c.stepped (readMark b src))
  | warm (hk : K .warm) : ClockAtom K c c.warmReset
  | soft (hk : K .soft) : ClockAtom K c c.softReset

theorem Atom.clock_cases {s t : State} (h : Atom K s t) : ClockAtom K s.clock t.clock := by
  cases h with
  | raise n => rw [clock_of_undecided (undecided_raise n s)]; exact .same
  | transfer => rw [clock_of_undecided (undecided_transferLocal s)]; exact .same
  | write => obtain ⟨h, _⟩ := writeCell_frame s; rw [h]; exact .same
  | clock x h => exact .move h
  | advance hk => exact .advance hk
  | step hk b src => exact .step hk b src
  | warm hk => exact .warm hk
  | soft hk => exact .soft hk
  | _ => exact .same

theorem clampInt_range {lo hi : Int} (h : lo ≤ hi) (n : Int) : lo ≤ clampInt lo hi n ∧ clampInt lo hi n ≤ hi := by
  unfold clampInt; omega

theorem clampNat_range {lo hi : Nat} (h : lo ≤ hi) (n : Nat) : lo ≤ clampNat lo hi n ∧ clampNat lo hi n ≤ hi := by
  unfold clampNat; omega

/-- A mark read is below 2^42 (R42). -/
theorem value_readMark_lt (b : Bytes) (src : MarkSource) : (readMark b src).value < 2 ^ 42 := by
  have seconds : beNat (b.take 4) < 256 ^ 4 :=
    (beNat_lt _).trans_le (Nat.pow_le_pow_right (by decide) (List.length_take_le ..))
  have fraction : min (beNat ((b.drop 4).take 2)) 1023 ≤ 1023 := Nat.min_le_right ..
  unfold readMark; dsimp only
  omega

theorem offset_readMark (b : Bytes) (src : MarkSource) :
    -48 ≤ (readMark b src).offset ∧ (readMark b src).offset ≤ 56 := clampInt_range (by decide) _

theorem ClockMove.lawful {c x : Clock} (m : ClockMove c x) (h : c.Lawful) : x.Lawful := by
  cases m with
  | ticked =>
    exact { h with unset := fun unset => by obtain ⟨loss, minute⟩ := h.unset unset; simp [tickTimer, loss, minute] }
  | lost => exact { h with unset := nofun }
  | slewed set b src =>
    obtain ⟨sMin, sMax⟩ := clampInt_range (lo := -1024) (hi := 1024) (by decide) (markError (readMark b src).value c.n)
    obtain ⟨oMin, oMax⟩ := offset_readMark b src
    unfold Clock.slewed Clock.marked
    exact { h with sMin := sMin, sMax := sMax, offsetMin := oMin, offsetMax := oMax, unset := nofun }
  | short | ignored | credited => exact { h with }
  | minute set m => exact { h with unset := fun unset => absurd unset set }
  | configured vs =>
    have threshold : 64 ≤ (c.configure vs).threshold ∧ (c.configure vs).threshold ≤ 16384 := by
      unfold Clock.configure
      cases fieldValue vs 5 with
      | none => exact ⟨h.thresholdMin, h.thresholdMax⟩
      | some n => exact clampNat_range (by decide) n
    have loss : 10 ≤ (c.configure vs).lossTime ∧ (c.configure vs).lossTime ≤ 600 := by
      unfold Clock.configure
      cases fieldValue vs 6 with
      | none => exact ⟨h.lossMin, h.lossMax⟩
      | some n => exact clampNat_range (by decide) n
    exact { h with
      thresholdMin := threshold.1, thresholdMax := threshold.2, lossMin := loss.1, lossMax := loss.2 }

theorem Clock.Lawful.advanced {c : Clock} (h : c.Lawful) : c.advanced.Lawful := by
  have sMin := h.sMin
  have sMax := h.sMax
  have drained : -1024 ≤ c.drained ∧ c.drained ≤ 1024 := by
    unfold Clock.drained
    split_ifs with up down
    · simp only [Bool.and_eq_true, decide_eq_true_eq] at up; omega
    · simp only [Bool.and_eq_true, decide_eq_true_eq] at down; omega
    · exact ⟨sMin, sMax⟩
  exact { h with
    n := Nat.mod_lt _ (by decide), sMin := drained.1, sMax := drained.2
    k := Nat.le_of_lt_succ (Nat.mod_lt _ (by decide)) }

theorem Clock.Lawful.stepped {c : Clock} (h : c.Lawful) (b : Bytes) (src : MarkSource) :
    (c.stepped (readMark b src)).Lawful := by
  obtain ⟨oMin, oMax⟩ := offset_readMark b src
  exact { h with
    n := value_readMark_lt b src, sMin := (by decide : (-1024 : Int) ≤ 0), sMax := (by decide : (0 : Int) ≤ 1024)
    stepCount := Nat.min_le_right .., offsetMin := oMin, offsetMax := oMax, unset := nofun }

theorem ClockAtom.lawful {c x : Clock} (a : ClockAtom K c x) (h : c.Lawful) : x.Lawful := by
  cases a with
  | same => exact h
  | move m => exact m.lawful h
  | advance => exact h.advanced
  | step hk b src => exact h.stepped b src
  | warm => constructor <;> simp [Clock.warmReset, State.coldClock]
  | soft => exact { h with }

/-- Settles O57: each change of the clock keeps its ranges. -/
theorem clockLawIsKept : Obligations.ClockLawIsKept := by
  refine keptByEveryStep_of_atom (fun _ h => h) fun K s t atom h => ?_
  rw [clockLaw_iff] at h ⊢
  exact atom.clock_cases.lawful h

end Sys2Proof.Machine
end

