-- ==== Sys2Proof/Proofs/TableLaws.lean ====
section
/-! PROOFS. O52 and O56: the event table, the channel map, the entitlement table and the queues keep their laws. -/

namespace Sys2Proof.Machine

set_option Elab.async false

variable {K : Special → Prop}

/-! ## The event table (R62, R63) -/

theorem Atom.events_cases {s t : State} (h : Atom K s t) :
    t.guide.events = s.guide.events ∨ EventsMove s.guide t.guide ∨ t.guide.events = [] := by
  have quiet (h : undecided t = undecided s) : t.guide.events = s.guide.events :=
    (congrArg (fun x : State => x.guide.events) h :)
  cases h with
  | raise n => exact .inl (quiet (undecided_raise n s))
  | transfer => exact .inl (quiet (undecided_transferLocal s))
  | write => obtain ⟨_, h, _⟩ := writeCell_frame s; exact .inl (by rw [h])
  | guide x _ he => exact .inl he
  | channels rs => exact .inl (takeChannelRecords_frame rs s.guide).1
  | events x h => exact .inr (.inl h)
  | warm => exact .inr (.inr rfl)
  | _ => exact .inl rfl

/-- Two records in the order of the table, without overlap. -/
abbrev EventRecord.precedes (a b : EventRecord) : Prop :=
  a.channel < b.channel ∨ (a.channel = b.channel ∧ a.ends ≤ b.start)

/-- The law of the event table, on its records. -/
structure LawfulEvents (es : List EventRecord) : Prop where
  size : es.length ≤ 1024
  distinct : (es.map EventRecord.id).Nodup
  duration : ∀ e ∈ es, 60 ≤ e.duration
  order : es.Pairwise EventRecord.precedes

theorem eventTableLaw_iff (s : State) : EventTableLaw s ↔ LawfulEvents s.guide.events :=
  ⟨fun ⟨a, b, c, d⟩ => ⟨a, b, c, d⟩, fun ⟨a, b, c, d⟩ => ⟨a, b, c, d⟩⟩

theorem LawfulEvents.sublist {es xs : List EventRecord} (h : LawfulEvents es) (sub : xs.Sublist es) :
    LawfulEvents xs where
  size := sub.length_le.trans h.size
  distinct := h.distinct.sublist (sub.map _)
  duration e he := h.duration e (sub.subset he)
  order := h.order.sublist sub

theorem insertEvent_perm (e : EventRecord) (es : List EventRecord) : (insertEvent e es).Perm (e :: es) := by
  induction es with
  | nil => exact .refl _
  | cons x xs ih =>
    unfold insertEvent
    split
    · exact .refl _
    · exact (ih.cons x).trans (.swap e x xs)

theorem overlaps_eq_false_iff {a b : EventRecord} :
    a.overlaps b = false ↔ b.ends ≤ a.start ∨ a.ends ≤ b.start := by
  unfold EventRecord.overlaps
  rw [Bool.and_eq_false_iff, decide_eq_false_iff_not, decide_eq_false_iff_not, Nat.not_lt, Nat.not_lt]

/-- A record goes into its place among records that it does not overlap (R63, step 4). -/
theorem insertEvent_order {e : EventRecord} {es : List EventRecord} (he : 60 ≤ e.duration)
    (duration : ∀ x ∈ es, 60 ≤ x.duration) (apart : ∀ x ∈ es, x.channel = e.channel → x.overlaps e = false)
    (order : es.Pairwise EventRecord.precedes) : (insertEvent e es).Pairwise EventRecord.precedes := by
  induction es with
  | nil => simp [insertEvent]
  | cons x xs ih =>
    obtain ⟨first, rest⟩ := List.pairwise_cons.1 order
    obtain ⟨hx, hxs⟩ := List.forall_mem_cons.1 duration
    obtain ⟨ax, axs⟩ := List.forall_mem_cons.1 apart
    have ax' := fun same => overlaps_eq_false_iff.1 (ax same)
    simp only [EventRecord.ends] at ax'
    unfold insertEvent
    split
    · rename_i before
      simp only [EventRecord.before, Bool.or_eq_true, Bool.and_eq_true, decide_eq_true_eq] at before
      refine List.pairwise_cons.2 ⟨fun y hy => ?_, order⟩
      have ex : e.precedes x := by
        unfold EventRecord.precedes EventRecord.ends; omega
      rcases List.mem_cons.1 hy with rfl | hy
      · exact ex
      · have xy := first y hy
        unfold EventRecord.precedes EventRecord.ends at ex xy ⊢; omega
    · rename_i after
      simp only [EventRecord.before, Bool.or_eq_true, Bool.and_eq_true, decide_eq_true_eq] at after
      refine List.pairwise_cons.2 ⟨fun y hy => ?_, ih hxs axs rest⟩
      rcases List.mem_cons.1 ((insertEvent_perm e xs).subset hy) with rfl | hy
      · unfold EventRecord.precedes EventRecord.ends; omega
      · exact first y hy

theorem LawfulEvents.insert {e : EventRecord} {es : List EventRecord} (h : LawfulEvents es) (he : 60 ≤ e.duration)
    (room : es.length < 1024) (new : ∀ x ∈ es, x.id ≠ e.id)
    (apart : ∀ x ∈ es, x.channel = e.channel → x.overlaps e = false) : LawfulEvents (insertEvent e es) where
  size := by rw [(insertEvent_perm e es).length_eq]; exact room
  distinct := by
    rw [((insertEvent_perm e es).map EventRecord.id).nodup_iff, List.map_cons, List.nodup_cons]
    refine ⟨fun he => ?_, h.distinct⟩
    obtain ⟨x, hx, same⟩ := List.mem_map.1 he
    exact new x hx same
  duration x hx := by
    rcases List.mem_cons.1 ((insertEvent_perm e es).subset hx) with rfl | hx
    · exact he
    · exact h.duration x hx
  order := insertEvent_order he h.duration apart h.order

theorem mem_clearPlace {e x : EventRecord} {es : List EventRecord} (h : x ∈ clearPlace e es) :
    x.id ≠ e.id ∧ (x.channel = e.channel → x.overlaps e = false) := by
  obtain ⟨_, h⟩ := List.mem_filter.1 h
  simp only [Bool.and_eq_true, decide_eq_true_eq, Bool.not_eq_true', Bool.and_eq_false_iff,
    decide_eq_false_iff_not] at h
  exact ⟨h.1, fun same => h.2.resolve_left (not_not.2 same)⟩

/-- A fold that keeps its best or takes the next yields one of what it began with. -/
theorem mem_of_foldl {α : Type} {f : Option α → α → Option α}
    (pick : ∀ best e x, f best e = some x → x = e ∨ best = some x) (es : List α) (best : Option α) (x : α)
    (h : es.foldl f best = some x) : x ∈ es ∨ best = some x := by
  induction es generalizing best with
  | nil => exact .inr h
  | cons e es ih =>
    rcases ih _ h with later | now
    · exact .inl (List.mem_cons_of_mem _ later)
    · rcases pick _ _ _ now with rfl | kept
      · exact .inl List.mem_cons_self
      · exact .inr kept

theorem mem_of_earliestEnded {now : Option Nat} {x : EventRecord} {es : List EventRecord}
    (h : earliestEnded now es = some x) : x ∈ es := by
  unfold earliestEnded at h
  have := (mem_of_foldl (fun best e y h => by cases best <;> grind) _ _ _ h).resolve_right nofun
  exact (List.mem_filter.1 this).1

theorem mem_of_latestStarting {x : EventRecord} {es : List EventRecord} (h : latestStarting es = some x) :
    x ∈ es := by
  unfold latestStarting at h
  exact (mem_of_foldl (fun best e y h => by cases best <;> grind) _ _ _ h).resolve_right nofun

theorem mem_of_earliestExpiry {x : Entitlement} {es : List Entitlement} (h : earliestExpiry es = some x) :
    x ∈ es := by
  unfold earliestExpiry at h
  exact (mem_of_foldl (fun best e y h => by cases best <;> grind) _ _ _ h).resolve_right nofun

/-- What makes room is one of the records held (R66). -/
theorem mem_of_evicted {now : Option Nat} {e x : EventRecord} {es : List EventRecord}
    (h : evicted now e es = some x) : x ∈ es := by
  unfold evicted at h
  split at h
  · rename_i found
    exact mem_of_earliestEnded (found.trans h)
  · split at h
    · rename_i found
      split at h
      · cases h
      · exact mem_of_latestStarting (found.trans h)
    · cases h

theorem LawfulEvents.upsert {g : Guide} (h : LawfulEvents g.events) (now : Option Nat) (e : EventRecord)
    (he : 60 ≤ e.duration) : LawfulEvents (upsert now g e).events := by
  have cleared : LawfulEvents (clearPlace e g.events) := h.sublist List.filter_sublist
  unfold Machine.upsert; dsimp only
  split
  · rename_i room
    exact cleared.insert he room (fun x hx => (mem_clearPlace hx).1) fun x hx => (mem_clearPlace hx).2
  · split
    · rename_i x found
      have sub : (dropEvent x.id (clearPlace e g.events)).Sublist (clearPlace e g.events) := List.filter_sublist
      refine (cleared.sublist sub).insert he ?_ (fun y hy => (mem_clearPlace (sub.subset hy)).1)
        fun y hy => (mem_clearPlace (sub.subset hy)).2
      have fewer : (dropEvent x.id (clearPlace e g.events)).length < (clearPlace e g.events).length :=
        List.length_filter_lt_length_iff_exists.2 ⟨x, mem_of_evicted found, by simp⟩
      exact fewer.trans_le cleared.size
    · exact cleared

theorem EventsMove.lawful {g x : Guide} (m : EventsMove g x) (h : LawfulEvents g.events) :
    LawfulEvents x.events := by
  cases m with
  | upserted now e he => exact h.upsert now e he
  | removed p n => exact h.sublist List.filter_sublist

/-- Settles O52: an upsert clears the place of the record it inserts, and every other change only removes records. -/
theorem eventTableLawIsKept : Obligations.EventTableLawIsKept := by
  refine keptByEveryStep_of_atom (fun _ h => h) fun K s t atom h => ?_
  rw [eventTableLaw_iff] at h ⊢
  rcases atom.events_cases with same | move | none
  · rwa [same]
  · exact move.lawful h
  · rw [none]; exact h.sublist (List.nil_sublist _)

/-! ## Channel map and entitlement table (R59, R114) -/

theorem Atom.channels_cases {s t : State} (h : Atom K s t) :
    t.guide.channels = s.guide.channels ∨ (∃ rs, t.guide = takeChannelRecords rs s.guide) ∨ t.guide.channels = [] := by
  have quiet (h : undecided t = undecided s) : t.guide.channels = s.guide.channels :=
    (congrArg (fun x : State => x.guide.channels) h :)
  cases h with
  | raise n => exact .inl (quiet (undecided_raise n s))
  | transfer => exact .inl (quiet (undecided_transferLocal s))
  | write => obtain ⟨_, h, _⟩ := writeCell_frame s; exact .inl (by rw [h])
  | guide x hc _ => exact .inl hc
  | channels rs => exact .inr (.inl ⟨rs, rfl⟩)
  | events x h =>
    refine .inl ?_
    cases h with
    | upserted now e _ => unfold upsert; dsimp only; split <;> [rfl; (split <;> rfl)]
    | removed => rfl
  | warm => exact .inr (.inr rfl)
  | _ => exact .inl rfl

theorem Atom.entitlements_cases {s t : State} (h : Atom K s t) :
    EntitlementsMove s.access.entitlements t.access.entitlements := by
  have kept (h : t.access = s.access) : EntitlementsMove s.access.entitlements t.access.entitlements := by
    rw [h]; exact .fewer (List.Sublist.refl _)
  cases h with
  | raise n => exact kept (congrArg State.access (undecided_raise n s) :)
  | transfer => exact kept (congrArg State.access (undecided_transferLocal s) :)
  | write => obtain ⟨_, _, _, h, _⟩ := writeCell_frame s; exact kept h
  | access x h => exact h
  | _ => exact .fewer (List.Sublist.refl _)

/-- A list kept in strict order of a number, within a size. -/
structure LawfulTable {α : Type} (number : α → Nat) (size : Nat) (xs : List α) : Prop where
  size : xs.length ≤ size
  order : xs.Pairwise (fun a b => number a < number b)

theorem LawfulTable.sublist {α : Type} {number : α → Nat} {size : Nat} {xs ys : List α}
    (h : LawfulTable number size xs) (sub : ys.Sublist xs) : LawfulTable number size ys :=
  ⟨sub.length_le.trans h.size, h.order.sublist sub⟩

theorem tablesLaw_iff (s : State) : TablesLaw s ↔
    LawfulTable ChannelEntry.number 512 s.guide.channels ∧ LawfulTable Entitlement.tier 64 s.access.entitlements :=
  ⟨fun ⟨a, b, c, d⟩ => ⟨⟨a, b⟩, ⟨c, d⟩⟩, fun ⟨⟨a, b⟩, ⟨c, d⟩⟩ => ⟨a, b, c, d⟩⟩

/-- x put in order of its number into a list, replacing what has its number: what both tables do (R59, R114). -/
def putInOrder {α : Type} (number : α → Nat) (e : α) : List α → List α
  | [] => [e]
  | x :: xs =>
    if number e < number x then e :: x :: xs
    else if number e = number x then e :: xs
    else x :: putInOrder number e xs

theorem putEntry_eq (e : ChannelEntry) (xs : List ChannelEntry) :
    putEntry e xs = putInOrder ChannelEntry.number e xs := by
  induction xs with
  | nil => rfl
  | cons x xs ih => simp only [putEntry, putInOrder, ih]

theorem putEntitlement_eq (e : Entitlement) (xs : List Entitlement) :
    putEntitlement e xs = putInOrder Entitlement.tier e xs := by
  induction xs with
  | nil => rfl
  | cons x xs ih => simp only [putEntitlement, putInOrder, ih]

section PutInOrder

variable {α : Type} {number : α → Nat}

theorem mem_putInOrder {e y : α} {xs : List α} (h : y ∈ putInOrder number e xs) : y = e ∨ y ∈ xs := by
  induction xs with
  | nil => exact .inl (List.mem_singleton.1 h)
  | cons x xs ih =>
    unfold putInOrder at h
    split_ifs at h
    · exact List.mem_cons.1 h
    · exact (List.mem_cons.1 h).imp_right (List.mem_cons_of_mem _)
    · rcases List.mem_cons.1 h with rfl | h
      · exact .inr List.mem_cons_self
      · exact (ih h).imp_right (List.mem_cons_of_mem _)

theorem putInOrder_order (e : α) {xs : List α} (h : xs.Pairwise (fun a b => number a < number b)) :
    (putInOrder number e xs).Pairwise (fun a b => number a < number b) := by
  induction xs with
  | nil => simp [putInOrder]
  | cons x xs ih =>
    obtain ⟨first, rest⟩ := List.pairwise_cons.1 h
    unfold putInOrder
    split_ifs with below same
    · refine List.pairwise_cons.2 ⟨fun y hy => ?_, h⟩
      rcases List.mem_cons.1 hy with rfl | hy
      · exact below
      · exact below.trans (first y hy)
    · exact List.pairwise_cons.2 ⟨fun y hy => same ▸ first y hy, rest⟩
    · refine List.pairwise_cons.2 ⟨fun y hy => ?_, ih rest⟩
      rcases mem_putInOrder hy with rfl | hy
      · omega
      · exact first y hy

theorem length_putInOrder_le (e : α) (xs : List α) : (putInOrder number e xs).length ≤ xs.length + 1 := by
  induction xs with
  | nil => exact Nat.le_refl _
  | cons x xs ih => unfold putInOrder; split_ifs <;> simp only [List.length_cons] <;> omega

/-- One with a number that the list has takes its place. -/
theorem length_putInOrder_of_mem {e : α} {xs : List α} (h : xs.Pairwise (fun a b => number a < number b))
    (held : ∃ x ∈ xs, number x = number e) : (putInOrder number e xs).length = xs.length := by
  induction xs with
  | nil => obtain ⟨_, h, _⟩ := held; cases h
  | cons x xs ih =>
    obtain ⟨first, rest⟩ := List.pairwise_cons.1 h
    obtain ⟨y, hy, same⟩ := held
    unfold putInOrder
    split_ifs with below equal
    · rcases List.mem_cons.1 hy with rfl | hy
      · omega
      · have := first y hy; omega
    · rfl
    · rcases List.mem_cons.1 hy with rfl | hy
      · exact absurd same.symm equal
      · rw [List.length_cons, ih rest ⟨y, hy, same⟩, List.length_cons]

theorem LawfulTable.put {size : Nat} {xs : List α} (h : LawfulTable number size xs) (e : α)
    (room : (∃ x ∈ xs, number x = number e) ∨ xs.length < size) :
    LawfulTable number size (putInOrder number e xs) := by
  refine ⟨?_, putInOrder_order e h.order⟩
  rcases room with held | room
  · rw [length_putInOrder_of_mem h.order held]; exact h.size
  · exact (length_putInOrder_le e xs).trans room

end PutInOrder

theorem LawfulTable.takeChannelRecord {g : Guide} (h : LawfulTable ChannelEntry.number 512 g.channels)
    (r : ChannelRecord) : LawfulTable ChannelEntry.number 512 (takeChannelRecord g r).channels := by
  unfold Machine.takeChannelRecord applyChannelRecord
  split_ifs with good withdraws room
  · exact h.sublist List.filter_sublist
  · dsimp only
    rw [putEntry_eq]
    refine h.put _ ?_
    simp only [Bool.or_eq_true, decide_eq_true_eq, entryOf, List.find?_isSome] at room
    exact room.imp_left fun ⟨x, hx, same⟩ => ⟨x, hx, by simpa [ChannelRecord.entry] using same⟩
  · exact h
  · exact h

theorem LawfulTable.takeChannelRecords {g : Guide} (h : LawfulTable ChannelEntry.number 512 g.channels)
    (rs : List ChannelRecord) : LawfulTable ChannelEntry.number 512 (takeChannelRecords rs g).channels := by
  have fold : ∀ (rs : List ChannelRecord) (g : Guide), LawfulTable ChannelEntry.number 512 g.channels →
      LawfulTable ChannelEntry.number 512 (rs.foldl Machine.takeChannelRecord g).channels := by
    intro rs
    induction rs with
    | nil => exact fun _ h => h
    | cons r rs ih => exact fun _ h => ih _ (h.takeChannelRecord r)
  exact fold _ _ (fold _ _ h)

theorem LawfulTable.entitle {es xs : List Entitlement} (h : LawfulTable Entitlement.tier 64 es) {e : Entitlement}
    (taken : entitleTable e es = some xs) : LawfulTable Entitlement.tier 64 xs := by
  unfold entitleTable at taken
  split at taken
  · rename_i room
    cases taken
    rw [putEntitlement_eq]
    refine h.put e ?_
    simp only [Bool.or_eq_true, holdsAnyDay, List.any_eq_true, decide_eq_true_eq] at room
    exact room
  · split at taken
    · cases taken
    · rename_i x found
      split at taken
      · cases taken
        have sub : (es.filter (fun y => y.tier ≠ x.tier)).Sublist es := List.filter_sublist
        rw [putEntitlement_eq]
        have held : x ∈ es := mem_of_earliestExpiry found
        have fewer : (es.filter (fun y => y.tier ≠ x.tier)).length < es.length :=
          List.length_filter_lt_length_iff_exists.2 ⟨x, held, by simp⟩
        exact (h.sublist sub).put e (.inr (fewer.trans_le h.size))
      · cases taken

theorem tablesLaw_kept : KeptByEveryStep TablesLaw := by
  refine keptByEveryStep_of_atom (fun _ h => h) fun K s t atom h => ?_
  rw [tablesLaw_iff] at h ⊢
  obtain ⟨channels, tiers⟩ := h
  constructor
  · rcases atom.channels_cases with same | ⟨rs, taken⟩ | none
    · rwa [same]
    · rw [taken]; exact channels.takeChannelRecords rs
    · rw [none]; exact channels.sublist (List.nil_sublist _)
  · cases atom.entitlements_cases with
    | fewer sub => exact tiers.sublist sub
    | entitled e taken => exact tiers.entitle taken

/-! ## Queues and tables of bounded size (R20, R29, R175, R181) -/

theorem Atom.filter_cases {s t : State} (h : Atom K s t) :
    (t.filter.entries.map FilterEntry.key).Sublist (s.filter.entries.map FilterEntry.key) ∨
    ∃ e, s.filter.entries.length < 24 ∧ entryAt s e.feed e.stream = none ∧
      t.filter.entries = s.filter.entries ++ [e] := by
  have kept (h : t.filter = s.filter) :
      (t.filter.entries.map FilterEntry.key).Sublist (s.filter.entries.map FilterEntry.key) := by rw [h]
  cases h with
  | raise n => exact .inl (kept (congrArg State.filter (undecided_raise n s) :))
  | transfer => exact .inl (kept (congrArg State.filter (undecided_transferLocal s) :))
  | write => obtain ⟨_, _, _, _, _, _, _, h, _⟩ := writeCell_frame s; exact .inl (kept h)
  | filter x h => exact .inl h
  | addEntry e room new => exact .inr ⟨e, room, new, rfl⟩
  | warm | soft => exact .inl (List.nil_sublist _)
  | _ => exact .inl (List.Sublist.refl _)

theorem Atom.buffers_le {s t : State} (h : Atom K s t) :
    t.assembler.buffers.length ≤ max 12 s.assembler.buffers.length := by
  have kept (h : t.assembler = s.assembler) :
      t.assembler.buffers.length ≤ max 12 s.assembler.buffers.length := by rw [h]; omega
  cases h with
  | raise n => exact kept (congrArg State.assembler (undecided_raise n s) :)
  | transfer => exact kept (congrArg State.assembler (undecided_transferLocal s) :)
  | write => obtain ⟨_, _, _, _, _, _, _, _, h⟩ := writeCell_frame s; exact kept h
  | assembler x h => exact h
  | warm | soft => exact Nat.zero_le _
  | _ => exact kept rfl

theorem intake_raise (n : Notice) (s : State) : (raise n s).command.intake = s.command.intake :=
  (congrArg (fun x : State => x.command.intake) (undecided_raise n s) :)

theorem Atom.intake_le {s t : State} (h : Atom K s t) :
    t.command.intake.length ≤ max 8 s.command.intake.length := by
  have kept (h : t.command.intake = s.command.intake) :
      t.command.intake.length ≤ max 8 s.command.intake.length := by rw [h]; omega
  cases h with
  | raise n => exact kept (intake_raise n s)
  | transfer => exact kept (congrArg (fun x : State => x.command.intake) (undecided_transferLocal s) :)
  | write => obtain ⟨_, _, _, _, _, _, h, _⟩ := writeCell_frame s; exact kept (by rw [h])
  | command x hi => exact hi
  | warm | soft => exact Nat.zero_le _
  | _ => exact kept rfl

/-! ## The output queue -/

/-- What an atom does to the output queue. -/
inductive QueueMove (K : Special → Prop) (s : State) : List OutCell → Prop
  | same : QueueMove K s s.output.queue
  | flags (m : BitVec 16) : QueueMove K s (s.output.queue.map (OutCell.addFlags m))
  | flushed : QueueMove K s (s.output.queue.filter (fun c => !c.isProgramme))
  | transferred (c : LocalCell) (room : s.output.queue.length < 64) : QueueMove K s (s.output.queue ++ [.ofPart c])
  | entered (hk : K .gate) (c : Cell) (clear : c.phase = none) (hp : programmeCount s < 60)
      (room : s.output.queue.length < 64) : QueueMove K s (s.output.queue ++ [.programme c])
  | written (hk : K .write) : QueueMove K s s.output.queue.tail
  | emptied (hk : K .warm ∨ K .soft) : QueueMove K s []

theorem queue_raise (n : Notice) (s : State) : (raise n s).output.queue = s.output.queue ∨
    (raise n s).output.queue = s.output.queue.map (OutCell.addFlags n.mask) := by
  unfold raise reportRaise
  split_ifs
  · exact .inl rfl
  · exact .inr rfl
  all_goals exact .inl rfl

theorem Atom.queue_cases {s t : State} (h : Atom K s t) : QueueMove K s t.output.queue := by
  cases h with
  | raise n =>
    rcases queue_raise n s with h | h <;> rw [h]
    · exact .same
    · exact .flags _
  | output x h => rw [show ({ s with output := x } : State).output.queue = s.output.queue from h]; exact .same
  | flush => exact .flushed
  | transfer =>
    unfold transferLocal
    split
    · exact .same
    · split
      · exact .transferred _ ‹_›
      · exact .same
  | enqueue hk c clear hp hq => exact .entered hk c clear hp hq
  | write hk =>
    unfold writeCell
    split
    · exact .same
    · split
      · exact .same
      · rename_i cell rest queue
        have tail : rest = s.output.queue.tail := by rw [queue]; rfl
        split
        · exact .same
        · unfold writeHead
          split
          · exact tail ▸ .written hk
          · exact tail ▸ .written hk
  | warm hk => exact .emptied (.inl hk)
  | soft hk => exact .emptied (.inr hk)
  | _ => exact .same

theorem isProgramme_addFlags (m : BitVec 16) (c : OutCell) : (c.addFlags m).isProgramme = c.isProgramme := by
  cases c <;> rfl

theorem QueueMove.sizes {s : State} {q : List OutCell} (m : QueueMove K s q) (size : s.output.queue.length ≤ 64)
    (programmes : programmeCount s ≤ 60) : q.length ≤ 64 ∧ q.countP OutCell.isProgramme ≤ 60 := by
  have shorter {q : List OutCell} (sub : q.Sublist s.output.queue) : q.length ≤ 64 ∧ q.countP OutCell.isProgramme ≤ 60 :=
    ⟨sub.length_le.trans size, (sub.countP_le).trans programmes⟩
  cases m with
  | same => exact shorter (List.Sublist.refl _)
  | flags m =>
    have same : OutCell.isProgramme ∘ OutCell.addFlags m = OutCell.isProgramme := funext (isProgramme_addFlags m)
    rw [List.length_map, List.countP_map, same]
    exact ⟨size, programmes⟩
  | flushed => exact shorter List.filter_sublist
  | transferred c room =>
    have count : ([OutCell.ofPart c]).countP OutCell.isProgramme = 0 := rfl
    rw [List.length_append, List.countP_append, count]
    exact ⟨room, programmes⟩
  | entered hk c clear hp room =>
    have count : ([OutCell.programme c]).countP OutCell.isProgramme = 1 := rfl
    rw [List.length_append, List.countP_append, count]
    exact ⟨room, hp⟩
  | written => exact shorter (List.tail_sublist _)
  | emptied => exact shorter (List.nil_sublist _)

theorem capacityLaw_kept : KeptByEveryStep CapacityLaw := by
  refine keptByEveryStep_of_atom (fun _ h => h) fun K s t atom h => ?_
  obtain ⟨intake, queue, programmes, entries, distinct, buffers⟩ := h
  have distinctKeys : (s.filter.entries.map FilterEntry.key).Nodup := by
    refine List.pairwise_map.2 (distinct.imp fun h same => h ?_)
    exact ⟨congrArg Prod.fst same, congrArg Prod.snd same⟩
  have filters : t.filter.entries.length ≤ 24 ∧ (t.filter.entries.map FilterEntry.key).Nodup := by
    rcases atom.filter_cases with sub | ⟨e, room, new, added⟩
    · exact ⟨by simpa using sub.length_le.trans (by simpa using entries), distinctKeys.sublist sub⟩
    · rw [added, List.map_append, List.nodup_append]
      refine ⟨by simpa using room, distinctKeys, by simp, fun a ha b hb same => ?_⟩
      obtain ⟨x, hx, rfl⟩ := List.mem_map.1 ha
      obtain rfl := List.mem_singleton.1 hb
      have apart := List.find?_eq_none.1 new x hx
      simp only [FilterEntry.isAt, Bool.and_eq_true, decide_eq_true_eq] at apart
      exact apart ⟨congrArg Prod.fst same, congrArg Prod.snd same⟩
  obtain ⟨queue', programmes'⟩ := atom.queue_cases.sizes queue programmes
  have intake' := atom.intake_le
  have buffers' := atom.buffers_le
  refine ⟨by omega, queue', programmes', filters.1, ?_, by omega⟩
  exact (List.pairwise_map.1 filters.2).imp fun h same => h (Prod.ext same.1 same.2)

/-- Settles O56: the two laws, each by what an atom can do to the queues and tables it bounds. -/
theorem capacityAndTablesLawIsKept : Obligations.CapacityAndTablesLawIsKept := ⟨capacityLaw_kept, tablesLaw_kept⟩

end Sys2Proof.Machine
end

