-- ==== Sys2Proof/Proofs/QueueLaws.lean ====
section
/-! PROOFS. O51, O53 and O55: the PRESENT role, the clear output and the reply queue keep their laws. -/

namespace Sys2Proof.Machine

set_option Elab.async false

variable {K : Special → Prop}

/-! ## The PRESENT role (R88) -/

/-- What an atom does to the acquisition records: nothing, a change of one of them, or both cold. -/
theorem Atom.record_cases {s t : State} (h : Atom K s t) :
    t.acq.record = s.acq.record ∨ (∃ f r, RecordMove f s r ∧ t.acq.record = s.acq.record.set f r) ∨
    t.acq.record = State.coldAcq.record := by
  cases h with
  | raise n => exact .inl (congrArg (fun x : State => x.acq.record) (undecided_raise n s) :)
  | transfer => exact .inl (congrArg (fun x : State => x.acq.record) (undecided_transferLocal s) :)
  | write => obtain ⟨_, _, h, _⟩ := writeCell_frame s; exact .inl (congrArg Acquisition.record h)
  | record f r h => exact .inr (.inl ⟨f, r, h, rfl⟩)
  | acq x h => exact .inl h
  | warm | soft => exact .inr (.inr rfl)
  | _ => exact .inl rfl

theorem otherFeed_of_ne {f g : Feed} (h : g ≠ f) : otherFeed g = f := by
  revert h; cases f <;> cases g <;> decide

theorem acqOf_congr {s t : State} (h : t.acq.record = s.acq.record) (f : Feed) : t.acqOf f = s.acqOf f :=
  congrArg (fun r => PerFeed.get r f) h

theorem acqOf_of_set {s t : State} {f : Feed} {r : AcqRecord} (h : t.acq.record = s.acq.record.set f r)
    (g : Feed) : t.acqOf g = if g = f then r else s.acqOf g := by
  exact (congrArg (fun r => PerFeed.get r g) h).trans (PerFeed.get_set ..)

/-- The law of the PRESENT role, feed by feed. -/
theorem presentingLaw_iff (s : State) : PresentingLaw s ↔
    (∀ f, (s.acqOf f).state = .presenting → (s.acqOf f).role = .present) ∧
    ∀ f, (s.acqOf f).role = .present → (s.acqOf (otherFeed f)).role ≠ .present := by
  refine and_congr_right fun _ => ⟨fun h f hf => ?_, fun h both => h .f0 both.1 both.2⟩
  cases f with
  | f0 => exact fun other => h ⟨hf, other⟩
  | f1 => exact fun other => h ⟨other, hf⟩

/-- The feed with the PRESENT role is the presentation feed (R88). -/
theorem presentationFeed_of_present {s : State} (h : PresentingLaw s) {f : Feed} (hf : (s.acqOf f).role = .present) :
    presentationFeed s = f := by
  obtain ⟨_, single⟩ := h
  unfold presentationFeed
  cases f with
  | f0 => rw [if_pos hf]
  | f1 => rw [if_neg fun h0 => single ⟨h0, hf⟩, if_pos hf]

theorem RecordMove.presentingLaw {f : Feed} {s t : State} {r : AcqRecord} (m : RecordMove f s r)
    (h : PresentingLaw s) (set : t.acq.record = s.acq.record.set f r) : PresentingLaw t := by
  have same : t.acqOf f = r := by rw [acqOf_of_set set, if_pos rfl]
  have others {g : Feed} (hg : g ≠ f) : t.acqOf g = s.acqOf g := by rw [acqOf_of_set set, if_neg hg]
  obtain ⟨role, single⟩ := (presentingLaw_iff s).1 h
  refine (presentingLaw_iff t).2 ⟨fun g hg => ?_, fun g hg => ?_⟩
  · by_cases gf : g = f
    · subst gf
      rw [same] at hg ⊢
      rcases m.presenting hg with present | ⟨was, kept | elsewhere⟩
      · exact present
      · rw [kept]; exact role g was
      · exact absurd (presentationFeed_of_present h (role g was)).symm elsewhere
    · rw [others gf] at hg ⊢
      exact role g hg
  · by_cases gf : g = f
    · subst gf
      rw [same] at hg
      rw [others (otherFeed_ne g)]
      exact (m.present hg).elim (single g) id
    · have of : otherFeed g = f := otherFeed_of_ne gf
      rw [others gf] at hg
      rw [of, same]
      intro hr
      rcases m.present hr with was | free
      · exact single f was (by rwa [← of, otherFeed_otherFeed])
      · exact free (by rwa [← of, otherFeed_otherFeed])

/-- Settles O51: a record gets to PRESENTING, and to the PRESENT role, only as `RecordMove` says. -/
theorem presentingLawIsKept : Obligations.PresentingLawIsKept := by
  refine keptByEveryStep_of_atom (fun _ h => h) fun K s t atom h => ?_
  rcases atom.record_cases with same | ⟨f, r, m, set⟩ | cold
  · simpa only [PresentingLaw, acqOf_congr same] using h
  · exact m.presentingLaw h set
  · have idle (f : Feed) : t.acqOf f = State.coldRecord := by
      unfold State.acqOf; rw [cold]; cases f <;> rfl
    refine ⟨fun f hf => ?_, fun both => ?_⟩
    · rw [idle] at hf; exact AcqState.noConfusion hf
    · rw [idle] at both; exact Role.noConfusion both.1

/-! ## The cells written on P (R123, R176) -/

theorem phaseField_cellBytes (stream : Nat) (unitStart errorMark : Bool) (continuity : Nat) (kind : CellKind)
    (payload padding : Bytes) :
    phaseField (cellBytes stream 0 unitStart errorMark continuity kind payload padding) = 0 := by
  have byte2 : byteAt (cellBytes stream 0 unitStart errorMark continuity kind payload padding) 2 =
      BitVec.ofNat 8 (stream % 16 * 16 + 0 * 4 + unitStart.toNat * 2 + errorMark.toNat) := rfl
  have u := unitStart.toNat_le
  have e := errorMark.toNat_le
  rw [phaseField, byte2, BitVec.toNat_ofNat]
  omega

theorem phaseField_programmeBytes {c : Cell} (h : c.phase = none) : phaseField (programmeBytes c) = 0 := by
  unfold programmeBytes
  rw [h]
  exact phaseField_cellBytes ..

/-- What one call of the output port writes: nothing, a fill cell, or the head of the queue. -/
theorem phaseField_writeCell {s : State} (clear : ∀ c, OutCell.programme c ∈ s.output.queue → c.phase = none)
    (onP : phaseField s.lines.onP = 0) : phaseField (writeCell s).lines.onP = 0 := by
  unfold writeCell
  split
  · exact onP
  · split
    · exact phaseField_cellBytes ..
    · rename_i cell rest queue
      split
      · exact phaseField_cellBytes ..
      · cases cell with
        | programme c => exact phaseField_programmeBytes (clear c (queue ▸ List.mem_cons_self))
        | ofPart c => exact phaseField_cellBytes ..

theorem Atom.phaseField_onP {s t : State} (h : Atom K s t)
    (clear : ∀ c, OutCell.programme c ∈ s.output.queue → c.phase = none) (onP : phaseField s.lines.onP = 0) :
    phaseField t.lines.onP = 0 := by
  cases h with
  | raise n => exact (congrArg (fun x : State => phaseField x.lines.onP) (undecided_raise n s) :).trans onP
  | transfer => exact (congrArg (fun x : State => phaseField x.lines.onP) (undecided_transferLocal s) :).trans onP
  | write => exact phaseField_writeCell clear onP
  | lines x h => exact (congrArg phaseField h).trans onP
  | warm => exact (by decide : phaseField [] = 0)
  | _ => exact onP

theorem QueueMove.clear {s : State} {q : List OutCell} (m : QueueMove K s q)
    (h : ∀ c, OutCell.programme c ∈ s.output.queue → c.phase = none) :
    ∀ c, OutCell.programme c ∈ q → c.phase = none := by
  intro c hc
  cases m with
  | same => exact h c hc
  | flags m =>
    obtain ⟨x, hx, same⟩ := List.mem_map.1 hc
    cases x with
    | programme y => cases same; exact h c hx
    | ofPart y => cases same
  | flushed => exact h c (List.mem_filter.1 hc).1
  | transferred x room =>
    rcases List.mem_append.1 hc with old | new
    · exact h c old
    · cases List.mem_singleton.1 new
  | entered hk x clear hp room =>
    rcases List.mem_append.1 hc with old | new
    · exact h c old
    · cases List.mem_singleton.1 new; exact clear
  | written => exact h c (List.mem_of_mem_tail hc)
  | emptied => cases hc

/-- Settles O53: a programme cell enters the queue clear only, and the port writes phase 0 on every other cell. -/
theorem clearOutputLawIsKept : Obligations.ClearOutputLawIsKept := by
  refine keptByEveryStep_of_atom (fun _ h => h) fun K s t atom h => ?_
  obtain ⟨clear, onP⟩ := h
  exact ⟨atom.queue_cases.clear clear, atom.phaseField_onP clear onP⟩

/-! ## Reply queue, held reply and NOTICE cells (R182, R183, R185) -/

/-- The law of the reply queue, by name. -/
structure LawfulReplies (s : State) : Prop where
  size : s.command.replyQueue.length + s.command.reserved.toNat ≤ 32
  held : s.command.heldReply.isSome → s.command.reserved = true
  single : noticesWaiting s ≤ 1
  marked : s.command.noticePending = true → noticesWaiting s = 0
  heldPlain : ∀ cells, s.command.heldReply = some cells → ∀ c ∈ cells, c.isNotice = false
  formedPlain : ∀ f cell, (s.acqOf f).pending = .formed cell → cell.isNotice = false

theorem replyQueueLaw_iff (s : State) : ReplyQueueLaw s ↔ LawfulReplies s := by
  have plain (cells : List LocalCell) :
      cells.all (fun c => !c.isNotice) = true ↔ ∀ c ∈ cells, c.isNotice = false := by
    simp only [List.all_eq_true, Bool.not_eq_true']
  unfold ReplyQueueLaw
  simp only [plain]
  exact ⟨fun ⟨a, b, c, d, e, f⟩ => ⟨a, b, c, d, e, f⟩, fun ⟨a, b, c, d, e, f⟩ => ⟨a, b, c, d, e, f⟩⟩

theorem freeEntries_eq (s : State) :
    freeEntries s = 32 - s.command.replyQueue.length - s.command.reserved.toNat := by
  unfold freeEntries; cases s.command.reserved <;> rfl

theorem countP_notice_eq_zero {cells : List LocalCell} (h : ∀ c ∈ cells, c.isNotice = false) :
    cells.countP LocalCell.isNotice = 0 :=
  List.countP_eq_zero.2 fun c hc => by simp [h c hc]

theorem isNotice_addFlags (m : BitVec 16) (c : LocalCell) : (c.addFlags m).isNotice = c.isNotice := by
  cases c <;> rfl

theorem isNotice_addFlags_outCell (m : BitVec 16) (c : OutCell) : (c.addFlags m).isNotice = c.isNotice := by
  cases c with
  | programme c => rfl
  | ofPart c => exact isNotice_addFlags m c

theorem noticeWaits_iff (s : State) : noticeWaits s = true ↔ 0 < noticesWaiting s := by
  unfold noticeWaits noticesWaiting
  rw [Bool.or_eq_true, List.any_eq_true, List.any_eq_true, Nat.add_pos_iff_pos_or_pos, List.countP_pos_iff,
    List.countP_pos_iff]

/-- A state with the same Command Unit fields and formed answers, and no more NOTICE cells, keeps the law. -/
theorem LawfulReplies.of_same {s t : State} (h : LawfulReplies s)
    (queue : t.command.replyQueue = s.command.replyQueue := by rfl)
    (reserved : t.command.reserved = s.command.reserved := by rfl)
    (heldReply : t.command.heldReply = s.command.heldReply := by rfl)
    (pending : t.command.noticePending = s.command.noticePending := by rfl)
    (record : t.acq.record = s.acq.record := by rfl)
    (cells : t.output.queue.countP OutCell.isNotice ≤ s.output.queue.countP OutCell.isNotice := by
      exact Nat.le_refl _) : LawfulReplies t := by
  have fewer : noticesWaiting t ≤ noticesWaiting s := by
    unfold noticesWaiting; rw [queue]; exact Nat.add_le_add_left cells _
  refine ⟨?_, ?_, fewer.trans h.single, fun mark => ?_, ?_, fun f => ?_⟩
  · rw [queue, reserved]; exact h.size
  · rw [heldReply, reserved]; exact h.held
  · exact Nat.le_zero.1 ((h.marked (pending ▸ mark)) ▸ fewer)
  · rw [heldReply]; exact h.heldPlain
  · rw [acqOf_congr record]; exact h.formedPlain f

/-- Cells that are no NOTICE are placed where entries are free. -/
theorem LawfulReplies.place {s : State} (h : LawfulReplies s) {cells : List LocalCell}
    (room : cells.length ≤ freeEntries s) (plain : ∀ c ∈ cells, c.isNotice = false) :
    LawfulReplies (placeCells cells s) := by
  have count : noticesWaiting (placeCells cells s) = noticesWaiting s := by
    unfold noticesWaiting placeCells
    rw [List.countP_append, countP_notice_eq_zero plain, Nat.add_zero]
  refine ⟨?_, h.held, count ▸ h.single, fun mark => count ▸ h.marked mark, h.heldPlain, h.formedPlain⟩
  have size := h.size
  rw [freeEntries_eq] at room
  simp only [placeCells, List.length_append]
  omega

/-- A NOTICE is placed in a free entry when none waits. -/
theorem LawfulReplies.placeNotice {s : State} (h : LawfulReplies s) (m : BitVec 16) (none : noticesWaiting s = 0)
    (mark : s.command.noticePending = false) (room : 0 < freeEntries s) :
    LawfulReplies (placeCells [.notice m] s) := by
  have count : noticesWaiting (placeCells [.notice m] s) = 1 := by
    unfold noticesWaiting at none ⊢
    have one : [LocalCell.notice m].countP LocalCell.isNotice = 1 := rfl
    simp only [placeCells, List.countP_append, one]
    omega
  refine ⟨?_, h.held, count.le, fun set => ?_, h.heldPlain, h.formedPlain⟩
  · have size := h.size
    rw [freeEntries_eq] at room
    simp only [placeCells, List.length_append, List.length_singleton]
    omega
  · exact absurd set (by simp [placeCells, mark])

/-- The four lines of R185 keep the law. -/
theorem LawfulReplies.reportRaise {s : State} (h : LawfulReplies s) (m : BitVec 16) :
    LawfulReplies (reportRaise m s) := by
  unfold Machine.reportRaise
  split_ifs with waits mark room
  · have count : noticesWaiting { s with
        command := { s.command with replyQueue := s.command.replyQueue.map (LocalCell.addFlags m) }
        output := { s.output with queue := s.output.queue.map (OutCell.addFlags m) } } = noticesWaiting s := by
      have cells : LocalCell.isNotice ∘ LocalCell.addFlags m = LocalCell.isNotice := funext (isNotice_addFlags m)
      have outs : OutCell.isNotice ∘ OutCell.addFlags m = OutCell.isNotice :=
        funext (isNotice_addFlags_outCell m)
      simp only [noticesWaiting, List.countP_map, cells, outs]
    refine ⟨?_, h.held, count ▸ h.single, fun mark => count ▸ h.marked mark, h.heldPlain, h.formedPlain⟩
    simpa using h.size
  · exact h
  · exact h.placeNotice _ (Nat.eq_zero_of_not_pos fun some => waits ((noticeWaits_iff s).2 some))
      (Bool.eq_false_iff.2 mark) room
  · have none : noticesWaiting s = 0 := Nat.eq_zero_of_not_pos fun some => waits ((noticeWaits_iff s).2 some)
    exact ⟨h.size, h.held, h.single, fun _ => none, h.heldPlain, h.formedPlain⟩

theorem LawfulReplies.raise {s : State} (h : LawfulReplies s) (n : Notice) : LawfulReplies (raise n s) := by
  unfold Machine.raise
  split
  · exact h
  · exact LawfulReplies.reportRaise h.of_same _

theorem LawfulReplies.transferLocal {s : State} (h : LawfulReplies s) : LawfulReplies (transferLocal s) := by
  unfold Machine.transferLocal
  split
  · exact h
  · rename_i cell rest queue
    split
    · have count : noticesWaiting { s with
          command := { s.command with replyQueue := rest }
          output := { s.output with queue := s.output.queue ++ [.ofPart cell] } } = noticesWaiting s := by
        have moved : [OutCell.ofPart cell].countP OutCell.isNotice = [cell].countP LocalCell.isNotice := rfl
        simp only [noticesWaiting, queue, List.countP_append, moved, ← List.singleton_append (l := rest)]
        omega
      refine ⟨?_, h.held, count ▸ h.single, fun mark => count ▸ h.marked mark, h.heldPlain, h.formedPlain⟩
      have size := h.size
      rw [queue, List.length_cons] at size
      exact (Nat.add_le_add_right (Nat.le_succ _) _).trans size
    · exact h

theorem queue_writeCell (s : State) :
    (writeCell s).output.queue = s.output.queue ∨ (writeCell s).output.queue = s.output.queue.tail := by
  unfold writeCell
  split
  · exact .inl rfl
  · split
    · exact .inl rfl
    · rename_i cell rest queue
      split
      · exact .inl rfl
      · refine .inr ?_
        rw [queue]
        cases cell <;> rfl

theorem LawfulReplies.writeCell {s : State} (h : LawfulReplies s) : LawfulReplies (writeCell s) := by
  obtain ⟨_, _, acq, _, _, _, command, _⟩ := writeCell_frame s
  have shorter : (Machine.writeCell s).output.queue.Sublist s.output.queue := by
    rcases queue_writeCell s with same | tail
    · rw [same]
    · rw [tail]; exact List.tail_sublist _
  exact h.of_same (by rw [command]) (by rw [command]) (by rw [command]) (by rw [command]) (by rw [acq])
    shorter.countP_le

/-- A reply takes the entry reserved for it, and the entries that it needs besides. -/
theorem LawfulReplies.reply {s : State} (h : LawfulReplies s) {cells : List LocalCell}
    (reserved : s.command.reserved = true) (held : s.command.heldReply = none)
    (room : cells.length - 1 ≤ freeEntries s) (plain : ∀ c ∈ cells, c.isNotice = false) :
    LawfulReplies (placeCells cells (endReservation s)) := by
  have ended : LawfulReplies (endReservation s) := by
    refine ⟨?_, fun some => ?_, h.single, h.marked, h.heldPlain, h.formedPlain⟩
    · have size := h.size
      simp only [endReservation, Bool.toNat_false]; omega
    · simp [endReservation, held] at some
  refine ended.place ?_ plain
  have size := h.size
  rw [freeEntries_eq] at room ⊢
  simp only [endReservation, reserved, Bool.toNat_true, Bool.toNat_false] at room size ⊢
  omega

/-- A state with the queues of a reset keeps the law. -/
theorem lawfulReplies_of_cold {t : State} (queue : t.command.replyQueue = []) (held : t.command.heldReply = none)
    (outs : t.output.queue = []) (record : t.acq.record = State.coldAcq.record) : LawfulReplies t := by
  have none : noticesWaiting t = 0 := by unfold noticesWaiting; rw [queue, outs]; rfl
  refine ⟨?_, fun some => ?_, none ▸ Nat.zero_le _, fun _ => none, fun cells some => ?_, fun f cell formed => ?_⟩
  · have := t.command.reserved.toNat_le
    rw [queue, List.length_nil]; omega
  · rw [held] at some; cases some
  · rw [held] at some; cases some
  · have idle : t.acqOf f = State.coldRecord := by
      unfold State.acqOf; rw [record]; cases f <;> rfl
    rw [idle] at formed; cases formed

theorem LawfulReplies.atom {s t : State} (h : LawfulReplies s) (atom : Atom K s t) : LawfulReplies t := by
  cases atom with
  | raise n => exact h.raise n
  | place cells room plain => exact h.place room plain
  | output x queue => exact h.of_same (cells := (congrArg (List.countP OutCell.isNotice) queue).le)
  | flush => exact h.of_same (cells := List.filter_sublist.countP_le)
  | record f r m =>
    refine ⟨h.size, h.held, h.single, h.marked, h.heldPlain, fun g cell formed => ?_⟩
    by_cases gf : g = f
    · subst gf
      rw [acqOf_setAcq_same] at formed
      exact (m.formed cell formed).elim (h.formedPlain g cell) id
    · rw [acqOf_of_set (s := s) rfl, if_neg gf] at formed
      exact h.formedPlain g cell formed
  | acq x record => exact h.of_same (record := record)
  | command x hi hq hr hh hn => exact h.of_same hq hr hh hn
  | clearFlags m =>
    refine ⟨h.size, h.held, h.single, fun mark => h.marked ?_, h.heldPlain, h.formedPlain⟩
    exact (Bool.and_eq_true _ _ ▸ mark :).1
  | placeFormed f cell formed room =>
    exact h.place room (List.forall_mem_singleton.2 (h.formedPlain f cell formed))
  | placeNotice mark room =>
    have none := h.marked mark
    have unmarked : LawfulReplies { s with command := { s.command with noticePending := false } } :=
      ⟨h.size, h.held, h.single, nofun, h.heldPlain, h.formedPlain⟩
    exact unmarked.placeNotice _ none rfl room
  | transfer => exact h.transferLocal
  | reserve hk room =>
    refine ⟨?_, fun _ => rfl, h.single, h.marked, h.heldPlain, h.formedPlain⟩
    rw [freeEntries_eq] at room
    simp only [reserve, Bool.toNat_true]; omega
  | endReservation hk held =>
    refine ⟨?_, fun some => ?_, h.single, h.marked, h.heldPlain, h.formedPlain⟩
    · have size := h.size
      simp only [endReservation, Bool.toNat_false]; omega
    · simp [endReservation, held] at some
  | reply hk cells reserved held room plain => exact h.reply reserved held room plain
  | hold hk cells reserved plain =>
    refine ⟨h.size, fun _ => reserved, h.single, h.marked, fun x some => ?_, h.formedPlain⟩
    cases some; exact plain
  | placeHeld hk cells held room =>
    have reserved := h.held (by rw [held]; rfl)
    have emptied : LawfulReplies { s with command := { s.command with heldReply := none } } :=
      ⟨h.size, nofun, h.single, h.marked, nofun, h.formedPlain⟩
    exact emptied.reply reserved rfl room (h.heldPlain cells held)
  | enqueue hk c clear hp hq =>
    have count : [OutCell.programme c].countP OutCell.isNotice = 0 := rfl
    exact h.of_same (cells := by rw [List.countP_append, count]; exact Nat.le_refl _)
  | write => exact h.writeCell
  | warm | soft => exact lawfulReplies_of_cold rfl rfl rfl rfl
  | _ => exact h.of_same

/-- Settles O55: each atom keeps the bound, the held reply and the one NOTICE. -/
theorem replyQueueLawIsKept : Obligations.ReplyQueueLawIsKept := by
  refine keptByEveryStep_of_atom (fun s h => (replyQueueLaw_iff _).2 ?_) fun K s t atom h => ?_
  · exact ((replyQueueLaw_iff s).1 h).of_same
  · exact (replyQueueLaw_iff t).2 (((replyQueueLaw_iff s).1 h).atom atom)

end Sys2Proof.Machine
end

