-- ==== Sys2Proof/Proofs/MeterLaw.lean ====
section
/-! PROOFS. O50: the meter runs exactly while its three conditions hold (R160). -/

namespace Sys2Proof.Machine

set_option Elab.async false

variable {K : Special → Prop}

/-! ## The profiles -/

theorem profileOf_setProfile_same {p : Fin 4} (h : p ≠ 0) (l : Limits) (x : Profile) :
    profileOf (setProfile l p x) p = x :=
  match p, h with
  | 0, h => absurd rfl h
  | 1, _ => rfl
  | 2, _ => rfl
  | 3, _ => rfl

theorem profileOf_setProfile_other {p q : Fin 4} (h : q ≠ p) (l : Limits) (x : Profile) :
    profileOf (setProfile l p x) q = profileOf l q := by
  match p, q, h with
  | 0, _, _ => rfl
  | 1, 1, h | 2, 2, h | 3, 3, h => exact absurd rfl h
  | 1, 0, _ | 1, 2, _ | 1, 3, _ | 2, 0, _ | 2, 1, _ | 2, 3, _ | 3, 0, _ | 3, 1, _ | 3, 2, _ => rfl

theorem active_setProfile (l : Limits) (p : Fin 4) (x : Profile) : (setProfile l p x).active = l.active :=
  match p with | 0 => rfl | 1 => rfl | 2 => rfl | 3 => rfl

theorem running_setProfile (l : Limits) (p : Fin 4) (x : Profile) : (setProfile l p x).running = l.running :=
  match p with | 0 => rfl | 1 => rfl | 2 => rfl | 3 => rfl

/-- A second of allowance is taken from the active profile of 1 to 3 (R161). -/
theorem activeProfile_spendSecond {s : State} (h : s.limits.active ≠ 0) :
    activeProfile { s with limits := spendSecond s.limits } =
      { activeProfile s with remaining := (activeProfile s).remaining - 1 } := by
  unfold activeProfile spendSecond
  dsimp only
  rw [active_setProfile, profileOf_setProfile_same h]

theorem ceiling_spendSecond (s : State) :
    (activeProfile { s with limits := spendSecond s.limits }).ceiling = (activeProfile s).ceiling := by
  by_cases h : s.limits.active = 0
  · unfold activeProfile spendSecond
    rw [h]
    rfl
  · rw [activeProfile_spendSecond h]

/-! ## The allowance meter (R160) -/

theorem MeterLaw.of_same {s t : State} (h : MeterLaw s) (running : t.limits.running = s.limits.running)
    (may : meterMayRun t = meterMayRun s) : MeterLaw t :=
  running.trans (h.trans may.symm)

theorem MeterLaw.of_view {s t : State} (h : MeterLaw s) (v : SameView s t) : MeterLaw t := by
  have profile : activeProfile t = activeProfile s := by
    unfold activeProfile; rw [v.active, v.profiles]
  refine h.of_same v.running ?_
  unfold meterMayRun parental
  rw [v.context, v.active, profile]

theorem MeterLaw.of_untriggered {s t : State} (h : MeterLaw s) (same : untriggered t = untriggered s)
    (hc : t.output.context = s.output.context) (hr : t.limits.running = s.limits.running) : MeterLaw t :=
  h.of_view (.of_untriggered same hc hr)

theorem meterLaw_evaluateMeter (s : State) : MeterLaw (evaluateMeter s) := running_evaluateMeter s

theorem meterLaw_settle (c : Context) (v : Verdict) (created moved : Bool) (s : State) :
    MeterLaw (settle c v created moved s) := meterLaw_evaluateMeter _

theorem MeterLaw.raise {s : State} (h : MeterLaw s) (n : Notice) : MeterLaw (raise n s) :=
  h.of_view (sameView_raise n s)

theorem MeterLaw.trigger {s : State} (h : MeterLaw s) : MeterLaw (trigger s) := by
  unfold Machine.trigger
  split
  · exact h
  · split
    · exact h
    · exact meterLaw_settle ..

theorem MeterLaw.compareWatched {s : State} (h : MeterLaw s) : MeterLaw (compareWatched s) := by
  unfold Machine.compareWatched
  split
  · exact h
  · dsimp only
    split
    · exact h
    · exact MeterLaw.trigger ((h.raise .eventChanged).of_same rfl rfl)

theorem meterLaw_of_no_context {s : State} (context : s.output.context = none) (stopped : s.limits.running = false) :
    MeterLaw s := by
  unfold MeterLaw meterMayRun
  rw [stopped, context]
  rfl

theorem upsert_frame (now : Option Nat) (g : Guide) (e : EventRecord) :
    (upsert now g e).watched = g.watched ∧ (upsert now g e).lastEvent = g.lastEvent := by
  unfold upsert
  dsimp only
  split
  · exact ⟨rfl, rfl⟩
  · split <;> exact ⟨rfl, rfl⟩

theorem upserts_frame (now : Option Nat) (es : List EventRecord) (g : Guide) :
    (es.foldl (upsert now) g).watched = g.watched ∧ (es.foldl (upsert now) g).lastEvent = g.lastEvent := by
  induction es generalizing g with
  | nil => exact ⟨rfl, rfl⟩
  | cons e es ih =>
    obtain ⟨w, l⟩ := upsert_frame now g e
    exact ⟨(ih _).1.trans w, (ih _).2.trans l⟩

/-- The meter that runs is a metered profile's with allowance left. -/
theorem meterMayRun_iff (s : State) : meterMayRun s = true ↔
    (∃ c, s.output.context = some c ∧ c.decision ≠ .deny ∧ c.changing = false) ∧ s.limits.active ≠ 0 ∧
      (activeProfile s).metered = true ∧ 0 < (activeProfile s).remaining := by
  unfold meterMayRun parental
  cases s.output.context <;> simp [and_assoc]

/-- A second of allowance that leaves some of it leaves the meter running (R161). -/
theorem MeterLaw.spend {s : State} (h : MeterLaw s) (runs : s.limits.running = true)
    (left : (activeProfile { s with limits := spendSecond s.limits }).remaining ≠ 0) :
    MeterLaw { s with limits := spendSecond s.limits } := by
  obtain ⟨context, active, metered, _⟩ := (meterMayRun_iff s).1 (h.symm.trans runs)
  have profile := activeProfile_spendSecond active
  have may : meterMayRun { s with limits := spendSecond s.limits } = true := by
    refine (meterMayRun_iff _).2 ⟨context, ?_, ?_, Nat.pos_of_ne_zero left⟩
    · exact (active_setProfile ..).trans_ne active
    · rw [profile]; exact metered
  have kept : (spendSecond s.limits).running = true := (running_setProfile ..).trans runs
  exact kept.trans may.symm

theorem MeterLaw.meterSecond {s : State} (h : MeterLaw s) : MeterLaw (meterSecond s) := by
  unfold Machine.meterSecond
  split
  · rename_i due
    have runs : s.limits.running = true := (Bool.and_eq_true _ _ ▸ due :).1
    dsimp only
    split
    · exact ((meterLaw_evaluateMeter _).raise _).trigger
    · rename_i left
      have spent := h.spend runs left
      split
      · exact spent.raise _
      · exact spent
  · exact h

theorem meterLaw_of_move {s t : State} (m : Move K s t) (h : MeterLaw s) : MeterLaw t := by
  cases m with
  | atom _ v => exact h.of_view v
  | trigger => exact h.trigger
  | takeContext f e => unfold takeContext; split <;> exact meterLaw_settle ..
  | setChanging =>
    unfold setChanging
    split
    · exact h
    · split
      · exact h
      · exact meterLaw_settle ..
  | removeContext =>
    unfold removeContext
    split
    · exact h
    · exact meterLaw_evaluateMeter _
  | refreshEntry e =>
    unfold refreshEntry
    split
    · exact h
    · rename_i c context
      refine MeterLaw.trigger (h.of_same rfl ?_)
      unfold meterMayRun
      rw [context]
      rfl
  | lost => exact h.of_same rfl rfl
  | advance => exact MeterLaw.compareWatched (h.of_same rfl rfl)
  | step hk b src =>
    have stepped : MeterLaw { s with clock := s.clock.stepped (readMark b src) } := h.of_same rfl rfl
    exact (stepped.raise .clockStepped).compareWatched
  | upserts es _ =>
    refine MeterLaw.compareWatched ?_
    have taken : MeterLaw { s with guide := es.foldl (upsert s.now) s.guide } := h.of_same rfl rfl
    unfold upserted
    dsimp only
    split
    · exact taken
    · exact taken.raise _
  | guideRollover d =>
    unfold guideRollover
    dsimp only
    split
    · exact h
    · have changed (g : Guide) : MeterLaw { s with guide := g } := h.of_same rfl rfl
      exact ((changed _).raise _).compareWatched
  | switchProfile p =>
    unfold switchProfile
    split
    · exact h
    · exact (meterLaw_evaluateMeter _).trigger
  | writeProfile p x _ =>
    unfold afterProfileWrite
    split
    · exact (meterLaw_evaluateMeter _).trigger
    · rename_i other
      rw [active_setProfile] at other
      refine h.of_same (running_setProfile ..) ?_
      unfold meterMayRun parental activeProfile
      dsimp only
      rw [active_setProfile, profileOf_setProfile_other (Ne.symm other)]
  | limitsRollover => exact (meterLaw_evaluateMeter _).trigger
  | meterSecond => exact h.meterSecond
  | coldRetained region =>
    unfold MeterLaw meterMayRun parental coldRetained
    simp [State.coldLimits]
  | warm | soft => exact meterLaw_of_no_context rfl rfl

/-- A law that does not read the queue of waiting commands, and that every move keeps, is kept by every step. -/
theorem keptByEveryStep_of_move {law : State → Prop} (popped : ∀ s, law s → law s.popped)
    (keep : ∀ (K : Special → Prop) (s t : State), Move K s t → law s → law t) : KeptByEveryStep law := by
  intro s t hs h
  rcases moves_step h with rfl | ⟨c, moves⟩
  · exact hs
  · have start := popped s hs
    clear h
    induction moves with
    | refl => exact start
    | tail _ move ih => exact keep _ _ _ move ih

/-- Settles O50: every decision ends with the meter evaluated, and what lies between decisions leaves it alone. -/
theorem meterLawIsKept : Obligations.MeterLawIsKept :=
  keptByEveryStep_of_move (fun _ h => h) fun _ _ _ move h => meterLaw_of_move move h

end Sys2Proof.Machine
end

