-- ==== Sys2Proof/Proofs/RatingLaw.lean ====
section
/-! PROOFS. O54: no programme above the rating ceiling is shown (R167, R168). -/

namespace Sys2Proof.Machine

set_option Elab.async false

variable {K : Special → Prop}

/-! ## The rating ceiling (R167, R168) -/

/-- A programme of event e may be shown in context c as far as its rating goes (R168). -/
def RatingAllows (s : State) (c : Context) (e : Option EventRecord) : Prop :=
  c.decision ≠ .deny → s.limits.active ≠ 0 → effectiveRating c.entry e ≤ (activeProfile s).ceiling

/-- The context's channel is the watched one, and a changing context is denied (R70, R167). -/
structure Followed (s : State) (c : Context) : Prop where
  watched : s.guide.watched = some c.channel
  denied : c.changing = true → c.decision = .deny

/-- A context that is followed, with the event last found for it allowed. -/
structure RatedLast (s : State) (c : Context) : Prop extends Followed s c where
  allows : RatingAllows s c s.guide.lastEvent

/-- A context that is followed, with its current event the one last found (R70). -/
structure Fresh (s : State) (c : Context) : Prop extends Followed s c where
  fresh : s.guide.lastEvent = currentEvent s c.channel

/-- The law of the rating ceiling on a context. -/
structure Rated (s : State) (c : Context) : Prop extends Fresh s c where
  allows : RatingAllows s c (currentEvent s c.channel)

/-- Every context of s is as p says. -/
def OnContext (p : State → Context → Prop) (s : State) : Prop := ∀ c, s.output.context = some c → p s c

theorem ratingLaw_iff (s : State) : RatingLaw s ↔
    (s.clock.state = .unset → s.clock.lossTimer = none) ∧ OnContext Rated s := by
  refine and_congr_right fun _ => forall_congr' fun c => imp_congr_right fun _ => ?_
  exact ⟨fun ⟨a, b, d, e⟩ => ⟨⟨⟨a, d⟩, b⟩, e⟩, fun ⟨⟨⟨a, d⟩, b⟩, e⟩ => ⟨a, b, d, e⟩⟩

theorem Rated.ratedLast {s : State} {c : Context} (h : Rated s c) : RatedLast s c :=
  ⟨h.toFollowed, h.fresh ▸ h.allows⟩

theorem RatedLast.rated {s : State} {c : Context} (h : RatedLast s c)
    (fresh : s.guide.lastEvent = currentEvent s c.channel) : Rated s c :=
  ⟨⟨h.toFollowed, fresh⟩, fresh ▸ h.allows⟩

/-- A context of a state that keeps what the law reads of it. -/
theorem Rated.of_same {s t : State} {c : Context} (h : Rated s c)
    (watched : t.guide.watched = s.guide.watched := by rfl)
    (lastEvent : t.guide.lastEvent = s.guide.lastEvent := by rfl)
    (current : currentEvent t c.channel = currentEvent s c.channel := by rfl)
    (active : t.limits.active = s.limits.active := by rfl)
    (ceiling : (activeProfile t).ceiling = (activeProfile s).ceiling := by rfl) : Rated t c := by
  refine ⟨⟨⟨watched.trans h.watched, h.denied⟩, ?_⟩, fun shown parental => ?_⟩
  · rw [lastEvent, current]; exact h.fresh
  · rw [current, ceiling]; exact h.allows shown (active ▸ parental)

theorem RatedLast.of_same {s t : State} {c : Context} (h : RatedLast s c)
    (watched : t.guide.watched = s.guide.watched := by rfl)
    (lastEvent : t.guide.lastEvent = s.guide.lastEvent := by rfl)
    (active : t.limits.active = s.limits.active := by rfl)
    (ceiling : (activeProfile t).ceiling = (activeProfile s).ceiling := by rfl) : RatedLast t c := by
  refine ⟨⟨watched.trans h.watched, h.denied⟩, fun shown parental => ?_⟩
  rw [lastEvent, ceiling]
  exact h.allows shown (active ▸ parental)

theorem onContext_of_none {p : State → Context → Prop} {s : State} (h : s.output.context = none) :
    OnContext p s := by
  intro c hc; rw [h] at hc; cases hc

theorem OnContext.of_context {p q : State → Context → Prop} {s t : State} (h : OnContext p s)
    (context : t.output.context = s.output.context) (step : ∀ c, p s c → q t c) : OnContext q t :=
  fun c hc => step c (h c (context ▸ hc))

theorem activeProfile_of_untriggered {s t : State} (h : untriggered t = untriggered s) :
    activeProfile t = activeProfile s := by
  have key : ∀ x : State, activeProfile x = activeProfile (untriggered x) := fun _ => rfl
  rw [key t, h, ← key s]

theorem guide_of_untriggered {s t : State} (h : untriggered t = untriggered s) : t.guide = s.guide :=
  (congrArg State.guide h :)

theorem active_of_untriggered {s t : State} (h : untriggered t = untriggered s) :
    t.limits.active = s.limits.active :=
  (congrArg (fun x : State => x.limits.active) h :)

theorem currentEvent_of_untriggered {s t : State} (h : untriggered t = untriggered s) (c : Nat) :
    currentEvent t c = currentEvent s c := by
  have key : ∀ x : State, currentEvent x c = currentEvent (untriggered x) c := fun _ => rfl
  rw [key t, h, ← key s]

theorem Rated.of_untriggered {s t : State} {c : Context} (h : Rated s c) (same : untriggered t = untriggered s) :
    Rated t c :=
  h.of_same (by rw [guide_of_untriggered same]) (by rw [guide_of_untriggered same])
    (currentEvent_of_untriggered same _) (active_of_untriggered same)
    (congrArg Profile.ceiling (activeProfile_of_untriggered same))

theorem Fresh.of_untriggered {s t : State} {c : Context} (h : Fresh s c) (same : untriggered t = untriggered s) :
    Fresh t c := by
  refine ⟨⟨?_, h.denied⟩, ?_⟩
  · rw [guide_of_untriggered same]; exact h.watched
  · rw [guide_of_untriggered same, currentEvent_of_untriggered same]; exact h.fresh

theorem RatedLast.of_untriggered {s t : State} {c : Context} (h : RatedLast s c)
    (same : untriggered t = untriggered s) : RatedLast t c :=
  h.of_same (by rw [guide_of_untriggered same]) (by rw [guide_of_untriggered same])
    (active_of_untriggered same) (congrArg Profile.ceiling (activeProfile_of_untriggered same))

/-- Check 4 of R168: what is not denied has a rating within the ceiling. -/
theorem rating_le_of_denyReason_none {s : State} {c : Context} {e : Option EventRecord}
    (h : denyReason s c e = none) (parental : s.limits.active ≠ 0) :
    effectiveRating c.entry e ≤ (activeProfile s).ceiling := by
  unfold denyReason Machine.parental at h
  dsimp only at h
  split_ifs at h with _ _ _ rating
  simpa [parental] using rating

theorem rating_le_of_decideOn {s : State} {c : Context} (h : (decideOn s c).decision ≠ .deny)
    (parental : s.limits.active ≠ 0) :
    effectiveRating c.entry (currentEvent s c.channel) ≤ (activeProfile s).ceiling := by
  unfold decideOn at h
  dsimp only at h
  split at h
  · exact absurd rfl h
  · rename_i passed
    exact rating_le_of_denyReason_none passed parental

/-- A decision that is taken into a context, or a denial, leaves it rated (R172). -/
theorem rated_settle {s : State} {c : Context} {v : Verdict} (h : Fresh s { c with decision := .deny })
    (decided : v.decision = .deny ∨ (c.changing = false ∧ v = decideOn s c)) (created moved : Bool) :
    OnContext Rated (settle c v created moved s) := by
  intro x hx
  rw [context_settle] at hx
  cases hx
  refine Rated.of_untriggered (s := s) ⟨⟨⟨h.watched, fun changing => ?_⟩, h.fresh⟩, fun shown parental => ?_⟩
    (untriggered_settle ..)
  · rcases decided with deny | ⟨quiet, _⟩
    · exact deny
    · exact absurd (quiet.symm.trans changing) nofun
  · rcases decided with deny | ⟨_, rfl⟩
    · exact absurd deny shown
    · exact rating_le_of_decideOn shown parental

theorem Fresh.denying {s : State} {c : Context} (h : Fresh s c) : Fresh s { c with decision := .deny } :=
  ⟨⟨h.watched, fun _ => rfl⟩, h.fresh⟩

/-- A trigger decides again by the current event (R171). -/
theorem rated_trigger {s : State} (h : OnContext Fresh s) : OnContext Rated (trigger s) := by
  unfold trigger
  split
  · exact onContext_of_none ‹_›
  · rename_i c context
    have fresh := h c context
    split
    · rename_i changing
      intro x hx
      cases context.symm.trans hx
      exact ⟨fresh, fun shown => absurd (fresh.denied changing) shown⟩
    · rename_i quiet
      exact rated_settle fresh.denying (.inr ⟨Bool.eq_false_iff.2 quiet, rfl⟩) _ _

/-- The comparison of the watched channel finds its current event, or decides again by it (R71, R72). -/
theorem rated_compareWatched {s : State} (h : OnContext RatedLast s) : OnContext Rated (compareWatched s) := by
  unfold compareWatched
  split
  · rename_i none
    intro c hc
    exact absurd ((h c hc).watched.symm.trans none) nofun
  · rename_i w watched
    dsimp only
    split
    · rename_i found
      intro c hc
      cases (h c hc).watched.symm.trans watched
      exact (h c hc).rated found.symm
    · have raised := untriggered_raise .eventChanged s
      refine rated_trigger fun c hc => ?_
      have last := h c ((context_raise _ _).symm.trans hc)
      cases last.watched.symm.trans watched
      have follows := last.of_untriggered raised
      refine ⟨⟨follows.watched, follows.denied⟩, ?_⟩
      have v := sameView_raise .eventChanged s
      exact (v.current c.channel).symm

theorem OnContext.ratedLast {s : State} (h : OnContext Rated s) : OnContext RatedLast s :=
  h.of_context rfl fun _ h => h.ratedLast

theorem OnContext.ratedLast_raise {s : State} (h : OnContext RatedLast s) (n : Notice) :
    OnContext RatedLast (raise n s) :=
  h.of_context (context_raise n s) fun _ h => h.of_untriggered (untriggered_raise n s)

theorem OnContext.rated_raise {s : State} (h : OnContext Rated s) (n : Notice) : OnContext Rated (raise n s) :=
  h.of_context (context_raise n s) fun _ h => h.of_untriggered (untriggered_raise n s)

/-- The meter evaluated on a state, and a trigger after it (R153, R156, R162). -/
theorem rated_trigger_evaluateMeter {s t : State} (h : OnContext Rated s)
    (context : t.output.context = s.output.context) (guide : t.guide = s.guide) (now : t.now = s.now) :
    OnContext Rated (trigger (evaluateMeter t)) := by
  refine rated_trigger (h.of_context ((context_evaluateMeter t).trans context) fun c rated => ?_)
  refine Fresh.of_untriggered (s := t) ⟨⟨?_, rated.denied⟩, ?_⟩ (untriggered_evaluateMeter t)
  · rw [guide]; exact rated.watched
  · unfold currentEvent
    rw [guide, now]; exact rated.fresh

theorem rated_takeContext {s : State} (h : OnContext Rated s) (f : Feed) (e : ChannelEntry) :
    OnContext Rated (takeContext f e s) := by
  unfold takeContext
  split
  · exact rated_settle ⟨⟨rfl, fun _ => rfl⟩, rfl⟩ (.inr ⟨rfl, rfl⟩) _ _
  · rename_i old context
    dsimp only
    refine rated_settle ?_ (.inr ⟨rfl, rfl⟩) _ _
    split
    · rename_i same
      have fresh := (h old context).toFresh
      exact ⟨⟨same ▸ fresh.watched, fun _ => rfl⟩, same ▸ fresh.fresh⟩
    · exact ⟨⟨rfl, fun _ => rfl⟩, rfl⟩

theorem rated_setChanging {s : State} (h : OnContext Rated s) : OnContext Rated (setChanging s) := by
  unfold setChanging
  split
  · exact onContext_of_none ‹_›
  · rename_i c context
    split
    · exact h
    · have fresh := (h c context).toFresh
      exact rated_settle (c := { c with changing := true }) (v := ⟨.deny, .changing, none, c.eventId⟩)
        ⟨⟨fresh.watched, fun _ => rfl⟩, fresh.fresh⟩ (.inl rfl) _ _

theorem rated_removeContext {s : State} : OnContext Rated (removeContext s) := by
  unfold removeContext
  split
  · exact onContext_of_none ‹_›
  · exact onContext_of_none (context_evaluateMeter _)

theorem rated_refreshEntry {s : State} (h : OnContext Rated s) (e : ChannelEntry) :
    OnContext Rated (refreshEntry e s) := by
  unfold refreshEntry
  split
  · exact onContext_of_none ‹_›
  · rename_i c context
    have fresh := (h c context).toFresh
    refine rated_trigger fun x hx => ?_
    cases hx
    exact ⟨⟨fresh.watched, fresh.denied⟩, fresh.fresh⟩

theorem rated_meterSecond {s : State} (h : OnContext Rated s) : OnContext Rated (meterSecond s) := by
  unfold meterSecond
  split
  · have spent : OnContext Rated { s with limits := spendSecond s.limits } :=
      h.of_context rfl fun c rated => rated.of_same rfl rfl rfl (active_setProfile ..) (ceiling_spendSecond s)
    dsimp only
    split
    · refine rated_trigger (OnContext.of_context (spent.of_context (context_evaluateMeter _) fun c rated =>
        rated.of_untriggered (untriggered_evaluateMeter _)) (context_raise ..) fun c rated => ?_)
      exact (rated.of_untriggered (untriggered_raise ..)).toFresh
    · split
      · exact spent.rated_raise _
      · exact spent
  · exact h

theorem rated_of_move {s t : State} (m : Move K s t)
    (running : s.clock.state = .unset → s.clock.lossTimer = none) (h : OnContext Rated s) : OnContext Rated t := by
  cases m with
  | atom _ v =>
    refine h.of_context v.context fun c rated => rated.of_same v.watched v.lastEvent (v.current _) v.active ?_
    unfold activeProfile
    rw [v.active, v.profiles]
  | trigger => exact rated_trigger (h.of_context rfl fun _ rated => rated.toFresh)
  | takeContext f e => exact rated_takeContext h f e
  | setChanging => exact rated_setChanging h
  | removeContext => exact rated_removeContext
  | refreshEntry e => exact rated_refreshEntry h e
  | lost expired =>
    have set : s.clock.state ≠ .unset := fun unset => by
      rw [running unset] at expired; cases expired
    refine h.of_context rfl fun c rated => rated.of_same rfl rfl ?_
    unfold currentEvent State.now
    rw [if_neg set]
    rfl
  | advance =>
    exact rated_compareWatched (h.ratedLast.of_context rfl fun c last => last.of_same)
  | step hk b src =>
    refine rated_compareWatched (OnContext.ratedLast_raise (s := { s with clock := _ }) ?_ _)
    exact h.ratedLast.of_context rfl fun c last => last.of_same
  | upserts es _ =>
    obtain ⟨watched, lastEvent⟩ := upserts_frame s.now es s.guide
    have taken : OnContext RatedLast { s with guide := es.foldl (upsert s.now) s.guide } :=
      h.ratedLast.of_context rfl fun c last => last.of_same watched lastEvent
    refine rated_compareWatched ?_
    unfold upserted
    dsimp only
    split
    · exact taken
    · exact taken.ratedLast_raise _
  | guideRollover d =>
    unfold guideRollover
    dsimp only
    split
    · exact h
    · refine rated_compareWatched (OnContext.ratedLast_raise (s := { s with guide := _ }) ?_ _)
      exact h.ratedLast.of_context rfl fun c last => last.of_same
  | switchProfile p =>
    unfold switchProfile
    split
    · exact h
    · exact rated_trigger_evaluateMeter h rfl rfl rfl
  | writeProfile p x _ =>
    unfold afterProfileWrite
    split
    · exact rated_trigger_evaluateMeter h rfl rfl rfl
    · rename_i other
      rw [active_setProfile] at other
      refine h.of_context rfl fun c rated => rated.of_same rfl rfl rfl (active_setProfile ..) ?_
      unfold activeProfile
      dsimp only
      rw [active_setProfile, profileOf_setProfile_other (Ne.symm other)]
  | limitsRollover => exact rated_trigger_evaluateMeter h rfl rfl rfl
  | meterSecond => exact rated_meterSecond h
  | coldRetained region =>
    exact h.of_context rfl fun c rated =>
      ⟨⟨⟨rated.watched, rated.denied⟩, rated.fresh⟩, fun _ parental => absurd rfl parental⟩
  | warm | soft => exact onContext_of_none rfl

theorem ClockAtom.lossTimer {c x : Clock} (h : ClockAtom K c x) (law : c.state = .unset → c.lossTimer = none) :
    x.state = .unset → x.lossTimer = none := by
  cases h with
  | same => exact law
  | move m =>
    cases m with
    | ticked => exact fun unset => by dsimp only; rw [law unset]; rfl
    | lost => exact nofun
    | slewed h b src => exact nofun
    | _ => exact law
  | advance => exact law
  | step hk b src => exact nofun
  | warm => exact fun _ => rfl
  | soft => exact law

/-- Settles O54: each move takes a context as rated, or decides again by the current event. -/
theorem ratingLawIsKept : Obligations.RatingLawIsKept := by
  refine keptByEveryStep_of_move (fun _ h => h) fun K s t move h => ?_
  rw [ratingLaw_iff] at h ⊢
  obtain ⟨running, rated⟩ := h
  refine ⟨?_, rated_of_move move running rated⟩
  exact (Moves.kept (.single move) (P := fun s => s.clock.state = .unset → s.clock.lossTimer = none) running
    fun s t atom law => atom.clock_cases.lossTimer law)

end Sys2Proof.Machine
end

