-- ==== Sys2Proof/Proofs/StepLaws.lean ====
section
/-! PROOFS. O1, O2, O3 and O58: steps, the reset values, and network time, which changes by steps. -/

namespace Sys2Proof.Machine

set_option Elab.async false

variable {K : Special → Prop}

/-! ## Every command answers a next state -/

theorem exec_answers (c : Instr) (s : State) : ∃ t, exec c s = .next t := by cases c <;> exact ⟨_, rfl⟩

/-- No atom touches the queue of waiting commands. -/
theorem Atom.pending {s t : State} (h : Atom K s t) : t.pending = s.pending := by
  cases h with
  | raise n => exact (congrArg State.pending (undecided_raise n s) :)
  | transfer => exact (congrArg State.pending (undecided_transferLocal s) :)
  | write =>
    unfold writeCell writeHead
    (repeat' split) <;> rfl
  | _ => rfl

theorem pending_exec {c : Instr} {s t : State} (h : exec c s = .next t) : t.pending = s.pending :=
  (moves_exec h fun _ hk => hk).kept (P := fun u => u.pending = s.pending) rfl
    fun _ _ atom same => atom.pending.trans same

/-- Settles O2. -/
theorem everyCommandAnswersANextState : Obligations.EveryCommandAnswersANextState := by
  refine ⟨fun c s => ?_, fun s => ?_, fun s empty => ?_⟩
  · obtain ⟨t, h⟩ := exec_answers c s
    exact ⟨t, h, pending_exec h⟩
  · unfold SafeStep step
    split
    · exact ⟨s, rfl⟩
    · exact exec_answers ..
  · unfold step; rw [empty]

/-- Settles O1. -/
theorem stepRunsTheFrontCommand : Obligations.StepRunsTheFrontCommand := by
  intro c rest s pending
  unfold step
  rw [pending]
  unfold State.popped
  rw [pending]
  rfl

/-- Settles O3: the laws are read off the empty queues and tables. -/
theorem resetValuesAndLaws : Obligations.ResetValuesAndLaws := by
  have purchase : PurchaseLaw State.reset := by
    refine ⟨by decide, by decide, rfl, by decide, by decide, by decide, by decide, by decide, by decide⟩
  have cold : State.coldProfile.lawful := ⟨by decide, by decide⟩
  have limits : LimitsLaw State.reset := (limitsLaw_iff _).2
    ⟨cold, cold, cold, by decide, by decide, nofun⟩
  have idle (f : Feed) : (State.reset.acqOf f).state = .idle := by cases f <;> rfl
  have presenting : PresentingLaw State.reset := ⟨fun f h => AcqState.noConfusion (idle f ▸ h), by decide⟩
  have events : EventTableLaw State.reset := (eventTableLaw_iff _).2 ⟨by decide, by decide, nofun, .nil⟩
  have tables : TablesLaw State.reset := ⟨by decide, .nil, by decide, .nil⟩
  have rating : RatingLaw State.reset := ⟨fun _ => rfl, nofun⟩
  have replies : ReplyQueueLaw State.reset := (replyQueueLaw_iff _).2 (lawfulReplies_of_cold rfl rfl rfl rfl)
  have capacity : CapacityLaw State.reset := ⟨by decide, by decide, by decide, by decide, .nil, by decide⟩
  have clock : ClockLaw State.reset := (clockLaw_iff _).2 (by constructor <;> decide)
  refine ⟨rfl, rfl, rfl, rfl, rfl, rfl, rfl, ?_, rfl, rfl, rfl, rfl, rfl, rfl, rfl, rfl, rfl, rfl, rfl, rfl, rfl, rfl,
    ?_, rfl, rfl, rfl, rfl, rfl, rfl, ?_, rfl, rfl, rfl, rfl, rfl, rfl, rfl, rfl, rfl, rfl, rfl, rfl, rfl, rfl, rfl,
    rfl, rfl, rfl, rfl, purchase, limits, rfl, presenting, events, tables, ⟨nofun, by decide⟩, rating, replies,
    capacity, clock⟩
  all_goals intro f; cases f <;> decide

/-! ## Network time and the step count (R40, R43, R45) -/

theorem ClockAtom.timeless {c x : Clock} (h : ClockAtom K c x) (time : ¬ K .time) (warm : ¬ K .warm) :
    x.n = c.n ∧ x.stepCount = c.stepCount := by
  cases h with
  | same => exact ⟨rfl, rfl⟩
  | move m =>
    cases m with
    | slewed _ b src => exact ⟨Clock.n_slewed .., by unfold Clock.slewed Clock.marked; rfl⟩
    | _ => exact ⟨rfl, rfl⟩
  | advance hk => exact absurd hk time
  | step hk => exact absurd hk time
  | warm hk => exact absurd hk warm
  | soft => exact ⟨rfl, rfl⟩

/-- Network time and the step count stand still in t against s. -/
def Timeless (s t : State) : Prop := t.clock.n = s.clock.n ∧ t.clock.stepCount = s.clock.stepCount

theorem Moves.timeless {s t : State} (h : Moves K s t) (time : ¬ K .time) (warm : ¬ K .warm) : Timeless s t :=
  h.kept (P := Timeless s) ⟨rfl, rfl⟩ fun _ _ atom ⟨n, count⟩ =>
    have ⟨n', count'⟩ := atom.clock_cases.timeless time warm
    ⟨n'.trans n, count'.trans count⟩

/-- Either time stands still, or one step is counted. -/
def AtMostOneStep (s t : State) : Prop := Timeless s t ∨ t.clock.stepCount = bump s.clock.stepCount

theorem AtMostOneStep.after {s u t : State} (h : AtMostOneStep u t) (first : Timeless s u) : AtMostOneStep s t := by
  rcases h with ⟨n, count⟩ | count
  · exact .inl ⟨n.trans first.1, count.trans first.2⟩
  · exact .inr (count.trans (by rw [first.2]))

theorem AtMostOneStep.of_clock {s t u : State} (h : AtMostOneStep s t) (same : u.clock = t.clock) :
    AtMostOneStep s u := by
  unfold AtMostOneStep Timeless
  rw [same]
  exact h

/-- A mark that steps is counted once, with all that its boundary brings (R43, R45, R50). -/
theorem stepCount_applyStep (b : Bytes) (src : MarkSource) (s : State) :
    (applyStep (readMark b src) s).clock.stepCount = bump s.clock.stepCount := by
  have clock : (stepTo (readMark b src) s).clock = s.clock.stepped (readMark b src) := by
    unfold stepTo; rw [clock_of_undecided (undecided_raise ..)]
  have set : (stepTo (readMark b src) s).clock.state ≠ .unset := by rw [clock]; exact nofun
  have boundary := (moves_evaluateBoundary (K := fun _ => False) set (kind := .step) (by decide)).timeless id id
  have compared := clock_of_undecided (undecided_compareWatched (stepTo (readMark b src) s))
  calc (applyStep (readMark b src) s).clock.stepCount
      = (compareWatched (stepTo (readMark b src) s)).clock.stepCount := boundary.2
    _ = (s.clock.stepped (readMark b src)).stepCount := by rw [compared, clock]
    _ = bump s.clock.stepCount := rfl

theorem atMostOneStep_applyMark (b : Bytes) (src : MarkSource) (s : State) :
    AtMostOneStep s (applyMark (readMark b src) s) := by
  unfold applyMark
  split
  · exact .inr (stepCount_applyStep ..)
  · exact .inr (stepCount_applyStep ..)
  · rename_i slew
    have set : s.clock.state ≠ .unset := fun unset => by simp [markKind, unset] at slew
    exact .inl ((moves_applySlew (K := fun _ => False) b src set).timeless id id)

theorem Handled.atMostOneStep {f : Feed} {s t : State} (h : Handled (fun _ => False) f s t) : AtMostOneStep s t := by
  cases h with
  | plain moves => exact .inl (moves.timeless id id)
  | @gated u moves c clear _ =>
    have first := moves.timeless id id
    have queued := (moves_enqueueProgramme (K := (· = .gate)) rfl c clear u).timeless nofun nofun
    exact .inl ⟨queued.1.trans first.1, queued.2.trans first.2⟩
  | marked moves b src => exact (atMostOneStep_applyMark b src _).after (moves.timeless id id)

theorem atMostOneStep_actSetClock (c : CommandCell) (s : State) : AtMostOneStep s (actSetClock c s) := by
  unfold actSetClock
  split
  · split
    · exact (atMostOneStep_applyMark ..).of_clock rfl
    · exact .inl ⟨rfl, rfl⟩
  · exact .inl ⟨rfl, rfl⟩

theorem actByCode_setClock {c : CommandCell} (h : c.code = 0x25#8) : actByCode c = actSetClock c := by
  unfold actByCode; rw [h]; rfl

theorem atMostOneStep_actByCode {s : State} (h : Taken s) (c : CommandCell) : AtMostOneStep s (actByCode c s) := by
  by_cases code : c.code = 0x25#8
  · rw [actByCode_setClock code]; exact atMostOneStep_actSetClock c s
  · exact .inl ((moves_actByCode (K := fun k => k = .entry ∨ k = .soft) (.inl rfl) h c (fun h => absurd h code)
      fun _ => .inr rfl).timeless (by decide) (by decide))

theorem atMostOneStep_commandRow {act : CommandCell → State → State} {c : CommandCell} (s : State)
    (h : ∀ t, Taken t → AtMostOneStep t (act c t)) : AtMostOneStep s (commandRow act c s) := by
  unfold commandRow
  split
  · exact .inl ⟨rfl, rfl⟩
  · split
    · rename_i may
      obtain ⟨_, _, held, _⟩ := (mayTake_iff s).1 may
      exact (h (reserve s) ⟨rfl, held⟩).after ⟨rfl, rfl⟩
    · exact .inl ((moves_offerIntake (K := fun _ => False) c s).timeless id id)

/-- Claimants 3 to 5 of R184: a claimant before the intake, or the intake's head. -/
theorem arbiterLater_cases {s : State} (room : 0 < freeEntries s) : Moves K s (arbiterLater s) ∨
    ∃ c rest, s.command.intake = c :: rest ∧ s.command.heldReply = none ∧ arbiterLater s = takeHead c rest s := by
  unfold arbiterLater
  split
  · rename_i m _
    exact .inl (.trans (moves_place [.marker m.channel m.decision m.reason] s room
      (List.forall_mem_singleton.2 rfl)) (moves_outputCount { s.output with pendingMarker := none } _))
  · split
    · rename_i pending; exact .inl (.off (.placeNotice pending room))
    · split
      · exact .inl .refl
      · rename_i held
        split
        · exact .inl .refl
        · rename_i c rest intake
          exact .inr ⟨c, rest, intake, by simpa using held, rfl⟩

/-- The arbiter serves a claimant before the intake, or takes the intake's head (R184). -/
theorem arbiter_cases (hk : K .entry) (s : State) : Moves K s (arbiter s) ∨
    ∃ c rest, s.command.intake = c :: rest ∧ s.command.heldReply = none ∧ arbiter s = takeHead c rest s := by
  unfold arbiter
  split
  · exact .inl .refl
  · rename_i some
    have room : 0 < freeEntries s := Nat.pos_of_ne_zero some
    split
    · exact .inl (moves_placeFormed _ _ room)
    · split
      · rename_i cells held
        split
        · rename_i fits; exact .inl (.off (.placeHeld hk cells held fits))
        · exact arbiterLater_cases room
      · exact arbiterLater_cases room

theorem atMostOneStep_arbiter (s : State) : AtMostOneStep s (arbiter s) := by
  rcases arbiter_cases (K := (· = .entry)) rfl s with moves | ⟨c, rest, _, held, eq⟩
  · exact .inl (moves.timeless nofun nofun)
  · rw [eq]
    exact (atMostOneStep_actByCode (s := reserve { s with command := { s.command with intake := rest } })
      ⟨rfl, held⟩ c).after ⟨rfl, rfl⟩

theorem clock_advanceClock (s : State) :
    (advanceClock s).clock.n = s.clock.advanced.n ∧ (advanceClock s).clock.stepCount = s.clock.stepCount := by
  unfold advanceClock
  dsimp only
  split
  · exact ⟨rfl, rfl⟩
  · by_cases unset : s.clock.state = .unset
    · have quiet : evaluateBoundary .advance { s with clock := s.clock.advanced } =
          { s with clock := s.clock.advanced } := if_pos unset
      rw [quiet]
      exact ⟨rfl, rfl⟩
    · have boundary := (moves_evaluateBoundary (K := fun _ => False) (s := { s with clock := s.clock.advanced })
        unset (kind := .advance) (by decide)).timeless id id
      have compared := clock_of_undecided (undecided_compareWatched { s with clock := s.clock.advanced })
      exact ⟨boundary.1.trans (by rw [compared]), boundary.2.trans (by rw [compared]; rfl)⟩

theorem Clock.units_le (c : Clock) : c.units ≤ 2 := by
  unfold Clock.units; split_ifs <;> decide

theorem clock_clockAdvance (s : State) : (clockAdvance s).clock.stepCount = s.clock.stepCount ∧
    ((clockAdvance s).clock.n = s.clock.n ∨ ∃ u ≤ 2, (clockAdvance s).clock.n = (s.clock.n + u) % 2 ^ 42) := by
  unfold clockAdvance
  split
  · exact ⟨rfl, .inl rfl⟩
  · split
    · obtain ⟨n, count⟩ := clock_advanceClock (tickTimers s)
      exact ⟨count, .inr ⟨_, Clock.units_le _, n⟩⟩
    · obtain ⟨n, count⟩ := clock_advanceClock s
      exact ⟨count, .inr ⟨_, Clock.units_le _, n⟩⟩

/-! ## Slot rows at a slot boundary (R5, R6) -/

theorem atSlotBoundary_iff {f : Feed} {bs : List FeedByte} {s : State} : atSlotBoundary f bs s = true ↔
    s.running = true ∧ s.feedPresent f = true ∧ (s.frontOf f).held = [] ∧ bs.length = 128 := by
  simp [atSlotBoundary, and_assoc]

theorem atSlotBoundary_of_slotArrives {f : Feed} {bs : List FeedByte} {p : Nat} {s : State}
    (h : slotArrives f bs p s) : atSlotBoundary f bs s = true :=
  have ⟨running, present, held, _, length⟩ := h
  atSlotBoundary_iff.2 ⟨running, present, held, length⟩

theorem confirmSlotRow_at {f : Feed} {bs : List FeedByte} {n : Fin 3} {s : State}
    (boundary : atSlotBoundary f bs s = true) (sync : (s.frontOf f).sync = .confirm n) :
    confirmSlotRow f bs s = confirmSlot f n bs s := by
  unfold confirmSlotRow; rw [sync]; exact if_pos boundary

theorem lockedSlotRow_at {f : Feed} {bs : List FeedByte} {n : Fin 3} {s : State}
    (boundary : atSlotBoundary f bs s = true) (sync : (s.frontOf f).sync = .locked n) :
    lockedSlotRow f bs s = lockedSlot f n bs s := by
  unfold lockedSlotRow; rw [sync]; exact if_pos boundary

/-- The rows whose command may count or step network time. -/
def isTimed : Instr → Bool
  | .powerOn _ _ | .resetLineAssert | .startUp _ | .feedByte _ _ | .confirmSlot _ _ | .lockedSlot _ _
  | .clockAdvance | .replyEntryArbiter | .setClock _ _ | .invalidCommand _ _ _ => true
  | _ => false

theorem not_needs_of_untimed {c : Instr} (h : isTimed c = false) (s : State) :
    ¬ Needs s c .time ∧ ¬ Needs s c .warm := by
  cases c <;> simp_all [isTimed, Needs]

/-- Settles O58: what is no mark keeps time, and a mark is applied once in a command. -/
theorem networkTimeChangesBySteps : Obligations.NetworkTimeChangesBySteps := by
  intro c s t h noPower noReset noStart confirm locked
  have settled (made : AtMostOneStep s t) : (t.clock.stepCount = s.clock.stepCount ∧
      (t.clock.n = s.clock.n ∨ (c = .clockAdvance ∧ ∃ u ≤ 2, t.clock.n = (s.clock.n + u) % 2 ^ 42))) ∨
      t.clock.stepCount = min (s.clock.stepCount + 1) 65535 := by
    rcases made with ⟨n, count⟩ | count
    · exact .inl ⟨count, .inl n⟩
    · exact .inr count
  cases timed : isTimed c with
  | false =>
    obtain ⟨time, warm⟩ := not_needs_of_untimed timed s
    exact settled (.inl ((moves_exec h fun _ hk => hk).timeless time warm))
  | true =>
    cases c with
    | powerOn a g => exact absurd rfl (noPower a g)
    | resetLineAssert => exact absurd rfl noReset
    | startUp i => exact absurd rfl (noStart i)
    | feedByte f b => cases h; exact settled (handled_feedByte f b s).atMostOneStep
    | confirmSlot f bs =>
      obtain ⟨n, p, arrives, sync⟩ := confirm f bs rfl
      have moves : Moves (fun _ => False) s t := by
        cases h
        rw [confirmSlotRow_at (atSlotBoundary_of_slotArrives arrives) sync]
        exact moves_confirmSlot ..
      exact settled (.inl (moves.timeless id id))
    | lockedSlot f bs =>
      obtain ⟨n, p, arrives, sync⟩ := locked f bs rfl
      cases h
      rw [lockedSlotRow_at (atSlotBoundary_of_slotArrives arrives) sync] at settled ⊢
      exact settled (handled_lockedSlot f n bs s).atMostOneStep
    | clockAdvance =>
      cases h
      obtain ⟨count, n⟩ := clock_clockAdvance s
      exact .inl ⟨count, n.imp_right fun n => ⟨rfl, n⟩⟩
    | replyEntryArbiter =>
      cases h
      refine settled ?_
      split
      · exact atMostOneStep_arbiter s
      · exact .inl ⟨rfl, rfl⟩
    | setClock tag params =>
      cases h
      exact settled (atMostOneStep_commandRow s fun t _ => atMostOneStep_actSetClock _ t)
    | invalidCommand tag code params =>
      cases h
      exact settled (atMostOneStep_commandRow s fun t taken => atMostOneStep_actByCode taken _)
    | _ => cases timed

end Sys2Proof.Machine
end

