-- ==== Sys2Proof/Proofs/CellOrder.lean ====
section
/-! PROOFS. O59 and O60: programme cells pass the gate, and local cells leave in order. -/

namespace Sys2Proof.Machine

set_option Elab.async false

variable {K : Special → Prop}

/-! ## Programme cells enter through the gate (R174, R175) -/

/-- The programme cells of the output queue, in order. -/
def programmeCells (s : State) : List Cell :=
  s.output.queue.filterMap (fun c => match c with | .programme x => some x | .ofPart _ => none)

theorem QueueMove.programmeCells {s t : State} (m : QueueMove K s t.output.queue) (gate : ¬ K .gate) :
    (programmeCells t).Sublist (programmeCells s) := by
  unfold Machine.programmeCells
  generalize t.output.queue = q at m ⊢
  cases m with
  | same => exact .refl _
  | flags m =>
    rw [List.filterMap_map]
    have same : (fun c : OutCell => (match c.addFlags m with | .programme x => some x | .ofPart _ => none)) =
        fun c : OutCell => match c with | .programme x => some x | .ofPart _ => none :=
      funext fun c => by cases c <;> rfl
    exact (congrArg (fun g => s.output.queue.filterMap g) same).symm ▸ .refl _
  | flushed => exact List.filter_sublist.filterMap _
  | transferred x room => rw [List.filterMap_append]; simp
  | entered hk => exact absurd hk gate
  | written => exact (List.tail_sublist _).filterMap _
  | emptied => exact List.nil_sublist _

theorem Moves.programmeCells {s t : State} (h : Moves K s t) (gate : ¬ K .gate) :
    (programmeCells t).Sublist (programmeCells s) :=
  h.kept (P := fun t => (Machine.programmeCells t).Sublist (Machine.programmeCells s)) (.refl _)
    fun _ _ atom sub => (atom.queue_cases.programmeCells gate).trans sub

/-- At most one programme cell came in, at the tail, and then through the open gate of f. -/
def OneAtMost (f : Feed) (s t : State) : Prop := (programmeCells t).Sublist (programmeCells s) ∨
  (∃ kept cell, kept.Sublist (programmeCells s) ∧ programmeCells t = kept ++ [cell]) ∧
    (t.acqOf f).state = .presenting ∧
    ∃ x, t.output.context = some x ∧ x.feed = f ∧ x.changing = false ∧ x.decision ≠ .deny

theorem gateOpen_iff {s : State} {f : Feed} : gateOpen s f = true ↔ (s.acqOf f).state = .presenting ∧
    ∃ x, s.output.context = some x ∧ x.feed = f ∧ x.changing = false ∧ x.decision ≠ .deny := by
  unfold gateOpen
  cases s.output.context with
  | none => simp
  | some c => simp; tauto

theorem oneAtMost_enqueueProgramme {f : Feed} (c : Cell) {s : State} (opened : gateOpen s f = true) :
    OneAtMost f s (enqueueProgramme c s) := by
  have entered (s1 : State) (queue : s1.output.queue = s.output.queue ++ [.programme c])
      (acq : s1.acq = s.acq) (context : s1.output.context = s.output.context) : OneAtMost f s s1 := by
    refine .inr ⟨⟨programmeCells s, c, .refl _, ?_⟩, ?_⟩
    · unfold programmeCells; rw [queue, List.filterMap_append]; rfl
    · unfold State.acqOf
      rw [acq, context]
      exact gateOpen_iff.1 opened
  unfold enqueueProgramme
  split
  · dsimp only
    split
    · exact entered _ rfl rfl rfl
    · exact entered _ rfl rfl rfl
  · exact .inl (.refl _)

theorem OneAtMost.after {f : Feed} {s u t : State} (h : OneAtMost f u t)
    (first : (programmeCells u).Sublist (programmeCells s)) : OneAtMost f s t := by
  rcases h with sub | ⟨⟨kept, cell, sub, eq⟩, gate⟩
  · exact .inl (sub.trans first)
  · exact .inr ⟨⟨kept, cell, sub.trans first, eq⟩, gate⟩

theorem Handled.oneAtMost {f : Feed} {s t : State} (h : Handled (fun _ => False) f s t) : OneAtMost f s t := by
  cases h with
  | plain moves => exact .inl (moves.programmeCells id)
  | gated moves c _ opened => exact (oneAtMost_enqueueProgramme c opened).after (moves.programmeCells id)
  | @marked u moves b src =>
    have mark := (moves_applyMark (K := (· = .time)) rfl b src u).programmeCells nofun
    exact .inl (mark.trans (moves.programmeCells id))

/-- Only the feed rows let a cell in. -/
theorem not_needs_gate {c : Instr} (s : State) (noByte : ∀ f b, c ≠ .feedByte f b)
    (noSlot : ∀ f slot, c ≠ .confirmSlot f slot ∧ c ≠ .lockedSlot f slot) : ¬ Needs s c .gate := by
  cases c <;> simp_all [Needs]

theorem feedBytes_eq (f : Feed) (bs : List FeedByte) (s : State) :
    feedBytes f bs s = bs.foldl (fun u b => feedByte f b u) s := rfl

/-- At a slot boundary of the front that a slot row is for, the slot arrives whole (R5, R6). -/
theorem slotArrives_of_boundary {f : Feed} {bs : List FeedByte} {s : State}
    (boundary : atSlotBoundary f bs s = true) (slot : (s.frontOf f).slot.isSome = true) :
    ∃ p, slotArrives f bs p s := by
  obtain ⟨p, hp⟩ := Option.isSome_iff_exists.1 slot
  obtain ⟨running, present, held, length⟩ := atSlotBoundary_iff.1 boundary
  exact ⟨p, running, present, held, hp, length⟩

theorem confirmSlotRow_off {f : Feed} {bs : List FeedByte} {s : State}
    (off : ¬ ((∃ p, slotArrives f bs p s) ∧ ∃ n, (s.frontOf f).sync = .confirm n))
    (slot : ∀ n, (s.frontOf f).sync = .confirm n → (s.frontOf f).slot.isSome = true) :
    confirmSlotRow f bs s = feedBytes f bs s := by
  unfold confirmSlotRow
  split
  · rename_i n sync
    split
    · rename_i boundary
      exact absurd ⟨slotArrives_of_boundary boundary (slot n sync), n, sync⟩ off
    · rfl
  · rfl

theorem lockedSlotRow_off {f : Feed} {bs : List FeedByte} {s : State}
    (off : ¬ ((∃ p, slotArrives f bs p s) ∧ ∃ n, (s.frontOf f).sync = .locked n))
    (slot : ∀ n, (s.frontOf f).sync = .locked n → (s.frontOf f).slot.isSome = true) :
    lockedSlotRow f bs s = feedBytes f bs s := by
  unfold lockedSlotRow
  split
  · rename_i n sync
    split
    · rename_i boundary
      exact absurd ⟨slotArrives_of_boundary boundary (slot n sync), n, sync⟩ off
    · rfl
  · rfl

/-- Settles O59: every move but the gate's only takes programme cells away. -/
theorem programmeCellsPassTheGate : Obligations.ProgrammeCellsPassTheGate := by
  intro c s t h
  refine ⟨fun noByte noSlot => ?_, fun f b row => ?_, fun f bs n row arrives sync => ?_,
    fun f bs n row arrives sync => ?_, fun f bs rows slot => ?_⟩
  · exact (moves_exec h fun _ hk => hk).programmeCells (not_needs_gate s noByte noSlot)
  · subst row; cases h
    exact ⟨rfl, (handled_feedByte f b s).oneAtMost⟩
  · subst row; cases h
    obtain ⟨p, arrives⟩ := arrives
    rw [confirmSlotRow_at (atSlotBoundary_of_slotArrives arrives) sync]
    exact (moves_confirmSlot (K := fun _ => False) f n bs s).programmeCells id
  · subst row; cases h
    obtain ⟨p, arrives⟩ := arrives
    rw [lockedSlotRow_at (atSlotBoundary_of_slotArrives arrives) sync]
    exact (handled_lockedSlot f n bs s).oneAtMost
  · rcases rows with ⟨rfl, off⟩ | ⟨rfl, off⟩
    · cases h
      rw [confirmSlotRow_off off fun n sync => slot n (.inl sync), feedBytes_eq]
    · cases h
      rw [lockedSlotRow_off off fun n sync => slot n (.inr sync), feedBytes_eq]

/-! ## Local cells leave in order (R175, R176, R183) -/

/-- A local cell without the flags of a NOTICE. -/
def plainCell (c : LocalCell) : LocalCell := match c with | .notice _ => .notice 0 | c => c

/-- The local cells that wait in the two queues, in the order in which they leave. -/
def waitingCells (s : State) : List LocalCell :=
  ((s.output.queue.filterMap (fun c => match c with | .ofPart x => some x | .programme _ => none)) ++
    s.command.replyQueue).map plainCell

/-- The local cells of an output queue. -/
def localCells (q : List OutCell) : List LocalCell :=
  q.filterMap (fun c => match c with | .ofPart x => some x | .programme _ => none)

theorem waitingCells_eq (s : State) :
    waitingCells s = (localCells s.output.queue).map plainCell ++ s.command.replyQueue.map plainCell :=
  List.map_append

theorem plainCell_addFlags (m : BitVec 16) (c : LocalCell) : plainCell (c.addFlags m) = plainCell c := by
  cases c <;> rfl

theorem localCells_append (q r : List OutCell) : localCells (q ++ r) = localCells q ++ localCells r :=
  List.filterMap_append

theorem localCells_addFlags (m : BitVec 16) (q : List OutCell) :
    (localCells (q.map (OutCell.addFlags m))).map plainCell = (localCells q).map plainCell := by
  induction q with
  | nil => rfl
  | cons c q ih =>
    cases c with
    | programme c => exact ih
    | ofPart c => exact congrArg₂ List.cons (plainCell_addFlags m c) ih

theorem localCells_flush (q : List OutCell) : localCells (q.filter (fun c => !c.isProgramme)) = localCells q := by
  induction q with
  | nil => rfl
  | cons c q ih =>
    cases c with
    | programme c => exact ih
    | ofPart c => exact congrArg (List.cons c) ih

/-- A state whose output queue has the same local cells, with cells added to the reply queue. -/
theorem prefix_waitingCells {s t : State} (cells : List LocalCell)
    (queue : localCells t.output.queue = localCells s.output.queue := by rfl)
    (replies : t.command.replyQueue = s.command.replyQueue ++ cells := by rfl) :
    waitingCells s <+: waitingCells t := by
  rw [waitingCells_eq, waitingCells_eq, queue, replies, List.map_append, ← List.append_assoc]
  exact List.prefix_append ..

theorem waitingCells_raise (n : Notice) (s : State) : waitingCells s <+: waitingCells (raise n s) := by
  unfold raise reportRaise
  split_ifs
  · exact List.prefix_refl _
  · have same : waitingCells s = waitingCells { s with
        command := { s.command with
          notices := s.command.notices ||| n.mask
          replyQueue := s.command.replyQueue.map (LocalCell.addFlags n.mask) }
        output := { s.output with queue := s.output.queue.map (OutCell.addFlags n.mask) } } := by
      have replies : plainCell ∘ LocalCell.addFlags n.mask = plainCell := funext (plainCell_addFlags _)
      rw [waitingCells_eq, waitingCells_eq, localCells_addFlags, List.map_map, replies]
    exact same ▸ List.prefix_refl _
  · exact List.prefix_refl _
  · exact prefix_waitingCells _
  · exact List.prefix_refl _

theorem waitingCells_transferLocal (s : State) : waitingCells (transferLocal s) = waitingCells s := by
  unfold transferLocal
  split
  · rfl
  · rename_i cell rest queue
    split
    · rw [waitingCells_eq, waitingCells_eq, queue]
      simp [localCells]
    · rfl

theorem Atom.waitingCells {s t : State} (h : Atom K s t) (write : ¬ K .write) (warm : ¬ K .warm) (soft : ¬ K .soft) :
    waitingCells s <+: waitingCells t := by
  cases h with
  | raise n => exact waitingCells_raise n s
  | place cells | placeFormed f cell | reply hk cells | placeHeld hk cells => exact prefix_waitingCells _
  | placeNotice => exact prefix_waitingCells _
  | output x queue => exact prefix_waitingCells [] (congrArg localCells queue) (List.append_nil _).symm
  | flush => exact prefix_waitingCells [] (localCells_flush _) (List.append_nil _).symm
  | command x hi queue => exact prefix_waitingCells [] rfl (queue.trans (List.append_nil _).symm)
  | transfer => rw [waitingCells_transferLocal]
  | enqueue hk c =>
    exact prefix_waitingCells [] ((localCells_append ..).trans (List.append_nil _)) (List.append_nil _).symm
  | write hk => exact absurd hk write
  | warm hk => exact absurd hk warm
  | soft hk => exact absurd hk soft
  | _ => exact List.prefix_refl _

theorem Moves.waitingCells {s t : State} (h : Moves K s t) (write : ¬ K .write) (warm : ¬ K .warm)
    (soft : ¬ K .soft) : waitingCells s <+: waitingCells t :=
  h.kept (P := fun t => Machine.waitingCells s <+: Machine.waitingCells t) (List.prefix_refl _)
    fun _ _ atom sub => sub.trans (atom.waitingCells write warm soft)

theorem waitingCells_writeCell (s : State) : waitingCells (writeCell s) = waitingCells s ∨
    ∃ x rest, s.output.queue = .ofPart x :: rest ∧ waitingCells s = plainCell x :: waitingCells (writeCell s) ∧
      (writeCell s).lines.onP = localBytes x s.output.continuity s.freeIndex := by
  unfold writeCell
  split
  · exact .inl rfl
  · split
    · exact .inl rfl
    · rename_i cell rest queue
      split
      · exact .inl rfl
      · cases cell with
        | programme c => exact .inl (by rw [waitingCells_eq, waitingCells_eq, queue]; rfl)
        | ofPart c => exact .inr ⟨c, rest, queue, by rw [waitingCells_eq, waitingCells_eq, queue]; rfl, rfl⟩

theorem not_needs_emptying {c : Instr} {s : State} (noPower : ∀ asserted good, c ≠ .powerOn asserted good)
    (noReset : c ≠ .resetLineAssert) (noSoft : ∀ tag params, c ≠ .softReset tag params)
    (noInvalid : ∀ tag params, c ≠ .invalidCommand tag 0x02#8 params)
    (arbiter : c = .replyEntryArbiter → ∀ x, s.command.intake.head? = some x → x.code ≠ 0x02#8) :
    ¬ Needs s c .warm ∧ ¬ Needs s c .soft := by
  cases c with
  | invalidCommand tag code params =>
    refine ⟨by simp [Needs], ?_⟩
    rintro (h | ⟨h, _⟩ | ⟨_, rfl⟩)
    · cases h
    · cases h
    · exact noInvalid tag params rfl
  | replyEntryArbiter =>
    refine ⟨by simp [Needs], ?_⟩
    rintro (h | ⟨x, head, ⟨h, _⟩ | ⟨_, code⟩⟩)
    · cases h
    · cases h
    · exact arbiter rfl x head code
  | _ => simp_all [Needs]

theorem not_needs_write {c : Instr} (s : State) (h : c ≠ .outputCellWrite) : ¬ Needs s c .write := by
  cases c <;> simp_all [Needs]

/-- Settles O60: only the output port takes a local cell, and only at the head; the others place at the tail. -/
theorem localCellsLeaveInOrder : Obligations.LocalCellsLeaveInOrder := by
  intro c s t h noPower noReset noSoft noInvalid arbiter
  obtain ⟨warm, soft⟩ := not_needs_emptying noPower noReset noSoft noInvalid arbiter
  refine ⟨fun noWrite => ?_, fun write => ?_⟩
  · exact (moves_exec h fun _ hk => hk).waitingCells (not_needs_write s noWrite) warm soft
  · subst write; cases h
    split
    · exact waitingCells_writeCell s
    · exact .inl rfl

end Sys2Proof.Machine
end

