-- ==== Sys2Proof/Proofs/Resets.lean ====
section
/-! PROOFS. O4, O5 and O30: power, reset line, start-up and SOFT RESET (R190 to R193). -/

namespace Sys2Proof.Machine

set_option Elab.async false

variable {K : Special → Prop}

/-! ## Taking up work after a reset (R19, R38, R190, R191) -/

/-- Entries with new feeds and streams are added while they fit (R20). -/
theorem addEntries_new (es : List FilterEntry) (s : State) (room : s.filter.entries.length + es.length ≤ 24)
    (new : ∀ e ∈ es, e.key ∉ s.filter.entries.map FilterEntry.key) (distinct : (es.map FilterEntry.key).Nodup) :
    addEntries es s = { s with filter := { s.filter with entries := s.filter.entries ++ es } } := by
  induction es generalizing s with
  | nil => simp [addEntries]
  | cons e es ih =>
    obtain ⟨apart, distinct⟩ := List.nodup_cons.1 distinct
    obtain ⟨newE, newEs⟩ := List.forall_mem_cons.1 new
    have absent : entryAt s e.feed e.stream = none := by
      refine List.find?_eq_none.2 fun x hx same => newE (List.mem_map.2 ⟨x, hx, ?_⟩)
      simp only [FilterEntry.isAt, Bool.and_eq_true, decide_eq_true_eq] at same
      exact Prod.ext same.1 same.2
    rw [List.length_cons] at room
    have added : addEntry e s = { s with filter := { s.filter with entries := s.filter.entries ++ [e] } } := by
      unfold addEntry
      rw [absent, decide_eq_true (by omega)]
      rfl
    unfold addEntries
    rw [added, ih]
    · simp
    · rw [List.length_append, List.length_singleton]; omega
    · intro x hx
      rw [List.map_append, List.mem_append]
      rintro (old | now)
      · exact newEs x hx old
      · exact apart (List.mem_singleton.1 now ▸ List.mem_map_of_mem hx)
    · exact distinct

/-- The three FIXED entries of a feed are added to a table with room and without its streams 1 to 3 (R16, R38). -/
theorem addEntries_fixed (f : Feed) (s : State) (room : s.filter.entries.length ≤ 21)
    (new : ∀ e ∈ s.filter.entries, e.feed = f → 3 < e.stream) :
    addEntries (fixedEntries f) s =
      { s with filter := { s.filter with entries := s.filter.entries ++ fixedEntries f } } := by
  refine addEntries_new _ s (Nat.add_le_add_right room 3) (fun e he held => ?_) (by cases f <;> decide)
  obtain ⟨x, hx, same⟩ := List.mem_map.1 held
  have key : e.feed = f ∧ e.stream ≤ 3 := by
    have all : ∀ e ∈ fixedEntries f, e.feed = f ∧ e.stream ≤ 3 := by cases f <;> decide
    exact all e he
  have high := new x hx ((congrArg Prod.fst same).trans key.1)
  have stream : x.stream = e.stream := congrArg Prod.snd same
  omega

/-- The FIXED entries of the enabled feeds (R38). -/
def startEntries (s : State) : List FilterEntry :=
  (if (s.frontOf .f0).enabled then fixedEntries .f0 else []) ++
    (if (s.frontOf .f1).enabled then fixedEntries .f1 else [])

/-- A front in DOWN once feed lock is worked out (R3, R19). -/
def startedFront (s : State) (f : Feed) : Front :=
  if feedLock s f then (s.frontOf f).rehunt else s.frontOf f

theorem makeFixedEntries_eq {s : State} (empty : s.filter.entries = []) :
    makeFixedEntries s = { s with filter := { s.filter with entries := startEntries s } } := by
  have made (f : Feed) (u : State) (room : u.filter.entries.length ≤ 21)
      (new : ∀ e ∈ u.filter.entries, e.feed = f → 3 < e.stream) :
      (if (u.frontOf f).enabled then addEntries (fixedEntries f) u else u) =
        { u with filter := { u.filter with
          entries := u.filter.entries ++ (if (u.frontOf f).enabled then fixedEntries f else []) } } := by
    split
    · exact addEntries_fixed f u room new
    · simp
  have first := made .f0 s (by rw [empty]; decide) (by rw [empty]; nofun)
  have second := made .f1 (if (s.frontOf .f0).enabled then addEntries (fixedEntries .f0) s else s)
    (by rw [first, empty]; dsimp only; split <;> decide)
    (by rw [first, empty]; dsimp only; split <;> decide)
  unfold makeFixedEntries
  dsimp only
  rw [second, first, empty]
  rfl

theorem setFront_frontOf (f : Feed) (s : State) : s.setFront f (s.frontOf f) = s := by cases f <;> rfl

/-- A front in DOWN hunts when feed lock is true (R3). -/
theorem reworkLock_of_down {f : Feed} {s : State} (down : (s.frontOf f).sync = .down) :
    reworkLock f s = s.setFront f (startedFront s f) := by
  unfold reworkLock startedFront
  rw [if_pos down, if_pos down]
  split
  · rfl
  · exact (setFront_frontOf f s).symm

/-- What every block does when a reset is over, with both fronts in DOWN and an empty table (R190, R191). -/
theorem takeUpWork_eq {s : State} (down : ∀ f, (s.frontOf f).sync = .down) (empty : s.filter.entries = []) :
    takeUpWork s = { s with
      filter := { s.filter with entries := startEntries s }
      front := ⟨startedFront s .f0, startedFront s .f1⟩
      limits := { s.limits with standing := standingNow s } } := by
  have fronts (u : State) (down : ∀ f, (u.frontOf f).sync = .down) :
      startFronts u = { u with front := ⟨startedFront u .f0, startedFront u .f1⟩ } := by
    have second := reworkLock_of_down (f := .f1) (s := u.setFront .f0 (startedFront u .f0)) (down .f1)
    unfold startFronts
    rw [reworkLock_of_down (down .f0), second]
    rfl
  unfold takeUpWork
  rw [makeFixedEntries_eq empty, fronts]
  · rfl
  · exact down

/-! ## Power, reset line and standby-good (R191, R193) -/

theorem heldInReset_enterStarting (s : State) : heldInReset s.command.retainedValid s (enterStarting s) := by
  unfold enterStarting coldIfUnmarked
  cases mark : s.command.retainedValid with
  | true =>
    have kept : (warmReset s).command.retainedValid = true := mark
    rw [if_pos kept]
    exact ⟨rfl, rfl, mark, rfl, rfl, rfl, rfl, rfl, rfl, rfl, rfl, rfl, rfl, rfl, rfl, rfl, fun _ => ⟨rfl, rfl, rfl⟩,
      nofun, rfl, rfl, rfl, rfl, rfl, rfl, rfl⟩
  | false =>
    have lost : ¬ (warmReset s).command.retainedValid = true := fun kept => nomatch mark.symm.trans kept
    rw [if_neg lost]
    exact ⟨rfl, rfl, mark, rfl, rfl, rfl, rfl, rfl, rfl, rfl, rfl, rfl, rfl, rfl, rfl, rfl, nofun,
      fun _ => ⟨rfl, rfl, rfl, rfl, rfl, rfl⟩, rfl, rfl, rfl, rfl, rfl, rfl, rfl⟩

theorem lines_enterStarting (s : State) : (enterStarting s).lines = { s.lines.softReset with onP := [] } := by
  unfold enterStarting coldIfUnmarked
  split <;> rfl

/-- Settles O4. -/
theorem powerResetAndStandbyLines : Obligations.PowerResetAndStandbyLines := by
  refine ⟨fun asserted good s => ⟨_, rfl, heldInReset_enterStarting (standbyLevel good (resetLine asserted s)), ?_, ?_⟩,
    fun s => ⟨_, rfl, heldInReset_enterStarting (resetLine true s), ?_, ?_⟩, fun s running => ?_, fun s starting => ?_⟩
  · exact congrArg Lines.resetAsserted (lines_enterStarting _)
  · exact congrArg Lines.standbyGood (lines_enterStarting _)
  · exact (congrArg Lines.resetAsserted (lines_enterStarting (resetLine true s)) :)
  · exact (congrArg Lines.standbyGood (lines_enterStarting (resetLine true s)) :)
  · have level : standbyLevel false s = { s with
        lines := { s.lines with standbyGood := false }
        command := { s.command with retainedValid := false } } := by
      unfold standbyLevel; rw [Bool.and_false]
    change Host.Outcome.next (standbyFall s) = _
    unfold standbyFall
    rw [if_pos running, level]
  · have level : standbyLevel false s = { s with
        lines := { s.lines with standbyGood := false }
        command := { s.command with retainedValid := false } } := by
      unfold standbyLevel; rw [Bool.and_false]
    have fall : standbyFall s = coldRetained 0 { s with
        lines := { s.lines with standbyGood := false }
        command := { s.command with retainedValid := false } } := by
      unfold standbyFall
      rw [if_neg (by rw [starting]; nofun), level]
      rfl
    exact ⟨_, congrArg Host.Outcome.next fall, rfl, rfl, rfl, rfl, rfl, rfl, rfl, rfl, rfl, rfl, rfl, rfl, rfl, rfl, rfl⟩

/-! ## Start-up (R191 to R193) -/

/-- While the clock is UNSET an advance only counts (R40, R47). -/
theorem advanceClockBy_unset (k : Nat) {s : State} (unset : s.clock.state = .unset) :
    ∃ x : Clock, advanceClockBy k s = { s with clock := x } ∧ x.state = .unset ∧
      x.creditedDay = s.clock.creditedDay := by
  induction k generalizing s with
  | zero => exact ⟨s.clock, rfl, unset, rfl⟩
  | succ k ih =>
    have one : advanceClock s = { s with clock := s.clock.advanced } := by
      unfold advanceClock evaluateBoundary
      dsimp only
      rw [if_pos (show s.clock.advanced.state = .unset from unset), ite_self]
    obtain ⟨x, eq, state, credited⟩ := ih (s := { s with clock := s.clock.advanced }) unset
    exact ⟨x, by rw [advanceClockBy, one, eq], state, credited⟩

/-- A notice moves the Command Unit and the output queue, and neither the start nor the memory (R185). -/
theorem raise_frame (n : Notice) (s : State) : ∃ (u : CommandUnit) (o : Output),
    raise n s = { s with command := u, output := o } ∧ u.retainedValid = s.command.retainedValid ∧
    u.memory = s.command.memory ∧ u.unitAddress = s.command.unitAddress := by
  unfold raise reportRaise
  dsimp only
  split_ifs
  all_goals exact ⟨_, _, rfl, rfl, rfl, rfl⟩

theorem readMemory_frame (b : Bytes) (s : State) : ∃ (u : CommandUnit) (o : Output),
    readMemory b s = { s with command := u, output := o } ∧ u.retainedValid = s.command.retainedValid ∧
    (memoryGood b = true → u.memory = .good ∧ u.unitAddress = beNat (b.take 4)) ∧
    (memoryGood b = false → u.memory = .failed ∧ u.unitAddress = 0 ∧
      noticeSet .configFault (readMemory b s) = true) := by
  unfold readMemory
  cases good : memoryGood b with
  | true => exact ⟨_, _, rfl, rfl, fun _ => ⟨rfl, rfl⟩, nofun⟩
  | false =>
    obtain ⟨u, o, eq, valid, memory, address⟩ := raise_frame .configFault
      { s with command := { s.command with memory := .failed, unitAddress := 0 } }
    exact ⟨u, o, eq, valid, nofun, fun _ => ⟨memory, address, noticeSet_raise _ _⟩⟩

theorem memoryGood_iff (b : Bytes) : memoryGood b = true ↔ b.length = 7 ∧ byteAt b 6 = crc8 (b.take 6) := by
  simp [memoryGood]

/-- The class of a start moves the retained values and what start it is, and nothing else (R193). -/
theorem classStart_frame (region : Nat) (s : State) :
    (classStart region s).front = s.front ∧ (classStart region s).filter = s.filter ∧
    (classStart region s).lines = s.lines ∧ (classStart region s).f1Present = s.f1Present ∧
    (classStart region s).output = s.output ∧ (classStart region s).command.memory = s.command.memory ∧
    (classStart region s).command.unitAddress = s.command.unitAddress ∧
    (classStart region s).command.notices = s.command.notices := by
  unfold classStart
  split <;> exact ⟨rfl, rfl, rfl, rfl, rfl, rfl, rfl, rfl⟩

/-- The fronts of a part that starts, once feed lock is worked out (R17, R19). -/
theorem startedFront_cold {s : State} {strap : Bool} {f1Present : Bool} (present : s.f1Present = strap)
    (fronts : s.front = ⟨State.coldFront true, { State.coldFront f1Present with enabled := strap }⟩) (f : Feed) :
    (startedFront s f).enabled = s.feedPresent f ∧
    (startedFront s f).sync = if s.feedPresent f && s.lines.lock.get f then .hunt else .down := by
  have enabled : (s.frontOf f).enabled = s.feedPresent f := by
    unfold State.frontOf State.feedPresent
    rw [fronts]
    cases f with
    | f0 => rfl
    | f1 => exact present.symm
  have cold : (s.frontOf f).source = .tuner ∧ (s.frontOf f).sync = .down := by
    unfold State.frontOf
    rw [fronts]
    cases f <;> exact ⟨rfl, rfl⟩
  have lock : feedLock s f = (s.feedPresent f && s.lines.lock.get f) := by
    unfold feedLock usable
    rw [cold.1, enabled, Bool.and_self]
  unfold startedFront
  rw [lock]
  split
  · exact ⟨enabled, rfl⟩
  · exact ⟨enabled, cold.2⟩

/-- Settles O5: the clock is UNSET, so that the steps of start-up follow one another with nothing between. -/
theorem startUpEndsRunning : Obligations.StartUpEndsRunning := by
  intro i s starting unset empty fronts
  obtain ⟨x, counted, _, credited⟩ := advanceClockBy_unset i.advances (s := resetLine false s) unset
  obtain ⟨u, o, read, valid, goodMemory, badMemory⟩ :=
    readMemory_frame (memoryBytes i.memory) (sampleStrap i.strapPresent { resetLine false s with clock := x })
  have run : startUp i s = takeUpWork (goReady (classStart (factoryRegion (memoryBytes i.memory))
      (standbyLevel i.standbyGood { sampleStrap i.strapPresent { resetLine false s with clock := x } with
        command := u, output := o }))) := by
    unfold startUp
    rw [if_neg (by rw [starting]; nofun)]
    dsimp only
    rw [counted, read]
  generalize level : standbyLevel i.standbyGood { sampleStrap i.strapPresent { resetLine false s with clock := x } with
        command := u, output := o } = w at run
  obtain ⟨front, filter, lines, present, output, memory, address, notices⟩ :=
    classStart_frame (factoryRegion (memoryBytes i.memory)) w
  have wFronts : w.front = ⟨State.coldFront true, { State.coldFront s.f1Present with enabled := i.strapPresent }⟩ := by
    subst level; exact congrArg (fun p => PerFeed.set p .f1 { p.f1 with enabled := i.strapPresent }) fronts
  generalize classed : classStart (factoryRegion (memoryBytes i.memory)) w = v at *
  have vFronts := front.trans wFronts
  have vPresent : v.f1Present = i.strapPresent := by rw [present, ← level]; rfl
  have vEntries : v.filter.entries = [] := by rw [filter, ← level]; exact empty
  have worked := takeUpWork_eq (s := goReady v) (fun f => by
    unfold State.frontOf; rw [show (goReady v).front = v.front from rfl, vFronts]; cases f <;> rfl) vEntries
  have each := startedFront_cold (s := goReady v) vPresent vFronts
  refine ⟨takeUpWork (goReady v), congrArg Host.Outcome.next run, ?_⟩
  rw [worked]
  have vLines : v.lines = { s.lines with resetAsserted := false, standbyGood := i.standbyGood } := by
    rw [lines, ← level]; rfl
  refine ⟨rfl, congrArg Lines.resetAsserted vLines, congrArg Lines.standbyGood vLines, vPresent, fun f => ?_, ?_,
    ⟨?_, ?_, ?_⟩, congrArg Lines.standbyGood vLines⟩
  · have lock : (goReady v).lines.lock = s.lines.lock := (congrArg Lines.lock vLines :)
    have := each f
    rw [lock] at this
    cases f <;> exact this
  · have front0 : ((goReady v).frontOf .f0).enabled = true := congrArg (fun p => p.f0.enabled) vFronts
    have front1 : ((goReady v).frontOf .f1).enabled = i.strapPresent := congrArg (fun p => p.f1.enabled) vFronts
    unfold startEntries
    rw [front0, front1]
    rfl
  · intro good
    obtain ⟨read, addr⟩ := goodMemory ((memoryGood_iff _).2 good)
    exact ⟨memory.trans (by rw [← level]; exact read), address.trans (by rw [← level]; exact addr)⟩
  · intro bad
    obtain ⟨failed, addr, raised⟩ := badMemory (Bool.eq_false_iff.2 (mt (memoryGood_iff _).1 bad))
    refine ⟨memory.trans (by rw [← level]; exact failed), address.trans (by rw [← level]; exact addr), ?_⟩
    rw [read] at raised
    exact (noticeSet_of_notices (notices.trans (by rw [← level]; rfl))).trans raised
  · have mark : w.command.retainedValid = (s.command.retainedValid && i.standbyGood) := by
      rw [← level]; exact congrArg (· && i.standbyGood) valid
    rw [← mark]
    unfold classStart at classed
    cases kept : w.command.retainedValid with
    | true =>
      rw [kept, if_pos rfl] at classed
      rw [if_pos rfl, ← classed, ← level]
      exact ⟨rfl, rfl, rfl, rfl, rfl, rfl, rfl, rfl, rfl, rfl, credited⟩
    | false =>
      rw [kept, if_neg nofun] at classed
      rw [if_neg nofun, ← classed, ← level]
      refine ⟨rfl, rfl, rfl, rfl, rfl, rfl, fun good => ?_, fun bad => ?_, rfl, rfl⟩
      · exact if_pos ((memoryGood_iff _).2 good)
      · exact if_neg (mt (memoryGood_iff _).1 bad)

/-! ## SOFT RESET (R190) -/

theorem softReset_eq_reset (s : State) : softReset s = { softened s with
    filter := { State.coldFilter with entries := startEntries s }
    front := ⟨startedFront (softened s) .f0, startedFront (softened s) .f1⟩
    limits := { s.limits.kept with standing := standingNow s } } :=
  takeUpWork_eq (s := softened s) (fun f => by cases f <;> rfl) rfl

/-- Settles O30. -/
theorem softResetValues : Obligations.SoftResetValues := by
  intro tag params s taken
  have run : exec (.softReset tag params) s = .next (answer ⟨tag, 0x02#8, params⟩ .done [] (softReset (reserve s))) :=
    congrArg Host.Outcome.next (commandRow_taken taken actSoftReset ⟨tag, 0x02#8, params⟩)
  refine ⟨_, run, ?_⟩
  rw [softReset_eq_reset]
  refine ⟨rfl, rfl, fun f => ?_, ?_, rfl, rfl, rfl, rfl, rfl, rfl, rfl, rfl, rfl, rfl⟩
  · have front : startedFront (softened s) f = { State.coldFront (s.frontOf f).enabled with
        source := (s.frontOf f).source, sync := if feedLock s f then .hunt else .down } := by
      have lock : feedLock (softened s) f = feedLock s f := by cases f <;> rfl
      unfold startedFront
      rw [lock]
      split <;> cases f <;> rfl
    cases f <;> exact front
  · rfl

end Sys2Proof.Machine
end

