-- ==== Sys2Proof/Proofs/Ports.lean ====
section
/-! PROOFS. O26, O27 and O28: the output port, the local port and the reply entry arbiter (R175 to R184). -/

namespace Sys2Proof.Machine

set_option Elab.async false

variable {K : Special → Prop}

/-! ## Cells as bytes (R4, R8, R176) -/

theorem alignedBytes_iff {b : Bytes} (h : 5 ≤ b.length) : alignedBytes b = true ↔ isAligned b := by
  match b, h with
  | b0 :: b1 :: b2 :: b3 :: b4 :: rest, _ => simp [alignedBytes, isAligned, startPattern, byteAt]

theorem isAligned_cellBytes (stream phase : Nat) (u e : Bool) (k : Nat) (kind : CellKind) (payload padding : Bytes) :
    isAligned (cellBytes stream phase u e k kind payload padding) := ⟨rfl, rfl⟩

theorem CellKind.code_le (k : CellKind) : k.code ≤ 7 := by cases k <;> decide

theorem kindOfCode_code (k : CellKind) : kindOfCode k.code = k := by cases k <;> rfl

/-- The header of a cell written is read back (R8). -/
theorem readHeader_cellBytes {stream phase k : Nat} (u e : Bool) (kind : CellKind) {payload padding : Bytes}
    (hs : stream < 4096) (hp : phase < 4) (hk : k < 8) (hl : payload.length < 256) :
    let h := readHeader (cellBytes stream phase u e k kind payload padding)
    h.stream = stream ∧ h.phase = phase ∧ h.kind = kind ∧ h.length = payload.length ∧ h.continuity = k := by
  have u1 := u.toNat_le
  have e1 := e.toNat_le
  have c7 := kind.code_le
  have byte1 : (BitVec.ofNat 8 (stream / 16)).toNat = stream / 16 := by
    rw [BitVec.toNat_ofNat]; omega
  have byte2 : (BitVec.ofNat 8 (stream % 16 * 16 + phase * 4 + u.toNat * 2 + e.toNat)).toNat =
      stream % 16 * 16 + phase * 4 + u.toNat * 2 + e.toNat := by
    rw [BitVec.toNat_ofNat]; omega
  have byte3 : (BitVec.ofNat 8 (k * 32 + kind.code * 4)).toNat = k * 32 + kind.code * 4 := by
    rw [BitVec.toNat_ofNat]; omega
  have byte4 : (BitVec.ofNat 8 payload.length).toNat = payload.length := by
    rw [BitVec.toNat_ofNat]; omega
  have kindCode : (k * 32 + kind.code * 4) / 4 % 8 = kind.code := by omega
  refine ⟨?_, ?_, ?_, byte4, ?_⟩
  · change (BitVec.ofNat 8 (stream / 16)).toNat * 16 + (BitVec.ofNat 8 _).toNat / 16 = stream
    rw [byte1, byte2]; omega
  · change (BitVec.ofNat 8 _).toNat / 4 % 4 = phase
    rw [byte2]; omega
  · change kindOfCode ((BitVec.ofNat 8 _).toNat / 4 % 8) = kind
    rw [byte3, kindCode, kindOfCode_code]
  · change (BitVec.ofNat 8 _).toNat / 32 = k
    rw [byte3]; omega

theorem length_freeBytes (k i : Nat) : (freeBytes k i).length = k := by simp [freeBytes]

theorem length_fillBytes (i : Nat) : (fillBytes i).length = 128 := by
  simp [fillBytes, cellBytes, length_freeBytes]

/-! ## The output port (R176) -/

theorem exec_running {c : Instr} {s : State} (g : State → State) (running : s.running = true)
    (row : exec c s = .next (if s.running then g s else s) := by rfl) : exec c s = .next (g s) :=
  row.trans (by rw [if_pos running])

theorem exec_starting {c : Instr} {s : State} (g : State → State) (starting : s.running = false)
    (row : exec c s = .next (if s.running then g s else s) := by rfl) : exec c s = .next s :=
  row.trans (by rw [if_neg (by rw [starting]; nofun)])

/-- Settles O26. -/
theorem outputPortWrites : Obligations.OutputPortWrites := by
  refine fun s => ⟨fun _ => rfl, fun off => ?_, fun running open_ => ⟨fun empty => ?_, fun c rest free queue => ?_,
    fun c rest free queue => ?_⟩⟩
  · rcases off with starting | held
    · exact exec_starting writeCell starting
    · have same : writeCell s = s := by unfold writeCell; rw [if_pos held]
      change Host.Outcome.next (if s.running then writeCell s else s) = _
      rw [same, ite_self]
  all_goals have row : exec .outputCellWrite s = .next (writeCell s) := exec_running writeCell running
  · have fill : writeCell s = wrote (fillBytes s.freeIndex) 123 s := by
      unfold writeCell
      rw [if_neg (by rw [open_]; nofun)]
      split
      · rfl
      · rename_i queue
        rw [if_pos (empty.resolve_left (by rw [queue]; nofun))]
    obtain ⟨stream, phase, kind, length, continuity⟩ := readHeader_cellBytes (stream := 0) (phase := 0) (k := 0)
      ((Config.freeByte (s.freeIndex + 122)).getLsbD 0) ((Config.freeByte (s.freeIndex + 122)).getLsbD 1) .fill
      (payload := freeBytes 1 s.freeIndex) (padding := freeBytes 121 (s.freeIndex + 1))
      (by decide) (by decide) (by decide) (by rw [length_freeBytes]; decide)
    exact ⟨fillBytes s.freeIndex, row.trans (congrArg Host.Outcome.next fill), length_fillBytes _,
      isAligned_cellBytes .., stream, phase, kind, length.trans (length_freeBytes ..), continuity⟩
  all_goals
    rw [row]
    unfold writeCell
    rw [if_neg (by rw [open_]; nofun), queue, free]
    rfl

/-! ## The local port (R175, R180, R181) -/

theorem overrun_offerIntake {c : CommandCell} {s : State} (full : 8 ≤ s.command.intake.length) :
    (offerIntake c s).command.intake = s.command.intake ∧
    (offerIntake c s).command.overruns = bump s.command.overruns ∧ noticeSet .overrun (offerIntake c s) = true ∧
    untriggered (offerIntake c s) = untriggered
      { s with command := { s.command with overruns := bump s.command.overruns } } := by
  unfold offerIntake
  rw [if_neg (by omega)]
  have same := untriggered_raise .overrun { s with command := { s.command with overruns := bump s.command.overruns } }
  exact ⟨intake_raise .., (congrArg (fun x : State => x.command.overruns) same :), noticeSet_raise .., same⟩

/-- The checks of R180, in their order. -/
theorem frameFate_cases {b : Bytes} (whole : 128 ≤ b.length) :
    let h := readHeader b
    let headerOk := isAligned b ∧ h.mustBeZero = 0 ∧ h.phase = 0
    (¬ headerOk → frameFate b = .header) ∧
    (headerOk → h.kind = .fill → frameFate b = .fill) ∧
    (headerOk → h.kind ≠ .fill → h.stream ≠ 4094 → frameFate b = .stream) ∧
    (headerOk → h.stream = 4094 → h.kind ≠ .fill → h.kind ≠ .command → frameFate b = .kind) ∧
    (headerOk → h.stream = 4094 → h.kind = .command → h.length < 2 ∨ 122 < h.length → frameFate b = .length) ∧
    (headerOk → h.stream = 4094 → h.kind = .command → 2 ≤ h.length → h.length ≤ 122 → frameFate b =
      .offered ⟨byteAt b 6, byteAt b 7, ((b.drop 6).take h.length).drop 2⟩) := by
  intro h headerOk
  have aligned := alignedBytes_iff (b := b) (by omega)
  have header : (!alignedBytes b || decide (h.mustBeZero ≠ 0) || decide (h.phase ≠ 0)) = true ↔ ¬ headerOk := by
    simp only [Bool.or_eq_true, Bool.not_eq_true', decide_eq_true_eq, headerOk, ← aligned]
    cases alignedBytes b
    · simp
    · simp; omega
  unfold frameFate
  dsimp only
  rw [if_neg (by omega : ¬ b.length < 128)]
  refine ⟨fun bad => if_pos (header.2 bad), ?_⟩
  refine ⟨fun ok => ?_, fun ok => ?_, fun ok => ?_, fun ok => ?_, fun ok => ?_⟩
  all_goals rw [if_neg (mt header.1 (not_not.2 ok))]
  · exact fun fill => if_pos fill
  · intro noFill stream
    rw [if_neg noFill, if_pos stream]
  · intro stream noFill noCommand
    rw [if_neg noFill, if_neg (not_not.2 stream), if_pos noCommand]
  · intro stream command bad
    rw [if_neg (by rw [command]; decide), if_neg (not_not.2 stream), if_neg (not_not.2 command),
      if_pos (by simpa using bad)]
  · intro stream command low high
    rw [if_neg (by rw [command]; decide), if_neg (not_not.2 stream), if_neg (not_not.2 command),
      if_neg (by simpa using ⟨low, high⟩)]

/-- Settles O27. -/
theorem localCellsMoveAndArrive : Obligations.LocalCellsMoveAndArrive := by
  refine ⟨fun s running => ⟨fun stays => ?_, fun cell rest queue room => ?_⟩, fun bytes s running => ?_,
    fun frame s starting => exec_starting (receiveFrame frame) starting⟩
  · refine (exec_running transferLocal running).trans (congrArg Host.Outcome.next ?_)
    unfold transferLocal
    split
    · rfl
    · rename_i queue
      rw [if_neg (Nat.not_lt.2 (stays.resolve_left (by rw [queue]; nofun)))]
  · refine (exec_running transferLocal running).trans (congrArg Host.Outcome.next ?_)
    unfold transferLocal
    rw [queue]
    exact if_pos room
  · have row (frame : LocalFrame) : exec (.localCellReceive frame) s = .next (receiveFrame frame s) :=
      exec_running (receiveFrame frame) running
    simp only [row]
    refine ⟨rfl, fun short => ?_, fun whole => ?_⟩
    · have framing : frameFate bytes = .framing := if_pos short
      unfold receiveFrame
      simp only [framing]
      rfl
    · obtain ⟨header, fill, stream, kind, length, offered⟩ := frameFate_cases whole
      refine ⟨fun bad => ?_, fun ok k => ?_, fun ok k st => ?_, fun ok st k c => ?_, fun ok st k l => ?_,
        fun ok st k lo hi room => ?_, fun ok st k lo hi full => ?_⟩
      · unfold receiveFrame; simp only [header bad]; rfl
      · unfold receiveFrame; simp only [fill ok k]; rfl
      · unfold receiveFrame; simp only [stream ok k st]; rfl
      · unfold receiveFrame; simp only [kind ok st k c]; rfl
      · unfold receiveFrame; simp only [length ok st k l]; rfl
      · unfold receiveFrame; simp only [offered ok st k lo hi]
        exact congrArg Host.Outcome.next (if_pos room)
      · have made : receiveFrame ⟨bytes, false⟩ s =
            offerIntake ⟨byteAt bytes 6, byteAt bytes 7, ((bytes.drop 6).take (readHeader bytes).length).drop 2⟩ s := by
          unfold receiveFrame; simp only [offered ok st k lo hi]; rfl
        exact ⟨_, congrArg Host.Outcome.next made, overrun_offerIntake full⟩

/-! ## The arbiter and the intake (R181, R182, R184) -/

/-- A command row is read by its code, as `commandRow` says. -/
theorem exec_commandRow {row : Instr} {c : CommandCell} (h : cellOfRow row = some c) :
    ∃ act, ∀ s, exec row s = .next (commandRow act c s) := by
  cases row <;> cases h <;> exact ⟨_, fun _ => rfl⟩

/-- With no formed answer, a held reply that fits is placed, and otherwise the later claimants are asked (R184). -/
theorem arbiter_of_no_answer {s : State} (room : 0 < freeEntries s) (order : s.acq.formedOrder = []) :
    (∀ cells, s.command.heldReply = some cells → cells.length - 1 ≤ freeEntries s → arbiter s = placeHeld cells s) ∧
    (s.command.heldReply = none ∨ (∃ cells, s.command.heldReply = some cells ∧ freeEntries s < cells.length - 1) →
      arbiter s = arbiterLater s) := by
  unfold arbiter
  rw [if_neg room.ne', order]
  refine ⟨fun cells held fits => ?_, fun free => ?_⟩
  · rw [held]; exact if_pos fits
  · rcases free with none | ⟨cells, held, long⟩
    · rw [none]
    · rw [held]; exact if_neg (Nat.not_le.2 long)

/-- Settles O28. -/
theorem commandsWaitForTheArbiter : Obligations.CommandsWaitForTheArbiter := by
  refine ⟨fun s running => ?_, fun row c s cell => ?_⟩
  · have arbitrated : exec .replyEntryArbiter s = .next (arbiter s) := exec_running arbiter running
    simp only [arbitrated]
    refine ⟨fun full => congrArg Host.Outcome.next (if_pos full), fun room =>
      ⟨fun f rest cell order formed => ?_, fun order => ?_⟩⟩
    · unfold arbiter
      rw [if_neg room.ne', order]
      unfold placeFormed
      dsimp only
      rw [formed]
      rfl
    · obtain ⟨placed, later⟩ := arbiter_of_no_answer room order
      refine ⟨fun cells held fits => ?_, fun m free marker => ?_, fun free marker notice => ?_,
        fun c rest held marker notice intake => ?_, fun waits marker notice => ?_⟩
      · rw [placed cells held fits]; rfl
      · rw [later free]
        unfold arbiterLater
        rw [marker]
        rfl
      · rw [later free]
        unfold arbiterLater
        rw [marker, notice]
        rfl
      · have head : arbiterLater s = takeHead c rest s := by
          unfold arbiterLater
          rw [marker, notice, held, intake]
          rfl
        rw [later (.inl held), head]
        rfl
      · rcases waits with ⟨cells, held, long⟩ | ⟨held, intake⟩
        · rw [later (.inr ⟨cells, held, long⟩)]
          unfold arbiterLater
          rw [marker, notice, held]
          rfl
        · rw [later (.inl held)]
          unfold arbiterLater
          rw [marker, notice, held, intake]
          rfl
  · obtain ⟨act, row⟩ := exec_commandRow cell
    refine ⟨fun starting => ?_, fun running waits => ⟨fun room => ?_, fun full => ?_⟩⟩
    · rw [row, commandRow_starting starting]
    · rw [row, commandRow_waits running waits]
      exact congrArg Host.Outcome.next (if_pos room)
    · rw [row, commandRow_waits running waits]
      exact ⟨_, rfl, overrun_offerIntake full⟩

end Sys2Proof.Machine
end

