-- ==== Sys2Proof/Proofs/PlainCommands.lean ====
section
/-! PROOFS. O29 and O31: the plain commands, STATUS READ, and CONFIGURE of the values (R186, R188, R189). -/

namespace Sys2Proof.Machine

set_option Elab.async false

variable {K : Special → Prop}

/-! ## Commands taken at once (R182) -/

theorem exec_taken {row : Instr} {act : CommandCell → State → State} {c : CommandCell} {s : State}
    (taken : takesAtOnce s) (h : exec row s = .next (commandRow act c s) := by rfl) :
    exec row s = .next (act c (reserve s)) := h.trans (congrArg Host.Outcome.next (commandRow_taken taken act c))

theorem exec_answered {row : Instr} {act : CommandCell → State → State} {c : CommandCell} {s t : State}
    (taken : takesAtOnce s) (acted : act c (reserve s) = t) (h : exec row s = .next (commandRow act c s) := by rfl) :
    exec row s = .next t := (exec_taken taken h).trans (congrArg Host.Outcome.next acted)

theorem freeEntries_reserve {s : State} (h : s.command.reserved = false) :
    freeEntries (reserve s) = freeEntries s - 1 := by
  simp [freeEntries, reserve, h]

/-- An answer in as many cells as its results need: placed when they fit, and else held (R86, R182). -/
theorem answerLong_reserve {s : State} (h : s.command.reserved = false) (c : CommandCell) (o : ReplyOutcome)
    (results : Bytes) : answerLong c o results (reserve s) =
      if (replyCells c.tag c.code o results).length - 1 ≤ freeEntries s - 1 then
        placeCells (replyCells c.tag c.code o results) s
      else { s with command := { s.command with
        reserved := true, heldReply := some (replyCells c.tag c.code o results) } } := by
  unfold answerLong answerCells
  rw [freeEntries_reserve h, endReservation_reserve h]
  rfl

theorem actByCode_undefined {c : CommandCell} (h : c.code.toNat ∉ definedCodes) : actByCode c = actInvalid c := by
  generalize act : actByCode c = f
  unfold actByCode at act
  split at act <;> subst act
  case h_27 => rfl
  all_goals
    rename_i code
    exact absurd (code ▸ by decide) h

theorem carries_iff (c : CommandCell) (k : Nat) : c.carries k = true ↔ k ≤ c.params.length := decide_eq_true_iff

theorem clearFlags_reserve (m : BitVec 16) (s : State) : clearFlags m (reserve s) = reserve (clearFlags m s) := rfl

theorem actFlagsClear_reserve {c : CommandCell} {s : State} (h : s.command.reserved = false)
    (carries : 2 ≤ c.params.length) : actFlagsClear c (reserve s) =
      replied c.tag c.code .done
        (beBytes 2 (clearFlags (BitVec.ofNat 16 (c.number 0 2)) s).command.notices.toNat)
        (clearFlags (BitVec.ofNat 16 (c.number 0 2)) s) := by
  unfold actFlagsClear
  rw [if_pos ((carries_iff c 2).2 carries)]
  exact answer_reserve (s := clearFlags (BitVec.ofNat 16 (c.number 0 2)) s) h c _ _

theorem clearFlags_eq (m : BitVec 16) (s : State) : clearFlags m s = { s with command := { s.command with
    notices := s.command.notices &&& ~~~m
    noticePending := if s.command.notices &&& ~~~m = 0 then false else s.command.noticePending } } := by
  unfold clearFlags
  dsimp only
  congr 2
  split <;> simp_all

/-- A STATUS READ without its byte, or of an area above 7 (R188). -/
theorem actStatusRead_bad {c : CommandCell} (bad : c.params = [] ∨ 8 ≤ (byteAt c.params 0).toNat) (s : State) :
    actStatusRead c s = badParameter c s := by
  unfold actStatusRead
  rcases bad with none | high
  · rw [if_neg (by rw [carries_iff, none]; decide)]
  · cases params : c.params with
    | nil => rw [if_neg (by rw [carries_iff, params]; decide)]
    | cons b rest =>
      rw [params] at high
      have number : c.number 0 1 = b.toNat := by
        unfold CommandCell.number; rw [params]; simp [beNat]
      have area : 8 ≤ c.number 0 1 := by rw [number]; exact high
      rw [if_pos ((carries_iff c 1).2 (by rw [params]; exact Nat.le_add_left ..))]
      split <;> first | rfl | omega

/-- Settles O29. -/
theorem statusAndPlainCommands : Obligations.StatusAndPlainCommands := by
  refine ⟨fun tag params s taken => ?_, fun tag more s taken => ?_, fun tag params s taken bad => ?_⟩
  all_goals have free := taken.notReserved
  · refine ⟨exec_answered taken (answer_reserve free ..), fun code undefined => exec_answered taken ?_,
      fun short => exec_answered taken ?_, fun carries => exec_answered taken ?_⟩
    · rw [actByCode_undefined undefined]
      exact answer_reserve (s := { s with command := { s.command with
        invalidCommands := bump s.command.invalidCommands } }) free ..
    · unfold actFlagsClear
      rw [if_neg (by rw [carries_iff]; exact Nat.not_le.2 short)]
      exact badParameter_reserve free _
    · rw [actFlagsClear_reserve free carries, clearFlags_eq]
      rfl
  · refine ⟨exec_answered taken ?_, exec_answered taken (answerLong_reserve free ..),
      exec_answered taken (answer_reserve free ..), exec_answered taken (answer_reserve free ..),
      exec_answered taken (answerLong_reserve free ..), exec_answered taken (answer_reserve free ..),
      exec_answered taken (answer_reserve free ..), exec_answered taken (answer_reserve free ..), ?_⟩
    · exact answer_reserve (s := { s with front := ⟨{ s.front.f0 with up := false, down := false },
        { s.front.f1 with up := false, down := false }⟩ }) free ..
    · unfold acquisitionResults standbyPosition
      cases s.acq.standby <;> rfl
  · exact (actStatusRead_bad bad (reserve s)).trans (badParameter_reserve free _)

/-! ## CONFIGURE without the feed fields (R189) -/

theorem actConfigure_none {c : CommandCell} (h : configureValues c.params = none) (s : State) :
    actConfigure c s = badParameter c s := by
  unfold actConfigure; rw [h]

/-- With no feed field marked the values are stored and answered. -/
theorem actConfigure_stored {c : CommandCell} {vs : List (Option Nat)} (h : configureValues c.params = some vs)
    (none : ∀ i < 4, fieldValue vs i = none) {s : State} (free : s.command.reserved = false) :
    actConfigure c (reserve s) =
      replied c.tag c.code .done (configurationBytes (storeFields vs s)) (storeFields vs s) := by
  have fields : applyFields vs (reserve s) = reserve (storeFields vs s) := by
    unfold applyFields
    rw [none 0 (by decide), none 1 (by decide), none 2 (by decide), none 3 (by decide)]
    rfl
  have kept (before : State) (f : Feed) (t : State) (same : t.frontOf f = before.frontOf f) :
      supersedeDisabled before f t = t := by
    unfold supersedeDisabled
    rw [same]
    exact if_neg (by cases (before.frontOf f).enabled <;> decide)
  unfold actConfigure
  rw [h]
  dsimp only
  rw [fields, answer_reserve (s := storeFields vs s) free]
  have stays (f : Feed) := kept (reserve s) f
    (replied c.tag c.code .done (configurationBytes (storeFields vs s)) (storeFields vs s))
  rw [show configurationBytes (reserve (storeFields vs s)) = configurationBytes (storeFields vs s) from rfl,
    stays .f0 rfl, stays .f1 rfl]

theorem storeFields_none {vs : List (Option Nat)} (none : ∀ i, fieldValue vs i = none) (s : State) :
    storeFields vs s = s := by
  simp [storeFields, Clock.configure, TimerConfig.configure, Output.configure, CommandUnit.configure, none]

/-- Settles O31. -/
theorem configureStoresValues : Obligations.ConfigureStoresValues := by
  refine fun tag params s taken => ⟨fun bad => exec_answered taken ?_, fun vs marked none => exec_answered taken ?_,
    fun read => exec_answered taken ?_⟩
  all_goals have free := taken.notReserved
  · rw [actConfigure_none (c := ⟨tag, 0x03#8, params⟩) bad]
    exact badParameter_reserve free _
  · exact actConfigure_stored (c := ⟨tag, 0x03#8, params⟩) marked none free
  · have values : configureValues params = some (List.replicate 16 Option.none) := by subst read; decide
    have unmarked (i : Nat) : fieldValue (List.replicate 16 Option.none) i = Option.none := by
      unfold fieldValue
      rw [List.getD_eq_getElem?_getD, List.getElem?_replicate]
      split <;> rfl
    have stored := actConfigure_stored (c := ⟨tag, 0x03#8, params⟩) values (fun i _ => unmarked i) free
    rwa [storeFields_none unmarked] at stored

end Sys2Proof.Machine
end

