-- ==== Sys2Proof/Proofs/BoundaryStages.lean ====
section
/-! PROOFS. The stages of a boundary evaluation (R50 to R53): what each re-decides, and what it keeps. -/

namespace Sys2Proof.Machine

set_option Elab.async false

variable {K : Special → Prop}

/-! ## Stages of a boundary evaluation (R50 to R53)

A boundary is a chain of stages. A stage either re-decides the context, or leaves it and all that decides on it. -/

/-- A part of a boundary from u to t: where d holds it re-decides, and else it keeps the context. -/
structure Told (d : Prop) (u t : State) : Prop where
  decided : d → redecided u t
  context : ¬ d → t.output.context = u.output.context
  notices : ∀ n, noticeSet n u = true → noticeSet n t = true

/-- A stage from u to t that re-decides exactly where d holds, and else keeps what decides. -/
structure Stage (d : Prop) (u t : State) : Prop extends Told d u t where
  running : ¬ d → t.limits.running = u.limits.running
  decides : ¬ d → ∀ c, decideOn t c = decideOn u c
  meter : ¬ d → meterMayRun t = meterMayRun u

theorem Stage.refl {d : Prop} (h : ¬ d) (s : State) : Stage d s s :=
  ⟨⟨fun hd => absurd hd h, fun _ => rfl, fun _ h => h⟩, fun _ => rfl, fun _ _ => rfl, fun _ => rfl⟩

theorem Stage.congr {d d' : Prop} {u t : State} (h : Stage d u t) (same : d' ↔ d) : Stage d' u t := by
  rwa [propext same]

/-- A decision reads a context's feed, channel and entry only (R168). -/
theorem decideOn_congr {s : State} {c d : Context} (feed : d.feed = c.feed) (channel : d.channel = c.channel)
    (entry : d.entry = c.entry) : decideOn s d = decideOn s c := by
  unfold decideOn denyReason
  rw [feed, channel, entry]

/-- A re-decision after a part of a boundary is one of what came before (R172). -/
theorem Told.redecided {d : Prop} {s u t : State} (first : Told d s u) (again : redecided u t)
    (notices : ∀ n, noticeSet n u = true → noticeSet n t = true) : redecided s t := by
  intro c hc quiet
  by_cases early : d
  · obtain ⟨context, raised, _⟩ := first.decided early c hc quiet
    obtain ⟨context', raised', running⟩ := again _ context quiet
    have same (d : Decision) (r : Reason) (p i : Option Nat) :
        decideOn t { c with decision := d, reason := r, previewEnd := p, eventId := i } = decideOn t c :=
      decideOn_congr rfl rfl rfl
    dsimp only at context' raised' raised ⊢
    rw [same] at context' raised'
    refine ⟨context', fun moved => ?_, running⟩
    by_cases later : (decideOn t c).decision ≠ (decideOn u c).decision ∨
        (decideOn t c).reason ≠ (decideOn u c).reason
    · exact raised' later
    · rw [not_or, not_not, not_not] at later
      rw [later.1, later.2] at moved
      exact notices _ (raised moved)
  · exact again c ((first.context early).trans hc) quiet

/-- Two stages, one after the other (R51 to R53). -/
theorem Stage.trans {d e : Prop} {s u t : State} (first : Stage d s u) (second : Stage e u t) :
    Stage (d ∨ e) s t := by
  refine ⟨⟨fun decided => ?_, fun none => ?_, fun n h => second.notices n (first.notices n h)⟩, fun none => ?_,
    fun none x => ?_, fun none => ?_⟩
  · by_cases late : e
    · exact first.redecided (second.decided late) second.notices
    · intro c hc quiet
      obtain ⟨context, raised, running⟩ := first.decided (decided.resolve_right late) c hc quiet
      dsimp only at context raised ⊢
      rw [second.decides late]
      exact ⟨(second.context late).trans context, fun moved => second.notices _ (raised moved),
        (second.running late).trans (running.trans (second.meter late).symm)⟩
  all_goals rw [not_or] at none; obtain ⟨early, late⟩ := none
  · exact (second.context late).trans (first.context early)
  · exact (second.running late).trans (first.running early)
  · exact (second.decides late x).trans (first.decides early x)
  · exact (second.meter late).trans (first.meter early)

/-- A part of a boundary before a stage that re-decides. -/
theorem Told.stage {d : Prop} {s u t : State} (first : Told d s u) (second : Stage True u t) : Stage True s t :=
  ⟨⟨fun _ => first.redecided (second.decided trivial) second.notices, fun h => absurd trivial h,
    fun n h => second.notices n (first.notices n h)⟩, fun h => absurd trivial h, fun h => absurd trivial h,
    fun h => absurd trivial h⟩

/-- A part of a boundary after a change that keeps the context. -/
theorem Told.after {d : Prop} {s u t : State} (h : Told d u t) (context : u.output.context = s.output.context)
    (notices : ∀ n, noticeSet n s = true → noticeSet n u = true) : Told d s t :=
  ⟨fun hd c hc quiet => h.decided hd c (context.trans hc) quiet, fun hd => (h.context hd).trans context,
    fun n hn => h.notices n (notices n hn)⟩

/-- A change that no decision reads. -/
theorem stage_of_same {s t : State} (context : t.output.context = s.output.context := by rfl)
    (running : t.limits.running = s.limits.running := by rfl)
    (decides : ∀ c, decideOn t c = decideOn s c := by exact fun _ => rfl)
    (meter : meterMayRun t = meterMayRun s := by rfl)
    (notices : t.command.notices = s.command.notices := by rfl) : Stage False s t :=
  ⟨⟨nofun, fun _ => context, fun _ h => (noticeSet_of_notices notices).trans h⟩, fun _ => running,
    fun _ => decides, fun _ => meter⟩

theorem stage_raise (n : Notice) (s : State) : Stage False s (raise n s) :=
  ⟨⟨nofun, fun _ => context_raise n s, fun _ h => noticeSet_raise_of_set h n⟩, fun _ => running_raise n s,
    fun _ => decideOn_of_untriggered (untriggered_raise n s),
    fun _ => meterMayRun_of_untriggered (untriggered_raise n s) (context_raise n s)⟩

/-- A change of the state that keeps the context and its notices, and a trigger. -/
theorem stage_trigger {s u : State} (context : u.output.context = s.output.context)
    (notices : ∀ n, noticeSet n s = true → noticeSet n u = true) : Stage True s (trigger u) :=
  ⟨⟨fun _ c hc quiet => redecided_trigger u c (context.trans hc) quiet, fun h => absurd trivial h,
    fun n h => noticeSet_trigger_of_set (notices n h)⟩, fun h => absurd trivial h, fun h => absurd trivial h,
    fun h => absurd trivial h⟩

theorem stage_ite {d : Prop} [Decidable d] {s t u : State} (yes : d → Stage True s t) (no : ¬ d → Stage False s u) :
    Stage d s (if d then t else u) := by
  split
  · rename_i h; exact (yes h).congr (iff_true_intro h)
  · rename_i h; exact (no h).congr (iff_false_intro h)

/-! ## What the stages leave behind the decisions -/

/-- A change that reads nothing of what decisions move. -/
def ReadsBehind (F : State → State) : Prop := ∀ s, untriggered (F s) = untriggered (F (untriggered s))

theorem ReadsBehind.congr {F : State → State} (h : ReadsBehind F) {s t : State}
    (same : untriggered s = untriggered t) : untriggered (F s) = untriggered (F t) := by
  rw [h s, same, ← h t]

/-- The event found for the watched channel, where there is one, is its current event (R71). -/
def foundEvent (s : State) : Option EventRecord :=
  match s.guide.watched with
  | none => s.guide.lastEvent
  | some w => currentEvent s w

def withFound (s : State) : State := { s with guide := { s.guide with lastEvent := foundEvent s } }

theorem foundEvent_moved (s : State) :
    foundEvent s ≠ s.guide.lastEvent ↔ ∃ w, s.guide.watched = some w ∧ currentEvent s w ≠ s.guide.lastEvent := by
  unfold foundEvent
  cases s.guide.watched <;> simp

theorem compareWatched_eq (s : State) : compareWatched s =
    if foundEvent s ≠ s.guide.lastEvent then
      trigger { raise .eventChanged s with guide := { s.guide with lastEvent := foundEvent s } }
    else s := by
  have guide : (raise .eventChanged s).guide = s.guide := guide_of_untriggered (untriggered_raise ..)
  unfold compareWatched foundEvent
  cases s.guide.watched with
  | none => simp
  | some w => simp only [guide, ne_eq, ite_not]

theorem untriggered_compareWatched (s : State) : untriggered (compareWatched s) = untriggered (withFound s) := by
  rw [compareWatched_eq]
  split
  · rw [untriggered_trigger]
    exact congrArg (fun x : State => { x with guide := { s.guide with lastEvent := foundEvent s } })
      (untriggered_raise .eventChanged s)
  · rename_i same
    have eq : withFound s = s := by
      unfold withFound
      rw [not_not.1 same]
    rw [eq]

theorem stage_compareWatched (s : State) :
    Stage (foundEvent s ≠ s.guide.lastEvent) s (compareWatched s) := by
  rw [compareWatched_eq]
  refine stage_ite (fun _ => stage_trigger (context_raise ..) fun n h => ?_) fun _ => .refl id s
  exact noticeSet_raise_of_set h _

theorem noticeSet_compareWatched {s : State} (h : foundEvent s ≠ s.guide.lastEvent) :
    noticeSet .eventChanged (compareWatched s) = true := by
  rw [compareWatched_eq, if_pos h]
  exact noticeSet_trigger_of_set (noticeSet_raise .eventChanged s)

/-! ## Purchases at a second boundary (R134) -/

def withPurchases (t : Nat) (s : State) : State :=
  { s with purchase := { s.purchase with
    records := (s.purchase.records.filter (fun r => !r.leavesAt t)).map (PurchaseRecord.atBoundary t) } }

theorem withPurchases_same {t : Nat} {s : State}
    (h : (s.purchase.records.any (fun r => r.commitsAt t || r.leavesAt t)) = false) : withPurchases t s = s := by
  have each : ∀ r ∈ s.purchase.records, r.commitsAt t = false ∧ r.leavesAt t = false := by
    intro r hr
    have := List.any_eq_false.1 h r hr
    simpa using this
  have kept : s.purchase.records.filter (fun r => !r.leavesAt t) = s.purchase.records :=
    List.filter_eq_self.2 fun r hr => by rw [(each r hr).2]; rfl
  have same : s.purchase.records.map (PurchaseRecord.atBoundary t) = s.purchase.records := by
    refine (List.map_congr_left fun r hr => ?_).trans (List.map_id _)
    unfold PurchaseRecord.atBoundary
    rw [(each r hr).1]
    rfl
  unfold withPurchases
  rw [kept, same]

theorem noticeSet_triggers {n : Notice} (k : Nat) {s : State} (h : noticeSet n s = true) :
    noticeSet n (triggers k s) = true := by
  induction k generalizing s with
  | zero => exact h
  | succ k ih => exact ih (noticeSet_trigger_of_set h)

theorem stage_triggers (k : Nat) (s : State) : Stage (0 < k) s (triggers k s) := by
  induction k generalizing s with
  | zero => exact .refl (Nat.lt_irrefl 0) s
  | succ k ih =>
    have first : Stage True s (trigger s) := stage_trigger rfl fun _ h => h
    exact (first.trans (ih _)).congr (by simp)

/-- Of the purchases a decision reads which events are bought (R126). -/
theorem decideOn_of_bought {s : State} {p : Purchase} (h : ∀ id, bought p id = bought s.purchase id) (c : Context) :
    decideOn { s with purchase := p } c = decideOn s c := by
  have same (entry : ChannelEntry) (event : Option EventRecord) :
      entitled { s with purchase := p } entry event = entitled s entry event := by
    unfold entitled
    cases event with
    | none => rfl
    | some e => exact congrArg (fun b => _ || (_ || b)) (h e.id)
  unfold decideOn
  dsimp only
  rw [same]
  rfl

/-- Records that commit stay bought (R126, R134). -/
theorem bought_withPurchases {t : Nat} {s : State} (h : ∀ r ∈ s.purchase.records, r.leavesAt t = false) (id : Nat) :
    bought (withPurchases t s).purchase id = bought s.purchase id := by
  have kept : s.purchase.records.filter (fun r => !r.leavesAt t) = s.purchase.records :=
    List.filter_eq_self.2 fun r hr => by rw [h r hr]; rfl
  unfold bought withPurchases
  dsimp only
  rw [kept, List.any_map]
  congr 1
  funext r
  exact congrArg (fun x => decide (x = id)) (eventId_atBoundary t r)

theorem stage_purchaseSecond (t : Nat) (s : State) :
    Stage (∃ r ∈ s.purchase.records, r.leavesAt t = true) s (purchaseSecond t s) := by
  have gone : 0 < s.purchase.records.countP (fun r => r.leavesAt t) ↔ ∃ r ∈ s.purchase.records, r.leavesAt t = true :=
    List.countP_pos_iff
  by_cases leaves : ∃ r ∈ s.purchase.records, r.leavesAt t = true
  · refine Stage.congr (d := True) ?_ (iff_true_intro leaves)
    have some : (s.purchase.records.any (fun r => r.commitsAt t || r.leavesAt t)) = true := by
      obtain ⟨r, hr, now⟩ := leaves
      exact List.any_eq_true.2 ⟨r, hr, by rw [now, Bool.or_true]⟩
    obtain ⟨k, count⟩ := Nat.exists_eq_succ_of_ne_zero (gone.2 leaves).ne'
    have run : purchaseSecond t s = triggers k (trigger (raise .purchaseChanged (withPurchases t s))) := by
      unfold purchaseSecond
      dsimp only
      rw [if_pos some, count]
      rfl
    have first : Stage True s (trigger (raise .purchaseChanged (withPurchases t s))) :=
      stage_trigger (context_raise ..) fun n h => noticeSet_raise_of_set (s := withPurchases t s) h _
    rw [run]
    exact (first.trans (stage_triggers k _)).congr (by simp)
  · refine Stage.congr (d := False) ?_ (iff_false_intro leaves)
    have stays : ∀ r ∈ s.purchase.records, r.leavesAt t = false := by simpa using leaves
    have moved : Stage False s (withPurchases t s) :=
      stage_of_same (decides := decideOn_of_bought (bought_withPurchases stays))
    have none : s.purchase.records.countP (fun r => r.leavesAt t) = 0 := Nat.eq_zero_of_not_pos (mt gone.1 leaves)
    unfold purchaseSecond
    dsimp only
    split
    · rw [none]
      exact (moved.trans (stage_raise .purchaseChanged _)).congr (by simp)
    · exact .refl id s

theorem untriggered_purchaseSecond (t : Nat) (s : State) :
    untriggered (purchaseSecond t s) = untriggered (withPurchases t s) := by
  unfold purchaseSecond
  dsimp only
  split
  · exact untriggered_purchaseChanged ..
  · rename_i none
    rw [withPurchases_same (Bool.eq_false_iff.2 none)]

theorem noticeSet_purchaseSecond {t : Nat} {s : State}
    (h : ∃ r ∈ s.purchase.records, r.commitsAt t = true ∨ r.leavesAt t = true) :
    noticeSet .purchaseChanged (purchaseSecond t s) = true := by
  have some : (s.purchase.records.any (fun r => r.commitsAt t || r.leavesAt t)) = true := by
    simpa [List.any_eq_true] using h
  unfold purchaseSecond
  dsimp only
  rw [if_pos some]
  exact (noticeSet_triggers _ (noticeSet_raise ..))

/-! ## The Decision Unit and the window standing (R158, R159, R170, R171) -/

/-- A PREVIEW stands past its end (R170). -/
def PreviewOver (s : State) : Prop :=
  ∃ c, s.output.context = some c ∧ c.decision = .preview ∧ ∃ e, c.previewEnd = some e ∧ e ≤ s.seconds

theorem stage_decisionSecond (step : Bool) (s : State) :
    Stage (PreviewOver s ∨ step = true) s (decisionSecond step s) := by
  have due : (match s.output.context with
      | none => false
      | some c => decide (c.decision = .preview) && c.previewEnd.any (fun t => decide (t ≤ s.seconds))) = true ↔
      PreviewOver s := by
    unfold PreviewOver
    cases s.output.context <;> simp [Option.any_eq_true]
  have first : Stage (PreviewOver s) s (if (match s.output.context with
      | none => false
      | some c => decide (c.decision = .preview) && c.previewEnd.any (fun t => decide (t ≤ s.seconds))) = true
      then trigger s else s) :=
    (stage_ite (fun _ => stage_trigger rfl fun _ h => h) fun _ => .refl id s).congr due.symm
  unfold decisionSecond
  dsimp only
  exact first.trans (stage_ite (fun _ => stage_trigger rfl fun _ h => h) fun _ => .refl id _)

theorem untriggered_decisionSecond (step : Bool) (s : State) :
    untriggered (decisionSecond step s) = untriggered s := by
  have either (c : Prop) [Decidable c] (u : State) : untriggered (if c then trigger u else u) = untriggered u := by
    split
    · exact untriggered_trigger u
    · rfl
  unfold decisionSecond
  dsimp only
  rw [either, either]

theorem untriggered_windowCheck (s : State) : untriggered (windowCheck s) = untriggered (evaluateStanding s) := by
  unfold windowCheck
  split
  · rename_i same
    unfold evaluateStanding
    rw [same]
  · exact untriggered_trigger _

theorem stage_windowCheck (s : State) : Stage (standingNow s ≠ s.limits.standing) s (windowCheck s) := by
  unfold windowCheck
  split
  · rename_i same
    exact .refl (not_not.2 same) s
  · rename_i other
    exact (stage_trigger (s := s) (u := evaluateStanding s) rfl fun _ h => h).congr (iff_true_intro other)

/-- The window standing, in the words of R158. -/
theorem standingNow_eq {s : State} (set : s.clock.state ≠ .unset) : standingNow s =
    if s.limits.active ≠ 0 ∧ (activeProfile s).windows ≠ [] ∧ ∀ w ∈ (activeProfile s).windows,
      ¬ (w.mask.getLsbD s.weekday = true ∧ w.first ≤ s.minuteOfDay ∧ s.minuteOfDay < w.last)
    then .outside else .inside := by
  have opens (w : Window) : w.opens s.weekday s.minuteOfDay = true ↔
      w.mask.getLsbD s.weekday = true ∧ w.first ≤ s.minuteOfDay ∧ s.minuteOfDay < w.last := by
    simp [Window.opens, and_assoc]
  unfold standingNow parental
  by_cases free : s.limits.active = 0 ∨ (activeProfile s).windows = []
  · rw [if_pos (by simpa using free), if_neg fun ⟨active, windows, _⟩ => free.elim active windows]
  · rw [if_neg (by simpa using free), if_neg set]
    obtain ⟨active, windows⟩ := not_or.1 free
    by_cases inside : ∃ w ∈ (activeProfile s).windows, w.opens s.weekday s.minuteOfDay = true
    · rw [if_pos (List.any_eq_true.2 inside), if_neg]
      rintro ⟨_, _, none⟩
      obtain ⟨w, hw, now⟩ := inside
      exact none w hw ((opens w).1 now)
    · rw [if_neg (mt List.any_eq_true.1 inside),
        if_pos ⟨active, windows, fun w hw now => inside ⟨w, hw, (opens w).2 now⟩⟩]

/-! ## Minute boundary and day rollover (R52, R53) -/

/-- The minute boundary's change: the minute, and the standing at a new minute (R52, R159). -/
def withMinute (s : State) : State :=
  { s with
    clock := { s.clock with lastMinute := some (s.localTime / 60) }
    limits := { s.limits with
      standing := if s.clock.lastMinute ≠ some (s.localTime / 60) then standingNow s else s.limits.standing } }

theorem untriggered_minuteBoundary (s : State) : untriggered (minuteBoundary s) = untriggered (withMinute s) := by
  unfold minuteBoundary withMinute
  dsimp only
  split
  · rename_i same
    rw [if_neg (not_not.2 same), ← same]
  · rename_i new
    rw [untriggered_windowCheck]
    rfl

theorem stage_minuteBoundary (s : State) :
    Stage (s.clock.lastMinute ≠ some (s.localTime / 60) ∧ standingNow s ≠ s.limits.standing) s (minuteBoundary s) := by
  unfold minuteBoundary
  dsimp only
  split
  · rename_i same
    exact .refl (fun ⟨new, _⟩ => new same) s
  · rename_i new
    have moved : Stage False s { s with clock := { s.clock with lastMinute := some (s.localTime / 60) } } :=
      stage_of_same
    have checked := moved.trans (stage_windowCheck { s with clock := { s.clock with
      lastMinute := some (s.localTime / 60) } })
    exact checked.congr (by rw [false_or, and_iff_right new]; rfl)

/-- The records that have ended by a day's start (R68). -/
def endedBy (d : Int) (s : State) : Nat := s.guide.events.countP (fun e => (e.ends : Int) ≤ d)

theorem endedBy_eq (d : Int) (s : State) :
    s.guide.events.length - (s.guide.events.filter (fun e => d < (e.ends : Int))).length = endedBy d s := by
  have split := List.length_eq_countP_add_countP (fun e : EventRecord => decide (d < (e.ends : Int))) (l := s.guide.events)
  have rest : (fun e : EventRecord => decide ¬ (decide (d < (e.ends : Int)) = true)) =
      fun e => decide ((e.ends : Int) ≤ d) := by
    funext e; simp
  rw [rest] at split
  rw [← List.countP_eq_length_filter]
  unfold endedBy
  omega

/-- The event table without the records ended by a day's start (R68). -/
def withoutEnded (d : Int) (s : State) : State :=
  { s with guide := { s.guide with
    events := s.guide.events.filter (fun e => d < (e.ends : Int))
    rolloverRemovals := if 0 < endedBy d s then bumpBy (endedBy d s) s.guide.rolloverRemovals
      else s.guide.rolloverRemovals } }

theorem guideRollover_eq (d : Int) (s : State) : guideRollover d s =
    if 0 < endedBy d s then compareWatched (raise .guideChanged (withoutEnded d s)) else s := by
  unfold guideRollover withoutEnded
  dsimp only
  rw [endedBy_eq]
  by_cases none : endedBy d s = 0
  · rw [if_pos none, if_neg (by omega)]
  · have some : 0 < endedBy d s := Nat.pos_of_ne_zero none
    rw [if_neg none, if_pos some, if_pos some]

theorem withoutEnded_same {d : Int} {s : State} (h : ¬ 0 < endedBy d s) : withoutEnded d s = s := by
  have none : s.guide.events.filter (fun e => d < (e.ends : Int)) = s.guide.events := by
    refine List.filter_eq_self.2 fun e he => ?_
    have := List.countP_eq_zero.1 (Nat.eq_zero_of_not_pos h) e he
    simpa using this
  unfold withoutEnded
  rw [none, if_neg h]

/-- A record that has ended is no current event, so that taking it away leaves the current event (R68, R69). -/
theorem currentEvent_withoutEnded {d : Int} {s : State} (set : s.clock.state ≠ .unset) (h : d ≤ (s.seconds : Int))
    (w : Nat) : currentEvent (withoutEnded d s) w = currentEvent s w := by
  have now : s.now = some s.seconds := if_neg set
  unfold currentEvent
  rw [show (withoutEnded d s).now = s.now from rfl, now]
  change eventAt (withoutEnded d s).guide w s.seconds = eventAt s.guide w s.seconds
  unfold eventAt eventsOf withoutEnded
  dsimp only
  rw [List.find?_filter, List.find?_filter, List.find?_filter]
  congr 1
  funext e
  by_cases covers : e.covers s.seconds = true
  · have later : d < (e.ends : Int) := by
      simp only [EventRecord.covers, Bool.and_eq_true, decide_eq_true_eq] at covers
      omega
    simp [covers, later]
  · simp [covers]

theorem told_guideRollover (d : Int) (s : State) :
    Told (0 < endedBy d s ∧ foundEvent (withoutEnded d s) ≠ s.guide.lastEvent) s (guideRollover d s) := by
  rw [guideRollover_eq]
  split
  · rename_i some
    have raised := untriggered_raise .guideChanged (withoutEnded d s)
    have found : foundEvent (raise .guideChanged (withoutEnded d s)) = foundEvent (withoutEnded d s) := by
      unfold foundEvent
      simp only [guide_of_untriggered raised, currentEvent_of_untriggered raised]
    have last : (raise .guideChanged (withoutEnded d s)).guide.lastEvent = s.guide.lastEvent := by
      rw [guide_of_untriggered raised]; rfl
    have compared := (stage_compareWatched (raise .guideChanged (withoutEnded d s))).toTold
    rw [found, last] at compared
    rw [and_iff_right some]
    exact compared.after (context_raise ..) fun n h => noticeSet_raise_of_set (s := withoutEnded d s) h _
  · rename_i none
    exact ⟨fun h => absurd h.1 none, fun _ => rfl, fun _ h => h⟩

theorem told_accessRollover (d : Nat) (s : State) :
    Told (s.access.entitlements.filter (fun e => d ≤ e.expiry) ≠ s.access.entitlements) s (accessRollover d s) := by
  unfold accessRollover
  by_cases same : s.access.entitlements.filter (fun e => d ≤ e.expiry) = s.access.entitlements
  · rw [same, entitlementsBecome_same]
    exact (Stage.refl (not_not.2 rfl) s).toTold
  · rw [entitlementsBecome_changed same]
    have changed (a : Access) : Stage True s (trigger (raise .entitlementChanged { s with access := a })) :=
      stage_trigger (context_raise .entitlementChanged { s with access := a })
        fun _ h => noticeSet_raise_of_set (s := { s with access := a }) h _
    exact ((changed _).congr (iff_true_intro same)).toTold

theorem stage_limitsRollover (s : State) : Stage True s (limitsRollover s) := by
  have restored (l : Limits) : Stage True s (trigger (evaluateMeter { s with limits := l })) :=
    stage_trigger (context_evaluateMeter { s with limits := l })
      fun _ h => noticeSet_evaluateMeter_of_set (s := { s with limits := l }) h
  exact restored _

theorem stage_dayRollover (s : State) : Stage (s.clock.creditedDay < s.day) s (dayRollover s) := by
  unfold dayRollover
  refine stage_ite (fun _ => ?_) fun _ => .refl id s
  have credited := (stage_of_same (s := s) (t := { s with clock := { s.clock with creditedDay := s.day } })).toTold
  exact credited.stage ((told_guideRollover ..).stage ((told_accessRollover ..).stage (stage_limitsRollover _)))

end Sys2Proof.Machine
end

