-- ==== Sys2Proof/Proofs/BoundaryState.lean ====
section
/-! PROOFS. What the stages of a boundary evaluation leave behind the decisions (R51 to R53). -/

namespace Sys2Proof.Machine

set_option Elab.async false

variable {K : Special → Prop}

/-! ## What a boundary leaves behind the decisions -/

/-- The second boundary's change (R51, R134, R159). -/
def afterSecond (second step : Bool) (s : State) : State :=
  let u := if second then withPurchases s.seconds (withFound s) else s
  if step then evaluateStanding u else u

/-- The day rollover's change (R53, R68, R116, R162). -/
def withDay (s : State) : State :=
  if s.clock.creditedDay < s.day then
    { s with
      clock := { s.clock with creditedDay := s.day }
      guide := { (withoutEnded (s.dayStart s.day) s).guide with
        lastEvent := if 0 < endedBy (s.dayStart s.day) s then foundEvent (withoutEnded (s.dayStart s.day) s)
          else s.guide.lastEvent }
      access := { s.access with entitlements := s.access.entitlements.filter (fun e => s.day ≤ e.expiry) }
      limits := { s.limits with
        profile1 := s.limits.profile1.restored, profile2 := s.limits.profile2.restored,
        profile3 := s.limits.profile3.restored, part := 0 } }
  else s

theorem readsBehind_withMinute : ReadsBehind withMinute := fun _ => rfl

theorem readsBehind_withDay : ReadsBehind withDay := by
  intro s
  unfold withDay
  by_cases new : s.clock.creditedDay < s.day
  · rw [if_pos new, if_pos (show (untriggered s).clock.creditedDay < (untriggered s).day from new)]
    rfl
  · rw [if_neg new, if_neg (show ¬ (untriggered s).clock.creditedDay < (untriggered s).day from new)]
    rfl

theorem readsBehind_withFound : ReadsBehind withFound := fun _ => rfl

theorem readsBehind_withPurchases (t : Nat) : ReadsBehind (withPurchases t) := fun _ => rfl

theorem readsBehind_evaluateStanding : ReadsBehind evaluateStanding := fun _ => rfl

theorem untriggered_guideRollover (d : Int) (s : State) : untriggered (guideRollover d s) =
    untriggered { s with guide := { (withoutEnded d s).guide with
      lastEvent := if 0 < endedBy d s then foundEvent (withoutEnded d s) else s.guide.lastEvent } } := by
  rw [guideRollover_eq]
  split
  · rw [untriggered_compareWatched, readsBehind_withFound.congr (untriggered_raise .guideChanged (withoutEnded d s))]
    rfl
  · rename_i none
    rw [withoutEnded_same none]

theorem untriggered_dayRollover (s : State) : untriggered (dayRollover s) = untriggered (withDay s) := by
  unfold dayRollover withDay
  dsimp only
  split
  · have limits (u : State) : untriggered (limitsRollover u) = untriggered { u with limits := { u.limits with
        profile1 := u.limits.profile1.restored, profile2 := u.limits.profile2.restored,
        profile3 := u.limits.profile3.restored, part := 0 } } := by
      unfold limitsRollover
      rw [untriggered_trigger, untriggered_evaluateMeter]
    have access (u : State) : untriggered (accessRollover s.day u) = untriggered { u with access := { u.access with
        entitlements := u.access.entitlements.filter (fun e => s.day ≤ e.expiry) } } :=
      untriggered_entitlementsBecome ..
    have behindLimits : ReadsBehind fun u => { u with limits := { u.limits with
        profile1 := u.limits.profile1.restored, profile2 := u.limits.profile2.restored,
        profile3 := u.limits.profile3.restored, part := 0 } } := fun _ => rfl
    have behindAccess : ReadsBehind fun u => { u with access := { u.access with
        entitlements := u.access.entitlements.filter (fun e => s.day ≤ e.expiry) } } := fun _ => rfl
    rw [limits, behindLimits.congr (access _), behindLimits.congr (behindAccess.congr (untriggered_guideRollover ..))]
    rfl
  · rfl

/-- What the second boundary, or none, has made of s when the minute boundary comes (R51). -/
structure SecondMade (second step : Bool) (s x : State) : Prop where
  behind : untriggered x = untriggered (afterSecond second step s)
  stage : Stage ((second = true ∧ (foundEvent s ≠ s.guide.lastEvent ∨
    (∃ r ∈ s.purchase.records, r.leavesAt s.seconds = true) ∨ PreviewOver s)) ∨ step = true) s x
  event : second = true → foundEvent s ≠ s.guide.lastEvent → noticeSet .eventChanged x = true
  purchases : second = true →
    (∃ r ∈ s.purchase.records, r.commitsAt s.seconds = true ∨ r.leavesAt s.seconds = true) →
    noticeSet .purchaseChanged x = true

theorem secondMade_none (s : State) : SecondMade false false s s :=
  ⟨rfl, .refl (by simp) s, nofun, nofun⟩

theorem secondMade_secondBoundary (step : Bool) (s : State) : SecondMade true step s (secondBoundary step s) := by
  have compared := stage_compareWatched s
  have purchase : (compareWatched s).purchase = s.purchase :=
    (congrArg State.purchase (untriggered_compareWatched s) :)
  have bought := stage_purchaseSecond s.seconds (compareWatched s)
  have early := compared.trans bought
  have decided := stage_decisionSecond step (purchaseSecond s.seconds (compareWatched s))
  have three := early.trans decided
  have behindPurchase : untriggered (purchaseSecond s.seconds (compareWatched s)) =
      untriggered (withPurchases s.seconds (withFound s)) := by
    rw [untriggered_purchaseSecond, (readsBehind_withPurchases _).congr (untriggered_compareWatched s)]
  have behind := (untriggered_decisionSecond step (purchaseSecond s.seconds (compareWatched s))).trans behindPurchase
  have seconds : (purchaseSecond s.seconds (compareWatched s)).seconds = s.seconds :=
    (congrArg (fun x : State => x.seconds) behindPurchase :)
  rw [purchase] at three early
  have grounds : ((foundEvent s ≠ s.guide.lastEvent ∨ ∃ r ∈ s.purchase.records, r.leavesAt s.seconds = true) ∨
      PreviewOver (purchaseSecond s.seconds (compareWatched s)) ∨ step = true) ↔
      (foundEvent s ≠ s.guide.lastEvent ∨ (∃ r ∈ s.purchase.records, r.leavesAt s.seconds = true) ∨ PreviewOver s) ∨
        step = true := by
    by_cases first : foundEvent s ≠ s.guide.lastEvent ∨ ∃ r ∈ s.purchase.records, r.leavesAt s.seconds = true
    · exact ⟨fun _ => .inl (first.imp_right .inl), fun _ => .inl first⟩
    · have same : PreviewOver (purchaseSecond s.seconds (compareWatched s)) ↔ PreviewOver s := by
        unfold PreviewOver
        rw [early.context first, seconds]
      rw [same]
      simp only [or_assoc]
  have three := three.congr grounds.symm
  have raisedEvent (h : foundEvent s ≠ s.guide.lastEvent) :=
    decided.notices _ (bought.notices _ (noticeSet_compareWatched h))
  have raisedPurchase (h : ∃ r ∈ s.purchase.records, r.commitsAt s.seconds = true ∨ r.leavesAt s.seconds = true) :=
    decided.notices _ (noticeSet_purchaseSecond (purchase ▸ h))
  cases step with
  | false => exact ⟨behind, three.congr (by simp), fun _ => raisedEvent, fun _ => raisedPurchase⟩
  | true =>
    have checked := stage_windowCheck (decisionSecond true (purchaseSecond s.seconds (compareWatched s)))
    refine ⟨(untriggered_windowCheck _).trans (readsBehind_evaluateStanding.congr behind), ?_, fun _ h => ?_,
      fun _ h => ?_⟩
    · exact (three.trans checked).congr (by simp)
    · exact checked.notices _ (raisedEvent h)
    · exact checked.notices _ (raisedPurchase h)

/-! ## A whole boundary -/

/-- The day of a rollover has begun by its second, so that an ended record is not current (R53, R68). -/
theorem dayStart_le {s : State} (new : s.clock.creditedDay < s.day) : s.dayStart s.day ≤ (s.seconds : Int) := by
  have day : s.day = s.localTime / 86400 := rfl
  have time : s.localTime = ((s.seconds : Int) + s.clock.offset * 900).toNat := rfl
  unfold State.dayStart
  omega

/-- After a second boundary the event last found stands, so that a rollover's comparison finds it again. -/
theorem foundEvent_withoutEnded {d : Int} {s : State} (set : s.clock.state ≠ .unset) (h : d ≤ (s.seconds : Int)) :
    foundEvent (withoutEnded d s) = foundEvent s := by
  unfold foundEvent
  change (match s.guide.watched with
    | none => s.guide.lastEvent
    | some w => currentEvent (withoutEnded d s) w) = _
  cases s.guide.watched with
  | none => rfl
  | some w => exact currentEvent_withoutEnded set h w

theorem foundEvent_some {s : State} (set : s.clock.state ≠ .unset) {w : Nat} (watched : s.guide.watched = some w) :
    foundEvent s = eventAt s.guide w (s.clock.n / 1024) := by
  have now : s.now = some (s.clock.n / 1024) := if_neg set
  unfold foundEvent currentEvent
  rw [watched, now]

theorem foundEvent_none {s : State} (watched : s.guide.watched = none) : foundEvent s = s.guide.lastEvent := by
  unfold foundEvent; rw [watched]

/-- A state with the five blocks that a boundary changes put to those of another (R50 to R53). -/
def withBlocksOf (s t : State) : State :=
  { t with clock := s.clock, purchase := s.purchase, guide := s.guide, access := s.access, limits := s.limits }

theorem withBlocksOf_withDay (s u : State) : withBlocksOf s (withDay u) = withBlocksOf s u := by
  unfold withDay; split <;> rfl

theorem clock_withDay (u : State) : (withDay u).clock =
    { u.clock with creditedDay := if u.clock.creditedDay < u.day then u.day else u.clock.creditedDay } := by
  unfold withDay; split <;> rfl

theorem purchase_withDay (u : State) : (withDay u).purchase = u.purchase := by
  unfold withDay; split <;> rfl

theorem access_withDay (u : State) : (withDay u).access = { u.access with
    entitlements := u.access.entitlements.filter (fun e => ¬ (u.clock.creditedDay < u.day ∧ e.expiry < u.day)) } := by
  unfold withDay
  split
  · rename_i new
    simp [new]
  · rename_i old
    simp [old]

theorem limits_withDay (u : State) : (withDay u).limits = { u.limits with
    profile1 := if u.clock.creditedDay < u.day then u.limits.profile1.restored else u.limits.profile1
    profile2 := if u.clock.creditedDay < u.day then u.limits.profile2.restored else u.limits.profile2
    profile3 := if u.clock.creditedDay < u.day then u.limits.profile3.restored else u.limits.profile3
    part := if u.clock.creditedDay < u.day then 0 else u.limits.part } := by
  unfold withDay; split <;> rfl

/-- The records that a rollover now takes away (R68). -/
def endedNow (u : State) : Nat := if u.clock.creditedDay < u.day then endedBy (u.dayStart u.day) u else 0

theorem guide_withDay (u : State) : (withDay u).guide = { u.guide with
    events := u.guide.events.filter (fun e =>
      ¬ (u.clock.creditedDay < u.day ∧ (e.ends : Int) ≤ u.dayStart u.day))
    rolloverRemovals := if 0 < endedNow u then bumpBy (endedNow u) u.guide.rolloverRemovals
      else u.guide.rolloverRemovals
    lastEvent := if 0 < endedNow u then foundEvent (withoutEnded (u.dayStart u.day) u) else u.guide.lastEvent } := by
  unfold withDay endedNow
  split
  · rename_i new
    simp [withoutEnded, new]
  · rename_i old
    simp [old]

/-- What stands at the minute boundary behind the decisions, block by block. -/
theorem withMinute_afterSecond (second step : Bool) (s : State) :
    let u := withMinute (afterSecond second step s)
    u.clock = { s.clock with lastMinute := some (s.localTime / 60) } ∧
    u.purchase = (if second then withPurchases s.seconds s else s).purchase ∧
    u.guide = { s.guide with lastEvent := if second then foundEvent s else s.guide.lastEvent } ∧
    u.access = s.access ∧
    u.limits = { s.limits with
      standing := if s.clock.lastMinute ≠ some (s.localTime / 60) ∨ step = true then standingNow s
        else s.limits.standing } ∧
    withBlocksOf s u = s := by
  have limits : (withMinute (afterSecond second step s)).limits = { s.limits with
      standing := if s.clock.lastMinute ≠ some (s.localTime / 60) then standingNow s
        else if step = true then standingNow s else s.limits.standing } := by
    cases second <;> cases step <;> rfl
  rw [ite_or]
  cases second <;> cases step <;> exact ⟨rfl, rfl, rfl, rfl, limits, rfl⟩

/-- The notices of a day rollover (R68, R71, R116). -/
theorem noticeSet_dayRollover {u : State} (new : u.clock.creditedDay < u.day) :
    (0 < endedBy (u.dayStart u.day) u → noticeSet .guideChanged (dayRollover u) = true) ∧
    (0 < endedBy (u.dayStart u.day) u → foundEvent (withoutEnded (u.dayStart u.day) u) ≠ u.guide.lastEvent →
      noticeSet .eventChanged (dayRollover u) = true) ∧
    (u.access.entitlements.filter (fun e => u.day ≤ e.expiry) ≠ u.access.entitlements →
      noticeSet .entitlementChanged (dayRollover u) = true) := by
  have run : dayRollover u = limitsRollover (accessRollover u.day (guideRollover (u.dayStart u.day)
      { u with clock := { u.clock with creditedDay := u.day } })) := if_pos new
  have later {n : Notice} (v : State) (h : noticeSet n v = true) :
      noticeSet n (limitsRollover (accessRollover u.day v)) = true :=
    (stage_limitsRollover _).notices n ((told_accessRollover u.day v).notices n h)
  rw [run, guideRollover_eq]
  have ended : endedBy (u.dayStart u.day) { u with clock := { u.clock with creditedDay := u.day } } =
      endedBy (u.dayStart u.day) u := rfl
  rw [ended]
  refine ⟨fun some => later _ ?_, fun some moved => later _ ?_, fun changed => ?_⟩
  · rw [if_pos some]
    exact (stage_compareWatched _).notices _ (noticeSet_raise ..)
  · rw [if_pos some]
    refine noticeSet_compareWatched ?_
    have raised := untriggered_raise .guideChanged
      (withoutEnded (u.dayStart u.day) { u with clock := { u.clock with creditedDay := u.day } })
    unfold foundEvent
    simp only [guide_of_untriggered raised, currentEvent_of_untriggered raised]
    exact moved
  · refine (stage_limitsRollover _).notices _ (noticeSet_entitlementsBecome ?_)
    have access : (guideRollover (u.dayStart u.day) { u with clock := { u.clock with creditedDay := u.day } }).access =
        u.access := (congrArg State.access (untriggered_guideRollover ..) :)
    rw [guideRollover_eq, ended] at access
    rw [access]
    exact changed

end Sys2Proof.Machine
end

