-- ==== Sys2Proof/Proofs/Boundaries.lean ====
section
/-! PROOFS. A whole boundary evaluation, in the words of the statements (R50 to R53). -/

namespace Sys2Proof.Machine

set_option Elab.async false

variable {K : Special → Prop}

/-! ## A boundary, in the words of the statements (R50 to R53) -/

theorem commitsAt_iff (r : PurchaseRecord) (t : Nat) :
    r.commitsAt t = true ↔ r.state = .provisional ∧ r.deadline ≤ t := by
  simp [PurchaseRecord.commitsAt]

theorem leavesAt_iff (r : PurchaseRecord) (t : Nat) : r.leavesAt t = true ↔ r.state = .collected ∧ r.ends ≤ t := by
  simp [PurchaseRecord.leavesAt]

/-- The records after a second boundary, or none (R134). -/
theorem purchase_second (second : Bool) (s : State) : (if second then withPurchases s.seconds s else s).purchase =
    { s.purchase with
      records := (s.purchase.records.filter
          (fun r => ¬ (second = true ∧ r.state = .collected ∧ r.ends ≤ s.seconds))).map
        (fun r => if second = true ∧ r.state = .provisional ∧ r.deadline ≤ s.seconds then
          { r with state := .committed } else r) } := by
  cases second with
  | false => simp
  | true =>
    have leaves (r : PurchaseRecord) : (!r.leavesAt s.seconds) =
        decide ¬ (true = true ∧ r.state = .collected ∧ r.ends ≤ s.seconds) := by
      by_cases now : r.leavesAt s.seconds = true <;> simp [now, ← leavesAt_iff]
    have commits (r : PurchaseRecord) : r.atBoundary s.seconds =
        if true = true ∧ r.state = .provisional ∧ r.deadline ≤ s.seconds then { r with state := .committed } else r := by
      simp [PurchaseRecord.atBoundary, PurchaseRecord.commitsAt]
    unfold withPurchases
    rw [if_pos rfl, funext leaves, funext commits]

/-- The records that a rollover now takes away, in the words of the statements (R68). -/
def endings (s : State) : Nat := s.guide.events.countP
  (fun e => s.clock.creditedDay < s.day ∧ ((e.start + e.duration : Nat) : Int) ≤ s.dayStart s.day)

theorem endedNow_eq (s : State) : endedNow s = endings s := by
  have ends (e : EventRecord) : e.start + e.duration = e.ends := rfl
  unfold endedNow endedBy endings
  split
  · rename_i new; simp [new, ends]
  · rename_i old; simp [old]

theorem endings_pos {s : State} (h : 0 < endings s) : s.clock.creditedDay < s.day := by
  obtain ⟨e, _, he⟩ := List.countP_pos_iff.1 h
  exact (of_decide_eq_true he).1

theorem foundEvent_moved_at {s : State} (set : s.clock.state ≠ .unset) : foundEvent s ≠ s.guide.lastEvent ↔
    ∃ w, s.guide.watched = some w ∧ eventAt s.guide w (s.clock.n / 1024) ≠ s.guide.lastEvent := by
  have now : s.now = some (s.clock.n / 1024) := if_neg set
  rw [foundEvent_moved]
  unfold currentEvent
  rw [now]

/-- The clock, the event table and the entitlement table as they stand when the day rollover comes. -/
structure BeforeRollover (second : Bool) (s m : State) : Prop where
  clock : m.clock = { s.clock with lastMinute := some (s.localTime / 60) }
  guide : m.guide = { s.guide with lastEvent := if second then foundEvent s else s.guide.lastEvent }
  access : m.access = s.access

theorem BeforeRollover.day {second : Bool} {s m : State} (h : BeforeRollover second s m) :
    m.seconds = s.seconds ∧ m.day = s.day ∧ (∀ d, m.dayStart d = s.dayStart d) ∧
      m.clock.creditedDay = s.clock.creditedDay := by
  unfold State.dayStart State.day State.localTime State.seconds
  rw [h.clock]
  exact ⟨rfl, rfl, fun _ => rfl, rfl⟩

theorem BeforeRollover.endings {second : Bool} {s m : State} (h : BeforeRollover second s m) :
    Machine.endings m = Machine.endings s := by
  obtain ⟨_, day, dayStart, credited⟩ := h.day
  unfold Machine.endings
  rw [day, dayStart, credited, h.guide]

theorem BeforeRollover.found {second : Bool} {s m : State} (h : BeforeRollover second s m)
    (set : s.clock.state ≠ .unset) :
    (∃ w, s.guide.watched = some w) → foundEvent m = foundEvent s := by
  rintro ⟨w, watched⟩
  have setM : m.clock.state ≠ .unset := by rw [h.clock]; exact set
  rw [foundEvent_some setM (by rw [h.guide]; exact watched), foundEvent_some set watched, h.guide, h.clock]
  rfl

/-- What the statements say of the event last found (R71). -/
theorem BeforeRollover.lastEvent {second : Bool} {s m : State} (h : BeforeRollover second s m)
    (set : s.clock.state ≠ .unset) : (withDay m).guide.lastEvent =
      if second = true ∨ 0 < Machine.endings s then foundEvent s else s.guide.lastEvent := by
  have setM : m.clock.state ≠ .unset := by rw [h.clock]; exact set
  rw [guide_withDay]
  dsimp only
  rw [endedNow_eq, h.endings]
  by_cases some : 0 < Machine.endings s
  · have new : m.clock.creditedDay < m.day := endings_pos (by rwa [h.endings])
    rw [if_pos some, if_pos (.inr some), foundEvent_withoutEnded setM (dayStart_le new)]
    cases watched : s.guide.watched with
    | none =>
      rw [foundEvent_none (by rw [h.guide]; exact watched), foundEvent_none watched, h.guide, foundEvent_none watched]
      exact ite_self _
    | some w => exact h.found set ⟨w, watched⟩
  · rw [if_neg some, h.guide]
    by_cases now : second = true
    · rw [if_pos now, if_pos (.inl now)]
    · rw [if_neg now, if_neg (by rintro (h | h); exacts [now h, some h])]

/-- The notices of the rollover, in the words of the statements (R68, R71, R116). -/
theorem BeforeRollover.notices {second : Bool} {s m : State} (h : BeforeRollover second s m)
    (set : s.clock.state ≠ .unset) :
    (0 < Machine.endings s → noticeSet .guideChanged (dayRollover m) = true) ∧
    (second = false → 0 < Machine.endings s → foundEvent s ≠ s.guide.lastEvent →
      noticeSet .eventChanged (dayRollover m) = true) ∧
    (s.clock.creditedDay < s.day → (∃ e ∈ s.access.entitlements, e.expiry < s.day) →
      noticeSet .entitlementChanged (dayRollover m) = true) := by
  obtain ⟨_, day, _, credited⟩ := h.day
  have setM : m.clock.state ≠ .unset := by rw [h.clock]; exact set
  have ended : 0 < Machine.endings s →
      m.clock.creditedDay < m.day ∧ 0 < endedBy (m.dayStart m.day) m := by
    intro some
    rw [← h.endings] at some
    have new := endings_pos some
    rw [← endedNow_eq, endedNow, if_pos new] at some
    exact ⟨new, some⟩
  refine ⟨fun some => ?_, fun no some moved => ?_, fun new expired => ?_⟩
  · obtain ⟨new, some⟩ := ended some
    exact (noticeSet_dayRollover new).1 some
  · obtain ⟨new, some⟩ := ended some
    refine (noticeSet_dayRollover new).2.1 some ?_
    rw [foundEvent_withoutEnded setM (dayStart_le new)]
    obtain ⟨w, watched, _⟩ := (foundEvent_moved s).1 moved
    rw [h.found set ⟨w, watched⟩, h.guide, no]
    exact moved
  · refine (noticeSet_dayRollover (by rw [day, credited]; exact new)).2.2 fun same => ?_
    obtain ⟨e, he, past⟩ := expired
    rw [h.access, day] at same
    have kept := List.filter_eq_self.1 same e he
    exact absurd (of_decide_eq_true kept) (Nat.not_le.2 past)

/-- The grounds on which a boundary re-decides, in the words of the statements (R170, R171). -/
def boundaryDecides (second step : Bool) (s : State) : Prop :=
  (second = true ∧ PreviewOver s) ∨ step = true ∨
  ((second = true ∨ 0 < endings s) ∧
    ∃ w, s.guide.watched = some w ∧ eventAt s.guide w (s.clock.n / 1024) ≠ s.guide.lastEvent) ∨
  s.clock.creditedDay < s.day ∨
  (if s.clock.lastMinute ≠ some (s.localTime / 60) ∨ step = true then standingNow s else s.limits.standing) ≠
    s.limits.standing ∨
  ∃ r ∈ s.purchase.records, second = true ∧ r.state = .collected ∧ r.ends ≤ s.seconds

theorem same_grounds (P F D M L : Prop) : (P ∨ F ∨ D ∨ M ∨ L) ↔ (((F ∨ L ∨ P) ∨ M) ∨ D) := by tauto

/-- The grounds of the stages of a boundary are those of the statements. -/
theorem boundaryDecides_iff {second step : Bool} {s x : State} (set : s.clock.state ≠ .unset)
    (behind : untriggered x = untriggered (afterSecond second step s)) : boundaryDecides second step s ↔
      (((second = true ∧ (foundEvent s ≠ s.guide.lastEvent ∨
          (∃ r ∈ s.purchase.records, r.leavesAt s.seconds = true) ∨ PreviewOver s)) ∨ step = true) ∨
        (x.clock.lastMinute ≠ some (x.localTime / 60) ∧ standingNow x ≠ x.limits.standing)) ∨
        s.clock.creditedDay < s.day := by
  have clock : x.clock = s.clock := (congrArg State.clock behind :).trans (by cases second <;> cases step <;> rfl)
  have time : x.localTime = s.localTime := by unfold State.localTime State.seconds; rw [clock]
  have standing : standingNow x = standingNow s :=
    (congrArg standingNow behind :).trans (by cases second <;> cases step <;> rfl)
  have stands : x.limits.standing = if step = true then standingNow s else s.limits.standing :=
    (congrArg (fun t : State => t.limits.standing) behind :).trans (by cases second <;> cases step <;> rfl)
  rw [clock, time, standing, stands]
  unfold boundaryDecides
  rw [← foundEvent_moved_at set]
  simp only [leavesAt_iff]
  have ended := endings_pos (s := s)
  cases step with
  | true => simp
  | false =>
    have moved : ((if s.clock.lastMinute ≠ some (s.localTime / 60) ∨ false = true then standingNow s
        else s.limits.standing) ≠ s.limits.standing) ↔
        s.clock.lastMinute ≠ some (s.localTime / 60) ∧ standingNow s ≠ s.limits.standing := by
      split
      · rename_i new
        exact (and_iff_right (new.resolve_right nofun)).symm
      · rename_i old
        exact ⟨fun h => absurd rfl h, fun h => absurd (.inl h.1) old⟩
    rw [moved, if_neg nofun]
    cases second with
    | true =>
      simp only [Bool.false_eq_true, true_and, true_or, false_or, or_false]
      exact same_grounds ..
    | false =>
      simp only [Bool.false_eq_true, false_and, false_or, and_false, exists_false, or_false]
      exact (or_iff_right_of_imp fun h => .inl (ended h.1)).trans or_comm

theorem boundaryMade_of_second {second step : Bool} {s x : State} (set : s.clock.state ≠ .unset)
    (h : SecondMade second step s x) : boundaryMade second step s (dayRollover (minuteBoundary x)) := by
  have behindMinute : untriggered (minuteBoundary x) = untriggered (withMinute (afterSecond second step s)) := by
    rw [untriggered_minuteBoundary, readsBehind_withMinute.congr h.behind]
  obtain ⟨clock, purchase, guide, access, limits, others⟩ := withMinute_afterSecond second step s
  have minute := stage_minuteBoundary x
  have rolled := stage_dayRollover (minuteBoundary x)
  have later (n : Notice) (hn : noticeSet n x = true) : noticeSet n (dayRollover (minuteBoundary x)) = true :=
    rolled.notices n (minute.notices n hn)
  have atMinute : BeforeRollover second s (minuteBoundary x) :=
    ⟨(congrArg State.clock behindMinute :).trans clock, (congrArg State.guide behindMinute :).trans guide,
      (congrArg State.access behindMinute :).trans access⟩
  have sameDay : (minuteBoundary x).clock.creditedDay < (minuteBoundary x).day ↔ s.clock.creditedDay < s.day := by
    obtain ⟨_, day, _, credited⟩ := atMinute.day
    rw [day, credited]
  have stages := (h.stage.trans minute).trans (rolled.congr sameDay.symm)
  obtain ⟨guideNotice, eventNotice, entitlementNotice⟩ := atMinute.notices set
  have grounds := boundaryDecides_iff set h.behind
  unfold boundaryDecides at grounds
  rw [standingNow_eq set] at grounds
  have behind : untriggered (dayRollover (minuteBoundary x)) =
      untriggered (withDay (withMinute (afterSecond second step s))) := by
    rw [untriggered_dayRollover, readsBehind_withDay.congr behindMinute]
  have before : BeforeRollover second s (withMinute (afterSecond second step s)) := ⟨clock, guide, access⟩
  have lastEvent := before.lastEvent set
  obtain ⟨_, day, dayStart, credited⟩ := before.day
  have ended := before.endings
  generalize withMinute (afterSecond second step s) = u at *
  have tClock : (dayRollover (minuteBoundary x)).clock = (withDay u).clock := (congrArg State.clock behind :)
  have tPurchase : (dayRollover (minuteBoundary x)).purchase = (withDay u).purchase :=
    (congrArg State.purchase behind :)
  have tGuide : (dayRollover (minuteBoundary x)).guide = (withDay u).guide := (congrArg State.guide behind :)
  have tAccess : (dayRollover (minuteBoundary x)).access = (withDay u).access := (congrArg State.access behind :)
  have tLimits (r : Bool) : { (dayRollover (minuteBoundary x)).limits with running := r } =
      { (withDay u).limits with running := r } :=
    (congrArg (fun t : State => { t.limits with running := r }) behind :)
  have tBlocks : untriggered (withBlocksOf s (dayRollover (minuteBoundary x))) =
      untriggered (withBlocksOf s (withDay u)) :=
    (congrArg (fun t => withBlocksOf (untriggered s) t) behind :)
  unfold boundaryMade
  dsimp only
  refine ⟨?_, ?_, ?_, ?_, ?_, ?_, ?_, ?_, ?_, ?_, ?_, ?_, ?_, ?_⟩
  · rw [tClock, clock_withDay, day, credited, clock]
    rfl
  · rw [tPurchase, purchase_withDay, purchase, purchase_second]
    rfl
  · rintro ⟨r, hr, now⟩
    have timely : second = true ∧ (r.commitsAt s.seconds = true ∨ r.leavesAt s.seconds = true) := by
      rcases now with ⟨now, commits⟩ | ⟨now, leaves⟩
      · exact ⟨now, .inl ((commitsAt_iff ..).2 commits)⟩
      · exact ⟨now, .inr ((leavesAt_iff ..).2 leaves)⟩
    exact later _ (h.purchases timely.1 ⟨r, hr, timely.2⟩)
  · rw [tGuide, guide_withDay, day, dayStart, credited, endedNow_eq, ended, guide]
    rfl
  · intro w compared watched
    rw [tGuide, lastEvent]
    exact (if_pos compared).trans (foundEvent_some set watched)
  · intro free
    rw [tGuide, lastEvent]
    rcases free with notCompared | none
    · exact if_neg notCompared
    · rw [foundEvent_none none, ite_self]
  · rintro ⟨compared, w, watched, moved⟩
    have found : foundEvent s ≠ s.guide.lastEvent := (foundEvent_moved_at set).2 ⟨w, watched, moved⟩
    cases second with
    | true => exact later _ (h.event rfl found)
    | false => exact eventNotice rfl (compared.resolve_left nofun) found
  · exact guideNotice
  · rw [tAccess, access_withDay, day, credited, access]
    rfl
  · rintro ⟨e, he, new, past⟩
    exact entitlementNotice new ⟨e, he, past⟩
  · have same := tLimits (dayRollover (minuteBoundary x)).limits.running
    rw [limits_withDay, day, credited, limits, standingNow_eq set] at same
    exact same
  · exact (stages.congr grounds).decided
  · exact fun none => ⟨(stages.congr grounds).context none, (stages.congr grounds).running none⟩
  · exact tBlocks.trans (congrArg untriggered ((withBlocksOf_withDay s u).trans others))

end Sys2Proof.Machine
end

