-- ==== Sys2Proof/Proofs/Advances.lean ====
section
/-! PROOFS. O16, O17 and O18: the clock advance, marks, and the expiries of three timers (R40 to R53). -/

namespace Sys2Proof.Machine

set_option Elab.async false

variable {K : Special → Prop}

/-! ## Advances (R40) -/

/-- A boundary reads of a state what a report leaves as it is. -/
theorem boundaryMade_of_raise {second step : Bool} {n : Notice} {s t : State}
    (h : boundaryMade second step (raise n s) t) : boundaryMade second step s t := by
  have behind := untriggered_raise n s
  have context := context_raise n s
  obtain ⟨u, o, raised, _⟩ := raise_frame n s
  rw [raised] at h behind context
  unfold boundaryMade redecided at h ⊢
  dsimp only at h behind context ⊢
  rw [behind, context] at h
  exact h

/-- An advance that brings no second boundary, or runs while the clock is UNSET (R40, R47). -/
theorem advanceClock_quiet {s : State}
    (quiet : s.clock.state = .unset ∨ s.clock.advanced.n / 1024 = s.clock.n / 1024) :
    advanceClock s = { s with clock := s.clock.advanced } := by
  unfold advanceClock
  dsimp only
  split
  · rfl
  · rename_i new
    exact if_pos (quiet.resolve_right new)

/-- What a boundary leaves: the clock's counting, and the parts that no subscriber of R51 to R53 is in. -/
structure AroundBoundary (s t : State) : Prop where
  clock : t.clock = { s.clock with lastMinute := t.clock.lastMinute, creditedDay := t.clock.creditedDay }
  acq : t.acq = s.acq
  access : t.access = { s.access with entitlements := t.access.entitlements }
  waitTimer : t.purchase.waitTimer = s.purchase.waitTimer
  lockout : t.limits.lockout = s.limits.lockout
  front : t.front = s.front
  filter : t.filter = s.filter
  assembler : t.assembler = s.assembler
  lines : t.lines = s.lines

theorem AroundBoundary.refl (s : State) : AroundBoundary s s := ⟨rfl, rfl, rfl, rfl, rfl, rfl, rfl, rfl, rfl⟩

theorem boundaryMade.around {second step : Bool} {s t : State} (h : boundaryMade second step s t) :
    AroundBoundary s t := by
  obtain ⟨clock, purchase, _, _, _, _, _, _, access, _, limits, _, _, others⟩ := h
  refine ⟨?_, (congrArg State.acq others :), ?_, ?_, ?_, (congrArg State.front others :),
    (congrArg State.filter others :), (congrArg State.assembler others :), (congrArg State.lines others :)⟩
  · rw [clock]
  · rw [access]
  · rw [purchase]
  · rw [limits]

theorem boundary_of_an_advance {s : State} (high : s.lines.resetAsserted = false) (running : s.running = true)
    (set : s.clock.state ≠ .unset) (second : nextNetworkTime s.clock / 1024 ≠ s.clock.n / 1024) :
    ∃ t, exec .clockAdvance s = .next t ∧ boundaryMade true false (oneAdvance s) t := by
  have setNow : (oneAdvance s).clock.state ≠ .unset := set
  have run : exec .clockAdvance s = .next (clockAdvance s) := rfl
  rw [run, clockAdvance_to_a_new_second high running second, evaluateBoundary_set setNow]
  exact ⟨_, rfl, boundaryMade_of_second setNow (secondMade_secondBoundary false _)⟩

/-- Settles O16. -/
theorem clockAdvanceMovesTime : Obligations.ClockAdvanceMovesTime := by
  intro s
  have run : exec .clockAdvance s = .next (clockAdvance s) := rfl
  have counts := counted_eq_advanced s.clock
  have next : nextNetworkTime s.clock = s.clock.advanced.n := congrArg Clock.n counts
  refine ⟨fun low => ?_, fun high starting quiet => ?_, fun high running => ?_⟩
  · rw [run, clockAdvance, if_pos low]
  · rw [next] at quiet
    rw [run, clockAdvance, if_neg (by rw [high]; decide), if_neg (by rw [starting]; decide),
      advanceClock_quiet quiet, counts]
  · rw [run]
    have around : AroundBoundary (oneAdvance s) (clockAdvance s) ∧
        (s.clock.state = .unset ∨ nextNetworkTime s.clock / 1024 = s.clock.n / 1024 →
          clockAdvance s = oneAdvance s) := by
      by_cases quiet : s.clock.state = .unset ∨ nextNetworkTime s.clock / 1024 = s.clock.n / 1024
      · have still : clockAdvance s = oneAdvance s := by
          rw [clockAdvance, if_neg (by rw [high]; decide), if_pos running, oneAdvance_eq]
          exact advanceClock_quiet (s := tickTimers s) (by rw [next] at quiet; exact quiet)
        rw [still]
        exact ⟨.refl _, fun _ => rfl⟩
      · obtain ⟨set, second⟩ := not_or.1 quiet
        obtain ⟨t, made, boundary⟩ := boundary_of_an_advance high running set second
        obtain rfl : clockAdvance s = t := Host.Outcome.next.inj made
        exact ⟨boundary.around, fun h => absurd h quiet⟩
    obtain ⟨⟨clock, acq, access, waitTimer, lockout, front, filter, assembler, lines⟩, still⟩ := around
    exact ⟨_, rfl, clock, acq, access, waitTimer, lockout, front, filter, assembler, lines, still⟩

/-! ## Marks (R42 to R46) -/

theorem markError_eq {m n : Nat} (hm : m < 2 ^ 42) (hn : n < 2 ^ 42) : markError m n = signedDifference m n := by
  unfold markError signedDifference Int.bmod clockSpan
  dsimp only
  split_ifs <;> omega

theorem marked_eq (m : Mark) (c : Clock) : c.marked m = afterMark m c := by
  have time : msTicks (c.lossTime * 1000) = c.lossTime * 128000 := Nat.mul_assoc ..
  unfold Clock.marked afterMark
  rw [time]

/-- A mark whose error is above the threshold, or the first one, steps the clock (R43 to R45). -/
theorem applyMark_step {m : Mark} {s : State} (hm : m.value < 2 ^ 42) (hn : s.clock.n < 2 ^ 42)
    (step : isStep m s.clock) :
    applyMark m s = evaluateBoundary .step (raise .clockStepped (steppedTo m s)) := by
  have applied : applyMark m s = applyStep m s := by
    unfold applyMark markKind
    split_ifs with unset above
    · rfl
    · rfl
    · rw [markError_eq hm hn] at above
      exact absurd (step.resolve_left unset) (by rw [Int.abs_eq_natAbs]; omega)
  rw [applied, applyStep, marked_eq]
  rfl

/-- Any other mark slews it (R44, R46). -/
theorem applyMark_slew {m : Mark} {s : State} (hm : m.value < 2 ^ 42) (hn : s.clock.n < 2 ^ 42)
    (slew : ¬ isStep m s.clock) : applyMark m s =
      if m.offset = s.clock.offset then slewedTo m s else evaluateBoundary .offset (slewedTo m s) := by
  obtain ⟨set, within⟩ := not_or.1 slew
  have kind : markKind m s.clock = .slewed := by
    rw [markKind, if_neg set, if_neg (by rw [markError_eq hm hn]; rw [Int.abs_eq_natAbs] at within; omega)]
  rw [applyMark, kind]
  dsimp only
  rw [applySlew, marked_eq, markError_eq hm hn]
  rfl

theorem boundary_of_a_step {m : Mark} {s : State} (hm : m.value < 2 ^ 42) (hn : s.clock.n < 2 ^ 42)
    (step : isStep m s.clock) : boundaryMade true true (steppedTo m s) (applyMark m s) := by
  have clock : (raise .clockStepped (steppedTo m s)).clock = (steppedTo m s).clock :=
    (congrArg State.clock (untriggered_raise .clockStepped (steppedTo m s)) :)
  have set : (raise .clockStepped (steppedTo m s)).clock.state ≠ .unset := by
    rw [clock]; exact fun unset => ClockState.noConfusion unset
  rw [applyMark_step hm hn step, evaluateBoundary_set set]
  exact boundaryMade_of_raise (boundaryMade_of_second set (secondMade_secondBoundary true _))

theorem boundary_of_an_offset {m : Mark} {s : State} (hm : m.value < 2 ^ 42) (hn : s.clock.n < 2 ^ 42)
    (slew : ¬ isStep m s.clock) (moved : m.offset ≠ s.clock.offset) :
    boundaryMade false false (slewedTo m s) (applyMark m s) := by
  have set : (slewedTo m s).clock.state ≠ .unset := fun unset => ClockState.noConfusion unset
  rw [applyMark_slew hm hn slew, if_neg moved, evaluateBoundary_set set]
  exact boundaryMade_of_second set (secondMade_none _)

/-- Settles O17. -/
theorem boundariesOfAnAdvance : Obligations.BoundariesOfAnAdvance :=
  ⟨fun _ => boundary_of_an_advance, fun _ _ hm hn => ⟨boundary_of_a_step hm hn,
    boundary_of_an_offset hm hn, fun slew same => (applyMark_slew hm hn slew).trans (if_pos same)⟩⟩

theorem exec_idle {c : Instr} {s : State} {left : Option Ticks} (g : State → State) (act : State → State)
    (idle : s.running = false ∨ left ≠ some 0) (expires : g s = if ranOut left then act s else s := by rfl)
    (row : exec c s = .next (if s.running then g s else s) := by rfl) : exec c s = .next s := by
  rcases idle with starting | left
  · exact exec_starting g starting row
  · rw [row, expires, if_neg (fun out => left ((ranOut_iff _).1 out)), ite_self]

/-- Settles O18. -/
theorem lossLockoutAndPrimingExpiry : Obligations.LossLockoutAndPrimingExpiry := by
  intro s
  refine ⟨fun running out => ?_, fun running out => ?_, fun running out => ?_, exec_idle lossTimerOver _,
    exec_idle lockoutOver _, exec_idle primingOver openPriming⟩
  · rw [exec_running lossTimerOver running, lossTimerOver, if_pos ((ranOut_iff _).2 out)]
  · rw [exec_running lockoutOver running, lockoutOver, if_pos ((ranOut_iff _).2 out)]
  · rw [exec_running primingOver running, primingOver, if_pos ((ranOut_iff _).2 out)]
    rfl

end Sys2Proof.Machine
end

