-- ==== Sys2Proof/Proofs/Marks.lean ====
section
/-! PROOFS. O19: a mark applied, TIME cells and SET CLOCK (R41 to R46, R49). -/

namespace Sys2Proof.Machine

set_option Elab.async false

variable {K : Special → Prop}

/-! ## What a mark leaves (R42 to R46) -/

/-- The parts that a mark leaves, and the clock that it makes but for what its boundary counts. -/
theorem around_of_a_mark {m : Mark} {s : State} (hm : m.value < 2 ^ 42) (hn : s.clock.n < 2 ^ 42) :
    (isStep m s.clock → AroundBoundary (steppedTo m s) (applyMark m s)) ∧
    (¬ isStep m s.clock → AroundBoundary (slewedTo m s) (applyMark m s)) := by
  refine ⟨fun step => (boundary_of_a_step hm hn step).around, fun slew => ?_⟩
  by_cases same : m.offset = s.clock.offset
  · rw [applyMark_slew hm hn slew, if_pos same]
    exact .refl _
  · exact (boundary_of_an_offset hm hn slew same).around

/-- A step raises CLOCK STEPPED (R45). -/
theorem noticeSet_step {m : Mark} {s : State} (hm : m.value < 2 ^ 42) (hn : s.clock.n < 2 ^ 42)
    (step : isStep m s.clock) : noticeSet .clockStepped (applyMark m s) = true := by
  have clock : (raise .clockStepped (steppedTo m s)).clock = (steppedTo m s).clock :=
    (congrArg State.clock (untriggered_raise .clockStepped (steppedTo m s)) :)
  have set : (raise .clockStepped (steppedTo m s)).clock.state ≠ .unset := by
    rw [clock]; exact fun unset => ClockState.noConfusion unset
  rw [applyMark_step hm hn step, evaluateBoundary_set set]
  have second := (secondMade_secondBoundary true (raise .clockStepped (steppedTo m s))).stage
  exact (stage_dayRollover _).notices _ ((stage_minuteBoundary _).notices _
    (second.notices _ (noticeSet_raise ..)))

theorem around_of_marked {m : Mark} {s t : State} {c : Clock} (around : AroundBoundary { s with clock := afterMark m c } t)
    (source : c.source = s.clock.source) (k : c.k = s.clock.k) (time : c.lossTime = s.clock.lossTime)
    (applied : c.marksApplied = s.clock.marksApplied) :
    t.clock.offset = m.offset ∧ t.clock.state = .set ∧
    t.clock.lossTimer = some (s.clock.lossTime * 128000) ∧ t.clock.marksApplied = bump s.clock.marksApplied ∧
    t.clock.lastSource = some m.source ∧ t.clock.k = s.clock.k ∧ t.clock.source = s.clock.source ∧
    t.front = s.front ∧ t.filter = s.filter ∧ t.assembler = s.assembler ∧ t.acq = s.acq ∧ t.lines = s.lines ∧
    (0 < s.clock.lossTime → exec .lossTimerExpiry t = .next t) := by
  have clock := around.clock
  have timer : t.clock.lossTimer = some (s.clock.lossTime * 128000) := by rw [clock, ← time]; rfl
  refine ⟨by rw [clock]; rfl, by rw [clock]; rfl, timer, by rw [clock, ← applied]; rfl, by rw [clock]; rfl,
    by rw [clock, ← k]; rfl, by rw [clock, ← source]; rfl, around.front, around.filter, around.assembler,
    around.acq, around.lines, fun positive => exec_idle lossTimerOver _ (.inr ?_)⟩
  rw [timer]
  exact fun zero => absurd (Option.some.inj zero) (by omega)

/-- What a mark does (R42 to R46). -/
theorem applyMark_spec {m : Mark} {s : State} (hm : m.value < 2 ^ 42) (hn : s.clock.n < 2 ^ 42) :
    let c := s.clock
    let t := applyMark m s
    let error := signedDifference m.value c.n
    (c.state = .unset ∨ (c.threshold : Int) < |error| →
      t.clock.n = m.value ∧ t.clock.s = 0 ∧ t.clock.stepCount = bump c.stepCount ∧
      t.clock.slews = c.slews ∧ noticeSet .clockStepped t = true) ∧
    (c.state ≠ .unset → |error| ≤ (c.threshold : Int) →
      t.clock.n = c.n ∧ t.clock.s = max (-1024) (min 1024 error) ∧
      t.clock.stepCount = c.stepCount ∧ t.clock.slews = bump c.slews) ∧
    t.clock.offset = m.offset ∧ t.clock.state = .set ∧
    t.clock.lossTimer = some (c.lossTime * 128000) ∧ t.clock.marksApplied = bump c.marksApplied ∧
    t.clock.lastSource = some m.source ∧ t.clock.k = c.k ∧ t.clock.source = c.source ∧
    t.front = s.front ∧ t.filter = s.filter ∧ t.assembler = s.assembler ∧ t.acq = s.acq ∧ t.lines = s.lines ∧
    (0 < c.lossTime → exec .lossTimerExpiry t = .next t) := by
  obtain ⟨stepped, slewed⟩ := around_of_a_mark hm hn
  refine ⟨fun step => ?_, fun set within => ?_, ?_⟩
  · have clock := (stepped step).clock
    exact ⟨by rw [clock]; rfl, by rw [clock]; rfl, by rw [clock]; rfl, by rw [clock]; rfl, noticeSet_step hm hn step⟩
  · have clock := (slewed (not_or.2 ⟨set, not_lt.2 within⟩)).clock
    exact ⟨by rw [clock]; rfl, by rw [clock]; rfl, by rw [clock]; rfl, by rw [clock]; rfl⟩
  · by_cases step : isStep m s.clock
    · exact around_of_marked (stepped step) rfl rfl rfl rfl
    · exact around_of_marked (slewed step) rfl rfl rfl rfl

/-! ## TIME cells and SET CLOCK (R41, R42, R49) -/

theorem readMark_eq (b : Bytes) (source : MarkSource) : readMark b source =
    { value := beNat (b.take 4) * 1024 + min (beNat ((b.drop 4).take 2)) 1023
      fraction := min (beNat ((b.drop 4).take 2)) 1023
      offset := max (-48) (min 56 (byteAt b 6).toInt), source } := rfl

theorem takes_iff (source : TimeSource) (f : Feed) : source.takes f = true ↔
    source = .any ∨ (source = .feed0 ∧ f = .f0) ∨ (source = .feed1 ∧ f = .f1) := by
  cases source <;> cases f <;> decide

theorem timeCell_spec (f : Feed) (payload : Bytes) (s : State) :
    let c := s.clock
    let taken := c.source = .any ∨ (c.source = .feed0 ∧ f = .f0) ∨ (c.source = .feed1 ∧ f = .f1)
    let fraction := min (beNat ((payload.drop 4).take 2)) 1023
    (payload.length < 7 → timeCell f payload s = { s with clock := { c with shortCells := bump c.shortCells } }) ∧
    (7 ≤ payload.length → ¬ taken →
      timeCell f payload s = { s with clock := { c with marksIgnored := bump c.marksIgnored } }) ∧
    (7 ≤ payload.length → taken → timeCell f payload s = applyMark
      { value := beNat (payload.take 4) * 1024 + fraction, fraction
        offset := max (-48) (min 56 (byteAt payload 6).toInt)
        source := match f with | .f0 => .f0 | .f1 => .f1 } s) := by
  refine ⟨fun short => if_pos short, fun whole other => ?_, fun whole taken => ?_⟩
  all_goals unfold timeCell; rw [if_neg (Nat.not_lt.2 whole)]
  · exact if_neg fun takes => other ((takes_iff ..).1 takes)
  · rw [if_pos ((takes_iff ..).2 taken), readMark_eq]
    cases f <;> rfl

/-- Settles O19. -/
theorem marksAndSetClock : Obligations.MarksAndSetClock := by
  refine ⟨fun m s hm hn => applyMark_spec hm hn, timeCell_spec, fun tag params s taken => ?_⟩
  have free := taken.notReserved
  refine ⟨fun short => exec_answered taken ?_, fun whole other => exec_answered taken ?_, fun whole command => ?_⟩
  · unfold actSetClock
    rw [if_neg (by rw [carries_iff]; exact Nat.not_le.2 short)]
    exact badParameter_reserve free _
  · unfold actSetClock
    rw [if_pos ((carries_iff ..).2 whole)]
    exact (if_neg other).trans (refuse_reserve free ..)
  · refine ⟨_, exec_taken taken, ?_⟩
    have act : actSetClock ⟨tag, 0x25#8, params⟩ (reserve s) =
        answer ⟨tag, 0x25#8, params⟩ .done (setClockResults (readMark params .command) s.clock
          (applyMark (readMark params .command) (reserve s)).clock)
          (applyMark (readMark params .command) (reserve s)) := by
      unfold actSetClock
      rw [if_pos ((carries_iff ..).2 whole)]
      exact if_pos command
    rw [act]
    exact ⟨rfl, rfl, lastReply_answer ..⟩

end Sys2Proof.Machine
end

