-- ==== Sys2Proof/Proofs/ReturnPath.lean ====
section
/-! PROOFS. O25: COLLECT and the return transmitter (R139, R141 to R144). -/

namespace Sys2Proof.Machine

set_option Elab.async false

variable {K : Special → Prop}

/-! ## The return transmitter (R139, R141 to R144) -/

theorem handOver_none {s : State} (empty : s.purchase.returnQueue = []) : handOver s =
    { s with purchase := { s.purchase with tx := .idle, attempts := 0, waitTimer := none } } := by
  unfold handOver; rw [empty]

theorem handOver_some {s : State} {cell : Bytes} (head : s.purchase.returnQueue.head? = some cell) :
    handOver s = { s with
      purchase := { s.purchase with tx := .sending, attempts := 0, waitTimer := none }
      lines := { s.lines with onU := some cell } } := by
  obtain ⟨rest, queue⟩ := List.head?_eq_some_iff.1 head
  unfold handOver; rw [queue]

theorem groupCount (rs : List PurchaseRecord) :
    max 1 ((rs.length + 3) / 4) = if rs = [] then 1 else (rs.length + 3) / 4 := by
  split
  · rename_i none; subst none; rfl
  · rename_i some
    have := List.length_pos_iff.2 some
    omega

/-- COLLECT of an empty queue, with the queue it fills. -/
theorem collect_taken {s : State} (empty : s.purchase.returnQueue = []) :
    let cells := (reportGroups (s.purchase.records.filter (fun r => r.state = .committed))).map
      (returnCell s.command.unitAddress)
    collect [] s = { s with
      purchase := { s.purchase with returnQueue := cells, tx := .sending, attempts := 0, waitTimer := none }
      lines := { s.lines with onU := cells.head? } } := by
  intro cells
  have run : collect [] s = handOver { s with purchase := { s.purchase with returnQueue := cells } } := by
    unfold collect
    rw [if_neg (by decide), if_neg (by rw [empty]; exact fun h => h rfl)]
  obtain ⟨cell, head⟩ : ∃ cell, cells.head? = some cell := by
    have count : 0 < cells.length := by
      rw [List.length_map, length_reportGroups]
      exact Nat.lt_of_lt_of_le Nat.one_pos (Nat.le_max_left ..)
    exact ⟨cells[0], List.head?_eq_getElem? ▸ List.getElem?_eq_getElem count⟩
  rw [run, handOver_some (s := { s with purchase := { s.purchase with returnQueue := cells } }) head, head]

/-- What COLLECT does (R139, R141). -/
theorem collect_spec (params : Bytes) (s : State) :
    let p := s.purchase
    let rs := p.records.filter (fun r => r.state = .committed)
    let t := collect params s
    (params.length ≠ 0 → t = { s with purchase := { p with malformed := bump p.malformed } }) ∧
    (params = [] → p.returnQueue ≠ [] →
      t = { s with purchase := { p with ignoredCollects := bump p.ignoredCollects } }) ∧
    (params = [] → p.returnQueue = [] →
      t = { s with
        purchase := { p with returnQueue := t.purchase.returnQueue, tx := .sending, attempts := 0, waitTimer := none }
        lines := { s.lines with onU := t.purchase.returnQueue.head? } } ∧
      t.purchase.returnQueue.length = (if rs = [] then 1 else (rs.length + 3) / 4) ∧
      ∀ i < t.purchase.returnQueue.length,
        let group := (rs.drop (4 * i)).take 4
        let body := beBytes 4 s.command.unitAddress ++ [1#8] ++ beBytes 1 group.length ++
          group.flatMap (fun r => beBytes 4 r.seq ++ beBytes 2 r.eventId ++ beBytes 2 r.channel ++
            beBytes 2 r.price ++ beBytes 4 r.time) ++ List.replicate (56 - 14 * group.length) 0#8
        t.purchase.returnQueue[i]? = some (body ++ beBytes 2 (crc16 body).toNat)) := by
  refine ⟨fun wrong => if_pos wrong, fun right held => ?_, fun right empty => ?_⟩
  · subst right
    exact (if_neg (by decide)).trans (if_pos held)
  · subst right
    rw [collect_taken empty]
    refine ⟨rfl, (List.length_map ..).trans ((length_reportGroups _).trans (groupCount _)), fun i hi => ?_⟩
    rw [List.length_map, length_reportGroups] at hi
    dsimp only
    rw [List.getElem?_map, reportGroups, List.getElem?_map, List.getElem?_range hi]
    rfl

/-- What the transmitter's rows do in their states (R142, R143). -/
theorem transmitter_spec {s : State} (running : s.running = true) :
    let p := s.purchase
    (p.tx = .sending → p.returnQueue.tail = [] → exec .sentPulse s = .next
      { s with purchase := { p with
          sent := bump p.sent, returnQueue := [], tx := .idle, attempts := 0, waitTimer := none } }) ∧
    (∀ next, p.tx = .sending → p.returnQueue.tail.head? = some next → exec .sentPulse s = .next
      { s with
        purchase := { p with
          sent := bump p.sent, returnQueue := p.returnQueue.tail, tx := .sending, attempts := 0,
          waitTimer := none }
        lines := { s.lines with onU := some next } }) ∧
    (p.tx = .sending → p.attempts + 1 < 8 → exec .collidedPulse s = .next
      { s with purchase := { p with
          tx := .waiting, attempts := p.attempts + 1
          waitTimer := some ((1 + s.command.unitAddress % 8) * 2 ^ p.attempts * 2 * 128) } }) ∧
    (p.tx = .sending → 8 ≤ p.attempts + 1 → ∃ t, exec .collidedPulse s = .next t ∧
      t.purchase.returnQueue = p.returnQueue.tail ∧ t.purchase.dropped = bump p.dropped ∧
      t.purchase.attempts = 0 ∧ t.purchase.waitTimer = none ∧
      t.purchase.tx = (if p.returnQueue.tail = [] then .idle else .sending) ∧
      t.purchase.records = p.records ∧ t.purchase.debt = p.debt ∧ noticeSet .returnFailed t = true ∧
      untriggered { t with purchase := p, lines := s.lines } = untriggered s) ∧
    (p.waitTimer = some 0 → exec .returnWaitExpiry s = .next
      { s with purchase := { p with tx := .sending, waitTimer := none }
               lines := { s.lines with onU := p.returnQueue.head? } }) ∧
    (p.waitTimer ≠ some 0 → exec .returnWaitExpiry s = .next s) := by
  have sent : exec .sentPulse s = .next (sentPulse s) := exec_running sentPulse running
  have collided : exec .collidedPulse s = .next (collidedPulse s) := exec_running collidedPulse running
  rw [sent, collided]
  refine ⟨fun sending last => ?_, fun next sending follows => ?_, fun sending few => ?_, fun sending eighth => ?_,
    fun out => ?_, fun waits => exec_idle returnWaitOver _ (.inr waits)⟩
  · rw [sentPulse, if_pos sending, handOver_none (by exact last)]
    unfold dropHead
    rw [last]
  · rw [sentPulse, if_pos sending, handOver_some (by exact follows)]
    rfl
  · rw [collidedPulse, if_pos sending, if_pos few]
    unfold startWait backoffSlots msTicks
    rw [Nat.add_sub_cancel, Nat.mul_comm 2]
  · rw [collidedPulse, if_pos sending, if_neg (Nat.not_lt.2 eighth)]
    refine ⟨_, rfl, ?_⟩
    unfold dropReturnCell
    generalize dropped : dropHead { s with purchase := { s.purchase with dropped := bump s.purchase.dropped } } = u
    have behind := untriggered_raise .returnFailed u
    have purchase : (raise .returnFailed u).purchase = u.purchase := (congrArg State.purchase behind :)
    have lines : (raise .returnFailed u).lines = u.lines := (congrArg State.lines behind :)
    have raised : noticeSet .returnFailed (raise .returnFailed u) = true := noticeSet_raise ..
    have kept : untriggered { raise .returnFailed u with purchase := s.purchase, lines := s.lines } =
        untriggered s := by
      have moved := congrArg (fun x : State => { x with purchase := s.purchase, lines := s.lines }) behind
      exact moved.trans (by subst dropped; rfl)
    cases queue : s.purchase.returnQueue.tail with
    | nil =>
      have empty : (raise .returnFailed u).purchase.returnQueue = [] := by rw [purchase, ← dropped]; exact queue
      rw [handOver_none empty]
      refine ⟨empty, ?_, rfl, rfl, rfl, ?_, ?_, raised, kept⟩
      all_goals rw [purchase, ← dropped]; rfl
    | cons cell rest =>
      have held : (raise .returnFailed u).purchase.returnQueue = cell :: rest := by
        rw [purchase, ← dropped]; exact queue
      rw [handOver_some (by rw [held]; rfl)]
      refine ⟨held, ?_, rfl, rfl, rfl, ?_, ?_, raised, kept⟩
      all_goals rw [purchase, ← dropped]; rfl
  · rw [exec_running returnWaitOver running, returnWaitOver, if_pos ((ranOut_iff _).2 out)]

/-- Settles O25. -/
theorem returnTransmitterOutcomes : Obligations.ReturnTransmitterOutcomes :=
  ⟨collect_spec, fun _ running => transmitter_spec running⟩

end Sys2Proof.Machine
end

