-- ==== Sys2Proof/Proofs/MeterSecond.lean ====
section
/-! PROOFS. O23: a second of allowance (R161, R162). -/

namespace Sys2Proof.Machine

set_option Elab.async false

variable {K : Special → Prop}

/-! ## A second of allowance (R161, R162) -/

theorem setProfile_frame (l : Limits) (p : Fin 4) (x : Profile) :
    (setProfile l p x).part = l.part ∧ (setProfile l p x).pin = l.pin ∧
    (setProfile l p x).attempts = l.attempts ∧ (setProfile l p x).lockout = l.lockout :=
  match p with
  | 0 | 1 | 2 | 3 => ⟨rfl, rfl, rfl, rfl⟩

/-- A state that stands behind the decisions as s does after a second of allowance. -/
theorem spent_of_untriggered {s t : State} (active : s.limits.active ≠ 0)
    (same : untriggered t = untriggered { s with limits := spendSecond s.limits }) :
    (activeProfile t).remaining = (activeProfile s).remaining - 1 ∧ t.limits.part = 0 ∧
    (∀ p, p ≠ s.limits.active → profileOf t.limits p = profileOf s.limits p) ∧
    t.limits.active = s.limits.active ∧ t.limits.pin = s.limits.pin ∧
    t.limits.attempts = s.limits.attempts ∧ t.limits.lockout = s.limits.lockout ∧
    untriggered { t with limits := s.limits } = untriggered s := by
  obtain ⟨part, pin, attempts, lockout⟩ := setProfile_frame { s.limits with part := 0 } s.limits.active
    { profileOf s.limits s.limits.active with remaining := (activeProfile s).remaining - 1 }
  have profiles (p : Fin 4) : profileOf t.limits p = profileOf (spendSecond s.limits) p :=
    (congrArg (fun x : State => profileOf x.limits p) same :)
  refine ⟨?_, (congrArg (fun x : State => x.limits.part) same :).trans part, fun p other => ?_,
    (congrArg (fun x : State => x.limits.active) same :).trans (active_setProfile ..),
    (congrArg (fun x : State => x.limits.pin) same :).trans pin,
    (congrArg (fun x : State => x.limits.attempts) same :).trans attempts,
    (congrArg (fun x : State => x.limits.lockout) same :).trans lockout,
    (congrArg (fun x : State => { x with limits := { s.limits with running := false } }) same :)⟩
  · rw [activeProfile_of_untriggered same, activeProfile_spendSecond active]
  · rw [profiles]
    exact profileOf_setProfile_other other ..

theorem meterDue_iff (s : State) : meterDue s = true ↔ s.limits.running = true ∧
    (128000 ≤ s.limits.part ∨ 128000 ≤ s.limits.part + 125 ∧ s.lines.resetAsserted = false ∧
      s.clock.state ≠ .unset ∧ nextNetworkTime s.clock / 1024 ≠ s.clock.n / 1024 ∧
      s.clock.creditedDay <
        (((nextNetworkTime s.clock / 1024 : Nat) : Int) + s.clock.offset * 900).toNat / 86400) := by
  have counts := counted_eq_advanced s.clock
  have next : nextNetworkTime s.clock = s.clock.advanced.n := congrArg Clock.n counts
  have comes : rolloverComes s = true ↔ s.lines.resetAsserted = false ∧
      s.clock.state ≠ .unset ∧ nextNetworkTime s.clock / 1024 ≠ s.clock.n / 1024 ∧
      s.clock.creditedDay <
        (((nextNetworkTime s.clock / 1024 : Nat) : Int) + s.clock.offset * 900).toNat / 86400 := by
    rw [next]
    unfold rolloverComes
    simp only [Bool.and_eq_true, Bool.not_eq_true', decide_eq_true_eq, and_assoc]
    rfl
  unfold meterDue secondTicks advanceTicks
  simp only [Bool.and_eq_true, Bool.or_eq_true, decide_eq_true_eq, comes]

/-- Settles O23. -/
theorem meterSecondSpendsAllowance : Obligations.MeterSecondSpendsAllowance := by
  intro s running
  have row : exec .meterSecond s = .next (meterSecond s) := exec_running meterSecond running
  rw [row]
  refine ⟨fun idle => ?_, fun runs due active => ⟨_, rfl, ?_⟩⟩
  · have notDue : ¬ meterDue s = true := by
      rw [meterDue_iff]
      rintro ⟨runs, due⟩
      exact idle.elim (fun stopped => absurd (stopped.symm.trans runs) nofun) fun early => early due
    rw [meterSecond, if_neg notDue]
  · have spends : meterDue s = true := (meterDue_iff s).2 ⟨runs, due⟩
    unfold meterSecond
    rw [if_pos spends]
    dsimp only
    by_cases gone : (activeProfile { s with limits := spendSecond s.limits }).remaining = 0
    · rw [if_pos gone]
      generalize spent : { s with limits := spendSecond s.limits } = u at gone ⊢
      have same : untriggered (trigger (raise .limit (evaluateMeter u))) = untriggered u := by
        rw [untriggered_trigger, untriggered_raise, untriggered_evaluateMeter]
      have context : (raise .limit (evaluateMeter u)).output.context = s.output.context := by
        rw [context_raise, context_evaluateMeter, ← spent]
      obtain ⟨remaining, part, profiles, act, pin, attempts, lockout, others⟩ :=
        spent_of_untriggered active (same.trans (by rw [spent]))
      have none : (activeProfile (trigger (raise .limit (evaluateMeter u)))).remaining = 0 := by
        rw [activeProfile_of_untriggered same, gone]
      have law : MeterLaw (trigger (raise .limit (evaluateMeter u))) := ((meterLaw_evaluateMeter u).raise _).trigger
      refine ⟨remaining, part, profiles, act, pin, attempts, lockout, fun _ => ⟨?_, fun c hc => ?_⟩, fun _ => ?_,
        fun some => absurd none some, others⟩
      · refine law.trans (Bool.eq_false_iff.2 fun may => ?_)
        obtain ⟨_, _, _, left⟩ := (meterMayRun_iff _).1 may
        exact absurd none (Nat.ne_of_gt left)
      · exact redecided_trigger _ c (context.trans hc)
      · exact noticeSet_trigger_of_set (noticeSet_raise ..)
    · rw [if_neg gone]
      have runsOn : (spendSecond s.limits).running = true := (running_setProfile ..).trans runs
      split
      · rename_i warned
        have same := untriggered_raise .limit { s with limits := spendSecond s.limits }
        obtain ⟨remaining, part, profiles, act, pin, attempts, lockout, others⟩ := spent_of_untriggered active same
        have left := congrArg Profile.remaining (activeProfile_of_untriggered same)
        exact ⟨remaining, part, profiles, act, pin, attempts, lockout, fun none => absurd (left.symm.trans none) gone,
          fun _ => noticeSet_raise .., fun _ => ⟨(running_raise ..).trans runsOn, context_raise ..⟩, others⟩
      · rename_i quiet
        obtain ⟨remaining, part, profiles, act, pin, attempts, lockout, others⟩ := spent_of_untriggered active rfl
        exact ⟨remaining, part, profiles, act, pin, attempts, lockout, fun none => absurd none gone,
          fun warns => absurd warns (not_or.2 ⟨gone, quiet⟩), fun _ => ⟨runsOn, rfl⟩, others⟩

end Sys2Proof.Machine
end

