-- ==== Sys2Proof/Proofs/GuideCommands.lean ====
section
/-! PROOFS. O39: CHANNEL READ, GUIDE SEARCH and GUIDE READ (R75, R78, R84). -/

namespace Sys2Proof.Machine

set_option Elab.async false

variable {K : Special → Prop}

/-! ## CHANNEL READ, GUIDE SEARCH and GUIDE READ (R75, R78, R84) -/

theorem answerEntry_some {s : State} (free : s.command.reserved = false) {found : Option ChannelEntry}
    {e : ChannelEntry} (held : found = some e) (c : CommandCell) (missing : ReplyOutcome) :
    answerEntry c found missing (reserve s) = replied c.tag c.code .done (channelResults s e) s := by
  subst held
  exact answer_reserve free ..

theorem answerEntry_none {s : State} (free : s.command.reserved = false) {found : Option ChannelEntry}
    (held : found = none) (c : CommandCell) (missing : ReplyOutcome) : answerEntry c found missing (reserve s) =
      replied c.tag c.code missing (beBytes 2 s.guide.channels.length) s := by
  subst held
  exact answer_reserve free ..

theorem actChannelRead_bad {c : CommandCell} (bad : c.params.length < 3 ∨ 2 ≤ c.number 0 1) (s : State) :
    actChannelRead c s = badParameter c s := by
  unfold actChannelRead
  by_cases carries : c.carries 3 = true
  · have whole := (carries_iff ..).1 carries
    have high := bad.resolve_left (Nat.not_lt.2 whole)
    rw [if_pos carries]
    split
    · omega
    · omega
    · rfl
  · exact if_neg carries

theorem actChannelRead_of {c : CommandCell} (whole : 3 ≤ c.params.length) (s : State) :
    (c.number 0 1 = 0 → actChannelRead c s = answerEntry c (entryOf s.guide (c.number 1 2)) .unknownChannel s) ∧
    (c.number 0 1 = 1 → actChannelRead c s = answerEntry c (entryAfter s.guide (c.number 1 2)) .endOfMap s) := by
  unfold actChannelRead
  rw [if_pos ((carries_iff ..).2 whole)]
  exact ⟨fun this => by rw [this]; rfl, fun next => by rw [next]; rfl⟩

theorem channelReads {tag : Byte} {params : Bytes} {s : State} (taken : takesAtOnce s) :
    let n := beNat ((params.drop 1).take 2)
    let held := beBytes 2 s.guide.channels.length
    (params.length < 3 ∨ 2 ≤ beNat (params.take 1) →
      exec (.channelRead tag params) s = .next (replied tag 0x20#8 .badParameter [] s)) ∧
    (3 ≤ params.length → beNat (params.take 1) = 0 →
      (∀ e, entryOf s.guide n = some e → exec (.channelRead tag params) s = .next
        (replied tag 0x20#8 .done (channelResults s e) s)) ∧
      (entryOf s.guide n = none → exec (.channelRead tag params) s = .next
        (replied tag 0x20#8 .unknownChannel held s))) ∧
    (3 ≤ params.length → beNat (params.take 1) = 1 →
      (∀ e, s.guide.channels.find? (fun x => n < x.number) = some e →
        exec (.channelRead tag params) s = .next (replied tag 0x20#8 .done (channelResults s e) s)) ∧
      ((∀ x ∈ s.guide.channels, x.number ≤ n) → exec (.channelRead tag params) s = .next
        (replied tag 0x20#8 .endOfMap held s))) := by
  have free := taken.notReserved
  refine ⟨fun bad => ?_, fun whole this => ?_, fun whole next => ?_⟩
  · exact exec_answered taken ((actChannelRead_bad bad _).trans (badParameter_reserve free _))
  · have acted := (actChannelRead_of (c := ⟨tag, 0x20#8, params⟩) whole (reserve s)).1 this
    exact ⟨fun e held => exec_answered taken (acted.trans (answerEntry_some free held ..)),
      fun none => exec_answered taken (acted.trans (answerEntry_none free none ..))⟩
  · have acted := (actChannelRead_of (c := ⟨tag, 0x20#8, params⟩) whole (reserve s)).2 next
    refine ⟨fun e held => exec_answered taken (acted.trans (answerEntry_some free held ..)),
      fun above => exec_answered taken (acted.trans (answerEntry_none free ?_ ..))⟩
    exact List.find?_eq_none.2 fun x hx after => Nat.not_lt.2 (above x hx) (of_decide_eq_true after)

theorem good_iff (q : SearchParams) :
    q.good = true ↔ q.field ≤ 4 ∧ q.comparison ≤ 2 ∧ (q.step = 1 ∨ q.step = 2) ∧ q.skip ≤ 1 := by
  simp [SearchParams.good, and_assoc]

theorem guideSearches {tag : Byte} {params : Bytes} {s : State} (taken : takesAtOnce s) :
    let q := readSearch ⟨tag, 0x21#8, params⟩
    let good := 14 ≤ params.length ∧ q.field ≤ 4 ∧ q.comparison ≤ 2 ∧ (q.step = 1 ∨ q.step = 2) ∧ q.skip ≤ 1
    (¬ good → exec (.guideSearch tag params) s = .next (replied tag 0x21#8 .badParameter [] s)) ∧
    (good → exec (.guideSearch tag params) s = .next (replied tag 0x21#8 (searchEnd s.guide q).outcome
      (searchResults s.guide q (searchEnd s.guide q)) s)) := by
  have free := taken.notReserved
  have checks : ((CommandCell.mk tag 0x21#8 params).carries 14 &&
      (readSearch ⟨tag, 0x21#8, params⟩).good) = true ↔ 14 ≤ params.length ∧
        (readSearch ⟨tag, 0x21#8, params⟩).field ≤ 4 ∧ (readSearch ⟨tag, 0x21#8, params⟩).comparison ≤ 2 ∧
        ((readSearch ⟨tag, 0x21#8, params⟩).step = 1 ∨ (readSearch ⟨tag, 0x21#8, params⟩).step = 2) ∧
        (readSearch ⟨tag, 0x21#8, params⟩).skip ≤ 1 := by
    rw [Bool.and_eq_true, good_iff, carries_iff]
  refine ⟨fun bad => exec_answered taken ?_, fun good => exec_answered taken ?_⟩
  · rw [actGuideSearch, if_neg (fun pass => bad (checks.1 pass))]
    exact badParameter_reserve free _
  · rw [actGuideSearch, if_pos (checks.2 good)]
    exact answer_reserve free ..

theorem cells_fit {k n : Nat} (room : 0 < n) (fits : k - 1 ≤ n - 1) : k ≤ n := by omega

theorem actGuideRead_of {c : CommandCell} (s : State) :
    (c.params.length < 5 ∨ c.number 4 1 = 0 ∨ 4 < c.number 4 1 → actGuideRead c s = badParameter c s) ∧
    (5 ≤ c.params.length → 1 ≤ c.number 4 1 → c.number 4 1 ≤ 4 →
      actGuideRead c s = readGuide c (c.number 0 2) (c.number 2 2) (c.number 4 1) s) := by
  have checks : (c.carries 5 && 1 ≤ c.number 4 1 && c.number 4 1 ≤ 4) = true ↔
      5 ≤ c.params.length ∧ 1 ≤ c.number 4 1 ∧ c.number 4 1 ≤ 4 := by
    simp [carries_iff, and_assoc]
  refine ⟨fun bad => if_neg fun pass => ?_, fun whole one four => if_pos (checks.2 ⟨whole, one, four⟩)⟩
  obtain ⟨whole, one, four⟩ := checks.1 pass
  omega

theorem guideReads {tag : Byte} {params : Bytes} {s : State} (taken : takesAtOnce s) :
    let c := beNat (params.take 2)
    let i := beNat ((params.drop 2).take 2)
    let k := beNat ((params.drop 4).take 1)
    let es := s.guide.events.filter (fun e => e.channel = c)
    let cells := replyCells tag 0x22#8 .done (readResults es i k)
    (params.length < 5 ∨ k = 0 ∨ 4 < k →
       exec (.guideRead tag params) s = .next (replied tag 0x22#8 .badParameter [] s)) ∧
    (5 ≤ params.length → 1 ≤ k → k ≤ 4 →
       (es = [] → entryOf s.guide c = none →
         exec (.guideRead tag params) s = .next (replied tag 0x22#8 .unknownChannel [] s)) ∧
       (es = [] → (entryOf s.guide c).isSome = true →
         exec (.guideRead tag params) s = .next (replied tag 0x22#8 .empty (beBytes 2 0) s)) ∧
       (es ≠ [] → es.length ≤ i → exec (.guideRead tag params) s = .next
         (replied tag 0x22#8 .endOfList (beBytes 2 es.length) s)) ∧
       (i < es.length → cells.length ≤ freeEntries s →
         exec (.guideRead tag params) s = .next (placeCells cells s)) ∧
       (i < es.length → freeEntries s < cells.length → exec (.guideRead tag params) s = .next
         { s with command := { s.command with reserved := true, heldReply := some cells } })) := by
  have free := taken.notReserved
  have room := taken.free
  refine ⟨fun bad => exec_answered taken (((actGuideRead_of _).1 bad).trans (badParameter_reserve free _)),
    fun whole one four => ?_⟩
  have acted := (actGuideRead_of (c := ⟨tag, 0x22#8, params⟩) (reserve s)).2 whole one four
  unfold readGuide at acted
  have long {i : Nat} {es : List EventRecord} (some : i < es.length) : es ≠ [] ∧ ¬ es.length ≤ i :=
    ⟨List.length_pos_iff.1 (Nat.zero_lt_of_lt some), Nat.not_le.2 some⟩
  refine ⟨fun none unknown => ?_, fun none known => ?_, fun some past => ?_, fun held fits => ?_, fun held waits => ?_⟩
  · refine exec_answered taken (acted.trans ((if_pos none).trans ((if_neg ?_).trans (refuse_reserve free ..))))
    exact fun known => absurd (known.symm.trans (congrArg Option.isSome unknown)) nofun
  · exact exec_answered taken (acted.trans ((if_pos none).trans ((if_pos known).trans (answer_reserve free ..))))
  · exact exec_answered taken (acted.trans ((if_neg some).trans ((if_pos past).trans (answer_reserve free ..))))
  · obtain ⟨some, inside⟩ := long held
    refine exec_answered taken (acted.trans ((if_neg some).trans ((if_neg inside).trans
      ((answerLong_reserve free ..).trans (if_pos ?_)))))
    exact Nat.sub_le_sub_right fits 1
  · obtain ⟨some, inside⟩ := long held
    refine exec_answered taken (acted.trans ((if_neg some).trans ((if_neg inside).trans
      ((answerLong_reserve free ..).trans (if_neg ?_)))))
    exact fun fits => Nat.not_lt.2 (cells_fit room fits) waits

/-- Settles O39. -/
theorem guideCommandsRead : Obligations.GuideCommandsRead := by
  intro tag params s taken
  obtain ⟨bad, this, next⟩ := channelReads (tag := tag) (params := params) taken
  exact ⟨bad, this, next, guideSearches taken, guideReads taken⟩

end Sys2Proof.Machine
end

