-- ==== Sys2Proof/Proofs/GuideSearch.lean ====
section
/-! PROOFS. O40: what a GUIDE SEARCH finds (R80). -/

namespace Sys2Proof.Machine

set_option Elab.async false

variable {K : Special → Prop}

/-! ## The walk of a GUIDE SEARCH (R80) -/

/-- A record that the walk passes over: withdrawn, with withdrawn ones passed over, or one without the property
asked for (R80). -/
def passedOver (q : SearchParams) (e : EventRecord) : Prop :=
  (e.withdrawn = true ∧ q.skip = 1) ∨ (e.withdrawn = false ∧ e.satisfies q = false)

/-- What a walk that ends with a HIT, or at a withdrawn record, has found; and how far it has come (R80). -/
structure Found (es : List EventRecord) (q : SearchParams) (i examined : Nat) (x : SearchEnd) : Prop where
  hit : x.outcome = .hit → ∃ j e, x.index = i + j * q.step ∧ x.index ≤ q.last ∧ es[x.index]? = some e ∧ e.id = x.id ∧
    e.withdrawn = false ∧ e.satisfies q = true ∧ x.examined = examined + j + 1 ∧
    ∀ k < j, ∃ e', es[i + k * q.step]? = some e' ∧ passedOver q e'
  withdrawn : x.outcome = .withdrawn → q.skip = 0 ∧ ∃ e, es[x.index]? = some e ∧ e.id = x.id ∧ e.withdrawn = true
  bound : examined ≤ 256 → x.examined ≤ 256

/-- A search that ends otherwise has found nothing. -/
theorem Found.of_other {es : List EventRecord} {q : SearchParams} {i examined : Nat} {x : SearchEnd}
    (hit : x.outcome ≠ .hit) (withdrawn : x.outcome ≠ .withdrawn) (bound : examined ≤ 256 → x.examined ≤ 256) :
    Found es q i examined x := ⟨fun h => absurd h hit, fun h => absurd h withdrawn, bound⟩

/-- A record that ends no walk is passed over. -/
theorem passedOver_of {q : SearchParams} {e : EventRecord} (skip : q.skip ≤ 1)
    (stays : ¬ (e.withdrawn && q.skip = 0) = true) (misses : ¬ (!e.withdrawn && e.satisfies q) = true) :
    passedOver q e := by
  unfold passedOver
  cases withdrawn : e.withdrawn with
  | true =>
    rw [withdrawn] at stays
    simp only [Bool.true_and, decide_eq_true_eq] at stays
    exact .inl ⟨rfl, by omega⟩
  | false =>
    rw [withdrawn] at misses
    exact .inr ⟨rfl, by simpa using misses⟩

theorem found_walk {es : List EventRecord} {q : SearchParams} (skip : q.skip ≤ 1) (fuel i examined : Nat)
    (seen : Bool) : Found es q i examined (walk es q fuel i examined seen) := by
  fun_induction walk es q fuel i examined seen with
  | case1 => exact .of_other nofun nofun id
  | case2 => exact .of_other nofun nofun id
  | case3 => exact .of_other nofun nofun id
  | case4 => exact .of_other nofun nofun fun _ => Nat.le_refl _
  | case5 fuel i examined seen inside e held more withdrawn =>
    obtain ⟨gone, none⟩ := (Bool.and_eq_true ..).mp withdrawn
    exact ⟨nofun, fun _ => ⟨of_decide_eq_true none, e, held, rfl, gone⟩, fun h => by dsimp only; omega⟩
  | case6 fuel i examined seen inside e held more stays hit =>
    obtain ⟨there, satisfies⟩ := (Bool.and_eq_true ..).mp hit
    exact ⟨fun _ => ⟨0, e, (by simp), Nat.not_lt.1 inside, held, rfl, (by simpa using there), satisfies, rfl, nofun⟩,
      nofun, fun h => by dsimp only; omega⟩
  | case7 => exact .of_other nofun nofun fun h => by dsimp only; omega
  | case8 fuel i examined seen inside e held more stays misses onward ih =>
    refine ⟨fun hit => ?_, ih.withdrawn, fun h => ih.bound (by omega)⟩
    obtain ⟨j, found, index, last, held', id, there, satisfies, count, passed⟩ := ih.hit hit
    refine ⟨j + 1, found, ?_, last, held', id, there, satisfies, by omega, fun k hk => ?_⟩
    · rw [index, Nat.add_mul, Nat.one_mul, Nat.add_assoc, Nat.add_comm q.step]
    · cases k with
      | zero => exact ⟨e, by simpa using held, passedOver_of skip stays misses⟩
      | succ k =>
        obtain ⟨e', held', past⟩ := passed k (by omega)
        exact ⟨e', by rw [← held', Nat.add_mul, Nat.one_mul, Nat.add_comm _ q.step, Nat.add_assoc], past⟩

/-- A walk at a record that it holds (R80). -/
theorem walk_at {es : List EventRecord} {q : SearchParams} {i : Nat} {e : EventRecord} (inside : i ≤ q.last)
    (held : es[i]? = some e) (fuel examined : Nat) (seen : Bool) :
    walk es q (fuel + 1) i examined seen =
      if examined = 256 then ⟨.limit, i, 0, examined, seen⟩
      else if e.withdrawn && q.skip = 0 then ⟨.withdrawn, i, e.id, examined + 1, seen⟩
      else if !e.withdrawn && e.satisfies q then ⟨.hit, i, e.id, examined + 1, seen⟩
      else if i = q.last then ⟨.notSatisfied, 0, 0, examined + 1, seen || e.withdrawn⟩
      else walk es q fuel (i + q.step) (examined + 1) (seen || e.withdrawn) := by
  rw [walk, if_neg (Nat.not_lt.2 inside), held]

theorem stays_of_passedOver {q : SearchParams} {e : EventRecord} (past : passedOver q e) :
    ¬ (e.withdrawn && q.skip = 0) = true ∧ ¬ (!e.withdrawn && e.satisfies q) = true := by
  rcases past with ⟨gone, skips⟩ | ⟨there, misses⟩
  · simp [gone, skips]
  · simp [there, misses]

/-- A walk goes on past a record that it passes over (R80). -/
theorem walk_passes {es : List EventRecord} {q : SearchParams} {i examined fuel : Nat} {seen : Bool} {e : EventRecord}
    (before : i < q.last) (held : es[i]? = some e) (few : examined < 256) (past : passedOver q e) :
    walk es q (fuel + 1) i examined seen = walk es q fuel (i + q.step) (examined + 1) (seen || e.withdrawn) := by
  obtain ⟨stays, misses⟩ := stays_of_passedOver past
  rw [walk_at (Nat.le_of_lt before) held, if_neg (Nat.ne_of_lt few), if_neg stays, if_neg misses,
    if_neg (Nat.ne_of_lt before)]

/-- Whether a withdrawn record stands among the first k visited. -/
def withdrawnAmong (es : List EventRecord) (q : SearchParams) (k : Nat) : Prop :=
  ∃ j < k, ∃ e, es[q.first + j * q.step]? = some e ∧ e.withdrawn = true

theorem withdrawnAmong_succ {es : List EventRecord} {q : SearchParams} {k : Nat} {e : EventRecord}
    (held : es[q.first + k * q.step]? = some e) :
    withdrawnAmong es q (k + 1) ↔ withdrawnAmong es q k ∨ e.withdrawn = true := by
  constructor
  · rintro ⟨j, hj, x, hx, gone⟩
    by_cases earlier : j < k
    · exact .inl ⟨j, earlier, x, hx, gone⟩
    · obtain rfl : j = k := by omega
      exact .inr (Option.some.inj (hx.symm.trans held) ▸ gone)
  · rintro (⟨j, hj, rest⟩ | gone)
    · exact ⟨j, by omega, rest⟩
    · exact ⟨k, by omega, e, held, gone⟩

/-- The walk that has passed over the first k records (R80). -/
theorem walk_after {es : List EventRecord} {q : SearchParams} {k : Nat} (few : k ≤ 256)
    (passed : ∀ j < k, q.first + j * q.step < q.last ∧ ∃ e, es[q.first + j * q.step]? = some e ∧ passedOver q e) :
    ∃ seen, walk es q 257 q.first 0 false = walk es q (257 - k) (q.first + k * q.step) k seen ∧
      (seen = true ↔ withdrawnAmong es q k) := by
  induction k with
  | zero => exact ⟨false, by simp, by simp [withdrawnAmong]⟩
  | succ k ih =>
    obtain ⟨seen, same, withdrawn⟩ := ih (by omega) fun j hj => passed j (by omega)
    obtain ⟨before, e, held, past⟩ := passed k (by omega)
    refine ⟨seen || e.withdrawn, ?_, ?_⟩
    · rw [same, show 257 - k = 257 - (k + 1) + 1 by omega, walk_passes before held (by omega) past,
        Nat.add_mul, Nat.one_mul, Nat.add_assoc]
    · rw [withdrawnAmong_succ held, Bool.or_eq_true, withdrawn]

/-- How a walk ends, with what it has seen withdrawn (R80). -/
def EndsAs (x : SearchEnd) (outcome : ReplyOutcome) (i id examined : Nat) (withdrawn : Prop) : Prop :=
  x.outcome = outcome ∧ x.index = i ∧ x.id = id ∧ x.examined = examined ∧ (x.withdrawnSeen = true ↔ withdrawn)

theorem EndsAs.of_eq {x : SearchEnd} {outcome : ReplyOutcome} {i id examined : Nat} {seen : Bool} {withdrawn : Prop}
    (same : x = ⟨outcome, i, id, examined, seen⟩) (told : seen = true ↔ withdrawn) :
    EndsAs x outcome i id examined withdrawn := by
  subst same
  exact ⟨rfl, rfl, rfl, rfl, told⟩

/-- A walk beyond its range, or the list (R80). -/
theorem walk_missed {es : List EventRecord} {q : SearchParams} {i : Nat} (missed : q.last < i ∨ es.length ≤ i)
    (fuel examined : Nat) (seen : Bool) :
    walk es q (fuel + 1) i examined seen = ⟨.boundMissed, 0, 0, examined, seen⟩ := by
  rw [walk]
  by_cases past : q.last < i
  · exact if_pos past
  · rw [if_neg past, List.getElem?_eq_none (missed.resolve_left past)]

/-- How the walk ends at the record that follows k passed over (R80). -/
theorem walk_ends {es : List EventRecord} {q : SearchParams} {k : Nat} (few : k ≤ 256)
    (passed : ∀ j < k, q.first + j * q.step < q.last ∧ ∃ e, es[q.first + j * q.step]? = some e ∧ passedOver q e) :
    let x := walk es q 257 q.first 0 false
    let index := q.first + k * q.step
    let seen := withdrawnAmong es q
    (q.last < index ∨ es.length ≤ index → EndsAs x .boundMissed 0 0 k (seen k)) ∧
    (k = 256 → index ≤ q.last → index < es.length → EndsAs x .limit index 0 256 (seen k)) ∧
    (∀ e, k < 256 → index ≤ q.last → es[index]? = some e →
      (e.withdrawn = true → q.skip = 0 → EndsAs x .withdrawn index e.id (k + 1) (seen k)) ∧
      (e.withdrawn = false → e.satisfies q = true → EndsAs x .hit index e.id (k + 1) (seen k)) ∧
      (passedOver q e → index = q.last → EndsAs x .notSatisfied 0 0 (k + 1) (seen (k + 1)))) := by
  obtain ⟨seen, same, withdrawn⟩ := walk_after few passed
  rw [show 257 - k = (256 - k) + 1 by omega] at same
  refine ⟨fun missed => .of_eq (same.trans (walk_missed missed ..)) withdrawn, fun full inside held => ?_,
    fun e few inside held => ?_⟩
  · have at_ := same.trans (walk_at inside (List.getElem?_eq_getElem held) ..)
    rw [if_pos full] at at_
    exact .of_eq (full ▸ at_) withdrawn
  · have at_ := same.trans (walk_at inside held ..)
    rw [if_neg (Nat.ne_of_lt few)] at at_
    refine ⟨fun gone stops => .of_eq (at_.trans (if_pos (by simp [gone, stops]))) withdrawn,
      fun there satisfies => .of_eq (at_.trans ((if_neg (by simp [there])).trans
        (if_pos (by simp [there, satisfies])))) withdrawn, fun past last => ?_⟩
    obtain ⟨stays, misses⟩ := stays_of_passedOver past
    refine .of_eq (at_.trans ((if_neg stays).trans ((if_neg misses).trans (if_pos last)))) ?_
    rw [withdrawnAmong_succ held, Bool.or_eq_true, withdrawn]

/-- Settles O40. -/
theorem guideSearchFindsTheFirstHit : Obligations.GuideSearchFindsTheFirstHit := by
  intro g q good
  obtain ⟨_, _, _, skip⟩ := (good_iff q).1 good
  have found : Found (eventsOf g q.channel) q q.first 0 (searchEnd g q) := by
    unfold searchEnd
    dsimp only
    split
    · exact .of_other nofun nofun fun _ => Nat.zero_le _
    · split
      · split <;> exact .of_other nofun nofun fun _ => Nat.zero_le _
      · exact found_walk skip ..
  refine ⟨fun hit => ?_, found.withdrawn, found.bound (Nat.zero_le _), fun empty => if_pos empty,
    fun range none => ?_, fun k few range some passed => ?_⟩
  · obtain ⟨j, e, index, last, held, id, there, satisfies, count, passed⟩ := found.hit hit
    exact ⟨j, e, index, last, held, id, there, satisfies, by omega, passed⟩
  · refine (if_neg (Nat.not_lt.2 range)).trans ((if_pos none).trans ?_)
    split <;> rfl
  · have walked : searchEnd g q = walk (eventsOf g q.channel) q 257 q.first 0 false :=
      (if_neg (Nat.not_lt.2 range)).trans (if_neg some)
    have ends := walk_ends few passed
    rw [← walked] at ends
    exact ends

end Sys2Proof.Machine
end

