-- ==== Sys2Proof/Proofs/Taps.lean ====
section
/-! PROOFS. O41: TAP OPEN and TAP CLOSE (R26, R27). -/

namespace Sys2Proof.Machine

set_option Elab.async false

variable {K : Special → Prop}

/-! ## TAP OPEN and TAP CLOSE (R26, R27) -/

theorem feedOfByte_position (f : Feed) : feedOfByte (feedPosition f) = some f := by cases f <;> rfl

theorem feedOfByte_high {n : Nat} (h : 2 ≤ n) : feedOfByte n = none := by
  unfold feedOfByte
  split <;> first | rfl | omega

theorem addEntry_free {e : FilterEntry} {s : State} (room : s.filter.entries.length < 24)
    (free : entryAt s e.feed e.stream = none) :
    addEntry e s = { s with filter := { s.filter with entries := s.filter.entries ++ [e] } } :=
  if_pos (by rw [free]; simp [room])

/-- A removal of the one entry of a feed and stream (R20, R27). -/
theorem removeEntries_stream {f : Feed} {stream : Nat} {s : State} {e : FilterEntry}
    (held : entryAt s f stream = some e) :
    let here (x : Assembly) : Bool := x.feed = f ∧ x.stream = stream
    removeEntries f (fun e => e.stream = stream) s = { s with
      filter := { s.filter with entries := s.filter.entries.filter (fun e => ¬ (e.feed = f ∧ e.stream = stream)) }
      assembler := { s.assembler with
        buffers := s.assembler.buffers.filter (fun x => !here x)
        abandoned := s.assembler.abandoned.modify f
          (fun n => min (n + s.assembler.buffers.countP here) 65535) } } := by
  intro here
  have isAt := List.find?_some held
  have member := List.mem_of_find?_eq_some held
  simp only [FilterEntry.isAt, Bool.and_eq_true, decide_eq_true_eq] at isAt
  have gone (n : Nat) : (s.filter.entries.filter (fun e => decide (e.feed = f) && decide (e.stream = stream))).any
      (fun e => decide (e.stream = n)) = decide (n = stream) := by
    rw [Bool.eq_iff_iff, List.any_eq_true, decide_eq_true_eq]
    constructor
    · rintro ⟨x, hx, same⟩
      obtain ⟨_, at_⟩ := List.mem_filter.1 hx
      simp only [Bool.and_eq_true, decide_eq_true_eq] at at_ same
      exact same.symm.trans at_.2
    · rintro rfl
      exact ⟨e, List.mem_filter.2 ⟨member, by simp [isAt]⟩, by simp [isAt]⟩
  have on (x : Assembly) : x.isOn f (fun n => decide (n = stream)) = here x := by
    simp [Assembly.isOn, here]
  have kept (e : FilterEntry) : (!(decide (e.feed = f) && decide (e.stream = stream))) =
      decide (¬ (e.feed = f ∧ e.stream = stream)) := by
    rw [decide_not, Bool.decide_and]
  unfold removeEntries abandon
  dsimp only
  rw [funext gone, funext kept]
  simp only [on]
  rfl

section
variable {tag : Byte} {params : Bytes} {s : State} {f : Feed}

theorem actTapOpen_bad {c : CommandCell} {s : State} (bad : c.params.length < 3 ∨ 2 ≤ c.number 0 1 ∨
    c.number 1 2 = 0 ∨ 4093 < c.number 1 2) : actTapOpen c s = badParameter c s := by
  unfold actTapOpen
  split
  · rename_i carries
    have whole := (carries_iff ..).1 carries
    split
    · rfl
    · rename_i f feed
      refine if_neg fun inRange => ?_
      simp only [Bool.and_eq_true, decide_eq_true_eq] at inRange
      rcases bad with short | high | zero | above
      · omega
      · exact absurd (feed.symm.trans (feedOfByte_high high)) nofun
      · omega
      · omega
  · rfl

theorem actTapOpen_of {c : CommandCell} {s : State} {f : Feed} (whole : 3 ≤ c.params.length)
    (feed : c.number 0 1 = feedPosition f) (low : 1 ≤ c.number 1 2) (high : c.number 1 2 ≤ 4093) :
    actTapOpen c s = openTap c f (c.number 1 2) s := by
  unfold actTapOpen
  rw [if_pos ((carries_iff ..).2 whole), feed, feedOfByte_position]
  exact if_pos (by simp [low, high])

theorem actTapClose_of {c : CommandCell} {s : State} {f : Feed} (whole : 3 ≤ c.params.length)
    (feed : c.number 0 1 = feedPosition f) : actTapClose c s = closeTap c f (c.number 1 2) s := by
  unfold actTapClose
  rw [if_pos ((carries_iff ..).2 whole), feed, feedOfByte_position]

/-- What TAP OPEN of a feed and stream answers (R26). -/
theorem openTap_reserve {c : CommandCell} {stream : Nat} (free : s.command.reserved = false) :
    (s.feedPresent f = false → openTap c f stream (reserve s) = replied c.tag c.code .noSecondFeed [] s) ∧
    (s.feedPresent f = true → (stream ≤ 3 ∨ (entryAt s f stream).isSome = true) →
      openTap c f stream (reserve s) = replied c.tag c.code .duplicate [] s) ∧
    (s.feedPresent f = true → 3 < stream → entryAt s f stream = none →
      (8 ≤ tapCount s ∨ 24 ≤ s.filter.entries.length) →
      openTap c f stream (reserve s) = replied c.tag c.code .tableFull [] s) ∧
    (s.feedPresent f = true → 3 < stream → entryAt s f stream = none → tapCount s < 8 →
      s.filter.entries.length < 24 →
      openTap c f stream (reserve s) = replied c.tag c.code .done (one (23 - s.filter.entries.length))
        { s with filter := { s.filter with entries := s.filter.entries ++
          [newEntry f stream .tap .tap (some ⟨c.tag, 0⟩)] } }) := by
  have present : (reserve s).feedPresent f = s.feedPresent f := rfl
  have entry : entryAt (reserve s) f stream = entryAt s f stream := rfl
  have full : (8 ≤ tapCount (reserve s) || freeFilterEntries (reserve s) = 0) = true ↔
      8 ≤ tapCount s ∨ 24 ≤ s.filter.entries.length := by
    rw [Bool.or_eq_true, decide_eq_true_eq, decide_eq_true_eq]
    exact or_congr Iff.rfl Nat.sub_eq_zero_iff_le
  unfold openTap
  rw [present, entry]
  refine ⟨fun absent => ?_, fun here held => ?_, fun here high none isFull => ?_, fun here high none few room => ?_⟩
  · rw [absent]
    exact refuse_reserve free ..
  · rw [here, if_neg (by decide)]
    by_cases low : stream ≤ 3
    · exact (if_pos low).trans (refuse_reserve free ..)
    · exact (if_neg low).trans ((if_pos (held.resolve_left low)).trans (refuse_reserve free ..))
  · rw [here, if_neg (by decide), if_neg (Nat.not_le.2 high), none, if_neg (by decide), if_pos (full.2 isFull)]
    exact refuse_reserve free ..
  · have notFull : ¬ (8 ≤ tapCount (reserve s) || freeFilterEntries (reserve s) = 0) = true :=
      fun h => (full.1 h).elim (Nat.not_le.2 few) (Nat.not_le.2 room)
    have added := addEntry_free (e := newEntry f stream .tap .tap (some ⟨c.tag, 0⟩)) (s := reserve s) room none
    have left : freeFilterEntries { s with filter := { s.filter with entries := s.filter.entries ++
        [newEntry f stream .tap .tap (some ⟨c.tag, 0⟩)] } } = 23 - s.filter.entries.length := by
      unfold freeFilterEntries
      dsimp only
      rw [List.length_append, List.length_singleton]
      omega
    rw [here, if_neg (by decide), if_neg (Nat.not_le.2 high), none, if_neg (by decide), if_neg notFull, added]
    exact (answer_reserve (s := { s with filter := { s.filter with entries := s.filter.entries ++
      [newEntry f stream .tap .tap (some ⟨c.tag, 0⟩)] } }) free ..).trans (congrArg (fun n =>
        replied c.tag c.code .done (one n) _) left)

/-- What TAP CLOSE of a feed and stream answers (R27). -/
theorem closeTap_reserve {c : CommandCell} {stream : Nat} (free : s.command.reserved = false) :
    (tapAt s f stream = none → closeTap c f stream (reserve s) = replied c.tag c.code .notFound [] s) ∧
    (∀ tap, tapAt s f stream = some tap →
      let here (x : Assembly) : Bool := x.feed = f ∧ x.stream = stream
      closeTap c f stream (reserve s) = replied c.tag c.code .done (beBytes 2 tap.drops) { s with
        filter := { s.filter with entries := s.filter.entries.filter (fun e => ¬ (e.feed = f ∧ e.stream = stream)) }
        assembler := { s.assembler with
          buffers := s.assembler.buffers.filter (fun x => !here x)
          abandoned := s.assembler.abandoned.modify f
            (fun n => min (n + s.assembler.buffers.countP here) 65535) } }) := by
  have entry : tapAt (reserve s) f stream = tapAt s f stream := rfl
  unfold closeTap
  rw [entry]
  refine ⟨fun none => by rw [none]; exact refuse_reserve free .., fun tap held => ?_⟩
  obtain ⟨e, here⟩ : ∃ e, entryAt s f stream = some e := by
    unfold tapAt at held
    cases at_ : entryAt s f stream with
    | none => rw [at_] at held; exact absurd held nofun
    | some e => exact ⟨e, rfl⟩
  rw [held]
  dsimp only
  rw [removeEntries_stream (s := reserve s) here]
  have removed (u : Filter) (a : Assembler) := answer_reserve (s := { s with filter := u, assembler := a }) free c .done
    (beBytes 2 tap.drops)
  exact removed _ _

end

/-- Settles O41. -/
theorem tapsOpenAndClose : Obligations.TapsOpenAndClose := by
  intro tag params s taken
  have free := taken.notReserved
  refine ⟨fun bad => ?_, fun f whole feed low high => ?_, fun short => ?_, fun whole high => ?_, fun f whole feed => ?_⟩
  · exact exec_answered taken ((actTapOpen_bad bad).trans (badParameter_reserve free _))
  · have acted := actTapOpen_of (c := ⟨tag, 0x23#8, params⟩) (s := reserve s) whole feed low high
    obtain ⟨absent, duplicate, full, opened⟩ := openTap_reserve (f := f) (c := ⟨tag, 0x23#8, params⟩)
      (stream := beNat ((params.drop 1).take 2)) free
    exact ⟨fun h => exec_answered taken (acted.trans (absent h)),
      fun here h => exec_answered taken (acted.trans (duplicate here h)),
      fun here high none h => exec_answered taken (acted.trans (full here high none h)),
      fun here high none few room => exec_answered taken (acted.trans (opened here high none few room))⟩
  · refine exec_answered taken ?_
    rw [actTapClose, if_neg (by rw [carries_iff]; exact Nat.not_le.2 short)]
    exact badParameter_reserve free _
  · refine exec_answered taken ?_
    rw [actTapClose, if_pos ((carries_iff ..).2 whole), feedOfByte_high (by exact high)]
    exact refuse_reserve free ..
  · have acted := actTapClose_of (c := ⟨tag, 0x24#8, params⟩) (s := reserve s) whole feed
    obtain ⟨missing, closed⟩ := closeTap_reserve (f := f) (c := ⟨tag, 0x24#8, params⟩)
      (stream := beNat ((params.drop 1).take 2)) free
    exact ⟨fun none => exec_answered taken (acted.trans (missing none)),
      fun tap held => exec_answered taken (acted.trans (closed tap held))⟩

end Sys2Proof.Machine
end

