-- ==== Sys2Proof/Proofs/PinChecks.lean ====
section
/-! PROOFS. O45: PIN CHANGE, PIN RESET and the PIN checks (R149 to R152). -/

namespace Sys2Proof.Machine

set_option Elab.async false

variable {K : Special → Prop}

/-! ## The PIN check (R149) -/

section
variable {s : State} {pin : Nat} {c : CommandCell} {go : State → State}

theorem withPin_lockedOut (free : s.command.reserved = false) (out : s.limits.lockout.isSome = true) :
    withPin c pin go (reserve s) = replied c.tag c.code .lockedOut [] s := by
  have check : pinCheck pin s.limits = (.lockedOut, s.limits) := if_pos out
  unfold withPin
  rw [show pinCheck pin (reserve s).limits = _ from check]
  exact refuse_reserve free ..

theorem pinCheck_passes (notOut : s.limits.lockout = none) (passes : s.limits.pin = none ∨ s.limits.pin = some pin) :
    pinCheck pin s.limits = (.pass, { s.limits with attempts := attemptsAfterPass s.limits }) := by
  unfold pinCheck attemptsAfterPass
  rw [if_neg (by rw [notOut]; decide)]
  split
  · rename_i unset
    rw [if_pos unset]
  · rename_i v set
    have same : pin = v := passes.elim (fun unset => absurd (unset.symm.trans set) nofun)
      fun held => (Option.some.inj (set.symm.trans held)).symm
    rw [if_pos same, if_neg (by rw [set]; nofun)]

theorem withPin_passes (notOut : s.limits.lockout = none)
    (passes : s.limits.pin = none ∨ s.limits.pin = some pin) : withPin c pin go s =
      go { s with limits := { s.limits with attempts := attemptsAfterPass s.limits } } := by
  unfold withPin
  rw [pinCheck_passes notOut passes]
  rfl

theorem pinCheck_wrong {held : Nat} (notOut : s.limits.lockout = none) (set : s.limits.pin = some held)
    (wrong : pin ≠ held) : pinCheck pin s.limits = (.wrong, afterWrongPin s.limits) := by
  have counted : wrongAttempt s.limits = afterWrongPin s.limits := by
    unfold wrongAttempt afterWrongPin lockoutTicks
    dsimp only
    split
    · rfl
    · rw [notOut]
  unfold pinCheck
  rw [if_neg (by rw [notOut]; decide), set, ← counted]
  exact if_neg wrong

theorem withPin_wrong {held : Nat} (free : s.command.reserved = false) (notOut : s.limits.lockout = none)
    (set : s.limits.pin = some held) (wrong : pin ≠ held) :
    withPin c pin go (reserve s) = replied c.tag c.code .pin [] { s with limits := afterWrongPin s.limits } := by
  unfold withPin
  rw [show pinCheck pin (reserve s).limits = _ from pinCheck_wrong notOut set wrong]
  exact refuse_reserve (s := { s with limits := afterWrongPin s.limits }) free ..

end

theorem newPin_none {n : Nat} (bad : ¬ (n ≤ 9999 ∨ n = 65535)) : newPin n = none := by
  obtain ⟨high, other⟩ := not_or.1 bad
  unfold newPin
  rw [if_neg high, if_neg other]

theorem newPin_some {n : Nat} (good : n ≤ 9999 ∨ n = 65535) :
    newPin n = some (if n ≤ 9999 then some n else none) := by
  unfold newPin
  split
  · rfl
  · rename_i high
    exact if_pos (good.resolve_left high)

/-! ## PIN CHANGE and PIN RESET (R151, R152) -/

theorem actPinChange_bad {c : CommandCell} (bad : ¬ (4 ≤ c.params.length ∧
    (c.number 2 2 ≤ 9999 ∨ c.number 2 2 = 65535))) (s : State) : actPinChange c s = badParameter c s := by
  unfold actPinChange
  split
  · rename_i carries
    have whole := (carries_iff ..).1 carries
    rw [newPin_none fun good => bad ⟨whole, good⟩]
  · rfl

theorem actPinChange_good {c : CommandCell} (whole : 4 ≤ c.params.length)
    (good : c.number 2 2 ≤ 9999 ∨ c.number 2 2 = 65535) (s : State) : actPinChange c s =
      withPin c (c.number 0 2) (fun s => answer c .done (one (if c.number 2 2 ≤ 9999 then 1 else 0))
        { s with limits := { s.limits with
          pin := if c.number 2 2 ≤ 9999 then some (c.number 2 2) else none, attempts := 0 } }) s := by
  have flag (n : Nat) : flagByte (if n ≤ 9999 then some n else none).isSome = one (if n ≤ 9999 then 1 else 0) := by
    split <;> rfl
  unfold actPinChange
  rw [if_pos ((carries_iff ..).2 whole), newPin_some good]
  dsimp only
  rw [flag]

theorem pinChanges {tag : Byte} {params : Bytes} {s : State} (taken : takesAtOnce s) :
    let old := beNat (params.take 2)
    let new := beNat ((params.drop 2).take 2)
    let l := s.limits
    let good := 4 ≤ params.length ∧ (new ≤ 9999 ∨ new = 65535)
    (¬ good → exec (.pinChange tag params) s = .next (replied tag 0x43#8 .badParameter [] s)) ∧
    (good → l.lockout.isSome = true →
      exec (.pinChange tag params) s = .next (replied tag 0x43#8 .lockedOut [] s)) ∧
    (good → l.lockout = none → l.pin = none ∨ l.pin = some old →
      exec (.pinChange tag params) s = .next (replied tag 0x43#8 .done (one (if new ≤ 9999 then 1 else 0))
        { s with limits := { l with pin := if new ≤ 9999 then some new else none, attempts := 0 } })) ∧
    (∀ pin, good → l.lockout = none → l.pin = some pin → old ≠ pin →
      exec (.pinChange tag params) s = .next
        (replied tag 0x43#8 .pin [] { s with limits := afterWrongPin l })) := by
  have free := taken.notReserved
  refine ⟨fun bad => exec_answered taken ((actPinChange_bad bad _).trans (badParameter_reserve free _)),
    fun ⟨whole, good⟩ out => exec_answered taken ?_, fun ⟨whole, good⟩ notOut passes => exec_answered taken ?_,
    fun pin ⟨whole, good⟩ notOut set wrong => exec_answered taken ?_⟩
  all_goals rw [actPinChange_good (c := ⟨tag, 0x43#8, params⟩) whole good]
  · exact withPin_lockedOut free out
  · refine (withPin_passes (s := reserve s) notOut passes).trans ?_
    exact answer_reserve (s := { s with limits := { s.limits with
      pin := if beNat ((params.drop 2).take 2) ≤ 9999 then some (beNat ((params.drop 2).take 2)) else none,
      attempts := 0 } }) free ..
  · exact withPin_wrong free notOut set wrong

theorem pinResets (params : Bytes) (s : State) :
    let l := s.limits
    (params.length ≠ 2 ∨ (9999 < beNat params ∧ beNat params ≠ 65535) →
      pinReset params s = { s with limits := { l with malformed := bump l.malformed } }) ∧
    (params.length = 2 → beNat params ≤ 9999 ∨ beNat params = 65535 →
      pinReset params s = { s with limits := { l with
        pin := if beNat params ≤ 9999 then some (beNat params) else none, attempts := 0, lockout := none } }) := by
  unfold pinReset
  dsimp only
  refine ⟨fun bad => ?_, fun whole good => ?_⟩
  · split
    · rfl
    · rename_i whole
      obtain ⟨high, other⟩ := bad.resolve_left whole
      rw [newPin_none (not_or.2 ⟨Nat.not_le.2 high, other⟩)]
  · rw [if_neg (not_not.2 whole), newPin_some good]

/-! ## The commands that ask for the PIN (R132, R153, R154) -/

theorem profileOfByte_val (p : Fin 4) : profileOfByte p.val = some p := dif_pos p.isLt

theorem profileOfByte_high {n : Nat} (high : 4 ≤ n) : profileOfByte n = none := dif_neg (Nat.not_lt.2 high)

theorem firstByte (params : Bytes) : beNat (params.take 1) = (byteAt params 0).toNat := by
  cases params with
  | nil => rfl
  | cons b rest => simp [beNat, byteAt]

theorem actProfileSelect_of {c : CommandCell} {p : Fin 4} (whole : 3 ≤ c.params.length)
    (profile : c.number 0 1 = p.val) (s : State) : actProfileSelect c s =
      if p = 0 then withPin c (c.number 1 2) (takeProfileSelect c p) s else takeProfileSelect c p s := by
  unfold actProfileSelect
  rw [if_pos ((carries_iff ..).2 whole), profile, profileOfByte_val]

theorem actProfileWrite_of {c : CommandCell} {p : Fin 4} (other : p ≠ 0) (profile : c.number 0 1 = p.val)
    (shape : profileShape c.params = true) (s : State) : actProfileWrite c s =
      withPin c (c.number 1 2) (takeProfileWrite c p) s := by
  have byte : (c.byte 0).toNat = p.val := (firstByte c.params).symm.trans profile
  unfold actProfileWrite
  rw [byte, profileOfByte_val]
  exact if_pos (by simp [other, shape])

/-- PURCHASE past its checks (R132). -/
theorem actPurchase_ok {c : CommandCell} {e : EventRecord} {price t : Nat} {s : State} (whole : 4 ≤ c.params.length)
    (checked : purchaseChecks (c.number 0 2) s = .ok (e, price, t)) : actPurchase c s =
      if purchaseNeedsPin s then withPin c (c.number 2 2) (takePurchase c e price t) s
      else takePurchase c e price t s := by
  unfold actPurchase
  rw [if_pos ((carries_iff ..).2 whole), checked]

theorem purchaseNeedsPin_iff (s : State) :
    purchaseNeedsPin s = true ↔ s.limits.active ≠ 0 ∧ s.limits.pin.isSome = true := by
  simp [purchaseNeedsPin, parental]

/-- Settles O45. -/
theorem pinChangeAndPinChecks : Obligations.PinChangeAndPinChecks := by
  refine ⟨fun tag params s taken => pinChanges taken, fun tag params s taken => ?_,
    fun tag params e price t pin s taken whole checked active set => ?_, pinResets⟩
  all_goals have free := taken.notReserved
  · have select (whole : 3 ≤ params.length) (zero : beNat (params.take 1) = 0) :=
      actProfileSelect_of (c := ⟨tag, 0x40#8, params⟩) (p := 0) whole zero (reserve s)
    have write (low : 1 ≤ beNat (params.take 1)) (high : beNat (params.take 1) ≤ 3)
        (shape : profileShape params = true) :=
      actProfileWrite_of (c := ⟨tag, 0x41#8, params⟩) (p := ⟨beNat (params.take 1), by omega⟩)
        (Fin.ne_of_val_ne (by dsimp only; exact Nat.ne_of_gt low)) rfl shape (reserve s)
    refine ⟨fun out => ⟨fun whole zero => exec_answered taken ?_, fun low high shape => exec_answered taken ?_⟩,
      fun pin notOut set wrong => ⟨fun whole zero => exec_answered taken ?_,
        fun low high shape => exec_answered taken ?_⟩⟩
    · exact (select whole zero).trans ((if_pos rfl).trans (withPin_lockedOut free out))
    · exact (write low high shape).trans (withPin_lockedOut free out)
    · exact (select whole zero).trans ((if_pos rfl).trans (withPin_wrong free notOut set wrong))
    · exact (write low high shape).trans (withPin_wrong free notOut set wrong)
  · have asks : purchaseNeedsPin (reserve s) = true :=
      (purchaseNeedsPin_iff _).2 ⟨active, congrArg Option.isSome set⟩
    have acted := (actPurchase_ok (c := ⟨tag, 0x30#8, params⟩) (s := reserve s) whole checked).trans (if_pos asks)
    exact ⟨fun out => exec_answered taken (acted.trans (withPin_lockedOut free out)),
      fun notOut wrong => exec_answered taken (acted.trans (withPin_wrong free notOut set wrong))⟩

end Sys2Proof.Machine
end

