-- ==== Sys2Proof/Proofs/Purchasing.lean ====
section
/-! PROOFS. O42: PURCHASE (R131 to R133). -/

namespace Sys2Proof.Machine

set_option Elab.async false

variable {K : Special → Prop}

/-! ## A change, its notice and trigger, and the answer (R129, R182) -/

theorem limits_of_untriggered {s t : State} (h : untriggered t = untriggered s) :
    t.limits = { s.limits with running := t.limits.running } :=
  (congrArg (fun x : State => { x.limits with running := t.limits.running }) h :)

theorem redecided_answer {s t : State} (h : redecided s t) (c : CommandCell) (o : ReplyOutcome) (results : Bytes) :
    redecided s (answer c o results t) := h

theorem redecided_of_context {s u t : State} (h : redecided u t) (same : u.output.context = s.output.context) :
    redecided s t := fun c hc => h c (same.trans hc)

/-- What stands of an answered change behind the decisions, with the two blocks that it may change put back. -/
theorem untriggered_answered {v u : State} (behind : untriggered v = untriggered u) (c : CommandCell)
    (o : ReplyOutcome) (results : Bytes) (p : Purchase) (l : Limits) :
    untriggered { answer c o results v with purchase := p, limits := l } =
      untriggered { endReservation u with purchase := p, limits := l } :=
  (congrArg (fun x => untriggered { endReservation x with purchase := p, limits := l }) behind :)

theorem unreserved {s : State} (free : s.command.reserved = false) :
    untriggered { endReservation (reserve s) with purchase := s.purchase, limits := s.limits } = untriggered s :=
  congrArg untriggered (endReservation_reserve free)

theorem noticeSet_purchaseChanged (s : State) : noticeSet .purchaseChanged (purchaseChanged 1 s) = true :=
  noticeSet_trigger_of_set (noticeSet_raise .purchaseChanged s)

theorem redecided_purchaseChanged (s : State) : redecided s (purchaseChanged 1 s) :=
  redecided_of_context (redecided_trigger (raise .purchaseChanged s)) (context_raise .purchaseChanged s)

/-- What an answered change of the purchase list leaves (R129). -/
theorem purchaseChanged_answered {s : State} (free : s.command.reserved = false) (p : Purchase) (l : Limits)
    (c : CommandCell) (results : Bytes) :
    let t := answer c .done results (purchaseChanged 1 { reserve s with purchase := p, limits := l })
    t.purchase = p ∧ noticeSet .purchaseChanged t = true ∧ redecided s t ∧
    t.limits = { l with running := t.limits.running } ∧ lastReply c.tag c.code .done results t ∧
    untriggered { t with purchase := s.purchase, limits := s.limits } = untriggered s := by
  have behind := untriggered_purchaseChanged 1 { reserve s with purchase := p, limits := l }
  have raised := noticeSet_purchaseChanged { reserve s with purchase := p, limits := l }
  have again := redecided_purchaseChanged { reserve s with purchase := p, limits := l }
  generalize purchaseChanged 1 { reserve s with purchase := p, limits := l } = v at behind raised again
  exact ⟨(congrArg State.purchase behind :), raised, again, limits_of_untriggered behind, lastReply_answer ..,
    (untriggered_answered behind ..).trans (unreserved free)⟩

/-! ## PURCHASE (R131 to R133) -/

/-- The checks of R131 in their order, each with its refusal. -/
theorem purchaseChecks_spec (id : Nat) (s : State) :
    (s.clock.state = .unset → purchaseChecks id s = .error .noTime) ∧
    (s.clock.state ≠ .unset → (∀ e, eventById s.guide id = some e → e.withdrawn = true) →
      purchaseChecks id s = .error .unknownEvent) ∧
    (∀ e, s.clock.state ≠ .unset → eventById s.guide id = some e → e.withdrawn = false →
      (e.price = none → purchaseChecks id s = .error .notForSale) ∧
      (∀ price, e.price = some price →
        let now := s.clock.n / 1024
        (e.ends ≤ now → purchaseChecks id s = .error .ended) ∧
        (now < e.ends → s.access.region ∈ e.blackout → purchaseChecks id s = .error .blackout) ∧
        (now < e.ends → s.access.region ∉ e.blackout →
          ((∃ r ∈ s.purchase.records, r.eventId = id) → purchaseChecks id s = .error .alreadyBought) ∧
          ((∀ r ∈ s.purchase.records, r.eventId ≠ id) →
            (32 ≤ s.purchase.records.length → purchaseChecks id s = .error .listFull) ∧
            (s.purchase.records.length < 32 → s.purchase.limit < s.purchase.debt + price →
              purchaseChecks id s = .error .credit) ∧
            (s.purchase.records.length < 32 → s.purchase.debt + price ≤ s.purchase.limit →
              purchaseChecks id s = .ok (e, price, now)))))) := by
  unfold purchaseChecks
  refine ⟨fun unset => ?_, fun set withdrawn => ?_, fun e set held there => ⟨fun unpriced => ?_, fun price priced => ?_⟩⟩
  · rw [show s.now = none from if_pos unset]
  all_goals rw [show s.now = some (s.clock.n / 1024) from if_neg set]; dsimp only
  · have none : (eventById s.guide id).filter (fun e => !e.withdrawn) = none := by
      cases held : eventById s.guide id with
      | none => rfl
      | some e => simp [withdrawn e held]
    rw [none]
  all_goals
    have found : (eventById s.guide id).filter (fun e => !e.withdrawn) = some e := by rw [held]; simp [there]
    rw [found]; dsimp only
  · rw [unpriced]
  · have blackout : e.blackout.contains s.access.region = true ↔ s.access.region ∈ e.blackout := List.contains_iff_mem
    have owned : bought s.purchase id = true ↔ ∃ r ∈ s.purchase.records, r.eventId = id := by
      simp [bought]
    rw [priced]
    dsimp only
    refine ⟨fun past => if_pos past, fun runs dark => ?_, fun runs clear => ⟨fun has => ?_, fun new => ?_⟩⟩
    all_goals rw [if_neg (Nat.not_le.2 runs)]
    · rw [if_pos (blackout.2 dark)]
    all_goals rw [if_neg (fun h => clear (blackout.1 h))]
    · rw [if_pos (owned.2 has)]
    · have unowned : ¬ bought s.purchase id = true := fun h =>
        let ⟨r, hr, same⟩ := owned.1 h
        new r hr same
      rw [if_neg unowned]
      exact ⟨fun full => if_pos full,
        fun room dear => (if_neg (Nat.not_le.2 room)).trans (if_pos dear),
        fun room pays => (if_neg (Nat.not_le.2 room)).trans (if_neg (Nat.not_lt.2 pays))⟩

theorem actPurchase_error {c : CommandCell} {o : ReplyOutcome} {s : State} (whole : 4 ≤ c.params.length)
    (checked : purchaseChecks (c.number 0 2) s = .error o) : actPurchase c s = refuse c o s := by
  unfold actPurchase
  rw [if_pos ((carries_iff ..).2 whole), checked]

/-- What a PURCHASE that passes its checks and its PIN check makes (R133). -/
theorem takePurchase_spec {s : State} (free : s.command.reserved = false) (l : Limits) (c : CommandCell)
    (e : EventRecord) (price now : Nat) :
    let u := s.purchase
    let deadline := min (max now e.start + e.cancelMinutes * 60) e.ends
    let state := if now < deadline then PurchaseState.provisional else .committed
    let t := takePurchase c e price now { reserve s with limits := l }
    t.purchase = { u with
      records := u.records ++ [⟨u.nextSeq, e.id, e.channel, price, now, deadline, e.ends, state⟩]
      debt := u.debt + price
      nextSeq := if u.nextSeq = 4294967295 then 1 else u.nextSeq + 1 } ∧
    noticeSet .purchaseChanged t = true ∧ redecided s t ∧
    t.limits = { l with running := t.limits.running } ∧
    lastReply c.tag c.code .done (beBytes 4 u.nextSeq ++ beBytes 2 price ++
      beBytes 4 deadline ++ one state.code ++ beBytes 2 (u.debt + price)) t ∧
    untriggered { t with purchase := u, limits := s.limits } = untriggered s :=
  purchaseChanged_answered free _ l c _

/-- The PIN check that a PURCHASE asks for, passed: the attempt count it leaves (R132, R149). -/
theorem actPurchase_passes {c : CommandCell} {e : EventRecord} {price t : Nat} {s : State}
    (whole : 4 ≤ c.params.length) (checked : purchaseChecks (c.number 0 2) s = .ok (e, price, t))
    (passes : s.limits.active = 0 ∨ s.limits.pin = none ∨
      (s.limits.lockout = none ∧ s.limits.pin = some (c.number 2 2))) :
    actPurchase c s = takePurchase c e price t { s with limits := { s.limits with
      attempts := if s.limits.active = 0 then s.limits.attempts else attemptsAfterPass s.limits } } := by
  rw [actPurchase_ok whole checked]
  by_cases asks : purchaseNeedsPin s = true
  · obtain ⟨active, set⟩ := (purchaseNeedsPin_iff s).1 asks
    obtain ⟨notOut, same⟩ := (passes.resolve_left active).resolve_left fun none => absurd set (by rw [none]; decide)
    rw [if_pos asks, withPin_passes notOut (.inr same), if_neg active]
  · rw [if_neg asks]
    by_cases household : s.limits.active = 0
    · rw [if_pos household]
    · have unset : s.limits.pin = none := by
        cases set : s.limits.pin with
        | none => rfl
        | some pin => exact absurd ((purchaseNeedsPin_iff s).2 ⟨household, by rw [set]; rfl⟩) asks
      rw [if_neg household, attemptsAfterPass, if_pos unset]

/-- Settles O42. -/
theorem purchaseIsCheckedAndTaken : Obligations.PurchaseIsCheckedAndTaken := by
  intro tag params s taken
  have free := taken.notReserved
  have refused {o : ReplyOutcome} (whole : 4 ≤ params.length)
      (checked : purchaseChecks (beNat (params.take 2)) s = .error o) :
      exec (.purchase tag params) s = .next (replied tag 0x30#8 o [] s) :=
    exec_answered taken ((actPurchase_error (c := ⟨tag, 0x30#8, params⟩) (s := reserve s) whole checked).trans
      (refuse_reserve free ..))
  obtain ⟨noTime, unknown, found⟩ := purchaseChecks_spec (beNat (params.take 2)) s
  refine ⟨fun short => exec_answered taken ?_, fun whole => ⟨fun unset => refused whole (noTime unset),
    fun set withdrawn => refused whole (unknown set withdrawn), fun e set held there => ?_⟩⟩
  · rw [actPurchase, if_neg (by rw [carries_iff]; exact Nat.not_le.2 short)]
    exact badParameter_reserve free _
  · obtain ⟨unpriced, checks⟩ := found e set held there
    refine ⟨fun none => refused whole (unpriced none), fun price priced => ?_⟩
    obtain ⟨past, dark, open_⟩ := checks price priced
    refine ⟨fun h => refused whole (past h), fun runs h => refused whole (dark runs h), fun runs clear => ?_⟩
    obtain ⟨owned, new⟩ := open_ runs clear
    refine ⟨fun h => refused whole (owned h), fun fresh => ?_⟩
    obtain ⟨full, credit, taken_⟩ := new fresh
    refine ⟨fun h => refused whole (full h), fun room h => refused whole (credit room h), fun room pays passes => ?_⟩
    have sameId : e.id = beNat (params.take 2) := of_decide_eq_true (List.find?_some held :)
    have acted := actPurchase_passes (c := ⟨tag, 0x30#8, params⟩) (s := reserve s) whole (taken_ room pays) passes
    refine ⟨_, (exec_taken taken).trans (congrArg Host.Outcome.next acted), ?_⟩
    rw [← sameId]
    exact takePurchase_spec free _ ⟨tag, 0x30#8, params⟩ e price (s.clock.n / 1024)

end Sys2Proof.Machine
end

