-- ==== Sys2Proof/Proofs/PurchaseRecords.lean ====
section
/-! PROOFS. O43: CANCEL PURCHASE, PURCHASE READ, CREDIT LIMIT and CLEAR (R135, R138, R140, R145). -/

namespace Sys2Proof.Machine

set_option Elab.async false

variable {K : Special → Prop}

/-! ## CANCEL PURCHASE and PURCHASE READ (R135, R145) -/

theorem actCancelPurchase_of {c : CommandCell} (whole : 2 ≤ c.params.length) (s : State) :
    (purchaseOf s.purchase (c.number 0 2) = none → actCancelPurchase c s = refuse c .notFound s) ∧
    (∀ r, purchaseOf s.purchase (c.number 0 2) = some r →
      (r.state ≠ .provisional → actCancelPurchase c s = refuse c .tooLate s) ∧
      (r.state = .provisional → s.clock.state = .unset → actCancelPurchase c s = refuse c .noTime s) ∧
      (r.state = .provisional → s.clock.state ≠ .unset → actCancelPurchase c s = takeCancel c r s)) := by
  unfold actCancelPurchase
  rw [if_pos ((carries_iff ..).2 whole)]
  refine ⟨fun none => by rw [none], fun r held => ?_⟩
  rw [held]
  exact ⟨fun late => if_pos late, fun early unset => (if_neg (not_not.2 early)).trans (if_pos unset),
    fun early set => (if_neg (not_not.2 early)).trans (if_neg set)⟩

theorem cancels {tag : Byte} {params : Bytes} {s : State} (taken : takesAtOnce s) :
    let u := s.purchase
    let id := beNat (params.take 2)
    (params.length < 2 →
      exec (.cancelPurchase tag params) s = .next (replied tag 0x31#8 .badParameter [] s)) ∧
    (2 ≤ params.length →
      ((∀ r ∈ u.records, r.eventId ≠ id) →
        exec (.cancelPurchase tag params) s = .next (replied tag 0x31#8 .notFound [] s)) ∧
      (∀ r, u.records.find? (fun r => r.eventId = id) = some r →
        (r.state ≠ .provisional →
          exec (.cancelPurchase tag params) s = .next (replied tag 0x31#8 .tooLate [] s)) ∧
        (r.state = .provisional → s.clock.state = .unset →
          exec (.cancelPurchase tag params) s = .next (replied tag 0x31#8 .noTime [] s)) ∧
        (r.state = .provisional → s.clock.state ≠ .unset →
          ∃ t, exec (.cancelPurchase tag params) s = .next t ∧
            t.purchase = { u with
              records := u.records.filter (fun x => x.eventId ≠ id), debt := u.debt - r.price } ∧
            noticeSet .purchaseChanged t = true ∧ redecided s t ∧
            lastReply tag 0x31#8 .done
              (beBytes 4 r.seq ++ beBytes 2 r.price ++ beBytes 2 (u.debt - r.price)) t ∧
            untriggered { t with purchase := u } = untriggered s))) := by
  have free := taken.notReserved
  refine ⟨fun short => exec_answered taken ?_, fun whole => ?_⟩
  · rw [actCancelPurchase, if_neg (by rw [carries_iff]; exact Nat.not_le.2 short)]
    exact badParameter_reserve free _
  · obtain ⟨none, some⟩ := actCancelPurchase_of (c := ⟨tag, 0x31#8, params⟩) whole (reserve s)
    refine ⟨fun absent => ?_, fun r held => ?_⟩
    · have missing : purchaseOf s.purchase (beNat (params.take 2)) = .none :=
        List.find?_eq_none.2 fun r hr same => absent r hr (of_decide_eq_true same)
      exact exec_answered taken ((none missing).trans (refuse_reserve free ..))
    · obtain ⟨late, noTime, cancels⟩ := some r held
      refine ⟨fun h => exec_answered taken ((late h).trans (refuse_reserve free ..)),
        fun early unset => exec_answered taken ((noTime early unset).trans (refuse_reserve free ..)),
        fun early set => ⟨_, (exec_taken taken).trans (congrArg Host.Outcome.next (cancels early set)), ?_⟩⟩
      have sameId : r.eventId = beNat (params.take 2) := of_decide_eq_true (List.find?_some held :)
      rw [← sameId]
      obtain ⟨purchase, notice, again, limits, reply, frame⟩ := purchaseChanged_answered free
        { s.purchase with
          records := s.purchase.records.filter (fun x => x.eventId ≠ r.eventId), debt := s.purchase.debt - r.price }
        s.limits ⟨tag, 0x31#8, params⟩
        (beBytes 4 r.seq ++ beBytes 2 r.price ++ beBytes 2 (s.purchase.debt - r.price))
      refine ⟨purchase, notice, again, reply, ?_⟩
      exact (congrArg (fun l => untriggered { (takeCancel ⟨tag, 0x31#8, params⟩ r (reserve s)) with
        purchase := s.purchase, limits := l }) limits :).trans frame

theorem purchaseReads {tag : Byte} {params : Bytes} {s : State} (taken : takesAtOnce s) :
    let u := s.purchase
    let i := beNat (params.take 1)
    let head := one u.records.length ++ beBytes 2 u.debt ++ beBytes 2 u.limit
    (params.length < 1 →
      exec (.purchaseRead tag params) s = .next (replied tag 0x32#8 .badParameter [] s)) ∧
    (1 ≤ params.length →
      (u.records.length ≤ i → exec (.purchaseRead tag params) s = .next (replied tag 0x32#8 .endOfList head s)) ∧
      (i < u.records.length → exec (.purchaseRead tag params) s = .next (replied tag 0x32#8 .done
        (head ++ ((u.records.drop i).take 4).flatMap (fun r =>
          beBytes 4 r.seq ++ beBytes 2 r.eventId ++ beBytes 2 r.channel ++ beBytes 2 r.price ++
          beBytes 4 r.time ++ beBytes 4 r.deadline ++ beBytes 5 r.ends ++ one r.state.code)) s))) := by
  have free := taken.notReserved
  refine ⟨fun short => exec_answered taken ?_, fun whole => ⟨fun past => exec_answered taken ?_,
    fun inside => exec_answered taken ?_⟩⟩
  all_goals unfold actPurchaseRead
  · rw [if_neg (by rw [carries_iff]; exact Nat.not_le.2 short)]
    exact badParameter_reserve free _
  all_goals rw [if_pos ((carries_iff ..).2 whole)]
  · exact (if_neg (Nat.not_lt.2 past)).trans (answer_reserve free ..)
  · exact (if_pos inside).trans (answer_reserve free ..)

/-! ## The headend's messages (R138, R140) -/

theorem creditLimit_spec (params : Bytes) (s : State) :
    let u := s.purchase
    (params.length ≠ 2 → creditLimit params s = { s with purchase := { u with malformed := bump u.malformed } }) ∧
    (params.length = 2 → creditLimit params s = (if beNat params = u.limit then s
      else raise .purchaseChanged { s with purchase := { u with limit := beNat params } })) :=
  ⟨fun wrong => if_pos wrong, fun right => if_neg (not_not.2 right)⟩

theorem redecided_triggers {k : Nat} (some : 0 < k) (s : State) : redecided s (triggers k s) := by
  obtain ⟨k, rfl⟩ : ∃ j, k = j + 1 := ⟨k - 1, by omega⟩
  clear some
  induction k generalizing s with
  | zero => exact redecided_trigger s
  | succ k ih =>
    have first := (stage_trigger (s := s) (u := s) rfl fun _ h => h).toTold
    exact first.redecided (ih _) fun _ => noticeSet_triggers (k + 1)

/-- CLEAR of at least one record (R140). -/
theorem clearPurchases_settled {params : Bytes} {s : State} (whole : params.length = 4) :
    let u := s.purchase
    let settled (r : PurchaseRecord) : Bool := r.state = .committed ∧ r.seq ≤ beNat params
    let lapsed (r : PurchaseRecord) : Bool := s.clock.state ≠ .unset ∧ r.ends ≤ s.clock.n / 1024
    let p := { u with
      records := (u.records.filter (fun r => !(settled r && lapsed r))).map (fun r =>
        if settled r then { r with state := .collected } else r)
      debt := u.debt - ((u.records.filter settled).map PurchaseRecord.price).sum }
    clearPurchases params s = if u.records.filter settled = [] then s
      else purchaseChanged (u.records.countP (fun r => settled r && lapsed r)) { s with purchase := p } := by
  intro u settled lapsed p
  have settles (r : PurchaseRecord) : r.settledBy (beNat params) = settled r := by
    simp [PurchaseRecord.settledBy, settled]
  have lapses (r : PurchaseRecord) : r.over s.now = lapsed r := by
    unfold PurchaseRecord.over State.now
    split
    · rename_i unset; simp [lapsed, unset]
    · rename_i set; simp [lapsed, set, State.seconds]
  have collects (r : PurchaseRecord) : r.collect (beNat params) =
      if settled r then { r with state := .collected } else r := by
    unfold PurchaseRecord.collect; rw [settles]
  unfold clearPurchases
  rw [if_neg (not_not.2 whole)]
  simp only [lapses, funext settles, funext collects]
  rfl

theorem clearPurchases_spec (params : Bytes) (s : State) :
    let u := s.purchase
    (params.length ≠ 4 → clearPurchases params s = { s with purchase := { u with malformed := bump u.malformed } }) ∧
    (params.length = 4 →
      let settled (r : PurchaseRecord) : Bool := r.state = .committed ∧ r.seq ≤ beNat params
      let lapsed (r : PurchaseRecord) : Bool := s.clock.state ≠ .unset ∧ r.ends ≤ s.clock.n / 1024
      let t := clearPurchases params s
      ((∀ r ∈ u.records, settled r = false) → t = s) ∧
      ((∃ r ∈ u.records, settled r = true) →
        t.purchase = { u with
          records := (u.records.filter (fun r => !(settled r && lapsed r))).map (fun r =>
            if settled r then { r with state := .collected } else r)
          debt := u.debt - ((u.records.filter settled).map PurchaseRecord.price).sum } ∧
        noticeSet .purchaseChanged t = true ∧
        ((∃ r ∈ u.records, settled r = true ∧ lapsed r = true) → redecided s t) ∧
        ((∀ r ∈ u.records, settled r = true → lapsed r = false) →
          t = raise .purchaseChanged { s with purchase := t.purchase }) ∧
        untriggered { t with purchase := u } = untriggered s)) := by
  refine ⟨fun wrong => if_pos wrong, fun whole => ?_⟩
  have cleared := clearPurchases_settled (s := s) whole
  intro settled lapsed
  dsimp only at cleared ⊢
  rw [cleared]
  refine ⟨fun none => if_pos ?_, fun some => ?_⟩
  · exact List.filter_eq_nil_iff.2 fun r hr => Bool.eq_false_iff.1 (none r hr)
  · have notNil : s.purchase.records.filter settled ≠ [] := by
      obtain ⟨r, hr, yes⟩ := some
      exact List.ne_nil_of_mem (List.mem_filter.2 ⟨hr, yes⟩)
    rw [if_neg notNil]
    have changed (k : Nat) (p : Purchase) : untriggered (purchaseChanged k { s with purchase := p }) =
        untriggered { s with purchase := p } := untriggered_purchaseChanged ..
    refine ⟨(congrArg State.purchase (changed ..) :), noticeSet_triggers _ (noticeSet_raise ..), ?_, ?_,
      (congrArg (fun x : State => { x with purchase := s.purchase }) (changed ..) :)⟩
    · rintro ⟨r, hr, yes⟩
      have some : 0 < s.purchase.records.countP (fun r => settled r && lapsed r) :=
        List.countP_pos_iff.2 ⟨r, hr, by simp [yes]⟩
      have again (p : Purchase) := redecided_of_context (s := s)
        (redecided_triggers some (raise .purchaseChanged { s with purchase := p }))
        (context_raise .purchaseChanged { s with purchase := p })
      exact again _
    · intro none
      have zero : s.purchase.records.countP (fun r => settled r && lapsed r) = 0 :=
        List.countP_eq_zero.2 fun r hr => by
          cases yes : settled r
          · simp
          · simp [none r hr yes]
      have raised (p : Purchase) : purchaseChanged 0 { s with purchase := p } =
          raise .purchaseChanged { s with purchase := (purchaseChanged 0 { s with purchase := p }).purchase } := by
        rw [show (purchaseChanged 0 { s with purchase := p }).purchase = p from
          (congrArg State.purchase (changed 0 p) :)]
        rfl
      rw [zero]
      exact raised _

/-- Settles O43. -/
theorem cancelReadAndSettlePurchases : Obligations.CancelReadAndSettlePurchases := by
  refine ⟨fun tag params s taken => ?_, fun params s => ?_⟩
  · obtain ⟨short, cancelled⟩ := cancels (tag := tag) (params := params) taken
    obtain ⟨bad, read⟩ := purchaseReads (tag := tag) (params := params) taken
    exact ⟨short, cancelled, bad, read⟩
  · obtain ⟨wrongLimit, limit⟩ := creditLimit_spec params s
    obtain ⟨wrongClear, cleared⟩ := clearPurchases_spec params s
    exact ⟨wrongLimit, limit, wrongClear, cleared⟩

end Sys2Proof.Machine
end

