-- ==== Sys2Proof/Proofs/Profiles.lean ====
section
/-! PROOFS. O44: PROFILE SELECT, PROFILE WRITE and PROFILE READ (R153 to R157). -/

namespace Sys2Proof.Machine

set_option Elab.async false

variable {K : Special → Prop}

/-! ## Window standing, meter and decision worked out again (R153, R156) -/

/-- What follows a change of the active profile (R153, R156). -/
def reevaluated (s : State) : State := trigger (evaluateMeter (evaluateStanding s))

theorem untriggered_reevaluated (s : State) : untriggered (reevaluated s) = untriggered (evaluateStanding s) := by
  unfold reevaluated
  rw [untriggered_trigger, untriggered_evaluateMeter]

theorem standing_reevaluated (s : State) : (reevaluated s).limits.standing = standingNow (reevaluated s) := by
  have behind := untriggered_reevaluated s
  have standing : (reevaluated s).limits.standing = standingNow s :=
    (congrArg (fun x : State => x.limits.standing) behind :)
  have now : standingNow (reevaluated s) = standingNow s := (congrArg standingNow behind :)
  rw [standing, now]

theorem running_reevaluated (s : State) : (reevaluated s).limits.running = meterMayRun (reevaluated s) :=
  (meterLaw_evaluateMeter (evaluateStanding s)).trigger

theorem redecided_reevaluated (s : State) : redecided s (reevaluated s) :=
  redecided_of_context (redecided_trigger (evaluateMeter (evaluateStanding s)))
    (context_evaluateMeter (evaluateStanding s))

theorem limits_reevaluated (s : State) : (reevaluated s).limits = { s.limits with
    standing := (reevaluated s).limits.standing, running := (reevaluated s).limits.running } := by
  have behind := untriggered_reevaluated s
  exact (congrArg (fun x : State => { x.limits with
    standing := (reevaluated s).limits.standing, running := (reevaluated s).limits.running }) behind :)

/-- What stands of an answered change of the limits behind the decisions. -/
theorem untriggered_answered_limits {v u : State} (behind : untriggered v = untriggered u) (c : CommandCell)
    (o : ReplyOutcome) (results : Bytes) (l : Limits) : untriggered { answer c o results v with limits := l } =
      untriggered { endReservation u with limits := l } :=
  (congrArg (fun x => untriggered { endReservation x with limits := l }) behind :)

/-- What an answered change of the limits leaves where it is evaluated again, and where it is not (R153, R156). -/
structure LimitsAnswered (s : State) (again : Prop) (l : Limits) (c : CommandCell) (results : Bytes) (t : State) :
    Prop where
  limits : t.limits = { l with standing := t.limits.standing, running := t.limits.running }
  kept : ¬ again → t.limits.standing = s.limits.standing ∧ t.limits.running = s.limits.running ∧
    t.output.context = s.output.context
  evaluated : again → t.limits.standing = standingNow t ∧ t.limits.running = meterMayRun t ∧ redecided s t
  reply : lastReply c.tag c.code .done results t
  frame : untriggered { t with limits := s.limits } = untriggered s

theorem limitsAnswered {s : State} (free : s.command.reserved = false) {l : Limits}
    (standing : l.standing = s.limits.standing) (running : l.running = s.limits.running) (again : Prop)
    [Decidable again] (c : CommandCell) (results : Bytes) :
    LimitsAnswered s again l c results (answer c .done results
      (if again then reevaluated { reserve s with limits := l } else { reserve s with limits := l })) := by
  have unreserved : untriggered { endReservation (reserve s) with limits := s.limits } = untriggered s :=
    congrArg untriggered (endReservation_reserve free)
  split
  · rename_i yes
    have limits := limits_reevaluated { reserve s with limits := l }
    have standing := standing_reevaluated { reserve s with limits := l }
    have running := running_reevaluated { reserve s with limits := l }
    have redecided := redecided_reevaluated { reserve s with limits := l }
    have behind := untriggered_reevaluated { reserve s with limits := l }
    generalize reevaluated { reserve s with limits := l } = v at limits standing running redecided behind
    exact ⟨limits, fun no => absurd yes no, fun _ => ⟨standing, running, redecided⟩, lastReply_answer ..,
      (untriggered_answered_limits behind ..).trans unreserved⟩
  · rename_i no
    exact ⟨rfl, fun _ => ⟨standing, running, rfl⟩, fun yes => absurd yes no, lastReply_answer ..,
      (untriggered_answered_limits (u := { reserve s with limits := l }) rfl ..).trans unreserved⟩

/-! ## PROFILE SELECT (R153) -/

theorem actProfileSelect_bad {c : CommandCell} (bad : c.params.length < 3 ∨ 4 ≤ c.number 0 1) (s : State) :
    actProfileSelect c s = badParameter c s := by
  unfold actProfileSelect
  split
  · rename_i carries
    rw [profileOfByte_high (bad.resolve_left (Nat.not_lt.2 ((carries_iff ..).1 carries)))]
  · rfl

theorem switchProfile_eq (p : Fin 4) (s : State) : switchProfile p s = if p ≠ s.limits.active then
    reevaluated { s with limits := { s.limits with
      active := p, part := if p = s.limits.active then s.limits.part else 0 } }
    else { s with limits := { s.limits with
      active := p, part := if p = s.limits.active then s.limits.part else 0 } } := by
  unfold switchProfile
  by_cases same : p = s.limits.active
  · rw [if_pos same, if_neg (not_not.2 same), if_pos same, same]
  · rw [if_neg same, if_pos same, if_neg same]
    rfl

theorem actProfileSelect_passes {c : CommandCell} {p : Fin 4} {s : State} (whole : 3 ≤ c.params.length)
    (profile : c.number 0 1 = p.val) (passes : p = 0 → s.limits.lockout = none ∧
      (s.limits.pin = none ∨ s.limits.pin = some (c.number 1 2))) : actProfileSelect c s =
      takeProfileSelect c p { s with limits := { s.limits with
        attempts := if p = 0 then attemptsAfterPass s.limits else s.limits.attempts } } := by
  rw [actProfileSelect_of whole profile]
  by_cases household : p = 0
  · obtain ⟨notOut, same⟩ := passes household
    rw [if_pos household, withPin_passes notOut same, if_pos household]
  · rw [if_neg household, if_neg household]

theorem profileSelects {tag : Byte} {params : Bytes} {s : State} (taken : takesAtOnce s) (p : Fin 4)
    (whole : 3 ≤ params.length) (profile : beNat (params.take 1) = p.val) (passes : p = 0 → s.limits.lockout = none ∧
      (s.limits.pin = none ∨ s.limits.pin = some (beNat ((params.drop 1).take 2)))) :
    ∃ t, exec (.profileSelect tag params) s = .next t ∧ LimitsAnswered s (p ≠ s.limits.active) { s.limits with
      active := p, part := if p = s.limits.active then s.limits.part else 0
      attempts := if p = 0 then attemptsAfterPass s.limits else s.limits.attempts }
      ⟨tag, 0x40#8, params⟩ (one p.val) t := by
  have acted := actProfileSelect_passes (c := ⟨tag, 0x40#8, params⟩) (s := reserve s) whole profile passes
  refine ⟨_, (exec_taken taken).trans (congrArg Host.Outcome.next acted), ?_⟩
  unfold takeProfileSelect
  rw [switchProfile_eq]
  have answered := limitsAnswered taken.notReserved (l := { s.limits with
    active := p, part := if p = s.limits.active then s.limits.part else 0
    attempts := if p = 0 then attemptsAfterPass s.limits else s.limits.attempts }) rfl rfl (p ≠ s.limits.active)
    ⟨tag, 0x40#8, params⟩ (one p.val)
  exact answered

/-! ## PROFILE WRITE (R154 to R156) -/

theorem actProfileWrite_bad {c : CommandCell} (bad : c.number 0 1 = 0 ∨ 4 ≤ c.number 0 1 ∨
    profileShape c.params = false) (s : State) : actProfileWrite c s = badParameter c s := by
  have byte : c.number 0 1 = (c.byte 0).toNat := firstByte c.params
  unfold actProfileWrite
  rw [← byte]
  by_cases high : 4 ≤ c.number 0 1
  · rw [profileOfByte_high high]
  · obtain ⟨p, profile⟩ : ∃ p : Fin 4, c.number 0 1 = p.val := ⟨⟨c.number 0 1, by omega⟩, rfl⟩
    rw [profile, profileOfByte_val]
    refine if_neg fun pass => ?_
    simp only [Bool.and_eq_true, decide_eq_true_eq] at pass
    rcases bad with zero | above | shape
    · exact pass.1 (Fin.ext (profile.symm.trans zero))
    · exact high above
    · exact absurd (pass.2.symm.trans shape) nofun

theorem locks_written (p : Profile) (x : ProfileParams) : (p.written x).locks.length ≤ 16 ∧
    (p.written x).windows.length ≤ 4 :=
  ⟨List.length_take_le .., List.length_take_le ..⟩

theorem standing_setProfile (l : Limits) (p : Fin 4) (x : Profile) :
    (setProfile l p x).standing = l.standing :=
  match p with
  | 0 | 1 | 2 | 3 => rfl

theorem setProfile_attempts (l : Limits) (p : Fin 4) (x : Profile) (n : Nat) :
    setProfile { l with attempts := n } p x = { setProfile l p x with attempts := n } :=
  match p with
  | 0 | 1 | 2 | 3 => rfl

theorem profileWrites {tag : Byte} {params : Bytes} {s : State} (taken : takesAtOnce s) {p : Fin 4} (other : p ≠ 0)
    (profile : beNat (params.take 1) = p.val) (shape : profileShape params = true) (notOut : s.limits.lockout = none)
    (same : s.limits.pin = none ∨ s.limits.pin = some (beNat ((params.drop 1).take 2))) :
    ∃ t, exec (.profileWrite tag params) s = .next t ∧ LimitsAnswered s (p = s.limits.active)
      { setProfile s.limits p ((profileOf s.limits p).written (readProfile params)) with
        attempts := attemptsAfterPass s.limits } ⟨tag, 0x41#8, params⟩
      (profileWriteResults (readProfile params) ((profileOf s.limits p).written (readProfile params))) t := by
  have acted := (actProfileWrite_of (c := ⟨tag, 0x41#8, params⟩) other profile shape (reserve s)).trans
    (withPin_passes (s := reserve s) notOut same)
  refine ⟨_, (exec_taken taken).trans (congrArg Host.Outcome.next acted), ?_⟩
  have kept := setProfile_attempts s.limits p ((profileOf s.limits p).written (readProfile params))
    (attemptsAfterPass s.limits)
  have answered := limitsAnswered taken.notReserved (l := { setProfile s.limits p
      ((profileOf s.limits p).written (readProfile params)) with attempts := attemptsAfterPass s.limits })
    (standing_setProfile ..) (running_setProfile ..) (p = s.limits.active) ⟨tag, 0x41#8, params⟩
    (profileWriteResults (readProfile params) ((profileOf s.limits p).written (readProfile params)))
  have after (l : Limits) (h : l.active = s.limits.active) : afterProfileWrite p { reserve s with limits := l } =
      if p = s.limits.active then reevaluated { reserve s with limits := l } else { reserve s with limits := l } := by
    unfold afterProfileWrite
    rw [show ({ reserve s with limits := l } : State).limits.active = s.limits.active from h]
    rfl
  have profiles : profileOf { s.limits with attempts := attemptsAfterPass s.limits } p = profileOf s.limits p :=
    match p with
    | 0 | 1 | 2 | 3 => rfl
  have written : takeProfileWrite ⟨tag, 0x41#8, params⟩ p { reserve s with limits := { s.limits with
      attempts := attemptsAfterPass s.limits } } =
      answer ⟨tag, 0x41#8, params⟩ .done
        (profileWriteResults (readProfile params) ((profileOf s.limits p).written (readProfile params)))
        (afterProfileWrite p { reserve s with limits :=
          { setProfile s.limits p ((profileOf s.limits p).written (readProfile params)) with
            attempts := attemptsAfterPass s.limits } }) := by
    rw [← kept]
    unfold takeProfileWrite
    dsimp only
    rw [profiles]
  have evaluated := after { setProfile s.limits p ((profileOf s.limits p).written (readProfile params)) with
    attempts := attemptsAfterPass s.limits } (active_setProfile ..)
  rw [evaluated] at written
  exact Eq.mpr (congrArg _ written) answered

theorem actProfileRead_of (c : CommandCell) (s : State) :
    (c.params.length < 1 ∨ 4 ≤ c.number 0 1 → actProfileRead c s = badParameter c s) ∧
    (∀ p : Fin 4, 1 ≤ c.params.length → c.number 0 1 = p.val →
      actProfileRead c s = answer c .done (profileResults s.limits p) s) := by
  unfold actProfileRead
  refine ⟨fun bad => ?_, fun p whole profile => ?_⟩
  · split
    · rename_i carries
      rw [profileOfByte_high (bad.resolve_left (Nat.not_lt.2 ((carries_iff ..).1 carries)))]
    · rfl
  · rw [if_pos ((carries_iff ..).2 whole), profile, profileOfByte_val]

theorem profileReads {tag : Byte} {params : Bytes} {s : State} (taken : takesAtOnce s) :
    (params.length < 1 ∨ 4 ≤ beNat (params.take 1) →
      exec (.profileRead tag params) s = .next (replied tag 0x42#8 .badParameter [] s)) ∧
    (∀ p : Fin 4, 1 ≤ params.length → beNat (params.take 1) = p.val →
      exec (.profileRead tag params) s = .next (replied tag 0x42#8 .done (profileResults s.limits p) s)) := by
  have free := taken.notReserved
  obtain ⟨bad, read⟩ := actProfileRead_of ⟨tag, 0x42#8, params⟩ (reserve s)
  exact ⟨fun h => exec_answered taken ((bad h).trans (badParameter_reserve free _)),
    fun p whole profile => exec_answered taken ((read p whole profile).trans (answer_reserve free ..))⟩

theorem lockoutSeconds_eq {ticks k : Nat} (started : 1 ≤ k) (above : (k - 1) * 128000 < ticks)
    (below : ticks ≤ k * 128000) : lockoutSeconds (some ticks) = k := by
  unfold lockoutSeconds
  dsimp only
  omega

/-- Settles O44. -/
theorem profileCommands : Obligations.ProfileCommands := by
  intro tag params s taken
  have free := taken.notReserved
  obtain ⟨badRead, read⟩ := profileReads (tag := tag) (params := params) taken
  refine ⟨fun bad => exec_answered taken ((actProfileSelect_bad bad _).trans (badParameter_reserve free _)),
    fun p whole profile passes => ?_,
    fun bad => exec_answered taken ((actProfileWrite_bad (c := ⟨tag, 0x41#8, params⟩) bad _).trans (badParameter_reserve free _)),
    fun p other profile shape ⟨notOut, same⟩ => ?_, badRead, read, rfl, rfl,
    fun _ _ => lockoutSeconds_eq⟩
  · obtain ⟨t, run, limits, kept, evaluated, reply, frame⟩ :=
      profileSelects (tag := tag) taken p whole profile passes
    exact ⟨t, run, limits, fun same => kept (not_not.2 same), evaluated, reply, frame⟩
  · obtain ⟨t, run, limits, kept, evaluated, reply, frame⟩ :=
      profileWrites (tag := tag) taken other profile shape notOut same
    have profiles (q : Fin 4) : profileOf t.limits q =
        profileOf (setProfile s.limits p ((profileOf s.limits p).written (readProfile params))) q := by
      rw [limits]
      exact match q with
        | 0 | 1 | 2 | 3 => rfl
    have written := (profiles p).trans (profileOf_setProfile_same other ..)
    obtain ⟨locks, windows⟩ := locks_written (profileOf s.limits p) (readProfile params)
    refine ⟨t, run, ?_⟩
    rw [written]
    exact ⟨rfl, rfl, rfl, locks, windows, limits,
      fun q hq => (profiles q).trans (profileOf_setProfile_other hq ..), kept, evaluated, reply, frame⟩

end Sys2Proof.Machine
end

