-- ==== Sys2Proof/Proofs/Decisions.lean ====
section
/-! PROOFS. The entitlement test and the order of a decision (R126, R168, R169). -/

namespace Sys2Proof.Machine

set_option Elab.async false

variable {K : Special → Prop}

/-! ## The entitlement test (R126) -/

theorem tierEntitles_iff (s : State) (t : Nat) : tierEntitles s t = true ↔
    s.clock.state ≠ .unset ∧ ∃ x ∈ s.access.entitlements, x.tier = t ∧ s.day ≤ x.expiry := by
  unfold tierEntitles State.today
  by_cases unset : s.clock.state = .unset
  · simp [unset]
  · simp [unset, holdsTier]

theorem entitled_iff (s : State) (entry : ChannelEntry) (event : Option EventRecord) :
    entitled s entry event = true ↔ entry.tier = none ∨ (∃ t, entry.tier = some t ∧ tierEntitles s t = true) ∨
      (∃ e t, event = some e ∧ e.tier = some t ∧ tierEntitles s t = true) ∨
      (∃ e, event = some e ∧ ∃ r ∈ s.purchase.records, r.eventId = e.id) := by
  unfold entitled
  rw [Bool.or_eq_true]
  refine (or_congr ?_ ?_).trans or_assoc
  · cases entry.tier <;> simp
  · cases event with
    | none => simp
    | some e => cases tier : e.tier <;> simp [bought, tier]

/-- Of the Access Unit the test reads the tiers held (R126). -/
theorem entitled_access {s : State} {a : Access} (tiers : tierEntitles { s with access := a } = tierEntitles s)
    (entry : ChannelEntry) (event : Option EventRecord) :
    entitled s entry event = entitled { s with access := a } entry event := by
  unfold entitled
  rw [tiers]

theorem entitled_current (s : State) (entry : ChannelEntry)
    (event : Option EventRecord) : entitled s entry event = entitled { s with access := { s.access with
      entitlements := s.access.entitlements.filter (fun e => s.day ≤ e.expiry) } } entry event := by
  refine entitled_access ?_ entry event
  funext t
  rw [Bool.eq_iff_iff, tierEntitles_iff, tierEntitles_iff]
  refine and_congr_right fun _ => exists_congr fun x => ?_
  constructor
  · rintro ⟨hx, tier, today⟩
    exact ⟨(List.mem_filter.1 hx).1, tier, today⟩
  · rintro ⟨hx, tier, today⟩
    exact ⟨List.mem_filter.2 ⟨hx, decide_eq_true today⟩, tier, today⟩

theorem entitled_unset {s : State} (unset : s.clock.state = .unset) (entry : ChannelEntry)
    (event : Option EventRecord) :
    entitled s entry event = entitled { s with access := { s.access with entitlements := [] } } entry event := by
  refine entitled_access ?_ entry event
  funext t
  rw [Bool.eq_iff_iff, tierEntitles_iff, tierEntitles_iff]
  exact ⟨fun h => absurd unset h.1, fun h => absurd unset h.1⟩

/-! ## The decision (R168, R169) -/

theorem currentEvent_unset {s : State} (unset : s.clock.state = .unset) (c : Nat) : currentEvent s c = none := by
  unfold currentEvent
  rw [show s.now = none from if_pos unset]

theorem currentEvent_set {s : State} (set : s.clock.state ≠ .unset) (c : Nat) :
    currentEvent s c = s.guide.events.find? (fun e =>
      e.channel = c && !e.withdrawn && e.start ≤ s.clock.n / 1024 && s.clock.n / 1024 < e.start + e.duration) := by
  unfold currentEvent
  rw [show s.now = some (s.clock.n / 1024) from if_neg set]
  unfold eventAt eventsOf
  dsimp only
  rw [List.find?_filter]
  congr 1
  funext e
  unfold EventRecord.covers EventRecord.ends
  cases e.withdrawn <;> simp [Bool.and_assoc]

section
variable (s : State) (c : Context) (event : Option EventRecord)

/-! The grounds of a denial before the entitlement test, in their order (R168). -/

def signalGround : Prop := locked s c.feed = false ∨ (s.acqOf c.feed).state ≠ .presenting

def blackoutGround : Prop := ∃ e, event = some e ∧ s.access.region ∈ e.blackout

def lockGround : Prop := s.limits.active ≠ 0 ∧ c.channel ∈ (activeProfile s).locks

def ratingGround : Prop :=
  s.limits.active ≠ 0 ∧ (activeProfile s).ceiling < (event.map EventRecord.rating).getD c.entry.rating

def windowGround : Prop := s.limits.active ≠ 0 ∧ s.limits.standing = .outside

def allowanceGround : Prop :=
  s.limits.active ≠ 0 ∧ (activeProfile s).allowance ≠ 1440 ∧ (activeProfile s).remaining = 0

open Classical in
/-- The first ground that stands is the reason (R168). -/
theorem denyReason_eq : denyReason s c event =
    if signalGround s c then some .signal else if blackoutGround s event then some .blackout
    else if lockGround s c then some .channelLock else if ratingGround s c event then some .rating
    else if windowGround s then some .window else if allowanceGround s then some .allowance else none := by
  have signal : (!(locked s c.feed) || (s.acqOf c.feed).state ≠ .presenting) = true ↔ signalGround s c := by
    simp [signalGround]
  have blackout : (event.any (fun e => e.blackout.contains s.access.region)) = true ↔ blackoutGround s event := by
    simp [blackoutGround, Option.any_eq_true]
  have lock : (parental s && (activeProfile s).locks.contains c.channel) = true ↔ lockGround s c := by
    simp [lockGround, parental]
  have effective : effectiveRating c.entry event = (event.map EventRecord.rating).getD c.entry.rating := by
    cases event <;> rfl
  have rating : (parental s && (activeProfile s).ceiling < effectiveRating c.entry event) = true ↔
      ratingGround s c event := by
    rw [effective]
    simp [ratingGround, parental]
  have window : (parental s && s.limits.standing = .outside) = true ↔ windowGround s := by
    simp [windowGround, parental]
  have allowance : (parental s && (activeProfile s).metered && (activeProfile s).remaining = 0) = true ↔
      allowanceGround s := by
    simp [allowanceGround, parental, Profile.metered, and_assoc]
  unfold denyReason
  dsimp only
  simp only [signal, blackout, lock, rating, window, allowance]

end

theorem decideOn_denied {s : State} {c : Context} {r : Reason}
    (denied : denyReason s c (currentEvent s c.channel) = some r) :
    decideOn s c = ⟨.deny, r, none, (currentEvent s c.channel).map EventRecord.id⟩ := by
  unfold decideOn
  dsimp only
  rw [denied]

/-- A decision that no check denies (R168, R169). -/
theorem decideOn_clear {s : State} {c : Context} (clear : denyReason s c (currentEvent s c.channel) = none) :
    let event := currentEvent s c.channel
    let verdict := notEntitledVerdict s event
    decideOn s c = if entitled s c.entry event then
      (if (s.acqOf c.feed).scrambled && (s.slotOf c.feed).wait = .expired then
        ⟨.deny, .noKey, none, event.map EventRecord.id⟩ else ⟨.present, .none, none, event.map EventRecord.id⟩)
      else ⟨verdict.1, verdict.2.1, verdict.2.2, event.map EventRecord.id⟩ := by
  unfold decideOn
  dsimp only
  rw [clear]

/-- An event that is for sale gives a preview, and then an offer (R169). -/
theorem notEntitledVerdict_priced {s : State} {e : EventRecord} (set : s.clock.state ≠ .unset) (priced : e.price ≠ none) :
    notEntitledVerdict s (some e) = if s.clock.n / 1024 < e.start + e.previewMinutes * 60 then
      (.preview, .none, some (e.start + e.previewMinutes * 60)) else (.deny, .offer, none) := by
  have now : s.now = some (s.clock.n / 1024) := if_neg set
  unfold notEntitledVerdict
  dsimp only
  rw [if_pos (Option.isSome_iff_ne_none.2 priced), now]
  rfl

theorem notEntitledVerdict_unpriced {s : State} {event : Option EventRecord}
    (unpriced : ∀ e, event = some e → e.price = none) :
    notEntitledVerdict s event = (.deny, .notEntitled, none) := by
  unfold notEntitledVerdict
  split
  · rename_i e
    rw [unpriced e rfl]
    rfl
  · rfl

/-- What a decision finds where no check denies (R168, R169). -/
theorem decideOn_of_clear {s : State} {c : Context} (clear : denyReason s c (currentEvent s c.channel) = none) :
    let event := currentEvent s c.channel
    let found (d : Decision) (r : Reason) (previewEnd : Option Nat) : Prop :=
      decideOn s c = ⟨d, r, previewEnd, event.map EventRecord.id⟩
    let noKey := (s.acqOf c.feed).scrambled = true ∧ (s.slotOf c.feed).wait = .expired
    (entitled s c.entry event = true → (noKey → found .deny .noKey none) ∧ (¬ noKey → found .present .none none)) ∧
    (∀ e, entitled s c.entry event = false → event = some e → e.price ≠ none →
      let previewEnd := e.start + e.previewMinutes * 60
      (s.clock.n / 1024 < previewEnd → found .preview .none (some previewEnd)) ∧
      (previewEnd ≤ s.clock.n / 1024 → found .deny .offer none)) ∧
    (entitled s c.entry event = false → (∀ e, event = some e → e.price = none) →
      found .deny .notEntitled none) := by
  intro event found noKey
  have decided := decideOn_clear clear
  have key : ((s.acqOf c.feed).scrambled && (s.slotOf c.feed).wait = .expired) = true ↔ noKey := by simp [noKey]
  have unentitled (no : entitled s c.entry event = false) : ¬ entitled s c.entry event = true := by rw [no]; decide
  refine ⟨fun yes => ?_, fun e no current priced => ?_, fun no unpriced => ?_⟩
  · have entitled := decided.trans (if_pos yes)
    exact ⟨fun missing => entitled.trans (if_pos (key.2 missing)), fun has => entitled.trans (if_neg (mt key.1 has))⟩
  · have set : s.clock.state ≠ .unset := fun unset =>
      absurd ((currentEvent_unset unset c.channel).symm.trans current) nofun
    have verdict : notEntitledVerdict s event = _ :=
      (congrArg (notEntitledVerdict s) current).trans (notEntitledVerdict_priced set priced)
    have offered := decided.trans (if_neg (unentitled no))
    refine ⟨fun early => offered.trans ?_, fun late => offered.trans ?_⟩
    · rw [verdict.trans (if_pos early)]
    · rw [verdict.trans (if_neg (Nat.not_lt.2 late))]
  · have denied := decided.trans (if_neg (unentitled no))
    rw [notEntitledVerdict_unpriced unpriced] at denied
    exact denied

end Sys2Proof.Machine
end

