-- ==== Sys2Proof/Proofs/Triggers.lean ====
section
/-! PROOFS. O47: what a trigger does (R171 to R173), with the entitlement test and the decision. -/

namespace Sys2Proof.Machine

set_option Elab.async false

variable {K : Special → Prop}

/-! ## What a report leaves of the two queues (R185) -/

/-- A cell of the output queue with the mask of a NOTICE left out. -/
def plainOut (x : OutCell) : OutCell := match x with | .ofPart (.notice _) => .ofPart (.notice 0) | x => x

theorem plainOut_addFlags (m : BitVec 16) (x : OutCell) : plainOut (x.addFlags m) = plainOut x := by
  cases x with
  | programme => rfl
  | ofPart c => cases c <;> rfl

/-- From s to t notices were reported only: the output queue stands but for the masks of its NOTICE cells, a MARKER
stays where it waits, and no reply entry has come free. -/
structure Reported (s t : State) : Prop where
  output : t.output = { s.output with queue := t.output.queue }
  queue : t.output.queue.map plainOut = s.output.queue.map plainOut
  marker : ∀ c d r, LocalCell.marker c d r ∈ s.command.replyQueue → LocalCell.marker c d r ∈ t.command.replyQueue
  full : freeEntries s = 0 → freeEntries t = 0

theorem Reported.refl (s : State) : Reported s s := ⟨rfl, rfl, fun _ _ _ h => h, id⟩

theorem Reported.trans {s t u : State} (h : Reported s t) (k : Reported t u) : Reported s u :=
  ⟨k.output.trans (by rw [h.output]), k.queue.trans h.queue, fun _ _ _ m => k.marker _ _ _ (h.marker _ _ _ m),
    fun e => k.full (h.full e)⟩

theorem reported_reportRaise (m : BitVec 16) (s : State) : Reported s (reportRaise m s) := by
  unfold reportRaise
  split_ifs with waits pending free
  · refine ⟨rfl, ?_, fun c d r h => List.mem_map.2 ⟨_, h, rfl⟩, fun h => ?_⟩
    · rw [List.map_map]
      exact List.map_congr_left fun x _ => plainOut_addFlags m x
    · unfold freeEntries at h ⊢
      rw [List.length_map]
      exact h
  · exact .refl s
  · exact ⟨rfl, rfl, fun _ _ _ h => List.mem_append_left _ h, fun h => absurd free (by omega)⟩
  · exact ⟨rfl, rfl, fun _ _ _ h => h, id⟩

theorem reported_raise (n : Notice) (s : State) : Reported s (raise n s) := by
  unfold raise
  split
  · exact .refl s
  · have flagged (u : BitVec 16) : Reported s { s with command := { s.command with notices := u } } :=
      ⟨rfl, rfl, fun _ _ _ h => h, id⟩
    exact (flagged _).trans (reported_reportRaise ..)

theorem reported_evaluateMeter (s : State) : Reported s (evaluateMeter s) := by
  have ran (r : Bool) : Reported s { s with limits := { s.limits with running := r } } :=
    ⟨rfl, rfl, fun _ _ _ h => h, id⟩
  unfold evaluateMeter
  split_ifs
  · exact .refl s
  · exact (ran true).trans (reported_raise ..)
  · exact ran true
  · exact ran false

/-! ## A changed decision (R172) -/

/-- Where a marker stands that has been formed (R173). -/
def MarkerPlaced (m : Marker) (s t : State) : Prop :=
  (s.output.pendingMarker ≠ none →
    t.output.pendingMarker = some m ∧ t.output.markersReplaced = bump s.output.markersReplaced) ∧
  (s.output.pendingMarker = none → t.output.markersReplaced = s.output.markersReplaced ∧
    ((t.output.pendingMarker = none ∧ LocalCell.marker m.channel m.decision m.reason ∈ t.command.replyQueue) ∨
      (t.output.pendingMarker = some m ∧ freeEntries t = 0)))

theorem markerPlaced_placeMarker (m : Marker) (s : State) : MarkerPlaced m s (placeMarker m s) := by
  unfold placeMarker
  split_ifs with pending free
  · exact ⟨fun _ => ⟨rfl, rfl⟩, fun none => by rw [none] at pending; exact absurd pending (by decide)⟩
  · rw [Option.not_isSome_iff_eq_none] at pending
    exact ⟨fun some => absurd pending some,
      fun none => ⟨rfl, .inl ⟨none, List.mem_append_right _ (List.mem_singleton.2 rfl)⟩⟩⟩
  · rw [Option.not_isSome_iff_eq_none] at pending
    exact ⟨fun some => absurd pending some, fun _ => ⟨rfl, .inr ⟨rfl, Nat.eq_zero_of_not_pos free⟩⟩⟩

theorem MarkerPlaced.after {m : Marker} {s u t : State} (h : MarkerPlaced m s u) (later : Reported u t) :
    MarkerPlaced m s t := by
  have pending : t.output.pendingMarker = u.output.pendingMarker := by rw [later.output]
  have replaced : t.output.markersReplaced = u.output.markersReplaced := by rw [later.output]
  unfold MarkerPlaced
  rw [pending, replaced]
  exact ⟨h.1, fun none => ⟨(h.2 none).1, (h.2 none).2.imp (fun k => ⟨k.1, later.marker _ _ _ k.2⟩)
    (fun k => ⟨k.1, later.full k.2⟩)⟩⟩

theorem MarkerPlaced.of_before {m : Marker} {s u t : State} (h : MarkerPlaced m u t)
    (pending : u.output.pendingMarker = s.output.pendingMarker)
    (replaced : u.output.markersReplaced = s.output.markersReplaced) : MarkerPlaced m s t := by
  unfold MarkerPlaced at h ⊢
  rwa [pending, replaced] at h

/-- What a changed decision d with reason r leaves of s: flush, notices, marker and priming (R172). -/
structure Announced (m : Marker) (s t : State) : Prop where
  access : noticeSet .accessChanged t = true
  offer : m.decision = .deny ∧ m.reason = .offer → noticeSet .offer t = true
  denied : m.decision = .deny →
    t.output.queue.map plainOut = (s.output.queue.filter (fun x => !x.isProgramme)).map plainOut ∧
    t.output.flushed = min (s.output.flushed + s.output.queue.countP OutCell.isProgramme) 65535 ∧
    t.output.priming = none
  passed : m.decision ≠ .deny → t.output.queue.map plainOut = s.output.queue.map plainOut ∧
    t.output.flushed = s.output.flushed ∧ t.output.priming = some (s.output.timeout * 128)
  marker : MarkerPlaced m s t

theorem queue_placeMarker (m : Marker) (s : State) : (placeMarker m s).output.queue = s.output.queue ∧
    (placeMarker m s).output.flushed = s.output.flushed ∧ (placeMarker m s).output.timeout = s.output.timeout := by
  unfold placeMarker
  split_ifs <;> exact ⟨rfl, rfl, rfl⟩

theorem noticeSet_placeMarker {n : Notice} {s : State} (h : noticeSet n s = true) (m : Marker) :
    noticeSet n (placeMarker m s) = true := (noticeSet_of_notices (notices_placeMarker m s)).trans h

/-- The notices of a changed decision, ACCESS CHANGED and OFFER (R172, steps 2 and 3). -/
def announced (d : Decision) (r : Reason) (s : State) : State :=
  let s1 := raise .accessChanged s
  if d = .deny && r = .offer then raise .offer s1 else s1

theorem reported_announced (d : Decision) (r : Reason) (s : State) : Reported s (announced d r s) := by
  unfold announced
  dsimp only
  split
  · exact (reported_raise ..).trans (reported_raise ..)
  · exact reported_raise ..

theorem noticeSet_announced (d : Decision) (r : Reason) (s : State) :
    noticeSet .accessChanged (announced d r s) = true ∧
    (d = .deny ∧ r = .offer → noticeSet .offer (announced d r s) = true) := by
  unfold announced
  dsimp only
  split
  · exact ⟨noticeSet_raise_of_set (noticeSet_raise ..) _, fun _ => noticeSet_raise ..⟩
  · rename_i other
    exact ⟨noticeSet_raise .., fun h => absurd h (by simpa using other)⟩

theorem announce_eq (c : Nat) (d : Decision) (r : Reason) (s : State) : announce c d r false s =
    if d = .deny then openPriming (placeMarker ⟨c, d, r⟩ (announced d r (flushProgramme s)))
    else startPriming (placeMarker ⟨c, d, r⟩ (announced d r s)) := by
  cases d <;> rfl

theorem announced_announce (c : Nat) (d : Decision) (r : Reason) (s : State) :
    Announced ⟨c, d, r⟩ s (announce c d r false s) := by
  rw [announce_eq]
  split
  · rename_i deny
    have reported := reported_announced d r (flushProgramme s)
    obtain ⟨access, offer⟩ := noticeSet_announced d r (flushProgramme s)
    generalize announced d r (flushProgramme s) = u at reported access offer ⊢
    obtain ⟨queue, flushed, timeout⟩ := queue_placeMarker ⟨c, d, r⟩ u
    have marker : MarkerPlaced ⟨c, d, r⟩ s (placeMarker ⟨c, d, r⟩ u) := by
      refine (markerPlaced_placeMarker ⟨c, d, r⟩ u).of_before ?_ ?_ <;> rw [reported.output] <;> rfl
    refine ⟨noticeSet_placeMarker access _, fun h => noticeSet_placeMarker (offer h) _, fun _ => ⟨?_, ?_, rfl⟩,
      fun h => absurd deny h, marker⟩
    · exact (congrArg (List.map plainOut) queue).trans reported.queue
    · exact flushed.trans (by rw [reported.output]; rfl)
  · rename_i pass
    have reported := reported_announced d r s
    obtain ⟨access, offer⟩ := noticeSet_announced d r s
    generalize announced d r s = u at reported access offer ⊢
    obtain ⟨queue, flushed, timeout⟩ := queue_placeMarker ⟨c, d, r⟩ u
    have marker : MarkerPlaced ⟨c, d, r⟩ s (placeMarker ⟨c, d, r⟩ u) := by
      refine (markerPlaced_placeMarker ⟨c, d, r⟩ u).of_before ?_ ?_ <;> rw [reported.output]
    refine ⟨noticeSet_placeMarker access _, fun h => noticeSet_placeMarker (offer h) _, fun h => absurd h pass,
      fun _ => ⟨?_, ?_, ?_⟩, marker⟩
    · exact (congrArg (List.map plainOut) queue).trans reported.queue
    · exact flushed.trans (by rw [reported.output])
    · exact congrArg (fun n => some (msTicks n)) (timeout.trans (by rw [reported.output]))

theorem Announced.after {m : Marker} {s u t : State} (h : Announced m s u) (later : Reported u t)
    (notices : ∀ n, noticeSet n u = true → noticeSet n t = true) : Announced m s t := by
  have flushed : t.output.flushed = u.output.flushed := by rw [later.output]
  have priming : t.output.priming = u.output.priming := by rw [later.output]
  refine ⟨notices _ h.access, fun k => notices _ (h.offer k), fun k => ?_, fun k => ?_, h.marker.after later⟩
  all_goals rw [later.queue, flushed, priming]
  · exact h.denied k
  · exact h.passed k

/-! ## A re-decision trigger (R171, R172) -/

/-- The context with what a decision has found. -/
def Context.found (c : Context) (v : Verdict) : Context :=
  { c with decision := v.decision, reason := v.reason, previewEnd := v.previewEnd, eventId := v.eventId }

theorem trigger_of {s : State} {c : Context} (context : s.output.context = some c) (quiet : c.changing = false) :
    let v := decideOn s c
    let u := { s with output := { s.output with context := some (c.found v) } }
    trigger s = evaluateMeter (if v.decision ≠ c.decision ∨ v.reason ≠ c.reason then
      announce c.channel v.decision v.reason false u
      else if v.decision = .deny ∧ v.reason = .offer ∧ v.eventId ≠ c.eventId then raise .offer u else u) := by
  have run : trigger s = settle c (decideOn s c) false false s := by
    unfold trigger; rw [context]; simp [quiet]
  rw [run]
  unfold settle
  simp only [Bool.false_or, Bool.or_eq_true, Bool.and_eq_true, decide_eq_true_eq, and_assoc]
  rfl

theorem running_trigger {s : State} {c : Context} (context : s.output.context = some c) (quiet : c.changing = false) :
    let v := decideOn s c
    (trigger s).limits.running = true ↔ v.decision ≠ .deny ∧ s.limits.active ≠ 0 ∧
      (activeProfile s).allowance ≠ 1440 ∧ 0 < (activeProfile s).remaining := by
  obtain ⟨after, _, running⟩ := redecided_trigger s c context quiet
  have behind := untriggered_trigger s
  have active : (trigger s).limits.active = s.limits.active := (congrArg (fun x : State => x.limits.active) behind :)
  rw [decideOn_of_untriggered behind] at after
  rw [running, meterMayRun_iff, activeProfile_of_untriggered behind, active, after]
  simp [Profile.metered, quiet]

/-- What a trigger does while a context exists with its changing flag clear (R171, R172). -/
theorem trigger_spec {s : State} {c : Context} (context : s.output.context = some c) (quiet : c.changing = false) :
    let v := decideOn s c
    let changed := v.decision ≠ c.decision ∨ v.reason ≠ c.reason
    let offer := v.decision = .deny ∧ v.reason = .offer
    (¬ changed → ¬ (offer ∧ v.eventId ≠ c.eventId) →
      trigger s = evaluateMeter { s with output := { s.output with context := some (c.found v) } }) ∧
    (¬ changed → offer → v.eventId ≠ c.eventId → noticeSet .offer (trigger s) = true) ∧
    (changed → Announced ⟨c.channel, v.decision, v.reason⟩ s (trigger s)) := by
  intro v changed offer
  have run := trigger_of context quiet
  dsimp only at run
  rw [run]
  refine ⟨fun same still => ?_, fun same denied new => ?_, fun moved => ?_⟩
  · rw [if_neg same, if_neg (fun h => still ⟨⟨h.1, h.2.1⟩, h.2.2⟩)]
  · rw [if_neg same, if_pos ⟨denied.1, denied.2, new⟩]
    exact noticeSet_evaluateMeter_of_set (noticeSet_raise ..)
  · rw [if_pos moved]
    have told (x : Context) := announced_announce c.channel v.decision v.reason
      { s with output := { s.output with context := some x } }
    obtain ⟨access, offers, denied, passed, marker⟩ := (told (c.found v)).after (reported_evaluateMeter _)
      fun _ => noticeSet_evaluateMeter_of_set
    exact ⟨access, offers, denied, passed, marker⟩

/-- The clause of the decision's order, in the words of the statements (R168). -/
theorem decisionOrder (s : State) (c : Context) :
    let event := currentEvent s c.channel
    let found (d : Decision) (r : Reason) (previewEnd : Option Nat) : Prop :=
      decideOn s c = ⟨d, r, previewEnd, event.map EventRecord.id⟩
    let signal := signalGround s c
    let blackout := blackoutGround s event
    let lockedOut := lockGround s c
    let rating := ratingGround s c event
    let window := windowGround s
    let allowance := allowanceGround s
    let clear := ¬ signal ∧ ¬ blackout ∧ ¬ lockedOut ∧ ¬ rating ∧ ¬ window ∧ ¬ allowance
    (signal → found .deny .signal none) ∧
    (¬ signal → blackout → found .deny .blackout none) ∧
    (¬ signal → ¬ blackout → lockedOut → found .deny .channelLock none) ∧
    (¬ signal → ¬ blackout → ¬ lockedOut → rating → found .deny .rating none) ∧
    (¬ signal → ¬ blackout → ¬ lockedOut → ¬ rating → window → found .deny .window none) ∧
    (¬ signal → ¬ blackout → ¬ lockedOut → ¬ rating → ¬ window → allowance → found .deny .allowance none) ∧
    (clear → denyReason s c event = none) := by
  intro event found signal blackout lockedOut rating window allowance clear
  have reason := denyReason_eq s c event
  refine ⟨fun a => decideOn_denied (reason.trans (if_pos a)),
    fun a b => decideOn_denied (reason.trans ((if_neg a).trans (if_pos b))),
    fun a b d => decideOn_denied (reason.trans ((if_neg a).trans ((if_neg b).trans (if_pos d)))),
    fun a b d e => decideOn_denied (reason.trans ((if_neg a).trans ((if_neg b).trans ((if_neg d).trans (if_pos e))))),
    fun a b d e g => decideOn_denied (reason.trans ((if_neg a).trans ((if_neg b).trans ((if_neg d).trans
      ((if_neg e).trans (if_pos g)))))),
    fun a b d e g h => decideOn_denied (reason.trans ((if_neg a).trans ((if_neg b).trans ((if_neg d).trans
      ((if_neg e).trans ((if_neg g).trans (if_pos h))))))), fun ⟨a, b, d, e, g, h⟩ => ?_⟩
  exact reason.trans ((if_neg a).trans ((if_neg b).trans ((if_neg d).trans ((if_neg e).trans ((if_neg g).trans
    (if_neg h))))))

/-- Settles O47. -/
theorem entitlementTestAndDecision : Obligations.EntitlementTestAndDecision := by
  refine ⟨fun s entry event => ⟨?_, fun _ => entitled_current s entry event, fun unset => entitled_unset unset entry event⟩,
    fun s c => ?_, fun s none => ?_, fun s c context => ⟨fun changing => ?_, fun quiet => ?_⟩⟩
  · rw [entitled_iff]
    simp only [tierEntitles_iff]
  · obtain ⟨signal, blackout, lockedOut, rating, window, allowance, clear⟩ := decisionOrder s c
    have open_ (h : _) := decideOn_of_clear (clear h)
    exact ⟨fun unset => currentEvent_unset unset _, fun set => currentEvent_set set _, signal, blackout, lockedOut,
      rating, window, allowance, fun h => (open_ h).1, fun e h => (open_ h).2.1 e, fun h => (open_ h).2.2⟩
  · unfold trigger
    rw [none]
  · unfold trigger
    rw [context]
    exact if_pos changing
  · have behind := untriggered_trigger s
    obtain ⟨after, _, _⟩ := redecided_trigger s c context quiet
    rw [decideOn_of_untriggered behind] at after
    obtain ⟨same, offers, changed⟩ := trigger_spec context quiet
    have told (h : _) := changed h
    exact ⟨after, behind, running_trigger context quiet, same, offers, fun moved =>
      ⟨(told moved).access, (told moved).offer, (told moved).denied, (told moved).passed, (told moved).marker⟩⟩

end Sys2Proof.Machine
end

