-- ==== Sys2Proof/Proofs/ManagementChecks.lean ====
section
/-! PROOFS. The checks of management messages (R33 to R36). -/

namespace Sys2Proof.Machine

set_option Elab.async false

variable {K : Special → Prop}

/-! ## Management messages (R33 to R36) -/

/-- The code of an address mode, and the sizes of its two fields. -/
theorem modeOfCode_some {n : Nat} (low : 1 ≤ n) (high : n ≤ 3) : ∃ m, modeOfCode n = some m ∧
    m.addressBytes = (if n = 1 then 4 else if n = 2 then 2 else 0) ∧ m.tagBytes = (if n = 3 then 0 else 8) ∧
    (m = .unit ↔ n = 1) ∧ (m = .group ↔ n = 2) ∧ (m = .all ↔ n = 3) := by
  obtain rfl | rfl | rfl : n = 1 ∨ n = 2 ∨ n = 3 := by omega
  · exact ⟨.unit, rfl, rfl, rfl, by decide, by decide, by decide⟩
  · exact ⟨.group, rfl, rfl, rfl, by decide, by decide, by decide⟩
  · exact ⟨.all, rfl, rfl, rfl, by decide, by decide, by decide⟩

theorem modeOfCode_none {n : Nat} (bad : ¬ (1 ≤ n ∧ n ≤ 3)) : modeOfCode n = none := by
  unfold modeOfCode
  split <;> first | rfl | omega

theorem kindOfMessage_none {n : Nat} (bad : n = 0 ∨ 9 < n) : kindOfMessage n = none := by
  unfold kindOfMessage
  split <;> first | rfl | omega

/-- The owner that takes a message of a kind (R36). -/
def ownerTakes (n : Nat) (params : Bytes) (s t : State) : Prop :=
  (n = 1 → t = entitle params s) ∧ (n = 2 → t = revoke params s) ∧
  (n = 3 → t = region params s) ∧ (n = 4 → t = groupAssign params s) ∧
  (n = 5 → t = serviceKey params s) ∧ (n = 6 → t = creditLimit params s) ∧
  (n = 7 → t = collect params s) ∧ (n = 8 → t = clearPurchases params s) ∧
  (n = 9 → t = pinReset params s)

theorem kindOfMessage_some {n : Nat} (low : 1 ≤ n) (high : n ≤ 9) : ∃ k, kindOfMessage n = some k ∧
    (k = .serviceKey ↔ n = 5) ∧ ∀ params s, ownerTakes n params s (applyMessage k params s) := by
  interval_cases n
  all_goals
    refine ⟨_, rfl, by decide, fun params s => ?_⟩
    simp [ownerTakes, applyMessage]

/-- The message of a body of the right length. -/
def messageOf (body : Bytes) (m : AddressMode) : Message :=
  let a := m.addressBytes
  let n := (byteAt body (2 + a)).toNat
  { mode := m, address := beNat ((body.drop 1).take a), kindCode := (byteAt body (1 + a)).toNat,
    params := (body.drop (3 + a)).take n, sealedPart := body.take (3 + a + n), tag := body.drop (3 + a + n) }

theorem readMessage_eq {body : Bytes} {m : AddressMode} (mode : modeOfCode (byteAt body 0).toNat = some m) :
    readMessage body = if body.length =
        3 + m.addressBytes + (byteAt body (2 + m.addressBytes)).toNat + m.tagBytes then
      some (messageOf body m) else none := by
  unfold readMessage
  rw [mode]
  rfl

theorem managementSection_malformed {body : Bytes} (none : readMessage body = none) (s : State) :
    managementSection body s =
      { s with assembler := { s.assembler with malformed := bump s.assembler.malformed } } := by
  unfold managementSection
  rw [none]
  rfl

theorem managementSection_of {body : Bytes} {m : Message} (read : readMessage body = some m) (s : State) :
    managementSection body s = takeFate (messageFate m s) s := by
  unfold managementSection
  rw [read]

theorem noGeneration_iff (a : Access) :
    noGeneration a = true ↔ ¬ (a.slot1.isSome = true ∨ a.slot2.isSome = true) := by
  unfold noGeneration
  cases a.slot1 <;> cases a.slot2 <;> simp

/-- The checks of R33 past the shape, in their order. -/
theorem messageFate_spec (m : Message) (s : State) :
    let keyed := s.access.slot1.isSome = true ∨ s.access.slot2.isSome = true
    (addressed m s = false → messageFate m s = .notAddressed) ∧
    (addressed m s = true → kindOfMessage m.kindCode = none → messageFate m s = .unknownKind) ∧
    (∀ k, addressed m s = true → kindOfMessage m.kindCode = some k →
      (k = .serviceKey → m.mode ≠ .unit → messageFate m s = .malformed) ∧
      (¬ (k = .serviceKey ∧ m.mode ≠ .unit) →
        (m.mode ≠ .all → k ≠ .serviceKey → ¬ keyed → messageFate m s = .noKey) ∧
        (m.mode = .all ∨ k = .serviceKey ∨ keyed →
          (integrityPasses m k s = false → messageFate m s = .integrityFailure) ∧
          (integrityPasses m k s = true → messageFate m s = .taken k m.params)))) := by
  intro keyed
  have noKeys := noGeneration_iff s.access
  unfold messageFate
  refine ⟨fun no => by rw [no]; rfl, fun yes none => by rw [yes, none]; rfl, fun k yes kind => ?_⟩
  rw [yes, kind]
  dsimp only
  rw [if_neg (by decide)]
  refine ⟨fun key other => if_pos (by simp [key, other]), fun fine => ?_⟩
  rw [if_neg (by simpa using fine)]
  refine ⟨fun notAll notKey unkeyed => if_pos ?_, fun some => ?_⟩
  · simp [notAll, notKey, noKeys.2 unkeyed]
  · have has : ¬ ((m.mode ≠ .all && noGeneration s.access && k ≠ .serviceKey) = true) := by
      simp only [Bool.and_eq_true, decide_eq_true_eq, noKeys]
      rintro ⟨⟨notAll, unkeyed⟩, notKey⟩
      exact (some.resolve_left notAll).elim notKey unkeyed
    rw [if_neg has]
    exact ⟨fun fails => by rw [fails]; rfl, fun passes => by rw [passes]; rfl⟩

/-- The integrity check in the words of the statements (R35). -/
theorem integrityPasses_iff (m : Message) (k : MessageKind) (s : State) (unit : k = .serviceKey → m.mode = .unit) :
    integrityPasses m k s = true ↔ m.mode = .all ∨
      (k = .serviceKey ∧ Config.deviceCheck m.sealedPart m.tag = true) ∨
      (k ≠ .serviceKey ∧ ∃ g, currentGeneration s.access = some g ∧
        Config.generationCheck g.material m.sealedPart m.tag = true) := by
  unfold integrityPasses
  by_cases all : m.mode = .all
  · simp [all]
  · by_cases key : k = .serviceKey
    · simp [key, unit key]
    · cases currentGeneration s.access <;> simp [all, key]

theorem addressed_iff (m : Message) (s : State) : addressed m s = true ↔ m.mode = .all ∨
    (m.mode = .unit ∧ m.address = s.command.unitAddress ∧ s.command.unitAddress ≠ 0) ∨
    (m.mode = .group ∧ s.access.group = some m.address) := by
  unfold addressed
  cases m.mode <;> simp

theorem managementMessages_checks (body : Bytes) (s : State) :
    let mode := (byteAt body 0).toNat
    let a := if mode = 1 then 4 else if mode = 2 then 2 else 0
    let kind := (byteAt body (1 + a)).toNat
    let n := (byteAt body (2 + a)).toNat
    let address := beNat ((body.drop 1).take a)
    let params := (body.drop (3 + a)).take n
    let whole := body.take (3 + a + n)
    let tag := body.drop (3 + a + n)
    let u := s.assembler
    let t := managementSection body s
    let shape := 1 ≤ mode ∧ mode ≤ 3 ∧ body.length = 3 + a + n + (if mode = 3 then 0 else 8)
    let mine := mode = 3 ∨ (mode = 1 ∧ address = s.command.unitAddress ∧ s.command.unitAddress ≠ 0) ∨
      (mode = 2 ∧ s.access.group = some address)
    let keyed := s.access.slot1.isSome = true ∨ s.access.slot2.isSome = true
    let known := 1 ≤ kind ∧ kind ≤ 9 ∧ (kind = 5 → mode = 1)
    let sound := mode = 3 ∨ (kind = 5 ∧ Config.deviceCheck whole tag = true) ∨
      (kind ≠ 5 ∧ ∃ g, currentGeneration s.access = some g ∧ Config.generationCheck g.material whole tag = true)
    (¬ shape → t = { s with assembler := { u with malformed := bump u.malformed } }) ∧
    (shape → ¬ mine → t = s) ∧
    (shape → mine → kind = 0 ∨ 9 < kind →
      t = { s with assembler := { u with unknownKinds := bump u.unknownKinds } }) ∧
    (shape → mine → kind = 5 → mode ≠ 1 →
      t = { s with assembler := { u with malformed := bump u.malformed } }) ∧
    (shape → mine → known → mode ≠ 3 → kind ≠ 5 → ¬ keyed →
      t = { s with assembler := { u with noKey := bump u.noKey } }) ∧
    (shape → mine → known → mode = 3 ∨ kind = 5 ∨ keyed → ¬ sound →
      t = { s with assembler := { u with integrityFailures := bump u.integrityFailures } }) ∧
    (shape → mine → known → mode = 3 ∨ kind = 5 ∨ keyed → sound → ownerTakes kind params s t) := by
  intro mode a kind n address params whole tag u t shape mine keyed known sound
  by_cases inRange : 1 ≤ mode ∧ mode ≤ 3
  case neg =>
    have none : readMessage body = none := by unfold readMessage; rw [modeOfCode_none inRange]
    have misshapen : ¬ shape := fun h => inRange ⟨h.1, h.2.1⟩
    exact ⟨fun _ => managementSection_malformed none s, fun h => absurd h misshapen, fun h => absurd h misshapen,
      fun h => absurd h misshapen, fun h => absurd h misshapen, fun h => absurd h misshapen,
      fun h => absurd h misshapen⟩
  obtain ⟨m, code, addressBytes, tagBytes, isUnit, isGroup, isAll⟩ := modeOfCode_some inRange.1 inRange.2
  have read := readMessage_eq code
  rw [tagBytes] at read
  have message : messageOf body m =
      { mode := m, address, kindCode := kind, params, sealedPart := whole, tag } := by
    unfold messageOf
    rw [addressBytes]
  rw [addressBytes, message] at read
  by_cases size : body.length = 3 + a + n + (if mode = 3 then 0 else 8)
  case neg =>
    have misshapen : ¬ shape := fun h => size h.2.2
    exact ⟨fun _ => managementSection_malformed (read.trans (if_neg size)) s, fun h => absurd h misshapen,
      fun h => absurd h misshapen, fun h => absurd h misshapen, fun h => absurd h misshapen,
      fun h => absurd h misshapen, fun h => absurd h misshapen⟩
  have whole_ : shape := ⟨inRange.1, inRange.2, size⟩
  have run := managementSection_of (read.trans (if_pos size)) s
  generalize is : (Message.mk m address kind params whole tag) = msg at run
  have addressedTo : addressed msg s = true ↔ mine := by
    rw [addressed_iff, ← is]
    dsimp only
    rw [isUnit, isGroup, isAll]
  obtain ⟨notAddressed, unknown, fates⟩ := messageFate_spec msg s
  have kindCode : msg.kindCode = kind := by rw [← is]
  have msgMode : msg.mode = m := by rw [← is]
  have told {fate : MessageFate} (h : messageFate msg s = fate) : t = takeFate fate s := run.trans (by rw [h])
  refine ⟨fun h => absurd whole_ h, fun _ other => told (notAddressed ?_), fun _ mine_ none => told (unknown ?_ ?_),
    fun _ mine_ key other => ?_, fun _ mine_ fine notAll notKey unkeyed => ?_, fun _ mine_ fine some unsound => ?_,
    fun _ mine_ fine some issound => ?_⟩
  · exact Bool.eq_false_iff.2 (mt addressedTo.1 other)
  · exact addressedTo.2 mine_
  · rw [kindCode]; exact kindOfMessage_none none
  · obtain ⟨k, found, isKey, _⟩ := kindOfMessage_some (n := kind) (by omega) (by omega)
    exact told ((fates k (addressedTo.2 mine_) (kindCode ▸ found)).1 (isKey.2 key)
      (by rw [msgMode]; exact mt isUnit.1 other))
  all_goals
    obtain ⟨low, high, unitOnly⟩ := fine
    obtain ⟨k, found, isKey, owner⟩ := kindOfMessage_some low high
    have unit : k = .serviceKey → msg.mode = .unit := fun key => msgMode.trans (isUnit.2 (unitOnly (isKey.1 key)))
    obtain ⟨noKey, checks⟩ := (fates k (addressedTo.2 mine_) (kindCode ▸ found)).2 fun h => h.2 (unit h.1)
  · exact told (noKey (by rw [msgMode]; exact mt isAll.1 notAll) (mt isKey.1 notKey) unkeyed)
  all_goals
    obtain ⟨fails, passes⟩ := checks (some.imp (fun h => msgMode.trans (isAll.2 h)) (Or.imp_left isKey.2))
    have integrity : integrityPasses msg k s = true ↔ sound := by
      rw [integrityPasses_iff msg k s unit, msgMode, isAll, ne_eq, isKey, ← is]
  · exact told (fails (Bool.eq_false_iff.2 (mt integrity.1 unsound)))
  · have params_ : msg.params = params := by rw [← is]
    have taken := told (passes (integrity.2 issound))
    rw [params_] at taken
    rw [taken]
    exact owner params s

end Sys2Proof.Machine
end

