-- ==== Sys2Proof/Proofs/ManagementMessages.lean ====
section
/-! PROOFS. O14: the messages of the Access Unit (R114, R117, R118), with the checks of all. -/

namespace Sys2Proof.Machine

set_option Elab.async false

variable {K : Special → Prop}

/-! ## The best of a list (R66, R114) -/

/-- The best so far, or the next one where it is better. -/
def pickBest {α : Type} (better : α → α → Bool) (best : Option α) (e : α) : Option α :=
  match best with
  | none => some e
  | some b => if better e b then some e else some b

section
variable {α : Type} {better : α → α → Bool} {before atLeast : α → α → Prop}

theorem pickBest_some (es : List α) (b : α) : ∃ x, es.foldl (pickBest better) (some b) = some x := by
  induction es generalizing b with
  | nil => exact ⟨b, rfl⟩
  | cons e es ih =>
    rw [List.foldl_cons]
    unfold pickBest
    dsimp only
    split
    · exact ih e
    · exact ih b

/-- The best of a list whose order settles the ties: one that no other is better than. -/
theorem best_of_foldl (refl : ∀ x, atLeast x x) (trans : ∀ x y z, atLeast x y → atLeast y z → atLeast x z)
    (take : ∀ e b, before b e → better e b = true → atLeast e b)
    (keep : ∀ e b, before b e → better e b = false → atLeast b e) (es : List α) (b : α)
    (order : (b :: es).Pairwise before) {x : α} (found : es.foldl (pickBest better) (some b) = some x) :
    x ∈ b :: es ∧ ∀ y ∈ b :: es, atLeast x y := by
  induction es generalizing b with
  | nil =>
    obtain rfl : b = x := Option.some.inj found
    exact ⟨List.mem_singleton.2 rfl, fun y hy => List.mem_singleton.1 hy ▸ refl b⟩
  | cons e es ih =>
    obtain ⟨first, rest⟩ := List.pairwise_cons.1 order
    rw [List.foldl_cons] at found
    unfold pickBest at found
    dsimp only at found
    have be := first e List.mem_cons_self
    split at found
    · rename_i wins
      obtain ⟨member, best⟩ := ih e rest found
      refine ⟨List.mem_cons_of_mem b member, fun y hy => ?_⟩
      rcases List.mem_cons.1 hy with rfl | hy
      · exact trans x e y (best e List.mem_cons_self) (take e y be wins)
      · exact best y hy
    · rename_i stays
      have shorter : (b :: es).Pairwise before := order.sublist (.cons_cons b (List.sublist_cons_self e es))
      obtain ⟨member, best⟩ := ih b shorter found
      refine ⟨?_, fun y hy => ?_⟩
      · rcases List.mem_cons.1 member with rfl | member
        · exact List.mem_cons_self
        · exact List.mem_cons_of_mem b (List.mem_cons_of_mem e member)
      · rcases List.mem_cons.1 hy with rfl | hy
        · exact best y List.mem_cons_self
        · rcases List.mem_cons.1 hy with rfl | hy
          · exact trans x b y (best b List.mem_cons_self) (keep y b be (Bool.eq_false_iff.2 stays))
          · exact best y (List.mem_cons_of_mem b hy)

theorem best_exists (refl : ∀ x, atLeast x x) (trans : ∀ x y z, atLeast x y → atLeast y z → atLeast x z)
    (take : ∀ e b, before b e → better e b = true → atLeast e b)
    (keep : ∀ e b, before b e → better e b = false → atLeast b e) {es : List α} (some_ : es ≠ [])
    (order : es.Pairwise before) :
    ∃ x, es.foldl (pickBest better) none = some x ∧ x ∈ es ∧ ∀ y ∈ es, atLeast x y := by
  cases es with
  | nil => exact absurd rfl some_
  | cons b es =>
    obtain ⟨x, found⟩ := pickBest_some (better := better) es b
    exact ⟨x, found, best_of_foldl refl trans take keep es b order found⟩

end

/-! ## The entitlement table (R114, R115) -/

/-- The entry to go where an entitlement finds the table full: that of the earliest expiry and lowest tier. -/
def goesFirst (x y : Entitlement) : Prop := x.expiry < y.expiry ∨ (x.expiry = y.expiry ∧ x.tier ≤ y.tier)

theorem earliestExpiry_some {es : List Entitlement} (some_ : es ≠ []) :
    ∃ x, earliestExpiry es = some x ∧ x ∈ es ∧ ∀ y ∈ es, goesFirst x y := by
  have picks : earliestExpiry es = es.foldl (pickBest fun e b =>
      e.expiry < b.expiry || (e.expiry = b.expiry && e.tier < b.tier)) none := by
    unfold earliestExpiry
    congr 1
    funext best e
    cases best <;> rfl
  rw [picks]
  refine best_exists (before := fun _ _ => True) (fun x => .inr ⟨rfl, Nat.le_refl _⟩) (fun x y z h k => ?_)
    (fun e b _ h => ?_) (fun e b _ h => ?_) some_ (List.pairwise_of_forall fun _ _ => trivial)
  · unfold goesFirst at h k ⊢
    omega
  · simp only [Bool.or_eq_true, Bool.and_eq_true, decide_eq_true_eq] at h
    unfold goesFirst
    omega
  · simp only [Bool.or_eq_false_iff, Bool.and_eq_false_iff, decide_eq_false_iff_not] at h
    unfold goesFirst
    omega

/-- In a table in order of a number an entry is its number. -/
theorem eq_of_number {α : Type} {number : α → Nat} {xs : List α}
    (order : xs.Pairwise (fun a b => number a < number b)) {x y : α} (hx : x ∈ xs) (hy : y ∈ xs)
    (same : number x = number y) : x = y := by
  induction xs with
  | nil => exact absurd hx List.not_mem_nil
  | cons z xs ih =>
    obtain ⟨first, rest⟩ := List.pairwise_cons.1 order
    rcases List.mem_cons.1 hx with rfl | earlier <;> rcases List.mem_cons.1 hy with rfl | later
    · rfl
    · exact absurd (first y later) (by omega)
    · exact absurd (first x earlier) (by omega)
    · exact ih rest earlier later

theorem mem_putInOrder_iff {α : Type} {number : α → Nat} {e y : α} {xs : List α}
    (order : xs.Pairwise (fun a b => number a < number b)) :
    y ∈ putInOrder number e xs ↔ y = e ∨ (y ∈ xs ∧ number y ≠ number e) := by
  induction xs with
  | nil => simp [putInOrder]
  | cons x xs ih =>
    obtain ⟨first, rest⟩ := List.pairwise_cons.1 order
    unfold putInOrder
    split_ifs with below same
    · have above : ∀ y ∈ x :: xs, number y ≠ number e := fun y hy => by
        rcases List.mem_cons.1 hy with rfl | hy
        · omega
        · have := first y hy
          omega
      rw [List.mem_cons]
      exact or_congr_right ⟨fun hy => ⟨hy, above y hy⟩, fun h => h.1⟩
    · rw [List.mem_cons, List.mem_cons]
      refine or_congr_right ⟨fun hy => ⟨.inr hy, ?_⟩, fun ⟨hy, other⟩ => hy.resolve_left ?_⟩
      · have := first y hy
        omega
      · rintro rfl
        exact other same.symm
    · rw [List.mem_cons, ih rest, List.mem_cons]
      have differ : number x ≠ number e := fun h => same h.symm
      constructor
      · rintro (rfl | rfl | ⟨hy, other⟩)
        · exact .inr ⟨.inl rfl, differ⟩
        · exact .inl rfl
        · exact .inr ⟨.inr hy, other⟩
      · rintro (rfl | ⟨rfl | hy, other⟩)
        · exact .inr (.inl rfl)
        · exact .inl rfl
        · exact .inr (.inr ⟨hy, other⟩)

theorem entitle_of {params : Bytes} (whole : params.length = 3) (s : State) : entitle params s =
    match entitleTable ⟨beNat (params.take 1), beNat (params.drop 1)⟩ s.access.entitlements with
    | some es => entitlementsBecome es s
    | none => { s with access := { s.access with refused := bump s.access.refused } } :=
  (if_neg (not_not.2 whole)).trans rfl

theorem holdsAnyDay_iff (es : List Entitlement) (t : Nat) : holdsAnyDay es t = true ↔ ∃ x ∈ es, x.tier = t := by
  simp [holdsAnyDay]

/-- ENTITLE with room, or of a tier held (R114). -/
theorem entitleTable_room {e : Entitlement} {es : List Entitlement}
    (room : (∃ x ∈ es, x.tier = e.tier) ∨ es.length < 64) :
    entitleTable e es = some (putInOrder Entitlement.tier e es) := by
  unfold entitleTable
  rw [if_pos (by rw [Bool.or_eq_true, holdsAnyDay_iff, decide_eq_true_eq]; exact room), putEntitlement_eq]

/-- ENTITLE of a new tier in a full table (R114). -/
theorem entitleTable_full {e out : Entitlement} {es : List Entitlement}
    (order : es.Pairwise (fun x y => x.tier < y.tier)) (held : out ∈ es) (new : ∀ x ∈ es, x.tier ≠ e.tier)
    (full : 64 ≤ es.length) (first : ∀ x ∈ es, goesFirst out x) : entitleTable e es =
      if out.expiry < e.expiry then
        some (putInOrder Entitlement.tier e (es.filter (fun y => y.tier ≠ out.tier))) else none := by
  obtain ⟨x, found, hx, best⟩ := earliestExpiry_some (List.ne_nil_of_mem held)
  have same : x.tier = out.tier := by
    have there := best out held
    have back := first x hx
    unfold goesFirst at there back
    omega
  obtain rfl : x = out := eq_of_number order hx held same
  unfold entitleTable
  have closed : ¬ (holdsAnyDay es e.tier || decide (es.length < 64)) = true := by
    rw [Bool.or_eq_true, holdsAnyDay_iff, decide_eq_true_eq]
    rintro (⟨y, hy, tier⟩ | room)
    · exact new y hy tier
    · omega
  rw [if_neg closed, found]
  dsimp only
  rw [putEntitlement_eq]

theorem entitles (params : Bytes) (s : State) :
    let a := s.access
    let es := a.entitlements
    let e : Entitlement := ⟨beNat (params.take 1), beNat (params.drop 1)⟩
    let granted (es' : List Entitlement) : Prop := entitle params s =
      (if es' = es then s
       else trigger (raise .entitlementChanged { s with access := { a with entitlements := es' } }))
    params.length = 3 → es.Pairwise (fun x y => x.tier < y.tier) →
      ((∃ x ∈ es, x.tier = e.tier) ∨ es.length < 64 → ∃ es', granted es' ∧
        (∀ x, x ∈ es' ↔ x = e ∨ (x ∈ es ∧ x.tier ≠ e.tier)) ∧ es'.Pairwise (fun x y => x.tier < y.tier)) ∧
      (∀ out ∈ es, (∀ x ∈ es, x.tier ≠ e.tier) → 64 ≤ es.length →
        (∀ x ∈ es, out.expiry < x.expiry ∨ (out.expiry = x.expiry ∧ out.tier ≤ x.tier)) →
        (out.expiry < e.expiry → ∃ es', granted es' ∧
          (∀ x, x ∈ es' ↔ x = e ∨ (x ∈ es ∧ x ≠ out)) ∧ es'.Pairwise (fun x y => x.tier < y.tier)) ∧
        (e.expiry ≤ out.expiry →
          entitle params s = { s with access := { a with refused := bump a.refused } })) := by
  intro a es e granted whole order
  have run := entitle_of whole s
  refine ⟨fun room => ⟨putInOrder Entitlement.tier e es, ?_, fun x => mem_putInOrder_iff order,
    putInOrder_order e order⟩, fun out held new full first => ⟨fun later => ?_, fun earlier => ?_⟩⟩
  · rw [show entitleTable _ s.access.entitlements = _ from entitleTable_room room] at run
    exact run
  · have table := (entitleTable_full order held new full first).trans (if_pos later)
    rw [show entitleTable _ s.access.entitlements = _ from table] at run
    have rest : (es.filter (fun y => y.tier ≠ out.tier)).Pairwise (fun x y => x.tier < y.tier) :=
      order.sublist List.filter_sublist
    refine ⟨_, run, fun x => ?_, putInOrder_order e rest⟩
    rw [mem_putInOrder_iff rest, List.mem_filter, decide_eq_true_eq]
    refine or_congr_right ⟨fun ⟨⟨hx, other⟩, _⟩ => ⟨hx, fun same => other (by rw [same])⟩,
      fun ⟨hx, other⟩ => ⟨⟨hx, fun same => other (eq_of_number order hx held same)⟩, new x hx⟩⟩
  · have table := (entitleTable_full order held new full first).trans (if_neg (Nat.not_lt.2 earlier))
    rw [show entitleTable _ s.access.entitlements = _ from table] at run
    exact run

/-! ## Region, group and service keys (R117, R118) -/

theorem groupAssign_of {params : Bytes} (whole : params.length = 3) (s : State) : groupAssign params s =
    (if byteAt params 0 = 0#8 then { s with access := { s.access with group := none } }
     else if byteAt params 0 = 1#8 then
       { s with access := { s.access with group := some (beNat (params.drop 1)) } }
     else { s with access := { s.access with malformed := bump s.access.malformed } }) := by
  have code (b : Byte) (n : Nat) (h : n < 256) : b.toNat = n ↔ b = BitVec.ofNat 8 n := by
    constructor
    · intro same
      exact BitVec.eq_of_toNat_eq (by rw [same, BitVec.toNat_ofNat, Nat.mod_eq_of_lt h])
    · rintro rfl
      exact Nat.mod_eq_of_lt h
  have zero := code (byteAt params 0) 0 (by decide)
  have one := code (byteAt params 0) 1 (by decide)
  unfold groupAssign
  rw [if_neg (not_not.2 whole), firstByte]
  split
  · rename_i is
    rw [if_pos (zero.1 is)]
  · rename_i is
    have other : byteAt params 0 ≠ 0#8 := fun h => by rw [h] at is; exact absurd is (by decide)
    rw [if_neg other, if_pos (one.1 is)]
  · rename_i notZero notOne
    rw [if_neg fun h => notZero (zero.2 h), if_neg fun h => notOne (one.2 h)]
    rfl

/-- Where a generation is stored (R118). -/
theorem storeGeneration_spec (g : Generation) (a : Access) :
    let keys := storeGeneration g a
    keys = { a with slot1 := keys.slot1, slot2 := keys.slot2 } ∧
    (∀ x, a.slot1 = some x → x.number = g.number → keys.slot1 = some g ∧ keys.slot2 = a.slot2) ∧
    (∀ y, a.slot2 = some y → y.number = g.number → (∀ x, a.slot1 = some x → x.number ≠ g.number) →
      keys.slot1 = a.slot1 ∧ keys.slot2 = some g) ∧
    (∀ x, a.slot1 = some x → a.slot2 = none → x.number ≠ g.number →
      keys.slot1 = a.slot1 ∧ keys.slot2 = some g) ∧
    (∀ y, a.slot1 = none → a.slot2 = some y → y.number ≠ g.number →
      keys.slot1 = some g ∧ keys.slot2 = a.slot2) ∧
    (a.slot1 = none → a.slot2 = none →
      (keys.slot1 = some g ∧ keys.slot2 = none) ∨ (keys.slot1 = none ∧ keys.slot2 = some g)) ∧
    (∀ x y, a.slot1 = some x → a.slot2 = some y → x.number ≠ g.number → y.number ≠ g.number →
      (newer x.number y.number = true → keys.slot1 = a.slot1 ∧ keys.slot2 = some g) ∧
      (newer x.number y.number = false → keys.slot1 = some g ∧ keys.slot2 = a.slot2)) := by
  intro keys
  cases first : a.slot1 with
  | none =>
    cases second : a.slot2 with
    | none =>
      have stored : keys = { a with slot1 := some g } := by simp only [keys, storeGeneration, first, second]
      rw [stored]
      simp [second]
    | some y =>
      have stored : keys = if y.number = g.number then { a with slot2 := some g } else { a with slot1 := some g } := by
        simp only [keys, storeGeneration, first, second]
      rw [stored]
      by_cases same : y.number = g.number <;> simp [first, second, same]
  | some x =>
    cases second : a.slot2 with
    | none =>
      have stored : keys = if x.number = g.number then { a with slot1 := some g } else { a with slot2 := some g } := by
        simp only [keys, storeGeneration, first, second]
      rw [stored]
      by_cases same : x.number = g.number <;> simp [first, second, same]
    | some y =>
      have stored : keys = if x.number = g.number then { a with slot1 := some g }
          else if y.number = g.number then { a with slot2 := some g }
          else if newer x.number y.number then { a with slot2 := some g } else { a with slot1 := some g } := by
        simp only [keys, storeGeneration, first, second]
      rw [stored]
      by_cases same : x.number = g.number
      · simp [second, same]
      · by_cases other : y.number = g.number
        · simp [first, same, other]
        · cases age : newer x.number y.number <;> simp [first, second, same, other, age]

theorem newer_iff (a b : Nat) : newer a b = true ↔
    (1 ≤ (a + 256 - b) % 256 ∧ (a + 256 - b) % 256 ≤ 127) ∨ ((a + 256 - b) % 256 = 128 ∧ b < a) := by
  simp [newer]

/-- Settles O14. -/
theorem managementMessages : Obligations.ManagementMessages := by
  refine ⟨managementMessages_checks, fun params s => ⟨fun wrong => ⟨if_pos wrong, if_pos wrong⟩, entitles params s,
    fun wrong => if_pos wrong, fun whole => if_neg (not_not.2 whole), fun whole => groupAssign_of whole s,
    fun wrong => if_pos wrong, fun whole => ?_⟩⟩
  have run : serviceKey params s =
      { s with access := storeGeneration ⟨beNat (params.take 1), params.drop 1⟩ s.access } :=
    if_neg (not_not.2 whole)
  obtain ⟨frame, same1, same2, free2, free1, empty, both⟩ :=
    storeGeneration_spec ⟨beNat (params.take 1), params.drop 1⟩ s.access
  dsimp only
  rw [run]
  refine ⟨congrArg (fun a => { s with access := a }) frame, same1, same2, free2, free1, empty,
    fun x y hx hy nx ny => ?_⟩
  obtain ⟨older, newer_⟩ := both x y hx hy nx ny
  have age := newer_iff x.number y.number
  exact ⟨fun h => older (age.2 h), fun h => newer_ (Bool.eq_false_iff.2 (mt age.1 h))⟩

end Sys2Proof.Machine
end

