-- ==== Sys2Proof/Proofs/SectionCells.lean ====
section
/-! PROOFS. O10: section cells at the Section Assembler (R28 to R32). -/

namespace Sys2Proof.Machine

set_option Elab.async false

variable {K : Special → Prop}

/-! ## Sections completed (R28, R32) -/

/-- A whole section on feed f and a stream, in the words of the statements. -/
def HandsOn (f : Feed) (stream : Nat) (consumer : Consumer) (whole : Bytes) (before after : State) : Prop :=
  let good := (crc16 (whole.take (whole.length - 2))).toNat = beNat (whole.drop (whole.length - 2))
  let body := (whole.drop 7).take (whole.length - 9)
  let key := beNat ((whole.drop 5).take 2)
  let k := (byteAt whole 0).toNat
  (¬ good → after = { before with
    assembler := { before.assembler with crcFailures := before.assembler.crcFailures.modify f bump } }) ∧
  (good → consumer ≠ .tap →
    (k = 1 → after = channelMapSection body before) ∧
    (k = 2 → after = programmeMapSection f ((byteAt whole 1).toNat / 16) key body before) ∧
    (k = 3 → after = guideEventsSection key body before) ∧
    (k = 4 → after = managementSection body before) ∧
    (k = 5 → after = programmeKeySection f key body before)) ∧
  (∀ e t, good → consumer = .tap → entryAt before f stream = some e → e.tap = some t →
    let cells := replyCells t.tag 0x23#8 .tapData whole
    (cells.length ≤ freeEntries before → after = placeCells cells before) ∧
    (freeEntries before < cells.length → after = { before with filter := { before.filter with
      entries := before.filter.entries.map (fun e' =>
        if e'.feed = f ∧ e'.stream = stream then
          { e' with tap := e'.tap.map (fun t' => { t' with drops := bump t'.drops }) } else e') } }))

theorem handOn_of (f : Feed) (bytes : Bytes) (s : State) :
    let k := (byteAt bytes 0).toNat
    (k = 1 → handOn f bytes s = channelMapSection (sectionBody bytes) s) ∧
    (k = 2 → handOn f bytes s =
      programmeMapSection f (sectionVersion bytes) (tableKey bytes) (sectionBody bytes) s) ∧
    (k = 3 → handOn f bytes s = guideEventsSection (tableKey bytes) (sectionBody bytes) s) ∧
    (k = 4 → handOn f bytes s = managementSection (sectionBody bytes) s) ∧
    (k = 5 → handOn f bytes s = programmeKeySection f (tableKey bytes) (sectionBody bytes) s) := by
  unfold handOn
  dsimp only
  refine ⟨?_, ?_, ?_, ?_, ?_⟩ <;> intro is <;> rw [is] <;> rfl

theorem isAt_iff (e : FilterEntry) (f : Feed) (stream : Nat) :
    e.isAt f stream = true ↔ e.feed = f ∧ e.stream = stream := by
  simp [FilterEntry.isAt]

theorem countTapDrop_eq (f : Feed) (stream : Nat) (s : State) : countTapDrop f stream s =
    { s with filter := { s.filter with entries := s.filter.entries.map (fun e =>
      if e.feed = f ∧ e.stream = stream then
        { e with tap := e.tap.map (fun t => { t with drops := bump t.drops }) } else e) } } := by
  unfold countTapDrop
  simp only [isAt_iff]

theorem handsOn_completeSection (f : Feed) (stream : Nat) (consumer : Consumer) (whole : Bytes) (s : State) :
    HandsOn f stream consumer whole s (completeSection f stream consumer whole s) := by
  have isGood : sectionGood whole = true ↔
      (crc16 (whole.take (whole.length - 2))).toNat = beNat (whole.drop (whole.length - 2)) := decide_eq_true_iff
  unfold HandsOn completeSection
  refine ⟨fun bad => if_neg (mt isGood.1 bad), fun good other => ?_, fun e t good tap held info => ?_⟩
  all_goals rw [if_pos (isGood.2 good)]
  · rw [if_neg other]
    exact handOn_of f whole s
  · have section_ : tapSection f stream whole s = if (replyCells t.tag 0x23#8 .tapData whole).length ≤ freeEntries s
        then placeCells (replyCells t.tag 0x23#8 .tapData whole) s else countTapDrop f stream s := by
      unfold tapSection
      rw [held, Option.bind_some, info]
      rfl
    rw [if_pos tap, section_, countTapDrop_eq]
    exact ⟨fun fits => if_pos fits, fun drops => if_neg (Nat.not_le.2 drops)⟩

/-! ## Buffers (R29 to R31) -/

theorem isOn_iff (x : Assembly) (f : Feed) (stream : Nat) :
    x.isOn f (fun n => decide (n = stream)) = decide (x.feed = f ∧ x.stream = stream) := by
  simp [Assembly.isOn]

theorem abandonAt_eq (f : Feed) (stream : Nat) (s : State) :
    let here (x : Assembly) : Bool := x.feed = f ∧ x.stream = stream
    abandonAt f stream s = { s with assembler := { s.assembler with
      buffers := s.assembler.buffers.filter (fun x => !here x)
      abandoned := s.assembler.abandoned.modify f (fun n => min (n + s.assembler.buffers.countP here) 65535) } } := by
  unfold abandonAt abandon
  simp only [isOn_iff]
  rfl

/-- Without an assembly there is nothing to abandon. -/
theorem abandonAt_none {f : Feed} {stream : Nat} {s : State} (counts : s.assembler.abandoned.get f ≤ 65535)
    (none : ∀ x ∈ s.assembler.buffers, decide (x.feed = f ∧ x.stream = stream) = false) :
    abandonAt f stream s = s := by
  have all : s.assembler.buffers.filter (fun x => !decide (x.feed = f ∧ x.stream = stream)) = s.assembler.buffers :=
    List.filter_eq_self.2 fun x hx => by rw [none x hx]; rfl
  have zero : s.assembler.buffers.countP (fun x => decide (x.feed = f ∧ x.stream = stream)) = 0 :=
    List.countP_eq_zero.2 fun x hx => Bool.eq_false_iff.1 (none x hx)
  have same : s.assembler.abandoned.modify f (fun n => min (n + 0) 65535) = s.assembler.abandoned := by
    unfold PerFeed.modify
    dsimp only
    rw [Nat.add_zero, Nat.min_eq_left counts]
    cases f <;> rfl
  rw [abandonAt_eq]
  dsimp only
  rw [all, zero, same]

/-- What has been abandoned once is not abandoned again. -/
theorem abandonAt_again (f : Feed) (stream : Nat) (s : State) :
    abandonAt f stream (abandonAt f stream s) = abandonAt f stream s := by
  refine abandonAt_none ?_ fun x hx => ?_
  · rw [abandonAt_eq]
    unfold PerFeed.modify
    rw [PerFeed.get_set_same]
    exact Nat.min_le_right ..
  · rw [abandonAt_eq] at hx
    exact (Bool.not_eq_true' _).mp (List.mem_filter.1 hx).2

theorem raised_eq (n : NoBuffer) (kind : Nat) : n.raised kind =
    { channelMap := if kind = 1 then bump n.channelMap else n.channelMap
      programmeMap := if kind = 2 then bump n.programmeMap else n.programmeMap
      guideEvents := if kind = 3 then bump n.guideEvents else n.guideEvents
      management := if kind = 4 then bump n.management else n.management
      programmeKey := if kind = 5 then bump n.programmeKey else n.programmeKey
      other := if 1 ≤ kind ∧ kind ≤ 5 then n.other else bump n.other } := by
  by_cases known : 1 ≤ kind ∧ kind ≤ 5
  · obtain ⟨low, high⟩ := known
    interval_cases kind <;> rfl
  · rw [if_neg known, if_neg (by omega), if_neg (by omega), if_neg (by omega), if_neg (by omega), if_neg (by omega)]
    unfold NoBuffer.raised
    split <;> first | rfl | omega

/-- The cell that begins a section, once none is open (R29). -/
theorem beginSection_spec (f : Feed) (entry : FilterEntry) (c : Cell) (s : State) :
    let a := s.assembler
    let kind := (byteAt c.payload 0).toNat
    (c.errorMark = true → beginSection f entry c s = s) ∧
    (c.errorMark = false → c.payload.length < 7 ∨ declaredLength c.payload < 9 ∨
        1024 < declaredLength c.payload →
      beginSection f entry c s = { s with assembler := { a with abandoned := a.abandoned.modify f bump } }) ∧
    (c.errorMark = false → 7 ≤ c.payload.length → 9 ≤ declaredLength c.payload →
      declaredLength c.payload ≤ 1024 →
      (entry.consumer = .sections → kind = 0 ∨ 5 < kind → beginSection f entry c s =
        { s with assembler := { a with unknownTables := a.unknownTables.modify f bump } }) ∧
      (entry.consumer ≠ .sections ∨ (1 ≤ kind ∧ kind ≤ 5) →
        (12 ≤ a.buffers.length → beginSection f entry c s =
          { s with assembler := { a with noBuffer := a.noBuffer.raised kind } }) ∧
        (a.buffers.length < 12 → beginSection f entry c s = startSection f entry c.payload s))) := by
  intro a kind
  have known : knownTable kind = true ↔ 1 ≤ kind ∧ kind ≤ 5 := by simp [knownTable]
  unfold beginSection
  dsimp only
  refine ⟨fun marked => if_pos marked, fun clean bad => ?_, fun clean head low high => ?_⟩
  all_goals rw [clean, if_neg (by decide)]
  · by_cases short : c.payload.length < 7
    · exact if_pos short
    · refine (if_neg short).trans (if_pos ?_)
      simpa using bad.resolve_left short
  · rw [if_neg (Nat.not_lt.2 head), if_neg (by simp; omega)]
    refine ⟨fun sections unowned => if_pos ?_, fun owned => ?_⟩
    · have other : knownTable kind = false := Bool.eq_false_iff.2 fun h => by have := known.1 h; omega
      rw [show knownTable (byteAt c.payload 0).toNat = false from other]
      simp [sections]
    · have passes : ¬ (entry.consumer = .sections && !knownTable kind) = true := by
        simp only [Bool.and_eq_true, decide_eq_true_eq, Bool.not_eq_true']
        rintro ⟨sections, unknown⟩
        rw [known.2 (owned.resolve_left (not_not.2 sections))] at unknown
        exact absurd unknown (by decide)
      rw [if_neg passes]
      exact ⟨fun full => if_pos full, fun room => if_neg (Nat.not_le.2 room)⟩

/-- The cell that continues a section (R30). -/
theorem continueSection_spec {f : Feed} {stream : Nat} {c : Cell} {s : State} {x : Assembly}
    (open_ : assemblyAt s f stream = some x) :
    let a := s.assembler
    let here (x : Assembly) : Bool := x.feed = f ∧ x.stream = stream
    (c.errorMark = true → continueSection f stream c s = abandonAt f stream s) ∧
    (c.errorMark = false → x.bytes.length + c.payload.length < x.declared →
      continueSection f stream c s = { s with assembler := { a with buffers := a.buffers.map (fun y =>
        if here y then { y with bytes := y.bytes ++ c.payload } else y) } }) ∧
    (c.errorMark = false → x.declared ≤ x.bytes.length + c.payload.length →
      continueSection f stream c s = completeSection f stream x.consumer ((x.bytes ++ c.payload).take x.declared)
        { s with assembler := { a with buffers := a.buffers.filter (fun y => !here y) } }) := by
  intro a here
  have grown : growAssembly f stream c.payload s = { s with assembler := { a with buffers := a.buffers.map (fun y =>
      if here y then { y with bytes := y.bytes ++ c.payload } else y) } } := by
    unfold growAssembly
    simp only [isOn_iff]
    rfl
  have freed : freeBuffer f stream s =
      { s with assembler := { a with buffers := a.buffers.filter (fun y => !here y) } } := by
    unfold freeBuffer
    simp only [isOn_iff]
    rfl
  unfold continueSection
  rw [open_]
  dsimp only
  refine ⟨fun marked => if_pos marked, fun clean more => ?_, fun clean whole => ?_⟩
  all_goals rw [clean, if_neg (by decide)]
  · rw [if_neg (Nat.not_le.2 more), grown]
  · rw [if_pos whole, freed]

/-- Settles O10. -/
theorem sectionCellsAndBuffers : Obligations.SectionCellsAndBuffers := by
  intro f entry c s
  have begins (unitStart : c.unitStart = true) (u : State) : sectionCell f entry c u =
      beginSection f entry c (abandonAt f entry.stream u) := if_pos unitStart
  have continues (unitStart : c.unitStart = false) (u : State) : sectionCell f entry c u =
      continueSection f entry.stream c u := if_neg (by rw [unitStart]; decide)
  refine ⟨fun unitStart _ => ?_, fun unitStart counts none => ?_, fun x unitStart open_ => ?_,
    fun unitStart none => ?_⟩
  · rw [begins unitStart, begins unitStart, ← abandonAt_eq, abandonAt_again]
  · rw [begins unitStart, abandonAt_none counts none]
    obtain ⟨marked, bad, sized⟩ := beginSection_spec f entry c s
    refine ⟨marked, bad, fun clean head low high => ?_⟩
    obtain ⟨unknown, taken⟩ := sized clean head low high
    refine ⟨unknown, fun owned => ?_⟩
    obtain ⟨full, room⟩ := taken owned
    refine ⟨fun h => ?_, fun h short => ?_, fun h whole => ?_⟩
    · rw [full h, raised_eq]
    · exact (room h).trans (if_neg (Nat.not_le.2 short))
    · rw [(room h).trans (if_pos whole)]
      exact handsOn_completeSection ..
  · rw [continues unitStart]
    obtain ⟨marked, more, whole⟩ := continueSection_spec (c := c) open_
    refine ⟨marked, more, fun clean h => ?_⟩
    rw [whole clean h]
    exact handsOn_completeSection ..
  · rw [continues unitStart, continueSection, none]

end Sys2Proof.Machine
end

