-- ==== Sys2Proof/Proofs/AcceptedCells.lean ====
section
/-! PROOFS. O9: a locked slot's cell, from its checks to the Stream Filter's routing (R6 to R9, R22 to R24). -/

namespace Sys2Proof.Machine

set_option Elab.async false

variable {K : Special → Prop}

/-! ## A locked slot (R6 to R9) -/

theorem exec_lockedSlot {f : Feed} {n : Fin 3} {slot : List FeedByte} {p : Nat} {s : State}
    (arrives : slotArrives f slot p s) (sync : (s.frontOf f).sync = .locked n) :
    exec (.lockedSlot f slot) s = .next (lockedSlot f n slot s) :=
  congrArg Host.Outcome.next (lockedSlotRow_at (atSlotBoundary_of_slotArrives arrives) sync)

theorem setFront_setFront (f : Feed) (x y : Front) (s : State) : (s.setFront f x).setFront f y = s.setFront f y := by
  cases f <;> rfl

theorem aligned_slot {slot : List FeedByte} (whole : slot.length = 128) :
    alignedBytes (plainBytes slot) = true ↔ isAligned (slot.map FeedByte.byte) :=
  alignedBytes_iff (by rw [plainBytes, List.length_map]; omega)

theorem nextSlot_eq {x : Front} {p : Nat} (slot : x.slot = some p) (sync : SyncState) :
    x.nextSlot sync = afterSlot x sync p := by
  unfold Front.nextSlot afterSlot
  rw [slot]
  rfl

/-- An aligned slot in LOCKED is checked as a cell (R6, R7). -/
theorem lockedSlot_aligned {f : Feed} {n : Fin 3} {slot : List FeedByte} {p : Nat} {s : State}
    (arrives : slotArrives f slot p s) (aligned : isAligned (slot.map FeedByte.byte)) :
    lockedSlot f n slot s = checkCell f slot (s.setFront f (afterSlot (s.frontOf f) (.locked 0) p)) := by
  obtain ⟨_, _, _, position, whole⟩ := arrives
  unfold lockedSlot
  rw [if_pos ((aligned_slot whole).2 aligned), nextSlot_eq position]

/-- What the checks of R7 make of a header. -/
theorem cellFate_spec (h : Header) :
    (h.mustBeZero ≠ 0 ∨ h.phase = 3 → cellFate h = .headerError) ∧
    (h.mustBeZero = 0 → h.phase ≠ 3 →
      (h.length = 0 ∨ 122 < h.length → cellFate h = .lengthError) ∧
      (1 ≤ h.length → h.length ≤ 122 →
        (h.kind = .fill → cellFate h = .fill) ∧
        (h.kind = .command ∨ h.kind = .reply ∨ h.kind = .notice ∨ h.kind = .marker → cellFate h = .misplaced) ∧
        (h.kind = .programme ∨ h.kind = .sections ∨ h.kind = .time → cellFate h = .accepted))) := by
  unfold cellFate
  refine ⟨fun bad => if_pos (by simpa using bad), fun zero phase => ?_⟩
  rw [if_neg (by simp [zero, phase])]
  refine ⟨fun bad => if_pos (by simpa using bad), fun low high => ?_⟩
  rw [if_neg (by simp; omega)]
  refine ⟨fun kind => by rw [kind], ?_, ?_⟩
  · rintro (kind | kind | kind | kind) <;> rw [kind]
  · rintro (kind | kind | kind) <;> rw [kind]

/-! ## An accepted cell at the filter (R22 to R24) -/

theorem moveExpectation_eq (f : Feed) (stream c : Nat) (gap : Bool) (s : State) : moveExpectation f stream c gap s =
    { s with filter := { s.filter with entries := s.filter.entries.map (fun e =>
      if e.feed = f ∧ e.stream = stream then
        { e with expected := some ((c + 1) % 8), errors := if gap then bump e.errors else e.errors }
      else e) } } := by
  unfold moveExpectation
  simp only [isAt_iff]

/-- The continuity check of a matched cell (R23). -/
theorem matchedCell_spec (f : Feed) (e : FilterEntry) (c : Cell) (s : State) :
    let taken := moveExpectation f e.stream c.continuity false s
    let gapped := abandonAt f e.stream (moveExpectation f e.stream c.continuity true s)
    (e.expected = none ∨ e.expected = some c.continuity → matchedCell f e c s = routeCell f e c taken) ∧
    (∀ z, e.expected = some z → c.continuity ≠ z →
      (c.continuity = (z + 7) % 8 → matchedCell f e c s = s) ∧
      (c.continuity ≠ (z + 7) % 8 → matchedCell f e c s = routeCell f e c gapped)) := by
  unfold matchedCell
  refine ⟨fun fits => ?_, fun z expected other => ⟨fun duplicate => ?_, fun gap => ?_⟩⟩
  · have check : continuityCheck e.expected c.continuity = .taken := by
      rcases fits with none | same
      · rw [none]; rfl
      · rw [same]; exact if_pos rfl
    rw [check]
  all_goals rw [expected]
  · rw [show continuityCheck (some z) c.continuity = .duplicate from (if_neg other).trans (if_pos duplicate)]
  · rw [show continuityCheck (some z) c.continuity = .gap from (if_neg other).trans (if_neg gap)]

/-- Where a cell goes, by the entry's consumer and its kind (R24). -/
theorem routeCell_spec (f : Feed) (e : FilterEntry) (c : Cell) (s : State) :
    (e.consumer = .present → c.kind = .programme → routeCell f e c s = descramble f c s) ∧
    (e.consumer ≠ .present → c.kind = .sections → routeCell f e c s = sectionCell f e c s) ∧
    (e.consumer = .sections → e.owner = .fixed → e.stream = 1 → c.kind = .time →
      routeCell f e c s = timeCell f c.payload s) ∧
    ((e.consumer = .present ∧ c.kind ≠ .programme) ∨ (e.consumer ≠ .present ∧ c.kind = .programme) ∨
      (e.consumer = .tap ∧ c.kind = .time) ∨
      (e.consumer = .sections ∧ c.kind = .time ∧ ¬ (e.owner = .fixed ∧ e.stream = 1)) →
      routeCell f e c s = mismatch f s) := by
  unfold routeCell
  refine ⟨fun consumer kind => by rw [consumer, kind], fun consumer kind => ?_, fun consumer owner stream kind => ?_,
    ?_⟩
  · rw [kind]
    cases is : e.consumer with
    | present => exact absurd is consumer
    | sections => rfl
    | tap => rfl
  · rw [consumer, kind]
    exact if_pos (by simp [owner, stream])
  · rintro (⟨consumer, kind⟩ | ⟨consumer, kind⟩ | ⟨consumer, kind⟩ | ⟨consumer, kind, other⟩)
    · rw [consumer]
      cases is : c.kind <;> first | rfl | exact absurd is kind
    · rw [kind]
      cases is : e.consumer <;> first | rfl | exact absurd is consumer
    · rw [consumer, kind]
    · rw [consumer, kind]
      exact if_neg (by simpa using other)

theorem phaseOfCode_eq (n : Nat) : phaseOfCode n = if n = 1 then some .a else if n = 2 then some .b else none := by
  unfold phaseOfCode
  split
  · rfl
  · rfl
  · rename_i other more
    rw [if_neg other, if_neg more]

theorem isAt_of_entryAt {s : State} {f : Feed} {stream : Nat} {e : FilterEntry} (held : entryAt s f stream = some e) :
    e.feed = f ∧ e.stream = stream := by
  unfold entryAt at held
  exact (isAt_iff e f stream).1 (List.find?_some held :)

/-- Settles O9. -/
theorem acceptedCellAtTheFilter : Obligations.AcceptedCellAtTheFilter := by
  intro f n slot p s arrives sync x bytes h aligned zero phase low high kind flagged s1 after cell passed gapped
  have fate := ((cellFate_spec h).2 zero phase).2 low high |>.2.2 kind
  have front : (s.setFront f (afterSlot x (.locked 0) p)).setFront f
      ((afterSlot x (.locked 0) p).accept (anyUncorrectable slot)) = s1 := setFront_setFront ..
  have cell_ : cellOf h slot = cell := by
    unfold cellOf
    rw [phaseOfCode_eq]
    rfl
  have checked : checkCell f slot (s.setFront f (afterSlot x (.locked 0) p)) = filterCell f cell s1 := by
    unfold checkCell
    rw [show readHeader (plainBytes slot) = h from rfl]
    dsimp only
    rw [fate]
    dsimp only
    rw [frontOf_setFront_same, front, cell_]
  have run : exec (.lockedSlot f slot) s = .next (filterCell f cell s1) :=
    (exec_lockedSlot arrives sync).trans (congrArg Host.Outcome.next ((lockedSlot_aligned arrives aligned).trans checked))
  have found (e : FilterEntry) (held : entryAt s f h.stream = some e) :
      e.stream = h.stream ∧ filterCell f cell s1 = matchedCell f e cell s1 := by
    refine ⟨(isAt_of_entryAt held).2, ?_⟩
    unfold filterCell
    rw [show entryAt s1 f cell.stream = some e from held]
  rw [run]
  refine ⟨fun none => ?_, fun e z held expected other duplicate => ?_, fun e s2 held checked => ?_⟩
  · unfold filterCell
    rw [show entryAt s1 f cell.stream = Option.none from none]
  · obtain ⟨_, matched⟩ := found e held
    rw [matched, ((matchedCell_spec f e cell s1).2 z expected other).1 duplicate]
  · obtain ⟨stream, matched⟩ := found e held
    have routed : filterCell f cell s1 = routeCell f e cell s2 := by
      obtain ⟨takes, others⟩ := matchedCell_spec f e cell s1
      rw [matched]
      rcases checked with ⟨fits, rfl⟩ | ⟨⟨z, expected, other, gap⟩, rfl⟩
      · rw [takes fits, moveExpectation_eq, stream]
      · rw [(others z expected other).2 gap, moveExpectation_eq, stream]
        rfl
    obtain ⟨programme, sections, time, other⟩ := routeCell_spec f e cell s2
    rw [routed]
    refine ⟨fun consumer kind => by rw [programme consumer kind], fun consumer kind => by rw [sections consumer kind],
      fun consumer owner one kind => by rw [time consumer owner (stream.trans one) kind], fun wrong => ?_⟩
    rw [stream] at other
    rw [other wrong]
    rfl

end Sys2Proof.Machine
end

