-- ==== Sys2Proof/Proofs/FeedBytes.lean ====
section
/-! PROOFS. O6: a byte at a feed port, from HUNT to the slot that its last byte completes (R1, R4 to R6). -/

namespace Sys2Proof.Machine

set_option Elab.async false

variable {K : Special → Prop}

/-! ## A byte at a feed port (R1, R4 to R6) -/

/-- A slot that is complete begins where the front has gathered nothing more. -/
theorem lockIndication_setHeld (f : Feed) (s : State) (held : List FeedByte) :
    lockIndication (s.setFront f { s.frontOf f with held }) f = lockIndication s f := by cases f <;> rfl

/-- The bytes gathered are no matter to a slot that is complete. -/
theorem confirmSlot_atBoundary (f : Feed) (n : Fin 3) (slot : List FeedByte) (s : State) :
    confirmSlot f n slot (s.setFront f { s.frontOf f with held := [] }) = confirmSlot f n slot s := by
  unfold confirmSlot
  rw [frontOf_setFront_same]
  dsimp only
  split
  · split
    · exact setFront_setFront ..
    · exact setFront_setFront ..
    · unfold enterLocked
      dsimp only
      rw [lockIndication_setHeld, frontOf_setFront_same, setFront_setFront]
      rfl
  · exact setFront_setFront ..

theorem lockedSlot_atBoundary (f : Feed) (n : Fin 3) (slot : List FeedByte) (s : State) :
    lockedSlot f n slot (s.setFront f { s.frontOf f with held := [] }) = lockedSlot f n slot s := by
  unfold lockedSlot badSlot
  rw [frontOf_setFront_same]
  split
  · rw [setFront_setFront]
    rfl
  · split <;> dsimp only <;> rw [setFront_setFront] <;> rfl

/-- HUNT, with fewer than six bytes held (R4). -/
theorem scan_hunt {x : Front} (sync : x.sync = .hunt) (few : x.held.length ≤ 5) (b : FeedByte) :
    x.scan b =
      (if (x.held ++ [b]).length < 6 then { x with position := x.position + 1, held := x.held ++ [b] }
       else if isAligned ((x.held ++ [b]).map FeedByte.byte) then
         { x with sync := .confirm 0, position := x.position + 1, held := []
                  slot := some (x.position + 1 - 6 + 128) }
       else { x with position := x.position + 1, held := (x.held ++ [b]).tail }) := by
  unfold Front.scan
  rw [sync]
  dsimp only
  unfold Front.examine
  dsimp only
  by_cases short : (x.held ++ [b]).length < 6
  · rw [if_pos short, if_neg (Nat.ne_of_lt short)]
  · have six : (x.held ++ [b]).length = 6 := by rw [List.length_append, List.length_singleton] at short ⊢; omega
    have aligned : alignedBytes (plainBytes (x.held ++ [b])) = true ↔ isAligned ((x.held ++ [b]).map FeedByte.byte) :=
      alignedBytes_iff (by rw [plainBytes, List.length_map, six]; decide)
    rw [if_neg short, if_pos six]
    simp only [aligned]

/-- A byte of a slot in CONFIRM or LOCKED (R5). -/
theorem slotByte_spec {f : Feed} {s : State} {p : Nat} (slot : (s.frontOf f).slot = some p) (b : FeedByte)
    (whole : List FeedByte → State → State) :
    let x := s.frontOf f
    (x.position < p → slotByte f b whole s = s.setFront f { x with position := x.position + 1 }) ∧
    (p ≤ x.position → x.held.length < 127 →
      slotByte f b whole s = s.setFront f { x with position := x.position + 1, held := x.held ++ [b] }) ∧
    (p ≤ x.position → x.held.length = 127 → slotByte f b whole s = whole (x.held ++ [b]) s) := by
  unfold slotByte
  dsimp only
  rw [slot]
  refine ⟨fun early => if_pos early, fun reached short => ?_, fun reached last => ?_⟩
  all_goals refine (if_neg (Nat.not_lt.2 reached)).trans ?_
  · exact if_pos (by rw [List.length_append, List.length_singleton]; omega)
  · exact if_neg (by rw [List.length_append, List.length_singleton]; omega)

theorem exec_feedByte {f : Feed} {b : FeedByte} {s : State} (running : s.running = true)
    (present : s.feedPresent f = true) : exec (.feedByte f b) s = .next (takeByte f b s) :=
  congrArg Host.Outcome.next (if_pos (by rw [running, present]; rfl))

/-- Settles O6: a slot gathered byte by byte acts as the slot row does at its boundary. -/
theorem feedByteDiscardedOrExamined : Obligations.FeedByteDiscardedOrExamined := by
  intro f b s
  refine ⟨fun idle => ?_, fun running present hunt few => ?_, fun p running present slot sync => ?_⟩
  · refine congrArg Host.Outcome.next ?_
    unfold feedByte
    split
    · rename_i taken
      simp only [Bool.and_eq_true] at taken
      obtain ⟨running, present⟩ := taken
      rcases idle with starting | absent | down
      · exact absurd (running.symm.trans starting) nofun
      · exact absurd (present.symm.trans absent) nofun
      · unfold takeByte
        rw [down]
    · rfl
  · have byte : takeByte f b s = s.setFront f ((s.frontOf f).scan b) := by unfold takeByte; rw [hunt]
    rw [exec_feedByte running present, byte, scan_hunt hunt few]
  · intro x atBoundary
    have whole {slotRow : List FeedByte → State → State} (byte : takeByte f b s = slotByte f b slotRow s) :=
      byte ▸ slotByte_spec slot b slotRow
    have arrives (full : x.held.length = 127) : atSlotBoundary f (x.held ++ [b]) atBoundary = true :=
      atSlotBoundary_iff.2
        ⟨by cases f <;> exact running, by cases f <;> exact present, by rw [frontOf_setFront_same],
          by rw [List.length_append, full, List.length_singleton]⟩
    rw [exec_feedByte running present]
    obtain ⟨n, confirm | locked⟩ := sync
    · obtain ⟨early, gathered, last⟩ := whole (slotRow := confirmSlot f n) (by unfold takeByte; rw [confirm])
      refine ⟨fun h => by rw [early h], fun h short => by rw [gathered h short], fun h full => ⟨fun _ => ?_, ?_⟩⟩
      · refine congrArg Host.Outcome.next ((last h full).trans (Eq.symm ?_))
        refine (confirmSlotRow_at (n := n) (arrives full) ?_).trans (confirmSlot_atBoundary ..)
        rw [frontOf_setFront_same]
        exact confirm
      · rintro ⟨m, locked⟩
        exact absurd (confirm.symm.trans locked) nofun
    · obtain ⟨early, gathered, last⟩ := whole (slotRow := lockedSlot f n) (by unfold takeByte; rw [locked])
      refine ⟨fun h => by rw [early h], fun h short => by rw [gathered h short], fun h full => ⟨?_, fun _ => ?_⟩⟩
      · rintro ⟨m, confirm⟩
        exact absurd (locked.symm.trans confirm) nofun
      · refine congrArg Host.Outcome.next ((last h full).trans (Eq.symm ?_))
        refine (lockedSlotRow_at (n := n) (arrives full) ?_).trans (lockedSlot_atBoundary ..)
        rw [frontOf_setFront_same]
        exact locked

end Sys2Proof.Machine
end

