-- ==== Sys2Proof/Proofs/FeedFrames.lean ====
section
/-! SUPPORT. What belongs to one feed (front, record, key slot, entries, tune line, assemblies), and that no step of
another feed's acquisition touches it. -/

namespace Sys2Proof.Machine

set_option Elab.async false

variable {K : Special → Prop}

/-! ## What belongs to one feed -/

/-- What belongs to feed g alone: its front, acquisition record, key slot, filter entries, tune line and assemblies. -/
def ofFeed (g : Feed) (s : State) :
    Front × AcqRecord × KeySlot × List FilterEntry × Option Nat × List Assembly :=
  (s.frontOf g, s.acqOf g, s.slotOf g, s.filter.entries.filter (fun e => e.feed = g), s.lines.tune.get g,
    s.assembler.buffers.filter (fun a => a.feed = g))

theorem agreeOnFeed_iff {g : Feed} {s t : State} : agreeOnFeed g s t ↔ ofFeed g t = ofFeed g s := by
  simp only [agreeOnFeed, ofFeed, Prod.mk.injEq]

/-- A decision, a notice or a marker is of no feed. -/
theorem ofFeed_of_undecided {g : Feed} {s t : State} (h : undecided t = undecided s) : ofFeed g t = ofFeed g s :=
  (congrArg (ofFeed g) h :)

@[simp] theorem ofFeed_raise (g : Feed) (n : Notice) (s : State) : ofFeed g (raise n s) = ofFeed g s :=
  ofFeed_of_undecided (undecided_raise n s)

@[simp] theorem ofFeed_trigger (g : Feed) (s : State) : ofFeed g (trigger s) = ofFeed g s :=
  ofFeed_of_undecided (undecided_trigger s)

@[simp] theorem ofFeed_placeCells (g : Feed) (cs : List LocalCell) (s : State) :
    ofFeed g (placeCells cs s) = ofFeed g s := rfl

@[simp] theorem ofFeed_takeContext (g f : Feed) (e : ChannelEntry) (s : State) :
    ofFeed g (takeContext f e s) = ofFeed g s :=
  ofFeed_of_undecided (undecided_takeContext f e s)

@[simp] theorem ofFeed_setChanging (g : Feed) (s : State) : ofFeed g (setChanging s) = ofFeed g s :=
  ofFeed_of_undecided (undecided_setChanging s)

@[simp] theorem ofFeed_removeContext (g : Feed) (s : State) : ofFeed g (removeContext s) = ofFeed g s :=
  ofFeed_of_undecided (undecided_removeContext s)

@[simp] theorem ofFeed_tellDecision (g f : Feed) (s : State) : ofFeed g (tellDecision f s) = ofFeed g s := by
  unfold tellDecision; split <;> simp

section
variable {f g : Feed} (other : g ≠ f)
include other

/-! ### Steps of feed f, behind another feed -/

@[simp] theorem ofFeed_setAcq (r : AcqRecord) (s : State) : ofFeed g (s.setAcq f r) = ofFeed g s := by
  cases f <;> cases g <;> first | rfl | exact absurd rfl other

@[simp] theorem ofFeed_changeAcq (h : AcqRecord → AcqRecord) (s : State) :
    ofFeed g (s.changeAcq f h) = ofFeed g s := ofFeed_setAcq other _ s

@[simp] theorem ofFeed_setSlot (k : KeySlot) (s : State) : ofFeed g (s.setSlot f k) = ofFeed g s := by
  cases f <;> cases g <;> first | rfl | exact absurd rfl other

@[simp] theorem ofFeed_setFront (x : Front) (s : State) : ofFeed g (s.setFront f x) = ofFeed g s := by
  cases f <;> cases g <;> first | rfl | exact absurd rfl other

@[simp] theorem ofFeed_clearKeySlot (s : State) : ofFeed g (clearKeySlot f s) = ofFeed g s :=
  ofFeed_setSlot other _ s

@[simp] theorem ofFeed_startKeyWait (s : State) : ofFeed g (startKeyWait f s) = ofFeed g s :=
  ofFeed_setSlot other _ s

@[simp] theorem ofFeed_stopKeyWait (s : State) : ofFeed g (stopKeyWait f s) = ofFeed g s :=
  ofFeed_setSlot other _ s

@[simp] theorem ofFeed_tune (k : Option Nat) (s : State) :
    ofFeed g { s with lines := { s.lines with tune := s.lines.tune.set f k } } = ofFeed g s := by
  cases f <;> cases g <;> first | rfl | exact absurd rfl other

@[simp] theorem ofFeed_abandon (p : Nat → Bool) (s : State) : ofFeed g (abandon f p s) = ofFeed g s := by
  have buffers : (abandon f p s).assembler.buffers.filter (fun a => a.feed = g)
      = s.assembler.buffers.filter (fun a => a.feed = g) :=
    (List.filter_filter ..).trans (List.filter_congr fun a _ => by
      by_cases ha : a.feed = g <;> simp [Assembly.isOn, ha, other])
  unfold ofFeed
  rw [buffers]
  rfl

theorem entries_other (p : FilterEntry → Bool) (es : List FilterEntry) :
    (es.filter (fun e => !(e.feed = f && p e))).filter (fun e => e.feed = g) = es.filter (fun e => e.feed = g) := by
  rw [List.filter_filter]
  refine List.filter_congr fun e _ => ?_
  by_cases he : e.feed = g
  · simp [he, other]
  · simp [he]

@[simp] theorem ofFeed_removeEntries (p : FilterEntry → Bool) (s : State) :
    ofFeed g (removeEntries f p s) = ofFeed g s := by
  refine (ofFeed_abandon other _ _).trans ?_
  unfold ofFeed
  dsimp only
  rw [entries_other other]
  rfl

@[simp] theorem ofFeed_removeAcqEntries (s : State) : ofFeed g (removeAcqEntries f s) = ofFeed g s :=
  ofFeed_removeEntries other _ s

theorem ofFeed_addEntry {e : FilterEntry} (of : e.feed = f) (s : State) :
    ofFeed g (addEntry e s) = ofFeed g s := by
  unfold addEntry
  split
  · unfold ofFeed
    dsimp only
    rw [List.filter_append, List.filter_cons_of_neg (by simp [of, other.symm]), List.filter_nil, List.append_nil]
    rfl
  · rfl

theorem ofFeed_addEntries {es : List FilterEntry} (of : ∀ e ∈ es, e.feed = f) (s : State) :
    ofFeed g (addEntries es s) = ofFeed g s := by
  induction es generalizing s with
  | nil => rfl
  | cons e es ih =>
    exact (ih (fun x hx => of x (.tail _ hx)) _).trans (ofFeed_addEntry other (of e (.head _)) s)

@[simp] theorem ofFeed_requestEntries (ps : List (Nat × Consumer)) (s : State) :
    ofFeed g (requestEntries f ps s).2 = ofFeed g s := by
  unfold requestEntries
  dsimp only
  split
  · refine ofFeed_addEntries other (fun e he => ?_) s
    obtain ⟨p, _, rfl⟩ := List.mem_map.1 he
    rfl
  · rfl

@[simp] theorem ofFeed_answerPending (o : ReplyOutcome) (b : Bytes) (s : State) :
    ofFeed g (answerPending f o b s) = ofFeed g s := by
  unfold answerPending
  split
  · dsimp only; split
    · simp [other]
    · rename_i tag code _ _ _
      let cell := LocalCell.reply tag code o 0 (one (feedPosition f) ++ b)
      exact (ofFeed_changeAcq other (fun r => { r with pending := .formed cell }) s :)
  · rfl

@[simp] theorem ofFeed_supersede (s : State) : ofFeed g (supersede f s) = ofFeed g s :=
  ofFeed_answerPending other ..

@[simp] theorem ofFeed_fail (c : FailCause) (a : FilterAnswer) (s : State) :
    ofFeed g (fail f c a s) = ofFeed g s := by
  unfold fail; dsimp only; split <;> simp [other]

@[simp] theorem ofFeed_enterParked (s : State) : ofFeed g (enterParked f s) = ofFeed g s := by
  simp [enterParked, other]

@[simp] theorem ofFeed_decisionStep (s : State) : ofFeed g (decisionStep f s) = ofFeed g s := by
  unfold decisionStep; dsimp only; split <;> simp [other]

@[simp] theorem ofFeed_enterKeying (s : State) : ofFeed g (enterKeying f s) = ofFeed g s := by
  unfold enterKeying; dsimp only; split
  · simp [other]
  · split <;> simp [other]

@[simp] theorem ofFeed_enterMapping (e : ChannelEntry) (s : State) :
    ofFeed g (enterMapping f e s) = ofFeed g s := by
  unfold enterMapping; dsimp only; split
  · simp [other]
  · split <;> rename_i h <;>
    · have key := congrArg (fun x => ofFeed g x.2) h
      simp only [ofFeed_requestEntries other, ofFeed_changeAcq other] at key
      simp [key.symm, other]

@[simp] theorem ofFeed_afterSyncing (s : State) : ofFeed g (afterSyncing f s) = ofFeed g s := by
  unfold afterSyncing; split <;> simp [other]

@[simp] theorem ofFeed_enterSyncing (s : State) : ofFeed g (enterSyncing f s) = ofFeed g s := by
  unfold enterSyncing; dsimp only; split <;> simp [other]

@[simp] theorem ofFeed_enterLocking (s : State) : ofFeed g (enterLocking f s) = ofFeed g s := by
  unfold enterLocking; dsimp only; split <;> simp [other]

@[simp] theorem ofFeed_forgetExpectations (s : State) : ofFeed g (forgetExpectations f s) = ofFeed g s := by
  have entries : (forgetExpectations f s).filter.entries.filter (fun e => e.feed = g)
      = s.filter.entries.filter (fun e => e.feed = g) := by
    show List.filter _ (s.filter.entries.map _) = _
    induction s.filter.entries with
    | nil => rfl
    | cons e es ih => by_cases he : e.feed = f <;> simp [he, other.symm, List.filter_cons, ih]
  unfold ofFeed
  rw [entries]
  rfl

@[simp] theorem ofFeed_leaveLocked (s : State) : ofFeed g (leaveLocked f s) = ofFeed g s := by
  simp [leaveLocked, other]

@[simp] theorem ofFeed_tuneFront (s : State) : ofFeed g (tuneFront f s) = ofFeed g s := by
  unfold tuneFront; split <;> simp [other]

@[simp] theorem ofFeed_enterTuning (s : State) : ofFeed g (enterTuning f s) = ofFeed g s := by
  unfold enterTuning; dsimp only; split
  · rw [ofFeed_tuneFront other]
    exact (ofFeed_tune other _ _).trans (by simp [other])
  · simp [other]

@[simp] theorem ofFeed_retryOrFail (c : FailCause) (s : State) : ofFeed g (retryOrFail f c s) = ofFeed g s := by
  unfold retryOrFail; split <;> simp [other]

@[simp] theorem ofFeed_deliverIndication (b : Bool) (s : State) :
    ofFeed g (deliverIndication f b s) = ofFeed g s := by
  unfold deliverIndication indicationTrue; split
  · split <;> simp [other]
  · rfl

@[simp] theorem ofFeed_enteredLocked (s : State) : ofFeed g (enteredLocked f s) = ofFeed g s := by
  unfold enteredLocked; split <;> simp [other]

@[simp] theorem ofFeed_lockLoss (s : State) : ofFeed g (lockLoss f s) = ofFeed g s := by
  unfold lockLoss; dsimp only; split <;> simp [other]

@[simp] theorem ofFeed_recordLeftLocked (c : LeaveCause) (s : State) :
    ofFeed g (recordLeftLocked f c s) = ofFeed g s := by
  unfold recordLeftLocked; split
  · split <;> simp [other]
  · rfl

@[simp] theorem ofFeed_leftLocked (c : LeaveCause) (s : State) : ofFeed g (leftLocked f c s) = ofFeed g s := by
  simp [leftLocked, other]

@[simp] theorem ofFeed_installComponents (cs : List Component) (v : Nat) (s : State) :
    ofFeed g (installComponents f cs v s).2 = ofFeed g s := by
  unfold installComponents; dsimp only
  split <;> rename_i h <;> have key := congrArg (fun x => ofFeed g x.2) h <;>
    simp only [ofFeed_requestEntries other, dropComponents, ofFeed_removeEntries other] at key
  · simp only [takeComponents, giveStreams, ofFeed_setSlot other]
    split <;> simp [key.symm, other]
  · simp [key.symm, other]

@[simp] theorem ofFeed_mapStands (s : State) : ofFeed g (mapStands f s) = ofFeed g s := by
  unfold mapStands; split <;> simp [other]

@[simp] theorem ofFeed_mapInMapping (cs : List Component) (v : Nat) (s : State) :
    ofFeed g (mapInMapping f cs v s) = ofFeed g s := by
  unfold mapInMapping; split
  · split <;> rename_i h <;>
    · have key := congrArg (fun x => ofFeed g x.2) h
      simp only [ofFeed_installComponents other] at key
      simp [key.symm, other]
  · simp [other]

@[simp] theorem ofFeed_afterNewVersion (a : AcqState) (s : State) :
    ofFeed g (afterNewVersion f a s) = ofFeed g s := by
  unfold afterNewVersion; split
  · simp
  · split
    · split <;> simp [other]
    · simp [other]
  · rfl

@[simp] theorem ofFeed_newMapVersion (cs : List Component) (v : Nat) (s : State) :
    ofFeed g (newMapVersion f cs v s) = ofFeed g s := by
  unfold newMapVersion; split
  · rfl
  · split <;> rename_i h <;> have key := congrArg (fun x => ofFeed g x.2) h <;>
      simp only [ofFeed_installComponents other] at key <;> simp [key.symm, other]

@[simp] theorem ofFeed_beginRecord (r : Role) (t : Option ChannelEntry) (c : Nat) (p : PendingReply) (s : State) :
    ofFeed g (beginRecord f r t c p s) = ofFeed g s := by simp [beginRecord, other]

@[simp] theorem ofFeed_proceed (c : Nat) (s : State) : ofFeed g (proceed f c s) = ofFeed g s := by
  unfold proceed; dsimp only; split <;> simp [other]

@[simp] theorem ofFeed_releaseRecord (s : State) : ofFeed g (releaseRecord f s) = ofFeed g s := by
  unfold releaseRecord; dsimp only; split <;> simp [other]

@[simp] theorem ofFeed_goDown (c : LeaveCause) (s : State) : ofFeed g (goDown f c s) = ofFeed g s := by
  unfold goDown; dsimp only; split <;> simp [other]

@[simp] theorem ofFeed_reworkLock (s : State) : ofFeed g (reworkLock f s) = ofFeed g s := by
  unfold reworkLock; split <;> split <;> simp [other]

@[simp] theorem ofFeed_enterLocked (s : State) : ofFeed g (enterLocked f s) = ofFeed g s := by
  simp [enterLocked, other]

@[simp] theorem ofFeed_validWord (s : State) : ofFeed g (validWord f s) = ofFeed g s := by
  unfold validWord; dsimp only; split <;> split <;> simp [other]

@[simp] theorem ofFeed_phaseChange (p : Phase) (s : State) : ofFeed g (phaseChange f p s) = ofFeed g s := by
  unfold phaseChange; dsimp only; split <;> simp [other]

@[simp] theorem ofFeed_keyWaitOver (s : State) : ofFeed g (keyWaitOver f s) = ofFeed g s := by
  unfold keyWaitOver; split
  · unfold reportExpiry; split <;> simp [other]
  · rfl

end

end Sys2Proof.Machine
end

