-- ==== Sys2Proof/Proofs/TimerFrames.lean ====
section
/-! PROOFS. O22: the acquisition timer rows stay within their feed (R96 to R98, R101, R125). -/

namespace Sys2Proof.Machine

set_option Elab.async false

variable {K : Special → Prop}

/-! ## The acquisition timers (R96 to R98, R101, R125) -/

/-- A timer row: its step is taken by a running part whose timer has run out, and else nothing happens. -/
theorem timerRow_frame {f : Feed} {row : Instr} {s t : State} {due : Prop} [Decidable due]
    (is : exec row s = .next (if s.running then if due then t else s else s))
    (frame : unacquired t = unacquired s) (other : ofFeed (otherFeed f) t = ofFeed (otherFeed f) s)
    (needs : due → (∃ kind, (s.acqOf f).timer = some (kind, 0)) ∨ (s.slotOf f).wait = .running 0) :
    ∃ t, exec row s = .next t ∧ unacquired t = unacquired s ∧ agreeOnFeed (otherFeed f) s t ∧
      ((∀ kind, (s.acqOf f).timer ≠ some (kind, 0)) → (s.slotOf f).wait ≠ .running 0 → t = s) := by
  have idle : agreeOnFeed (otherFeed f) s s := agreeOnFeed_iff.2 rfl
  refine ⟨_, is, ?_⟩
  split
  · split
    · rename_i out
      refine ⟨frame, agreeOnFeed_iff.2 other, fun timer wait => ?_⟩
      rcases needs out with ⟨kind, ran⟩ | ran
      · exact absurd ran (timer kind)
      · exact absurd ran wait
    · exact ⟨rfl, idle, fun _ _ => rfl⟩
  · exact ⟨rfl, idle, fun _ _ => rfl⟩

/-- Settles O22: each timer row steps within its feed's acquisition, and only when its timer has run out. -/
theorem acquisitionTimersFrame : Obligations.AcquisitionTimersFrame := by
  intro f row s rows
  have ne := otherFeed_ne f
  have step (k : StepTimer) (out : timerOut f k s = true) :
      (∃ kind, (s.acqOf f).timer = some (kind, 0)) ∨ (s.slotOf f).wait = .running 0 :=
    .inl ⟨k, (timerOut_iff f k s).1 out⟩
  rcases rows with rfl | rfl | rfl | rfl | rfl
  · exact timerRow_frame (t := enterLocking f s) rfl (by simp) (by simp [ne]) (step .settle)
  · exact timerRow_frame (t := retryOrFail f .tuner s) rfl (by simp) (by simp [ne]) (step .lock)
  · exact timerRow_frame (t := retryOrFail f .sync s) rfl (by simp) (by simp [ne]) (step .sync)
  · exact timerRow_frame (t := fail f .noMap .installed s) rfl (by simp) (by simp [ne]) (step .map)
  · refine timerRow_frame (t := reportExpiry f (s.setSlot f { s.slotOf f with wait := .expired })) rfl ?_ ?_ .inr
    · unfold reportExpiry; split <;> simp
    · unfold reportExpiry; split <;> simp [ne]

end Sys2Proof.Machine
end

