-- ==== Sys2Proof/Proofs/AcquisitionEnds.lean ====
section
/-! SUPPORT. What a feed's acquisition leaves where it is answered, passes its decision or fails (R89, R103, R104). -/

namespace Sys2Proof.Machine

set_option Elab.async false

variable {K : Special → Prop}

/-! ## What decisions, notices and markers leave of a feed -/

theorem acqOf_of_undecided {s t : State} (h : undecided t = undecided s) (f : Feed) : t.acqOf f = s.acqOf f :=
  (congrArg (fun x : State => x.acqOf f) h :)

theorem slotOf_of_undecided {s t : State} (h : undecided t = undecided s) (f : Feed) : t.slotOf f = s.slotOf f :=
  (congrArg (fun x : State => x.slotOf f) h :)

theorem frontOf_of_undecided {s t : State} (h : undecided t = undecided s) (f : Feed) : t.frontOf f = s.frontOf f :=
  (congrArg (fun x : State => x.frontOf f) h :)

theorem filter_of_undecided {s t : State} (h : undecided t = undecided s) : t.filter = s.filter :=
  (congrArg (fun x : State => x.filter) h :)

@[simp] theorem undecided_tellDecision (f : Feed) (s : State) : undecided (tellDecision f s) = undecided s := by
  unfold tellDecision; split <;> simp

/-! ## Replies stay in the queue (R183, R185) -/

/-- Every cell of the reply queue of s but a NOTICE stands in that of t. -/
structure KeepsReplies (s t : State) : Prop where
  mem : ∀ c, (∀ m, c ≠ .notice m) → c ∈ s.command.replyQueue → c ∈ t.command.replyQueue

theorem KeepsReplies.refl (s : State) : KeepsReplies s s := ⟨fun _ _ h => h⟩

theorem KeepsReplies.trans {s t u : State} (h : KeepsReplies s t) (k : KeepsReplies t u) : KeepsReplies s u :=
  ⟨fun c plain m => k.mem c plain (h.mem c plain m)⟩

theorem keepsReplies_of_eq {s t : State} (h : t.command.replyQueue = s.command.replyQueue) : KeepsReplies s t :=
  ⟨fun _ _ m => h ▸ m⟩

theorem KeepsReplies.of_queue {s s' t : State} (h : KeepsReplies s' t)
    (queue : s'.command.replyQueue = s.command.replyQueue := by rfl) : KeepsReplies s t :=
  (keepsReplies_of_eq queue).trans h

theorem keepsReplies_ite {s t u : State} {p : Prop} [Decidable p] (yes : KeepsReplies s t) (no : KeepsReplies s u) :
    KeepsReplies s (if p then t else u) := by split <;> assumption

theorem keepsReplies_placeCells (cs : List LocalCell) (s : State) : KeepsReplies s (placeCells cs s) :=
  ⟨fun _ _ m => List.mem_append_left _ m⟩

theorem keepsReplies_reportRaise (m : BitVec 16) (s : State) : KeepsReplies s (reportRaise m s) := by
  unfold reportRaise
  split
  · refine ⟨fun c plain mem => ?_⟩
    refine List.mem_map.2 ⟨c, mem, ?_⟩
    cases c with
    | notice n => exact absurd rfl (plain n)
    | _ => rfl
  · split
    · exact .refl s
    · split
      · exact keepsReplies_placeCells ..
      · exact keepsReplies_of_eq rfl

theorem keepsReplies_raise (n : Notice) (s : State) : KeepsReplies s (raise n s) := by
  unfold raise
  split
  · exact .refl s
  · exact (keepsReplies_reportRaise ..).of_queue

theorem keepsReplies_evaluateMeter (s : State) : KeepsReplies s (evaluateMeter s) := by
  unfold evaluateMeter
  split
  · split
    · exact .refl s
    · exact keepsReplies_ite ((keepsReplies_raise ..).of_queue) (keepsReplies_of_eq rfl)
  · exact keepsReplies_of_eq rfl

theorem keepsReplies_placeMarker (m : Marker) (s : State) : KeepsReplies s (placeMarker m s) := by
  unfold placeMarker
  split
  · exact keepsReplies_of_eq rfl
  · exact keepsReplies_ite (keepsReplies_placeCells ..) (keepsReplies_of_eq rfl)

theorem keepsReplies_announce (c : Nat) (d : Decision) (r : Reason) (moved : Bool) (s : State) :
    KeepsReplies s (announce c d r moved s) := by
  unfold announce
  extract_lets s1 s2 s3 s4
  have flushed : KeepsReplies s s1 := keepsReplies_ite (keepsReplies_of_eq rfl) (.refl s)
  have raised : KeepsReplies s s3 :=
    (flushed.trans (keepsReplies_raise ..)).trans (keepsReplies_ite (keepsReplies_raise ..) (.refl s2))
  have marked : KeepsReplies s s4 := raised.trans (keepsReplies_placeMarker ..)
  exact keepsReplies_ite (marked.trans (keepsReplies_of_eq rfl)) (marked.trans (keepsReplies_of_eq rfl))

theorem keepsReplies_settle (c : Context) (v : Verdict) (created moved : Bool) (s : State) :
    KeepsReplies s (settle c v created moved s) := by
  unfold settle
  extract_lets c1 output s1 changed s2
  have here : KeepsReplies s s1 := keepsReplies_of_eq rfl
  exact (here.trans (keepsReplies_ite (keepsReplies_announce ..)
    (keepsReplies_ite (keepsReplies_raise ..) (.refl s1)))).trans (keepsReplies_evaluateMeter s2)

theorem keepsReplies_trigger (s : State) : KeepsReplies s (trigger s) := by
  unfold trigger
  split
  · exact .refl s
  · exact keepsReplies_ite (.refl s) (keepsReplies_settle ..)

theorem keepsReplies_takeContext (f : Feed) (e : ChannelEntry) (s : State) : KeepsReplies s (takeContext f e s) := by
  unfold takeContext
  split
  · exact (keepsReplies_settle ..).of_queue
  · refine (keepsReplies_settle ..).of_queue ?_
    split <;> rfl

theorem keepsReplies_tellDecision (f : Feed) (s : State) : KeepsReplies s (tellDecision f s) := by
  unfold tellDecision
  split
  · exact keepsReplies_takeContext ..
  · exact .refl s

theorem keepsReplies_answerPending (f : Feed) (o : ReplyOutcome) (b : Bytes) (s : State) :
    KeepsReplies s (answerPending f o b s) := by
  unfold answerPending
  split
  · exact keepsReplies_ite ((keepsReplies_placeCells ..).of_queue) (keepsReplies_of_eq rfl)
  · exact .refl s

theorem keepsReplies_answer (c : CommandCell) (o : ReplyOutcome) (b : Bytes) (s : State) :
    KeepsReplies s (answer c o b s) := (keepsReplies_placeCells ..).of_queue

/-- An answer given stays given while decisions, notices and markers pass. -/
theorem answeredAs.keep {f : Feed} {tag code : Byte} {o : ReplyOutcome} {s t : State} (h : answeredAs f tag code o s)
    (kept : KeepsReplies s t) (pending : (t.acqOf f).pending = (s.acqOf f).pending) : answeredAs f tag code o t :=
  h.imp (fun ⟨b, m⟩ => ⟨b, kept.mem _ nofun m⟩) (fun ⟨b, is⟩ => ⟨b, pending.trans is⟩)

theorem pendingEnded.keep {f : Feed} {o : ReplyOutcome} {s t u : State} (h : pendingEnded f o s t)
    (kept : KeepsReplies t u) (pending : (u.acqOf f).pending = (t.acqOf f).pending) : pendingEnded f o s u :=
  fun tag code picked is => (h tag code picked is).keep kept pending

theorem pendingEnded.of_before {f : Feed} {o : ReplyOutcome} {s s' t : State} (h : pendingEnded f o s' t)
    (pending : (s'.acqOf f).pending = (s.acqOf f).pending) : pendingEnded f o s t :=
  fun tag code picked is => h tag code picked (pending.trans is)

/-! ## Answers of a record (R89) -/

/-- s with no reply awaited or formed in a record, and none in the queue. -/
def unanswered (s : State) : State :=
  { s with
    acq := { s.acq with
      record := ⟨{ s.acq.record.f0 with pending := .none }, { s.acq.record.f1 with pending := .none }⟩
      formedOrder := [] }
    command := { s.command with replyQueue := [] } }

/-- An answer touches the record's pending reply and the queues of replies only (R89). -/
@[simp] theorem unanswered_answerPending (f : Feed) (o : ReplyOutcome) (b : Bytes) (s : State) :
    unanswered (answerPending f o b s) = unanswered s := by
  unfold answerPending
  split
  · dsimp only
    split <;> cases f <;>
      simp [unanswered, placeCells, State.changeAcq, State.setAcq, State.acqOf, PerFeed.set, PerFeed.get]
  · rfl

theorem decideOn_of_unanswered {s t : State} (h : unanswered t = unanswered s) (c : Context) :
    decideOn t c = decideOn s c := by
  have key (x : State) : decideOn x c = decideOn (unanswered x) c := by
    obtain ⟨feed, channel, entry, eventId, decision, reason, previewEnd, changing⟩ := c
    cases feed <;> rfl
  rw [key t, h, ← key s]

theorem slotOf_answerPending (f g : Feed) (o : ReplyOutcome) (b : Bytes) (s : State) :
    (answerPending f o b s).slotOf g = s.slotOf g :=
  (congrArg (fun x : State => x.slotOf g) (unanswered_answerPending f o b s) :)

theorem filter_answerPending (f : Feed) (o : ReplyOutcome) (b : Bytes) (s : State) :
    (answerPending f o b s).filter = s.filter :=
  (congrArg (fun x : State => x.filter) (unanswered_answerPending f o b s) :)

theorem context_answerPending (f : Feed) (o : ReplyOutcome) (b : Bytes) (s : State) :
    (answerPending f o b s).output.context = s.output.context :=
  (congrArg (fun x : State => x.output.context) (unanswered_answerPending f o b s) :)

/-- After an answer the record awaits no reply, and is else as it was (R89). -/
theorem acqOf_answerPending (f : Feed) (o : ReplyOutcome) (b : Bytes) (s : State) :
    ∃ p : PendingReply, p.isAwaiting = false ∧ (answerPending f o b s).acqOf f = { s.acqOf f with pending := p } := by
  unfold answerPending
  split
  · dsimp only
    split
    · exact ⟨.none, rfl, by cases f <;> rfl⟩
    · rename_i tag code _ _ _
      exact ⟨.formed (.reply tag code o 0 (one (feedPosition f) ++ b)), rfl, by cases f <;> rfl⟩
  · rename_i idle
    refine ⟨(s.acqOf f).pending, ?_, rfl⟩
    cases pending : (s.acqOf f).pending with
    | awaiting tag code picked => exact absurd pending (idle tag code picked)
    | _ => rfl

/-- With an entry free the answer stands in the queue (R89). -/
theorem mem_answerPending {f : Feed} {tag code : Byte} {picked : Option Nat} {s : State}
    (awaits : (s.acqOf f).pending = .awaiting tag code picked) (free : 0 < freeEntries s) (o : ReplyOutcome) (b : Bytes) :
    LocalCell.reply tag code o 0 (one (feedPosition f) ++ b) ∈ (answerPending f o b s).command.replyQueue := by
  unfold answerPending
  rw [awaits]
  dsimp only
  rw [if_pos free]
  exact List.mem_append_right _ (List.mem_singleton.2 rfl)

/-! ## The context taken (R103, R166) -/

theorem presentedAs_takeContext (f : Feed) (e : ChannelEntry) (s : State) : presentedAs f e (takeContext f e s) := by
  have settled (c : Context) (created moved : Bool) (t : State) (feed : c.feed = f) (channel : c.channel = e.number)
      (entry : c.entry = e) (quiet : c.changing = false) :
      presentedAs f e (settle c (decideOn t c) created moved t) := by
    have same (d : Decision) (r : Reason) (p i : Option Nat) :
        decideOn t { c with decision := d, reason := r, previewEnd := p, eventId := i } = decideOn t c :=
      decideOn_congr rfl rfl rfl
    refine ⟨_, context_settle .., feed, channel, entry, quiet, ?_, ?_⟩ <;>
      rw [decideOn_of_untriggered (untriggered_settle ..)]
    · exact congrArg Verdict.decision (same ..).symm
    · exact congrArg Verdict.reason (same ..).symm
  unfold takeContext
  split
  · exact settled (freshContext f e) true false _ rfl rfl rfl rfl
  · exact settled _ false _ _ rfl rfl rfl rfl

theorem presentedAs.of_decision {f : Feed} {e : ChannelEntry} {s t : State} (h : presentedAs f e s)
    (context : t.output.context = s.output.context) (decides : ∀ c, decideOn t c = decideOn s c) :
    presentedAs f e t := by
  obtain ⟨c, at_, feed, channel, entry, quiet, decision, reason⟩ := h
  exact ⟨c, context.trans at_, feed, channel, entry, quiet, by rw [decides]; exact decision,
    by rw [decides]; exact reason⟩

theorem presentedAs_answerPending {f g : Feed} {e : ChannelEntry} {s : State} (h : presentedAs f e s)
    (o : ReplyOutcome) (b : Bytes) : presentedAs f e (answerPending g o b s) :=
  h.of_decision (context_answerPending ..) (decideOn_of_unanswered (unanswered_answerPending ..))

theorem tellDecision_of {f : Feed} {e : ChannelEntry} {s : State} (target : (s.acqOf f).target = some e) :
    tellDecision f s = takeContext f e s := by
  unfold tellDecision; rw [target]

theorem noticeSet_tellDecision_of_set {n : Notice} {s : State} (h : noticeSet n s = true) (f : Feed) :
    noticeSet n (tellDecision f s) = true := by
  unfold tellDecision
  split
  · unfold takeContext
    split
    · refine noticeSet_settle_of_set ?_ ..
      exact (noticeSet_of_notices rfl).trans h
    · refine noticeSet_settle_of_set ?_ ..
      split <;> exact (noticeSet_of_notices rfl).trans h
  · exact h

/-! ## Where an acquisition ends (R103, R104) -/

/-- The acquisition of f that ends in s' is that of s: its record, pending reply, entries and key slot are to end
alike. -/
structure EndsLike (f : Feed) (s s' : State) : Prop where
  role : (s'.acqOf f).role = (s.acqOf f).role
  target : (s'.acqOf f).target = (s.acqOf f).target
  attempts : (s'.acqOf f).attempts = (s.acqOf f).attempts
  pending : (s'.acqOf f).pending = (s.acqOf f).pending
  free : freeEntries s' = freeEntries s
  misses : (s'.slotOf f).misses = (s.slotOf f).misses
  entries : withoutAcq f s'.filter.entries = withoutAcq f s.filter.entries

theorem EndsLike.refl (f : Feed) (s : State) : EndsLike f s s := ⟨rfl, rfl, rfl, rfl, rfl, rfl, rfl⟩

theorem endsLike_setAcq (f : Feed) (s : State) (state : AcqState) (timer : Option (StepTimer × Ticks)) :
    EndsLike f s (s.setAcq f { s.acqOf f with state, timer }) := by
  refine ⟨?_, ?_, ?_, ?_, rfl, rfl, rfl⟩ <;> rw [acqOf_setAcq_same]

theorem entries_removeAcqEntries (f : Feed) (s : State) :
    (removeAcqEntries f s).filter.entries = withoutAcq f s.filter.entries :=
  List.filter_congr fun e _ => by
    by_cases at_ : e.feed = f <;> by_cases owned : e.owner = .acquisition <;> simp [at_, owned]

/-- An acquisition about to be answered FAILED (R104). -/
def failing (f : Feed) (cause : FailCause) (s : State) : State :=
  (clearKeySlot f (removeAcqEntries f s)).changeAcq f
    (fun r => { r with state := .failed, cause := some cause, timer := none, components := [] })

theorem acqOf_failing (f : Feed) (cause : FailCause) (s : State) : (failing f cause s).acqOf f =
    { s.acqOf f with state := .failed, cause := some cause, timer := none, components := [] } :=
  acqOf_changeAcq_same ..

theorem undecided_fail (f : Feed) (cause : FailCause) (answer : FilterAnswer) (s : State) :
    undecided (fail f cause answer s)
      = undecided (answerPending f .failed (failedResults (s.acqOf f) cause answer) (failing f cause s)) := by
  unfold fail
  extract_lets r s1 s2 s3
  have raised : undecided s3 = undecided (answerPending f .failed (failedResults (s.acqOf f) cause answer) s2) :=
    undecided_raise ..
  split
  · exact (undecided_tellDecision f s3).trans raised
  · exact raised

/-- The record of an acquisition that failed (R104). -/
theorem acqOf_fail (f : Feed) (cause : FailCause) (answer : FilterAnswer) (s : State) :
    ∃ p : PendingReply, p.isAwaiting = false ∧ (fail f cause answer s).acqOf f =
      { s.acqOf f with state := .failed, cause := some cause, timer := none, components := [], pending := p } := by
  obtain ⟨p, ended, after⟩ :=
    acqOf_answerPending f .failed (failedResults (s.acqOf f) cause answer) (failing f cause s)
  exact ⟨p, ended, (acqOf_of_undecided (undecided_fail ..) f).trans (after.trans (by rw [acqOf_failing]))⟩

theorem keepsReplies_answered_fail (f : Feed) (cause : FailCause) (answer : FilterAnswer) (s : State) :
    KeepsReplies (answerPending f .failed (failedResults (s.acqOf f) cause answer) (failing f cause s))
      (fail f cause answer s) := by
  unfold fail
  extract_lets r s1 s2 s3
  exact (keepsReplies_raise .feedFault _).trans (keepsReplies_ite (keepsReplies_tellDecision f s3) (.refl s3))

theorem keepsReplies_fail (f : Feed) (cause : FailCause) (answer : FilterAnswer) (s : State) :
    KeepsReplies s (fail f cause answer s) :=
  ((keepsReplies_answerPending ..).trans (keepsReplies_answered_fail f cause answer s)).of_queue

/-- An acquisition that fails leaves what R104 says. -/
theorem failedAs_fail {f : Feed} {s s' : State} (same : EndsLike f s s') (cause : FailCause) (answer : FilterAnswer) :
    failedAs f cause s (fail f cause answer s') := by
  have untaken := undecided_fail f cause answer s'
  have kept := keepsReplies_answered_fail f cause answer s'
  obtain ⟨p, ended, acq⟩ := acqOf_fail f cause answer s'
  have pending : ((failing f cause s').acqOf f).pending = (s.acqOf f).pending := by
    rw [acqOf_failing]; exact same.pending
  refine ⟨by rw [acq], by rw [acq], by rw [acq], by rw [acq], by rw [acq]; exact same.target,
    by rw [acq]; exact same.role, by rw [acq]; exact same.attempts, ?_, ?_, ?_, by rw [acq]; exact ended, ?_, ?_, ?_⟩
  · rw [filter_of_undecided untaken, filter_answerPending]
    exact (entries_removeAcqEntries f s').trans same.entries
  · rw [slotOf_of_undecided untaken, slotOf_answerPending, ← same.misses]
    exact slotOf_setSlot_same ..
  · unfold fail
    dsimp only
    split
    · exact noticeSet_tellDecision_of_set (noticeSet_raise ..) f
    · exact noticeSet_raise ..
  · intro tag code picked awaits free
    have mem := mem_answerPending (pending.trans awaits) (same.free ▸ free : 0 < freeEntries (failing f cause s')) .failed
      (failedResults (s'.acqOf f) cause answer)
    exact ⟨_, kept.mem _ nofun mem⟩
  · exact (pendingEnded.of_before (pendingEnded_answerPending f .failed _ (failing f cause s')) pending).keep kept
      (congrArg AcqRecord.pending (acqOf_of_undecided untaken f))
  · intro e present target
    have told (b : Bytes) : ((raise .feedFault (answerPending f .failed b (failing f cause s'))).acqOf f).target = some e := by
      obtain ⟨_, _, after⟩ := acqOf_answerPending f .failed b (failing f cause s')
      rw [acqOf_of_undecided (undecided_raise ..), after, acqOf_failing]
      exact same.target.trans target
    have run : fail f cause answer s' = tellDecision f (raise .feedFault
        (answerPending f .failed (failedResults (s'.acqOf f) cause answer) (failing f cause s'))) :=
      if_pos (same.role.trans present)
    rw [run, tellDecision_of (told _)]
    exact presentedAs_takeContext ..

theorem passesDecision_answered {f : Feed} {s u : State}
    (state : (u.acqOf f).state = if (s.acqOf f).role = .present then .presenting else .ready)
    (timer : (u.acqOf f).timer = none) (role : (u.acqOf f).role = (s.acqOf f).role)
    (target : (u.acqOf f).target = (s.acqOf f).target) (pending : (u.acqOf f).pending = (s.acqOf f).pending)
    (shown : ∀ e, (s.acqOf f).role = .present → (s.acqOf f).target = some e → presentedAs f e u) (b : Bytes) :
    passesDecision f s (answerPending f .done b u) := by
  obtain ⟨p, ended, after⟩ := acqOf_answerPending f .done b u
  refine ⟨?_, ?_, ?_, ?_, ?_, pendingEnded.of_before (pendingEnded_answerPending f .done b u) pending,
    fun e present is => presentedAs_answerPending (shown e present is) ..⟩
  all_goals rw [after]
  exacts [state, timer, role, target, ended]

/-- The decision step leaves what R103 says. -/
theorem passesDecision_decisionStep {f : Feed} {s s' : State} (same : EndsLike f s s') :
    passesDecision f s (decisionStep f s') := by
  have record (state : AcqState) : (s'.changeAcq f (fun r => { r with state, timer := none })).acqOf f
      = { s'.acqOf f with state, timer := none } := acqOf_changeAcq_same ..
  unfold decisionStep
  dsimp only
  split
  · rename_i role
    have present : (s.acqOf f).role = .present := same.role.symm.trans role
    have told := acqOf_of_undecided
      (undecided_tellDecision f (s'.changeAcq f (fun r => { r with state := .presenting, timer := none }))) f
    rw [record] at told
    refine passesDecision_answered ?_ ?_ ?_ ?_ ?_ (fun e _ is => ?_) _
    · rw [told, if_pos present]
    · rw [told]
    · rw [told]; exact same.role
    · rw [told]; exact same.target
    · rw [told]; exact same.pending
    · rw [tellDecision_of (e := e) (by rw [record]; exact same.target.trans is)]
      exact presentedAs_takeContext ..
  · rename_i role
    have background : (s.acqOf f).role ≠ .present := fun h => role (same.role.trans h)
    refine passesDecision_answered ?_ ?_ ?_ ?_ ?_ (fun e h _ => absurd h background) _
    · rw [record, if_neg background]
    · rw [record]
    · rw [record]; exact same.role
    · rw [record]; exact same.target
    · rw [record]; exact same.pending

theorem slotOf_decisionStep (f g : Feed) (s : State) : (decisionStep f s).slotOf g = s.slotOf g := by
  unfold decisionStep
  dsimp only
  split
  · exact (slotOf_answerPending ..).trans (slotOf_of_undecided (undecided_tellDecision ..) g)
  · exact slotOf_answerPending ..

end Sys2Proof.Machine
end

