-- ==== Sys2Proof/Proofs/AcquisitionTimers.lean ====
section
/-! PROOFS. O20, O21: the steps of an acquisition up to MAPPING, tuning, and the expiry of its timers (R95 to R98, R101,
R125). -/

namespace Sys2Proof.Machine

set_option Elab.async false

variable {K : Special → Prop}

/-! ## The steps up to MAPPING (R96 to R98) -/

theorem setAcq_setAcq (f : Feed) (r x : AcqRecord) (s : State) : (s.setAcq f r).setAcq f x = s.setAcq f x := by
  cases f <;> rfl

theorem changeAcq_setAcq (f : Feed) (r : AcqRecord) (g : AcqRecord → AcqRecord) (s : State) :
    (s.setAcq f r).changeAcq f g = s.setAcq f (g r) := by
  unfold State.changeAcq
  rw [acqOf_setAcq_same, setAcq_setAcq]

theorem setAcq_acqOf (f : Feed) (s : State) : s.setAcq f (s.acqOf f) = s := by cases f <;> rfl

/-- A request for one entry (R21). -/
theorem requestEntries_one (f : Feed) (stream : Nat) (c : Consumer) (s : State) :
    requestEntries f [(stream, c)] s =
      if (entryAt s f stream).isSome then (.duplicate, s)
      else if 24 ≤ s.filter.entries.length then (.tableFull, s)
      else (.installed, { s with filter := { s.filter with
        entries := s.filter.entries ++ [newEntry f stream c .acquisition none] } }) := by
  unfold requestEntries filterAnswer freeFilterEntries
  by_cases there : (entryAt s f stream).isSome = true
  · simp [distinctPairs, there]
  · by_cases full : 24 ≤ s.filter.entries.length
    · simp [distinctPairs, there, full]
    · have room : ¬ 24 - s.filter.entries.length < 1 := by omega
      have below : s.filter.entries.length < 24 := by omega
      have absent : entryAt s f stream = none := by simpa using there
      simp [distinctPairs, room, below, full, addEntries, addEntry, newEntry, absent]

/-- On entry to MAPPING (R98). -/
theorem enterMapping_spec (f : Feed) (e : ChannelEntry) (s : State) :
    let mapping := s.setAcq f { s.acqOf f with state := .mapping, timer := some (.map, s.acq.timing.map * 128) }
    (∀ x, entryAt s f e.mapStream = some x → x.owner = .acquisition → enterMapping f e s = mapping) ∧
    (entryAt s f e.mapStream = none → s.filter.entries.length < 24 →
      enterMapping f e s = { mapping with filter := { s.filter with
        entries := s.filter.entries ++ [newEntry f e.mapStream .sections .acquisition none] } }) ∧
    ((∃ x, entryAt s f e.mapStream = some x ∧ x.owner ≠ .acquisition) ∨
      (entryAt s f e.mapStream = none ∧ 24 ≤ s.filter.entries.length) →
      ∃ answer, answer ≠ .installed ∧ enterMapping f e s = fail f .tableFull answer mapping) := by
  intro mapping
  have holds : holdsAcqEntry mapping f e.mapStream = (entryAt s f e.mapStream).any (fun e => e.owner = .acquisition) := rfl
  have request : requestEntries f [(e.mapStream, .sections)] mapping = _ := requestEntries_one ..
  have at_ : entryAt mapping f e.mapStream = entryAt s f e.mapStream := rfl
  have table : mapping.filter = s.filter := rfl
  have run : enterMapping f e s = if holdsAcqEntry mapping f e.mapStream then mapping else
      match requestEntries f [(e.mapStream, .sections)] mapping with
      | (.installed, s2) => s2
      | (refusal, s2) => fail f .tableFull refusal s2 := rfl
  rw [at_, table] at request
  rw [run, holds]
  refine ⟨fun x is own => ?_, fun absent room => ?_, ?_⟩
  · rw [is]
    exact if_pos (decide_eq_true own)
  · rw [request, absent, if_neg nofun, if_neg nofun, if_neg (Nat.not_le.2 room)]
  · rintro (⟨x, is, own⟩ | ⟨absent, full⟩)
    · refine ⟨.duplicate, nofun, ?_⟩
      rw [request, is, if_neg (by simp [own])]
      rfl
    · refine ⟨.tableFull, nofun, ?_⟩
      rw [request, absent, if_neg nofun, if_neg nofun, if_pos full]

/-- PARKED, and answered (R95). -/
theorem enterParked_spec (f : Feed) (s : State) :
    ((enterParked f s).acqOf f = { s.acqOf f with
      state := .parked, timer := none, pending := ((enterParked f s).acqOf f).pending }) ∧
    ((enterParked f s).acqOf f).pending.isAwaiting = false ∧ (enterParked f s).filter = s.filter ∧
    (∀ g, (enterParked f s).slotOf g = s.slotOf g) ∧ KeepsReplies s (enterParked f s) ∧
    pendingEnded f .done s (enterParked f s) ∧
    (∀ tag code picked, (s.acqOf f).pending = .awaiting tag code picked → 0 < freeEntries s → ∃ results,
      LocalCell.reply tag code .done 0 (one (feedPosition f) ++ results) ∈ (enterParked f s).command.replyQueue) := by
  unfold enterParked
  dsimp only
  let u := s.changeAcq f (fun r => { r with state := .parked, timer := none })
  have record : u.acqOf f = { s.acqOf f with state := .parked, timer := none } := acqOf_changeAcq_same ..
  have pending : (u.acqOf f).pending = (s.acqOf f).pending := by rw [record]
  obtain ⟨p, ended, after⟩ := acqOf_answerPending f .done (one ((s.acqOf f).targetCarrier.getD 0)) u
  refine ⟨?_, ?_, filter_answerPending .., fun g => slotOf_answerPending .., ?_, ?_, ?_⟩
  · rw [after, record]
  · rw [after]; exact ended
  · exact (keepsReplies_answerPending ..).of_queue
  · exact pendingEnded.of_before (pendingEnded_answerPending f .done _ u) pending
  · exact fun tag code picked awaits free => ⟨_, mem_answerPending (pending.trans awaits) free ..⟩

/-- What follows SYNCING, in the words of the statements (R92, R98). -/
theorem passesSync_afterSyncing (f : Feed) (state : AcqState) (timer : Option (StepTimer × Ticks)) (s : State) :
    passesSync f s (afterSyncing f (s.setAcq f { s.acqOf f with state, timer })) := by
  have record : (s.setAcq f { s.acqOf f with state, timer }).acqOf f = { s.acqOf f with state, timer } :=
    acqOf_setAcq_same ..
  unfold afterSyncing
  rw [record]
  dsimp only
  split
  · rename_i e target
    refine ⟨fun park => absurd (target.symm.trans park) nofun, fun e' is => ?_⟩
    obtain rfl : e = e' := Option.some.inj (target.symm.trans is)
    obtain ⟨held, had, refused⟩ := enterMapping_spec f e (s.setAcq f { s.acqOf f with state, timer })
    rw [record, setAcq_setAcq] at held had refused
    refine ⟨held, had, fun taken => ?_⟩
    obtain ⟨answer, _, is⟩ := refused taken
    rw [is]
    exact failedAs_fail (endsLike_setAcq f s ..) ..
  · rename_i target
    refine ⟨fun _ => ?_, fun e is => absurd (target.symm.trans is) nofun⟩
    obtain ⟨after, ended, filter, slot, _, _, replies⟩ := enterParked_spec f (s.setAcq f { s.acqOf f with state, timer })
    rw [record] at after replies
    exact ⟨after, ended, filter, slot f, replies⟩

theorem enterLocking_eq (f : Feed) (s : State) : enterLocking f s =
    if lockIndication s f then
      let syncing := s.setAcq f { s.acqOf f with state := .syncing, timer := some (.sync, s.acq.timing.sync * 128) }
      if locked s f then afterSyncing f syncing else syncing
    else s.setAcq f { s.acqOf f with state := .locking, timer := some (.lock, s.acq.timing.lock * 128) } := by
  let locking := s.setAcq f { s.acqOf f with state := .locking, timer := some (.lock, s.acq.timing.lock * 128) }
  have run : enterLocking f s = if lockIndication s f then enterSyncing f locking else locking := rfl
  have syncs : enterSyncing f locking = if locked s f then afterSyncing f
      (locking.changeAcq f (fun r => { r with state := .syncing, timer := some (.sync, s.acq.timing.sync * 128) }))
      else locking.changeAcq f (fun r => { r with state := .syncing, timer := some (.sync, s.acq.timing.sync * 128) }) := rfl
  rw [run, syncs, changeAcq_setAcq]

/-! ## Tuning (R10, R96) -/

theorem unexpected_false (f : Feed) (es : List FilterEntry) : unexpected f false es = es := by
  unfold unexpected
  simp

/-- A tune request touches front, expectations and assemblies of its feed only (R10, R12). -/
theorem tuneFront_spec (f : Feed) (s : State) :
    (tuneFront f s).acq = s.acq ∧ (tuneFront f s).access = s.access ∧ (tuneFront f s).lines = s.lines ∧
    (tuneFront f s).output = s.output ∧ (tuneFront f s).command = s.command ∧
    (tuneFront f s).filter.entries = unexpected f (locked s f) s.filter.entries ∧
    ((tuneFront f s).frontOf f).sync.isLocked = false := by
  unfold tuneFront locked
  split
  · rename_i sync
    rw [sync]
    exact ⟨rfl, rfl, rfl, rfl, rfl, (unexpected_false ..).symm, rfl⟩
  · rename_i sync
    rw [sync]
    exact ⟨rfl, rfl, rfl, rfl, rfl, (unexpected_false ..).symm, by rw [frontOf_setFront_same]; rfl⟩
  · rename_i sync
    rw [sync]
    exact ⟨rfl, rfl, rfl, rfl, rfl, (unexpected_false ..).symm, by rw [frontOf_setFront_same]; rfl⟩
  · rename_i sync
    rw [sync]
    refine ⟨rfl, rfl, rfl, rfl, rfl, ?_, by cases f <;> rfl⟩
    exact List.map_congr_left fun e _ => by simp [SyncState.isLocked]

/-- On entry to TUNING (R96). -/
theorem enterTuning_spec {f : Feed} {carrier : Nat} {s : State} (target : (s.acqOf f).targetCarrier = some carrier) :
    let t := enterTuning f s
    tuningTo f carrier s t ∧
    t.acqOf f = { s.acqOf f with
      state := .tuning, timer := some (.settle, s.acq.timing.settle * 128)
      tunedCarrier := if usable s f then some carrier else (s.acqOf f).tunedCarrier } ∧
    t.filter.entries = unexpected f (usable s f && locked s f) s.filter.entries ∧
    t.access = s.access ∧ t.output = s.output ∧ t.command = s.command := by
  intro t
  let tuning := s.setAcq f { s.acqOf f with state := .tuning, timer := some (.settle, s.acq.timing.settle * 128) }
  by_cases on : usable s f = true
  · let asked : State := { tuning.setAcq f { tuning.acqOf f with tunedCarrier := (tuning.acqOf f).targetCarrier } with
      lines := { s.lines with tune := s.lines.tune.set f (s.acqOf f).targetCarrier } }
    have run : t = tuneFront f asked := if_pos on
    obtain ⟨acq, access, lines, output, command, entries, unlocked⟩ := tuneFront_spec f asked
    have record : t.acqOf f = { tuning.acqOf f with tunedCarrier := (tuning.acqOf f).targetCarrier } := by
      rw [run]
      exact (congrArg (fun a : Acquisition => a.record.get f) acq).trans (acqOf_setAcq_same ..)
    rw [acqOf_setAcq_same] at record
    refine ⟨⟨?_, ?_, ?_, ?_, fun _ => ⟨?_, run ▸ unlocked⟩⟩, ?_, ?_, ?_, ?_, ?_⟩
    · rw [record]
    · rw [record]
    · rw [record]; exact target
    · rw [record, if_pos on]; exact target
    · rw [run, lines, ← target]; cases f <;> rfl
    · rw [record, if_pos on, ← target]
    · rw [run, entries, on, Bool.true_and]; rfl
    · rw [run, access]; rfl
    · rw [run, output]; rfl
    · rw [run, command]; rfl
  · have run : t = tuning := if_neg on
    have record : t.acqOf f =
        { s.acqOf f with state := .tuning, timer := some (.settle, s.acq.timing.settle * 128) } := by
      rw [run]; exact acqOf_setAcq_same ..
    refine ⟨⟨?_, ?_, ?_, ?_, fun h => absurd h on⟩, ?_, ?_, ?_, ?_, ?_⟩
    · rw [record]
    · rw [record]
    · rw [record]; exact target
    · rw [record, if_neg on]
    · rw [record, if_neg on]
    · rw [run, Bool.eq_false_iff.2 on, Bool.false_and, unexpected_false]; rfl
    all_goals rw [run]; rfl

/-! ## The timers (R96 to R98, R101, R125) -/

/-- A retry over the attempts made so far (R97, R98). -/
theorem retryOrFail_retries {f : Feed} {k : Nat} {s : State} (left : (s.acqOf f).attempts < s.acq.timing.attempts)
    (target : (s.acqOf f).targetCarrier = some k) (cause : FailCause) :
    let t := retryOrFail f cause s
    tuningTo f k s t ∧ (t.acqOf f).attempts = (s.acqOf f).attempts + 1 ∧
      t.filter.entries = unexpected f (usable s f && locked s f) s.filter.entries := by
  intro t
  let again := s.setAcq f { s.acqOf f with attempts := (s.acqOf f).attempts + 1 }
  have run : t = enterTuning f again := if_pos left
  have record : again.acqOf f = { s.acqOf f with attempts := (s.acqOf f).attempts + 1 } := acqOf_setAcq_same ..
  obtain ⟨⟨state, timer, carrier, tuned, request⟩, acq, entries, _⟩ :=
    enterTuning_spec (s := again) (carrier := k) (by rw [record]; exact target)
  rw [record] at acq tuned
  rw [run]
  exact ⟨⟨state, timer, carrier, tuned, request⟩, by rw [acq], entries⟩

theorem retryOrFail_fails {f : Feed} {s : State} (spent : s.acq.timing.attempts ≤ (s.acqOf f).attempts)
    (cause : FailCause) : failedAs f cause s (retryOrFail f cause s) := by
  unfold retryOrFail
  rw [if_neg (Nat.not_lt.2 spent)]
  exact failedAs_fail (.refl f s) ..

theorem timerOut_of {f : Feed} {k : StepTimer} {s : State} (out : (s.acqOf f).timer = some (k, 0)) :
    timerOut f k s = true := (timerOut_iff f k s).2 out

/-- Settles O20: LOCKING is entered again, retried or given up, by the attempts left. -/
theorem settleLockAndSyncExpiry : Obligations.SettleLockAndSyncExpiry := by
  intro f s running
  refine ⟨fun out => ?_, fun out => ?_, fun out => ?_⟩
  · have row : exec (.settleTimerExpiry f) s = .next (enterLocking f s) :=
      (exec_running (settleOver f) running).trans (congrArg Host.Outcome.next (if_pos (timerOut_of out)))
    rw [row, enterLocking_eq]
    refine ⟨fun low => ?_, fun high open_ => ?_, fun high locked => ⟨_, rfl, ?_⟩⟩
    · rw [low]; rfl
    · rw [high, open_]; rfl
    · rw [high, locked]
      exact passesSync_afterSyncing f _ _ s
  · have row : exec (.lockTimerExpiry f) s = .next (retryOrFail f .tuner s) :=
      (exec_running (lockTimerOver f) running).trans (congrArg Host.Outcome.next (if_pos (timerOut_of out)))
    exact ⟨fun k left target => ⟨_, row, retryOrFail_retries left target _⟩,
      fun spent => ⟨_, row, retryOrFail_fails spent _⟩⟩
  · have row : exec (.syncTimerExpiry f) s = .next (retryOrFail f .sync s) :=
      (exec_running (syncTimerOver f) running).trans (congrArg Host.Outcome.next (if_pos (timerOut_of out)))
    exact ⟨fun k left target => ⟨_, row, retryOrFail_retries left target _⟩,
      fun spent => ⟨_, row, retryOrFail_fails spent _⟩⟩

/-- A key slot that changes its wait or its words leaves the acquisition as it is. -/
theorem endsLike_setSlot (f : Feed) (k : KeySlot) (s : State) (misses : k.misses = (s.slotOf f).misses) :
    EndsLike f s (s.setSlot f k) :=
  ⟨rfl, rfl, rfl, rfl, rfl, by rw [slotOf_setSlot_same]; exact misses, rfl⟩

/-- Settles O21: the failure with NO MAP, and what the record makes of an expired key wait. -/
theorem mapAndKeyWaitExpiry : Obligations.MapAndKeyWaitExpiry := by
  intro f s running
  refine ⟨fun out => ⟨_, ?_, failedAs_fail (.refl f s) .noMap .installed⟩, fun out => ?_⟩
  · exact (exec_running (mapTimerOver f) running).trans (congrArg Host.Outcome.next (if_pos (timerOut_of out)))
  · intro expired
    have row : exec (.keyWaitExpiry f) s = .next (reportExpiry f expired) :=
      (exec_running (keyWaitOver f) running).trans (congrArg Host.Outcome.next (if_pos out))
    have report : reportExpiry f expired = match (s.acqOf f).state with
        | .keying => decisionStep f expired
        | .presenting => trigger expired
        | _ => expired := rfl
    refine ⟨fun keying => ⟨decisionStep f expired, ?_, ?_, slotOf_decisionStep ..⟩, fun presenting => ?_,
      fun notKeying notPresenting => ?_⟩
    · rw [row, report, keying]
    · exact passesDecision_decisionStep (endsLike_setSlot f _ s rfl)
    · rw [row, report, presenting]
    · rw [row, report]
      split <;> first | rfl | contradiction

end Sys2Proof.Machine
end

