-- ==== Sys2Proof/Proofs/LeavingLocked.lean ====
section
/-! SUPPORT. What a front that leaves LOCKED does to its feed's entries, assemblies and record (R12, R25, R31, R105,
R106). -/

namespace Sys2Proof.Machine

set_option Elab.async false

variable {K : Special → Prop}

/-! ## A front leaves LOCKED (R12, R25, R31, R105, R106) -/

theorem lockIndication_of_undecided {s t : State} (h : undecided t = undecided s) (f : Feed) :
    lockIndication t f = lockIndication s f :=
  (congrArg (fun x : State => lockIndication x f) h :)

/-- A record over a front that is not LOCKED waits for the lock indication, or with it for the front (R97, R98). -/
def AcqRecord.sentBack (r : AcqRecord) (indication : Bool) (timing : TimerConfig) : AcqRecord :=
  { r with
    state := if indication then .syncing else .locking
    timer := if indication then some (.sync, timing.sync * 128) else some (.lock, timing.lock * 128) }

theorem enterLocking_unlocked {f : Feed} {s : State} (unlocked : locked s f = false) :
    enterLocking f s = s.setAcq f ((s.acqOf f).sentBack (lockIndication s f) s.acq.timing) := by
  rw [enterLocking_eq]
  cases indication : lockIndication s f with
  | false => rfl
  | true => simp only [unlocked]; rfl

/-- What a front that has left LOCKED does to its feed. -/
theorem leaveLocked_spec (f : Feed) (s : State) :
    (leaveLocked f s).filter.entries = unexpected f true s.filter.entries ∧
    (leaveLocked f s).assembler.buffers = s.assembler.buffers.filter (fun a => a.feed ≠ f) ∧
    (leaveLocked f s).frontOf f = { s.frontOf f with down := true } := by
  refine ⟨?_, ?_, by cases f <;> rfl⟩
  · exact List.map_congr_left fun e _ => by simp
  · exact List.filter_congr fun a _ => by simp [Assembly.isOn]

/-- On a front that is not LOCKED every context is denied by SIGNAL (R168). -/
theorem decideOn_unlocked {s : State} {c : Context} (unlocked : locked s c.feed = false) :
    (decideOn s c).decision = .deny ∧ (decideOn s c).reason = .signal := by
  have ground : signalGround s c := .inl unlocked
  rw [decideOn_denied ((denyReason_eq ..).trans (if_pos ground))]
  exact ⟨rfl, rfl⟩

/-- A lock loss while PRESENTING, READY or PARKED (R105). -/
theorem lockLoss_spec {f : Feed} {s : State} (unlocked : locked s f = false) :
    undecided (lockLoss f s) = undecided (s.setAcq f { (s.acqOf f).sentBack (lockIndication s f) s.acq.timing with
      attempts := 1 }) ∧
    noticeSet .feedFault (lockLoss f s) = true ∧
    (∀ c, (s.acqOf f).role = .present → s.output.context = some c → c.feed = f → c.changing = false →
      ∃ c', (lockLoss f s).output.context = some c' ∧ c'.decision = .deny ∧ c'.reason = .signal) := by
  have back : enterLocking f (s.changeAcq f (fun r => { r with attempts := 1 }))
      = s.setAcq f { (s.acqOf f).sentBack (lockIndication s f) s.acq.timing with attempts := 1 } := by
    rw [enterLocking_unlocked (s := s.changeAcq f (fun r => { r with attempts := 1 })) unlocked, acqOf_changeAcq_same]
    exact setAcq_setAcq ..
  unfold lockLoss
  rw [back]
  dsimp only
  refine ⟨?_, ?_, fun c present context feed quiet => ?_⟩
  · split
    · exact (undecided_trigger _).trans (undecided_raise ..)
    · exact undecided_raise ..
  · split
    · exact noticeSet_trigger_of_set (noticeSet_raise ..)
    · exact noticeSet_raise ..
  · rw [if_pos present]
    have unlockedC : locked (trigger (raise .feedFault (s.setAcq f
        { (s.acqOf f).sentBack (lockIndication s f) s.acq.timing with attempts := 1 }))) c.feed = false := by
      have front := frontOf_of_undecided ((undecided_trigger _).trans (undecided_raise .feedFault (s.setAcq f
        { (s.acqOf f).sentBack (lockIndication s f) s.acq.timing with attempts := 1 }))) f
      unfold locked
      rw [feed, front]
      exact unlocked
    obtain ⟨after, _⟩ := redecided_trigger (raise .feedFault (s.setAcq f
      { (s.acqOf f).sentBack (lockIndication s f) s.acq.timing with attempts := 1 })) c
      ((context_raise ..).trans context) quiet
    obtain ⟨deny, signal⟩ := decideOn_unlocked unlockedC
    exact ⟨_, after, deny, signal⟩

/-- The front of f left LOCKED for another sync state, with cause SYNC or LOCK; only fronts and lines have moved from
s to s'. -/
theorem leftLocked_spec {f : Feed} {cause : LeaveCause} {s s' : State} (acts : cause = .sync ∨ cause = .lock)
    (unlocked : locked s' f = false) (moved : s' = { s with front := s'.front, lines := s'.lines }) :
    leavesLocked f s (leftLocked f cause s') ∧
    (leftLocked f cause s').frontOf f = { s'.frontOf f with down := true } ∧
    lockIndication (leftLocked f cause s') f = lockIndication s' f := by
  obtain ⟨entries, buffers, front⟩ := leaveLocked_spec f s'
  let u := leaveLocked f s'
  have acq : u.acq = s.acq := (congrArg (fun x : State => x.acq) moved :)
  have access : u.access = s.access := (congrArg (fun x : State => x.access) moved :)
  have output : u.output = s.output := (congrArg (fun x : State => x.output) moved :)
  have record : u.acqOf f = s.acqOf f := congrArg (fun a : Acquisition => a.record.get f) acq
  have unlockedU : locked u f = false := by unfold locked; rw [front]; exact unlocked
  have indication : lockIndication u f = lockIndication s' f := by
    unfold lockIndication usable locked
    rw [front]
    rfl
  have table : u.filter.entries = unexpected f true s.filter.entries :=
    entries.trans (congrArg (fun x : State => unexpected f true x.filter.entries) moved :)
  have assemblies : u.assembler.buffers = s.assembler.buffers.filter (fun a => a.feed ≠ f) :=
    buffers.trans (congrArg (fun x : State => x.assembler.buffers.filter (fun a => decide (a.feed ≠ f))) moved :)
  let back := (s.acqOf f).sentBack (lockIndication u f) s.acq.timing
  -- A step behind a decision on a record r of f is all that each state of the record needs.
  have behind {t : State} {r : AcqRecord} (h : undecided t = undecided (u.setAcq f r)) :
      t.acqOf f = r ∧ t.filter.entries = unexpected f true s.filter.entries ∧
      t.assembler.buffers = s.assembler.buffers.filter (fun a => a.feed ≠ f) ∧ t.slotOf f = s.slotOf f ∧
      t.acq.formedOrder = s.acq.formedOrder ∧ t.frontOf f = { s'.frontOf f with down := true } ∧
      lockIndication t f = lockIndication u f := by
    refine ⟨(acqOf_of_undecided h f).trans (acqOf_setAcq_same ..), (congrArg Filter.entries (filter_of_undecided h)).trans table,
      (congrArg (fun x : State => x.assembler.buffers) h :).trans assemblies, (slotOf_of_undecided h f).trans
        (congrArg (fun a : Access => a.keySlot.get f) access), Eq.trans (b := u.acq.formedOrder) (congrArg (fun x : State => x.acq.formedOrder) h :)
        (congrArg Acquisition.formedOrder acq), (frontOf_of_undecided h f).trans front,
      lockIndication_of_undecided h f⟩
  have acting : (cause = .sync || cause = .lock) = true := by rcases acts with rfl | rfl <;> rfl
  have run : leftLocked f cause s' = match (s.acqOf f).state with
      | .presenting => lockLoss f u
      | .ready => lockLoss f u
      | .parked => lockLoss f u
      | .mapping => enterLocking f u
      | .keying => enterLocking f u
      | _ => u := by
    rw [← record]
    exact if_pos acting
  by_cases lost : (s.acqOf f).state = .presenting ∨ (s.acqOf f).state = .ready ∨ (s.acqOf f).state = .parked
  · have loss : leftLocked f cause s' = lockLoss f u := by
      rw [run]
      rcases lost with is | is | is <;> rw [is]
    obtain ⟨step, fault, denied⟩ := lockLoss_spec unlockedU
    rw [record, acq] at step
    rw [record, output] at denied
    obtain ⟨after, entries, buffers, slot, formed, front, same⟩ := behind step
    rw [loss]
    refine ⟨⟨entries, buffers, slot, formed, fun _ => ⟨?_, fault, denied⟩, fun other => ?_, fun not => absurd lost not⟩, front,
      same.trans indication⟩
    · rw [after, same]; rfl
    · rcases lost with is | is | is <;> rw [is] at other <;> exact absurd other (by decide)
  · by_cases early : (s.acqOf f).state = .mapping ∨ (s.acqOf f).state = .keying
    · have again : leftLocked f cause s' = u.setAcq f back := by
        rw [run]
        have locking := enterLocking_unlocked unlockedU
        rw [record, acq] at locking
        rcases early with is | is <;> rw [is] <;> exact locking
      obtain ⟨after, entries, buffers, slot, formed, front, same⟩ := behind (congrArg undecided again)
      refine ⟨⟨entries, buffers, slot, formed, fun is => absurd is lost, fun _ => ?_, fun _ no no' => ?_⟩, front,
        same.trans indication⟩
      · rw [after, same]; rfl
      · exact absurd early (by rintro (h | h); exacts [no h, no' h])
    · have stays : leftLocked f cause s' = u.setAcq f (s.acqOf f) := by
        rw [run, ← record, setAcq_acqOf]
        rw [record]
        split
        · rename_i is; exact absurd (.inl is) lost
        · rename_i is; exact absurd (.inr (.inl is)) lost
        · rename_i is; exact absurd (.inr (.inr is)) lost
        · rename_i is; exact absurd (.inl is) early
        · rename_i is; exact absurd (.inr is) early
        · rfl
      obtain ⟨after, entries, buffers, slot, formed, front, same⟩ := behind (congrArg undecided stays)
      exact ⟨⟨entries, buffers, slot, formed, fun is => absurd is lost, fun is => absurd is early, fun _ _ _ => after⟩,
        front, same.trans indication⟩

end Sys2Proof.Machine
end

