-- ==== Sys2Proof/Proofs/LockedSlotFaults.lean ====
section
/-! PROOFS. O8: the bytes after a failed slot, bad slots in LOCKED and the header checks (R4 to R7, R12). -/

namespace Sys2Proof.Machine

set_option Elab.async false

variable {K : Special → Prop}

/-! ## The bytes after a failed slot (R4 to R6) -/

/-- At least one more byte is passed over before the slot of a candidate. -/
theorem scan_confirm {x : Front} {n : Fin 3} (sync : x.sync = .confirm n) (b : FeedByte) :
    x.scan b = { x with position := x.position + 1 } := by unfold Front.scan; rw [sync]

/-- A front that hunts, or that has found a candidate too far off for the bytes still to come. -/
def Hunting (left : Nat) (x : Front) : Prop :=
  (x.sync = .hunt ∧ x.held.length ≤ 5 ∧ x.held.length + left ≤ 127) ∨
  (x.sync = .confirm 0 ∧ ∃ q, x.slot = some q ∧ x.position + left ≤ q)

theorem Hunting.unlocked {left : Nat} {x : Front} (h : Hunting left x) : x.sync.isLocked = false := by
  rcases h with ⟨sync, _⟩ | ⟨sync, _⟩ <;> rw [sync] <;> rfl

theorem Hunting.scan {left : Nat} {x : Front} (h : Hunting (left + 1) x) (b : FeedByte) : Hunting left (x.scan b) := by
  rcases h with ⟨sync, few, bound⟩ | ⟨sync, q, slot, bound⟩
  · rw [scan_hunt sync few]
    have length : (x.held ++ [b]).length = x.held.length + 1 := by simp
    split
    · exact .inl ⟨sync, by dsimp only; omega, by dsimp only; omega⟩
    · split
      · exact .inr ⟨rfl, _, rfl, by dsimp only; omega⟩
      · have tail : (x.held ++ [b]).tail.length = x.held.length := by rw [List.length_tail, length]; rfl
        exact .inl ⟨sync, by dsimp only; omega, by dsimp only; omega⟩
  · rw [scan_confirm sync]
    exact .inr ⟨sync, q, slot, by dsimp only; omega⟩

theorem Hunting.foldl {bs : List FeedByte} {x : Front} (h : Hunting bs.length x) : Hunting 0 (bs.foldl Front.scan x) := by
  induction bs generalizing x with
  | nil => exact h
  | cons b bs ih => exact ih (h.scan b)

/-- Bytes at a port that hunts only move its front (R4). -/
theorem feedBytes_scan {f : Feed} {s : State} (running : s.running = true) (present : s.feedPresent f = true)
    (bs : List FeedByte) (x : Front) (h : Hunting bs.length x) :
    feedBytes f bs (s.setFront f x) = s.setFront f (bs.foldl Front.scan x) := by
  induction bs generalizing x with
  | nil => rfl
  | cons b bs ih =>
    have byte : feedByte f b (s.setFront f x) = s.setFront f (x.scan b) := by
      have taken : feedByte f b (s.setFront f x) = takeByte f b (s.setFront f x) :=
        if_pos (by
          have here : (s.setFront f x).feedPresent f = s.feedPresent f := by cases f <;> rfl
          rw [here, present, Bool.and_true]
          exact running)
      rw [taken]
      unfold takeByte
      rw [frontOf_setFront_same]
      rcases h with ⟨sync, _⟩ | ⟨sync, q, slot, bound⟩
      · rw [sync]
        exact setFront_setFront ..
      · rw [sync, scan_confirm sync]
        obtain ⟨early, _⟩ := slotByte_spec (s := s.setFront f x) (p := q) (by rw [frontOf_setFront_same]; exact slot) b
          (confirmSlot f 0)
        rw [frontOf_setFront_same, setFront_setFront] at early
        exact early (Nat.lt_of_lt_of_le (Nat.lt_add_of_pos_right (Nat.succ_pos _)) bound)
    exact (congrArg (feedBytes f bs) byte).trans (ih _ (h.scan b))

theorem scan_down (x : Front) (b : FeedByte) : { x with down := true }.scan b = { x.scan b with down := true } := by
  cases sync : x.sync with
  | hunt =>
    simp only [Front.scan, Front.examine, sync]
    split_ifs <;> rfl
  | _ => simp only [Front.scan, sync]

/-- The scan moves the sync state of its front only. -/
theorem scan_unsynced (x : Front) (b : FeedByte) : (x.scan b).unsynced = x.unsynced := by
  cases sync : x.sync with
  | hunt =>
    simp only [Front.scan, Front.examine, sync]
    split_ifs <;> rfl
  | _ => simp only [Front.scan, sync]; rfl

theorem foldl_scan_unsynced (bs : List FeedByte) (x : Front) : (bs.foldl Front.scan x).unsynced = x.unsynced := by
  induction bs generalizing x with
  | nil => rfl
  | cons b bs ih => exact (ih _).trans (scan_unsynced x b)

theorem foldl_scan_down (bs : List FeedByte) (x : Front) :
    bs.foldl Front.scan { x with down := true } = { bs.foldl Front.scan x with down := true } := by
  induction bs generalizing x with
  | nil => rfl
  | cons b bs ih => exact (congrArg (fun y => bs.foldl Front.scan y) (scan_down x b)).trans (ih _)

/-- The front that hunts again from the byte after the first of a failed slot (R5, R6). -/
def Front.again (x : Front) (p : Nat) : Front := { x with sync := .hunt, position := p + 1, slot := none, held := [] }

theorem rescan_eq {x : Front} {p : Nat} (slot : x.slot = some p) (bytes : List FeedByte) :
    x.rescan bytes = bytes.tail.foldl Front.scan (x.again p) := by
  unfold Front.rescan
  rw [slot]
  rfl

theorem hunting_again (x : Front) (p : Nat) {bytes : List FeedByte} (whole : bytes.length = 128) :
    Hunting bytes.tail.length (x.again p) :=
  .inl ⟨rfl, Nat.zero_le _, by rw [List.length_tail, whole]; exact Nat.le_refl _⟩

/-! ## Bad slots and header checks in LOCKED (R6, R7) -/

/-- The third bad slot: the front hunts from the byte after the slot's first, and has left LOCKED (R6, R12). -/
theorem lockedSlot_lost {f : Feed} {slot : List FeedByte} {p : Nat} {s : State} (arrives : slotArrives f slot p s)
    (bad : ¬ isAligned (slot.map FeedByte.byte)) :
    let x := s.frontOf f
    let t := lockedSlot f 2 slot s
    t.frontOf f = (feedBytes f slot.tail (s.setFront f { x with
      sync := .hunt, position := p + 1, slot := none, held := [], down := true
      headerErrors := bump x.headerErrors, syncLosses := bump x.syncLosses })).frontOf f ∧
    (t.frontOf f).sync.isLocked = false ∧ (t.frontOf f).down = true ∧
    (t.frontOf f).headerErrors = bump x.headerErrors ∧ (t.frontOf f).syncLosses = bump x.syncLosses ∧
    leavesLocked f s t ∧
    unacquired t = unacquired (s.setFront f
      { x with headerErrors := bump x.headerErrors, syncLosses := bump x.syncLosses }) ∧
    agreeOnFeed (otherFeed f) s t := by
  obtain ⟨running, present, _, position, whole⟩ := arrives
  intro x t
  let y : Front := { x with headerErrors := bump x.headerErrors, syncLosses := bump x.syncLosses }
  let z := slot.tail.foldl Front.scan (y.again p)
  have hunting : Hunting slot.tail.length (y.again p) := hunting_again y p whole
  have downAgain : Hunting slot.tail.length { y.again p with down := true } := hunting
  have run : t = leftLocked f .sync (s.setFront f z) := by
    have is : t = badSlot f 2 slot s := if_neg fun h => bad ((aligned_slot whole).1 h)
    rw [is]
    exact congrArg (fun z => leftLocked f .sync (s.setFront f z)) (rescan_eq (x := y) position slot)
  have unlocked : locked (s.setFront f z) f = false := by
    unfold locked
    rw [frontOf_setFront_same]
    exact hunting.foldl.unlocked
  obtain ⟨left, front, _⟩ := leftLocked_spec (s := s) (.inl rfl) unlocked rfl
  rw [frontOf_setFront_same] at front
  have unsynced : z.unsynced = y.unsynced := foldl_scan_unsynced slot.tail (y.again p)
  have fed := feedBytes_scan running present slot.tail _ downAgain
  rw [foldl_scan_down] at fed
  rw [run]
  refine ⟨?_, ?_, ?_, ?_, ?_, left, ?_, ?_⟩
  · rw [front]
    exact ((congrArg (fun u : State => u.frontOf f) fed).trans (frontOf_setFront_same ..)).symm
  · rw [front]; exact hunting.foldl.unlocked
  · rw [front]
  · rw [front]; exact (congrArg Front.headerErrors unsynced :)
  · rw [front]; exact (congrArg Front.syncLosses unsynced :)
  · rw [unacquired_leftLocked, ← setFront_setFront f y z s]
    exact unacquired_setFront (by rw [frontOf_setFront_same]; exact unsynced)
  · exact agreeOnFeed_iff.2 (by simp [otherFeed_ne f])

/-- A cell that the checks do not accept is counted (R7). -/
theorem checkCell_refused (f : Feed) (slot : List FeedByte) (y : Front) (s : State) :
    let fate := cellFate (readHeader (slot.map FeedByte.byte))
    let t := checkCell f slot (s.setFront f y)
    (fate = .headerError → t = s.setFront f { y with headerErrors := bump y.headerErrors }) ∧
    (fate = .lengthError → t = s.setFront f { y with lengthErrors := bump y.lengthErrors }) ∧
    (fate = .fill → t = s.setFront f y) ∧
    (fate = .misplaced → t = s.setFront f { y with misplaced := bump y.misplaced }) := by
  intro fate t
  have run : t = checkCell f slot (s.setFront f y) := rfl
  unfold checkCell at run
  rw [frontOf_setFront_same, show readHeader (plainBytes slot) = readHeader (slot.map FeedByte.byte) from rfl] at run
  dsimp only at run
  refine ⟨fun is => ?_, fun is => ?_, fun is => ?_, fun is => ?_⟩ <;> rw [show cellFate _ = _ from is] at run
  · exact run.trans (setFront_setFront ..)
  · exact run.trans (setFront_setFront ..)
  · exact run
  · exact run.trans (setFront_setFront ..)

/-- Settles O8: bad slots first, then the checks of an aligned cell in their order. -/
theorem lockedSlotChecks : Obligations.LockedSlotChecks := by
  intro f n slot p s arrives sync x cell h y
  have row := exec_lockedSlot arrives sync
  obtain ⟨_, _, _, position, whole⟩ := id arrives
  have bad (off : ¬ isAligned cell) : lockedSlot f n slot s = badSlot f n slot s :=
    if_neg fun good => off ((aligned_slot whole).1 good)
  have next (sync : SyncState) : ({ x with headerErrors := bump x.headerErrors } : Front).nextSlot sync
      = { afterSlot x sync p with headerErrors := bump x.headerErrors } :=
    nextSlot_eq (x := { x with headerErrors := bump x.headerErrors }) position sync
  have checked (good : isAligned cell) : exec (.lockedSlot f slot) s = .next (checkCell f slot (s.setFront f y)) :=
    row.trans (congrArg Host.Outcome.next (lockedSlot_aligned arrives good))
  obtain ⟨header, length, fill, misplaced⟩ := checkCell_refused f slot y s
  obtain ⟨faults, rest⟩ := cellFate_spec h
  refine ⟨fun off first => ?_, fun off second => ?_, fun off third => ?_, fun good is => ?_, fun good zero phase is => ?_,
    fun good zero phase low high is => ?_, fun good zero phase low high is => ?_⟩
  · subst first
    rw [row, bad off]
    exact congrArg (fun z => Host.Outcome.next (s.setFront f z)) (next (.locked 1))
  · subst second
    rw [row, bad off]
    exact congrArg (fun z => Host.Outcome.next (s.setFront f z)) (next (.locked 2))
  · subst third
    exact ⟨_, row, lockedSlot_lost arrives off⟩
  · exact (checked good).trans (congrArg Host.Outcome.next (header (faults is)))
  · exact (checked good).trans (congrArg Host.Outcome.next (length ((rest zero phase).1 is)))
  · exact (checked good).trans (congrArg Host.Outcome.next (fill (((rest zero phase).2 low high).1 is)))
  · exact (checked good).trans (congrArg Host.Outcome.next (misplaced (((rest zero phase).2 low high).2.1 is)))

end Sys2Proof.Machine
end

