-- ==== Sys2Proof/Proofs/EnteringLocked.lean ====
section
/-! PROOFS. O7, O15: a front that enters LOCKED, and the lock line (R2, R3, R5, R12). -/

namespace Sys2Proof.Machine

set_option Elab.async false

variable {K : Special → Prop}

/-! ## The front enters LOCKED (R5, R12) -/

theorem front_fail (f : Feed) (c : FailCause) (a : FilterAnswer) (s : State) :
    (fail f c a s).front = s.front ∧ (fail f c a s).lines = s.lines ∧ (fail f c a s).f1Present = s.f1Present := by
  have untaken := undecided_fail f c a s
  have answered := unanswered_answerPending f .failed (failedResults (s.acqOf f) c a) (failing f c s)
  exact ⟨(congrArg State.front untaken :).trans (congrArg State.front answered :),
    (congrArg State.lines untaken :).trans (congrArg State.lines answered :),
    (congrArg State.f1Present untaken :).trans (congrArg State.f1Present answered :)⟩

theorem front_enterParked (f : Feed) (s : State) : (enterParked f s).front = s.front :=
  (congrArg State.front (unanswered_answerPending f .done (one ((s.acqOf f).targetCarrier.getD 0))
    (s.changeAcq f (fun r => { r with state := .parked, timer := none }))) :)

/-- The three ways in which MAPPING begins (R98). -/
theorem entryAt_cases (s : State) (f : Feed) (stream : Nat) :
    (∃ x, entryAt s f stream = some x ∧ x.owner = .acquisition) ∨
    (entryAt s f stream = none ∧ s.filter.entries.length < 24) ∨
    ((∃ x, entryAt s f stream = some x ∧ x.owner ≠ .acquisition) ∨
      (entryAt s f stream = none ∧ 24 ≤ s.filter.entries.length)) := by
  cases is : entryAt s f stream with
  | none => rcases Nat.lt_or_ge s.filter.entries.length 24 with h | h <;> simp [h]
  | some x => by_cases own : x.owner = .acquisition <;> simp [own]

/-- What follows SYNCING ends PARKED, MAPPING or FAILED, over the front that it found (R92, R98). -/
theorem afterSyncing_ends (f : Feed) (s : State) :
    (afterSyncing f s).front = s.front ∧ (((afterSyncing f s).acqOf f).state = .parked ∨
      ((afterSyncing f s).acqOf f).state = .mapping ∨ ((afterSyncing f s).acqOf f).state = .failed) := by
  unfold afterSyncing
  split
  · rename_i e _
    obtain ⟨held, had, refused⟩ := enterMapping_spec f e s
    rcases entryAt_cases s f e.mapStream with ⟨x, is, own⟩ | ⟨absent, room⟩ | taken
    · rw [held x is own]
      exact ⟨rfl, .inr (.inl (by rw [acqOf_setAcq_same]))⟩
    · rw [had absent room]
      exact ⟨rfl, .inr (.inl (congrArg AcqRecord.state (acqOf_setAcq_same f _ s) :))⟩
    · obtain ⟨a, _, is⟩ := refused taken
      rw [is]
      exact ⟨(front_fail ..).1, .inr (.inr (failedAs_fail (.refl f _) .tableFull a).1)⟩
  · refine ⟨front_enterParked f s, .inl ?_⟩
    rw [(enterParked_spec f s).1]

/-- Nothing is delivered while the lock indication stays (R12). -/
theorem deliverIndication_still {f : Feed} {before : Bool} {s : State} (still : before = true ∨ lockIndication s f = false) :
    deliverIndication f before s = s :=
  if_neg (by rcases still with is | is <;> simp [is])

theorem deliverIndication_risen {f : Feed} {s : State} (high : lockIndication s f = true) :
    deliverIndication f false s = if (s.acqOf f).state = .locking then enterSyncing f s else s :=
  if_pos (by simp [high])

theorem enterSyncing_eq (f : Feed) (s : State) : enterSyncing f s =
    let syncing := s.setAcq f { s.acqOf f with state := .syncing, timer := some (.sync, s.acq.timing.sync * 128) }
    if locked s f then afterSyncing f syncing else syncing := rfl

/-- Another state of a record does not act on the lock indication (R12). -/
theorem deliverIndication_other {f : Feed} {before : Bool} {s : State} (other : (s.acqOf f).state ≠ .locking) :
    deliverIndication f before s = s := by
  unfold deliverIndication indicationTrue
  rw [if_neg other]
  exact ite_self _

/-- What a usable feed's lock source makes of its lock line and its front (R2). -/
def LockSource.indicates (line locked : Bool) : LockSource → Bool
  | .tuner => line
  | .sync => locked
  | .forced => true
  | .off => false

theorem lockIndication_eq (s : State) (f : Feed) : lockIndication s f =
    (usable s f && (s.frontOf f).source.indicates (s.lines.lock.get f) (locked s f)) := by
  unfold lockIndication LockSource.indicates
  cases (s.frontOf f).source <;> rfl

/-- The front enters LOCKED(0): a SYNCING record passes, and under lock source SYNC a LOCKING one (R12, R97, R98). -/
theorem enterLocked_spec {f : Feed} {p : Nat} {s : State} (position : (s.frontOf f).slot = some p)
    (unlocked : locked s f = false) (present : s.feedPresent f = true) :
    let x := s.frontOf f
    let up := s.setFront f { afterSlot x (.locked 0) p with up := true }
    let r := (s.acqOf f).state
    let passes := r = .syncing ∨ (r = .locking ∧ x.source = .sync ∧ x.enabled = true)
    let t := enterLocked f s
    t.frontOf f = { afterSlot x (.locked 0) p with up := true } ∧ (passes → passesSync f up t) ∧ (¬ passes → t = up) := by
  intro x up r passes t
  have run : t = deliverIndication f (lockIndication s f) (if r = .syncing then afterSyncing f up else up) := by
    have next := nextSlot_eq position (.locked 0)
    show deliverIndication f _ (enteredLocked f (s.setFront f { (s.frontOf f).nextSlot (.locked 0) with up := true })) = _
    rw [next]
    rfl
  have front : up.frontOf f = { afterSlot x (.locked 0) p with up := true } := frontOf_setFront_same ..
  have lockedUp : locked up f = true := by unfold locked; rw [front]; rfl
  have same : up.setAcq f { up.acqOf f with state := (up.acqOf f).state, timer := (up.acqOf f).timer } = up := setAcq_acqOf f up
  have pass := passesSync_afterSyncing f
  by_cases syncing : r = .syncing
  · have ends : t = afterSyncing f up := by
      rw [run, if_pos syncing]
      refine deliverIndication_other fun locking => ?_
      rcases (afterSyncing_ends f up).2 with is | is | is <;> exact absurd (is.symm.trans locking) (by decide)
    have passed := pass (up.acqOf f).state (up.acqOf f).timer up
    rw [same] at passed
    rw [ends]
    exact ⟨(congrArg (fun y => y.get f) (afterSyncing_ends f up).1).trans front, fun _ => passed,
      fun no => absurd (.inl syncing) no⟩
  · rw [if_neg syncing] at run
    have before : lockIndication s f = (usable s f && x.source.indicates (s.lines.lock.get f) false) := by
      rw [lockIndication_eq, unlocked]
    have after : lockIndication up f = (usable s f && x.source.indicates (s.lines.lock.get f) true) := by
      have on : usable up f = usable s f := by
        unfold usable
        rw [front]
        rfl
      rw [lockIndication_eq, lockedUp, on, front]
      rfl
    have enabled : usable s f = x.enabled := by unfold usable; rw [present, Bool.and_true]
    by_cases rises : r = .locking ∧ x.source = .sync ∧ x.enabled = true
    · obtain ⟨locking, source, on⟩ := rises
      have ends : t = afterSyncing f (up.setAcq f { up.acqOf f with
          state := .syncing, timer := some (.sync, up.acq.timing.sync * 128) }) := by
        rw [enabled, on, source] at before after
        rw [run, show lockIndication s f = false from before, deliverIndication_risen after, if_pos (show (up.acqOf f).state = .locking from locking),
          enterSyncing_eq]
        exact if_pos lockedUp
      rw [ends]
      exact ⟨(congrArg (fun y => y.get f) (afterSyncing_ends f (up.setAcq f _)).1).trans front, fun _ => pass _ _ up,
        fun no => absurd (.inr ⟨locking, source, on⟩) no⟩
    · have ends : t = up := by
        rw [run]
        by_cases locking : r = .locking
        · refine deliverIndication_still ?_
          rw [before, after, enabled]
          cases source : x.source with
          | sync =>
            refine .inr (Bool.and_eq_false_iff.2 (.inl ?_))
            exact Bool.eq_false_iff.2 fun on => rises ⟨locking, source, on⟩
          | _ => cases x.enabled <;> simp [LockSource.indicates]
        · exact deliverIndication_other locking
      refine ⟨by rw [ends, front], fun yes => ?_, fun _ => ends⟩
      rcases yes with yes | yes
      · exact absurd yes syncing
      · exact absurd yes rises

/-- Settles O7: the candidate is confirmed slot by slot, LOCKED passes its record, and a bad slot is scanned again. -/
theorem confirmSlotOutcomes : Obligations.ConfirmSlotOutcomes := by
  intro f n slot p s arrives sync x
  have row : exec (.confirmSlot f slot) s = .next (confirmSlot f n slot s) :=
    congrArg Host.Outcome.next (confirmSlotRow_at (atSlotBoundary_of_slotArrives arrives) sync)
  obtain ⟨running, present, _, position, whole⟩ := arrives
  have good (aligned : isAligned (slot.map FeedByte.byte)) := (aligned_slot whole).2 aligned
  have next (sync : SyncState) : x.nextSlot sync = afterSlot x sync p := nextSlot_eq position sync
  refine ⟨fun aligned first => ?_, fun aligned second => ?_, fun aligned third => ?_, fun bad => ?_⟩
  · subst first
    rw [row]
    exact congrArg Host.Outcome.next ((if_pos (good aligned)).trans (congrArg (s.setFront f) (next (.confirm 1))))
  · subst second
    rw [row]
    exact congrArg Host.Outcome.next ((if_pos (good aligned)).trans (congrArg (s.setFront f) (next (.confirm 2))))
  · subst third
    have unlocked : locked s f = false := by unfold locked; rw [sync]; rfl
    obtain ⟨front, passes, stays⟩ := enterLocked_spec position unlocked present
    refine ⟨enterLocked f s, ?_, front, ⟨passes, stays⟩, unacquired_enterLocked f s,
      agreeOnFeed_iff.2 (ofFeed_enterLocked (otherFeed_ne f) s)⟩
    rw [row]
    exact congrArg Host.Outcome.next (if_pos (good aligned))
  · have hunting : Hunting slot.tail.length (x.again p) := hunting_again x p whole
    have failed : confirmSlot f n slot s = s.setFront f (slot.tail.foldl Front.scan (x.again p)) :=
      (if_neg fun h => bad ((aligned_slot whole).1 h)).trans (congrArg (s.setFront f) (rescan_eq position slot))
    rw [row, failed]
    exact congrArg Host.Outcome.next (feedBytes_scan running present slot.tail _ hunting).symm

/-! ## The lock line (R2, R3) -/

theorem feedLock_eq_line {f : Feed} {s : State} (usable : usable s f = true) (tuner : (s.frontOf f).source = .tuner) :
    feedLock s f = s.lines.lock.get f ∧ lockIndication s f = s.lines.lock.get f := by
  unfold feedLock lockIndication
  rw [usable, tuner]
  exact ⟨Bool.true_and _, Bool.true_and _⟩

theorem lock_setLockLine (f : Feed) (high : Bool) (s : State) : (setLockLine f high s).lines.lock.get f = high :=
  PerFeed.get_set_same ..

theorem setLockLine_same {f : Feed} {s : State} : setLockLine f (s.lines.lock.get f) s = s := by
  cases f <;> rfl

/-- A lock line that is read: feed lock and lock indication follow it (R2, R3). -/
theorem reworkLock_line {f : Feed} {high : Bool} {s : State} (usable : Machine.usable s f = true)
    (tuner : (s.frontOf f).source = .tuner) :
    let set := setLockLine f high s
    reworkLock f set = if high then (if (s.frontOf f).sync = .down then set.setFront f (s.frontOf f).rehunt else set)
      else if (s.frontOf f).sync = .down then set else goDown f .lock set := by
  intro set
  have read : feedLock set f = high :=
    (feedLock_eq_line (s := set) usable tuner).1.trans (lock_setLockLine ..)
  unfold reworkLock
  rw [read]
  rfl

theorem lockIndication_line {f : Feed} {high : Bool} {s : State} {y : Front} (usable : usable s f = true)
    (tuner : (s.frontOf f).source = .tuner) (enabled : y.enabled = (s.frontOf f).enabled)
    (source : y.source = (s.frontOf f).source) :
    lockIndication ((setLockLine f high s).setFront f y) f = high := by
  have line : ((setLockLine f high s).setFront f y).lines.lock.get f = high := lock_setLockLine ..
  refine (feedLock_eq_line ?_ ?_).2.trans line
  · unfold Machine.usable at usable ⊢
    rw [frontOf_setFront_same, enabled]
    exact usable
  · rw [frontOf_setFront_same, source]; exact tuner

/-- Settles O15: a line that nothing reads, and one that is, by its level and the sync state it meets. -/
theorem lockLineMovesTheFront : Obligations.LockLineMovesTheFront := by
  intro f s x
  refine ⟨fun high unread => congrArg Host.Outcome.next (lockLineChange_of_unread f high s unread),
    fun running on tuner => ?_⟩
  obtain ⟨_, before⟩ := feedLock_eq_line on tuner
  have row (high : Bool) : exec (.lockLineChange f high) s
      = .next (deliverIndication f (s.lines.lock.get f) (reworkLock f (setLockLine f high s))) := by
    rw [← before]
    exact congrArg Host.Outcome.next (lockLineChange_of_read f high s running on tuner)
  have rework (high : Bool) := reworkLock_line (high := high) on tuner
  refine ⟨fun low down => ?_, fun high up => ?_, fun down => ?_, fun up unlocked => ?_, fun locked => ?_⟩
  · intro hunting
    have moved : reworkLock f (setLockLine f true s) = hunting := by
      rw [rework]
      exact (if_pos rfl).trans (if_pos down)
    have rises : lockIndication hunting f = true := lockIndication_line on tuner rfl rfl
    have hunts : Machine.locked hunting f = false := by unfold Machine.locked; rw [frontOf_setFront_same]; rfl
    rw [row, low, moved, deliverIndication_risen rises, enterSyncing_eq, hunts]
    exact ⟨fun other => congrArg Host.Outcome.next (if_neg other),
      fun locking => congrArg Host.Outcome.next ((if_pos locking).trans (if_neg nofun))⟩
  · have same : setLockLine f true s = s := by
      have same := setLockLine_same (f := f) (s := s)
      rwa [high] at same
    have moved : reworkLock f (setLockLine f true s) = s := by
      rw [rework, if_pos rfl, if_neg up, same]
    rw [row, moved, deliverIndication_still (.inl high)]
  · have moved : reworkLock f (setLockLine f false s) = setLockLine f false s := by
      rw [rework]
      exact (if_neg nofun).trans (if_pos down)
    have falls : lockIndication (setLockLine f false s) f = false :=
      (feedLock_eq_line (s := setLockLine f false s) on tuner).2.trans (lock_setLockLine ..)
    rw [row, moved, deliverIndication_still (.inr falls)]
  · let downed := (setLockLine f false s).setFront f { x with sync := .down, position := 0, slot := none, held := [] }
    have moved : reworkLock f (setLockLine f false s) = downed := by
      rw [rework]
      exact (if_neg nofun).trans ((if_neg up).trans (if_neg (by
        show ¬ x.sync.isLocked = true
        rw [unlocked]; nofun)))
    have falls : lockIndication downed f = false := lockIndication_line on tuner rfl rfl
    rw [row, moved, deliverIndication_still (.inr falls)]
  · let downed := (setLockLine f false s).setFront f { x with sync := .down, position := 0, slot := none, held := [] }
    have up : x.sync ≠ .down := fun down => by rw [down] at locked; exact absurd locked nofun
    have moved : reworkLock f (setLockLine f false s) = leftLocked f .lock downed := by
      rw [rework]
      exact (if_neg nofun).trans ((if_neg up).trans (if_pos locked))
    have unlocked : Machine.locked downed f = false := by unfold Machine.locked; rw [frontOf_setFront_same]; rfl
    obtain ⟨leaves, front, same⟩ := leftLocked_spec (s := s) (.inr rfl) unlocked rfl
    rw [row, moved, deliverIndication_still (.inr (same.trans (lockIndication_line on tuner rfl rfl)))]
    refine ⟨_, rfl, front.trans ?_, leaves, ?_, agreeOnFeed_iff.2 ?_⟩
    · rw [frontOf_setFront_same]
    · rw [unacquired_leftLocked]
      exact unacquired_setFront rfl
    · rw [ofFeed_leftLocked (otherFeed_ne f)]
      exact ofFeed_setFront (otherFeed_ne f) _ (setLockLine f false s)

end Sys2Proof.Machine
end

