-- ==== Sys2Proof/Proofs/SelectRefusals.lean ====
section
/-! PROOFS. O34: the three rows that come to SELECT of a channel, and their refusals (R90, R93). -/

namespace Sys2Proof.Machine

set_option Elab.async false

variable {K : Special → Prop}

/-! ## SELECT and what it is refused for (R90, R93) -/

/-- What SELECT of a channel comes to, over the reserved entry (R90). -/
theorem selectChannel_spec {s : State} (free : s.command.reserved = false) (c : CommandCell) (n : Nat) (picked : Option Nat) :
    let p := presentationFeed s
    let feed := one (feedPosition p) ++ pickedBytes picked
    (s.acq.standby = true → selectChannel c n picked (reserve s) = replied c.tag c.code .standby feed s) ∧
    (s.acq.standby = false →
      (entryOf s.guide n = none → selectChannel c n picked (reserve s) = replied c.tag c.code .unknownChannel feed s) ∧
      (∀ entry, entryOf s.guide n = some entry →
        (presents s p n = true → selectChannel c n picked (reserve s) = replied c.tag c.code .sameChannel feed s) ∧
        (presents s p n = false →
          (readyOn s (backgroundFeed s) n = true → selectChannel c n picked (reserve s)
            = roleSwap p (backgroundFeed s) c picked (reserve s)) ∧
          (readyOn s (backgroundFeed s) n = false → selectChannel c n picked (reserve s)
            = startChannel p .present entry c picked (reserve s))))) := by
  intro p feed
  have run : selectChannel c n picked (reserve s) = if s.acq.standby then answer c .standby feed (reserve s)
      else match entryOf s.guide n with
        | none => answer c .unknownChannel feed (reserve s)
        | some entry =>
          if presents s p n then answer c .sameChannel feed (reserve s)
          else if readyOn s (backgroundFeed s) n then roleSwap p (backgroundFeed s) c picked (reserve s)
          else startChannel p .present entry c picked (reserve s) := rfl
  rw [run]
  refine ⟨fun standby => ?_, fun awake => ⟨fun unknown => ?_, fun entry known => ⟨fun same => ?_, fun other =>
    ⟨fun ready => ?_, fun unready => ?_⟩⟩⟩⟩
  · rw [standby]
    exact answer_reserve free ..
  all_goals rw [awake, if_neg nofun]
  · rw [unknown]
    exact answer_reserve free ..
  all_goals rw [known]
  · dsimp only
    rw [same]
    exact answer_reserve free ..
  · dsimp only
    rw [other, ready]
    rfl
  · dsimp only
    rw [other, unready]
    rfl

/-- SELECT NEXT and PREVIOUS: what the lookup finds is selected (R93). -/
theorem selectPicked_spec {s : State} (free : s.command.reserved = false) (lookup : Guide → Nat → Option Nat)
    (c : CommandCell) :
    let feed := one (feedPosition (presentationFeed s))
    (s.acq.standby = true → selectPicked lookup c (reserve s) = replied c.tag c.code .standby feed s) ∧
    (s.acq.standby = false →
      (lookup s.guide (selectReference s) = none →
        selectPicked lookup c (reserve s) = replied c.tag c.code .unknownChannel feed s) ∧
      (∀ n, lookup s.guide (selectReference s) = some n →
        selectPicked lookup c (reserve s) = selectChannel c n (some n) (reserve s))) := by
  intro feed
  have run : selectPicked lookup c (reserve s) = if s.acq.standby then answer c .standby feed (reserve s)
      else match lookup s.guide (selectReference s) with
        | none => answer c .unknownChannel feed (reserve s)
        | some n => selectChannel c n (some n) (reserve s) := rfl
  rw [run]
  refine ⟨fun standby => ?_, fun awake => ⟨fun unknown => ?_, fun n found => ?_⟩⟩
  · rw [standby]
    exact answer_reserve free ..
  all_goals rw [awake, if_neg nofun]
  · rw [unknown]
    exact answer_reserve free ..
  · rw [found]

theorem reserved_of_taken {s : State} (taken : takesAtOnce s) : s.command.reserved = false :=
  ((mayTake_iff s).1 taken.2).2.2.2.2.2.1

theorem free_of_taken {s : State} (taken : takesAtOnce s) : 0 < freeEntries s :=
  ((mayTake_iff s).1 taken.2).2.2.2.2.2.2

theorem actSelect_whole {tag : Byte} {params : Bytes} (whole : 2 ≤ params.length) (s : State) :
    actSelect ⟨tag, 0x10#8, params⟩ s = selectChannel ⟨tag, 0x10#8, params⟩ (beNat (params.take 2)) none s :=
  if_pos ((carries_iff ⟨tag, 0x10#8, params⟩ 2).2 whole)

/-- The three rows that come to SELECT of a channel (R90, R93). -/
theorem exec_selects {row : Instr} {s : State} {tag code : Byte} {n : Nat} {picked : Option Nat} (taken : takesAtOnce s)
    (is : selects row s tag code n picked) (awake : s.acq.standby = false) :
    ∃ params, exec row s = .next (selectChannel ⟨tag, code, params⟩ n picked (reserve s)) := by
  have free := reserved_of_taken taken
  rcases is with ⟨params, rfl, whole, rfl, rfl, rfl⟩ | ⟨params, rfl, rfl, found, rfl⟩ | ⟨params, rfl, rfl, found, rfl⟩
  · exact ⟨params, exec_answered taken (actSelect_whole whole _)⟩
  · exact ⟨params, exec_answered (act := actSelectNext) (c := ⟨tag, 0x11#8, params⟩) taken
      (((selectPicked_spec free nextChannel _).2 awake).2 n found)⟩
  · exact ⟨params, exec_answered (act := actSelectPrevious) (c := ⟨tag, 0x12#8, params⟩) taken
      (((selectPicked_spec free previousChannel _).2 awake).2 n found)⟩

/-- Settles O34: standby first, then the channel held, then the channel presented. -/
theorem selectRefusals : Obligations.SelectRefusals := by
  intro tag params s taken feed
  have free := reserved_of_taken taken
  have next := selectPicked_spec free nextChannel ⟨tag, 0x11#8, params⟩
  have previous := selectPicked_spec free previousChannel ⟨tag, 0x12#8, params⟩
  have select := selectChannel_spec free ⟨tag, 0x10#8, params⟩ (beNat (params.take 2)) none
  have bare (b : Bytes) : b ++ pickedBytes none = b := List.append_nil b
  dsimp only at select
  rw [bare] at select
  refine ⟨fun short => ?_, fun standby => ⟨fun whole => ?_, ?_, ?_⟩, fun awake => ⟨fun whole unknown => ?_, fun none => ?_,
    fun none => ?_⟩, fun row code n picked entry is awake known same => ?_⟩
  · refine exec_answered (act := actSelect) (c := ⟨tag, 0x10#8, params⟩) taken ((if_neg ?_).trans (badParameter_reserve free _))
    rw [carries_iff]
    exact Nat.not_le.2 short
  · exact exec_answered taken ((actSelect_whole whole _).trans (select.1 standby))
  · exact exec_answered taken (next.1 standby)
  · exact exec_answered taken (previous.1 standby)
  · exact exec_answered taken ((actSelect_whole whole _).trans ((select.2 awake).1 unknown))
  · exact exec_answered taken ((next.2 awake).1 none)
  · exact exec_answered taken ((previous.2 awake).1 none)
  · obtain ⟨params, run⟩ := exec_selects taken is awake
    rw [run, (((selectChannel_spec free _ n picked).2 awake).2 entry known).1 same]

end Sys2Proof.Machine
end

