-- ==== Sys2Proof/Proofs/AcquisitionsBegin.lean ====
section
/-! SUPPORT. An acquisition that has begun (R92): what it tunes, maps, or fails with at once (R96, R98, R104). -/

namespace Sys2Proof.Machine

set_option Elab.async false

variable {K : Special → Prop}

/-! ## An acquisition begins (R92) -/

/-- The record of an acquisition that has just begun (R92, steps 1 to 6). -/
def AcqRecord.begun (r : AcqRecord) (role : Role) (target : Option ChannelEntry) (carrier : Nat)
    (pending : PendingReply) : AcqRecord :=
  { r with
    role, cause := none, target, targetCarrier := some carrier, attempts := 1, timer := none, pending
    components := [], version := none }

/-- From s to u an acquisition began on f with the record r, and nothing else but decisions and markers moved. -/
structure Begun (f : Feed) (r : AcqRecord) (s u : State) : Prop where
  record : u.acqOf f = r
  slot : u.slotOf f = State.clearSlot (s.slotOf f).misses
  entries : u.filter.entries = withoutAcq f s.filter.entries
  front : u.front = s.front
  present : u.f1Present = s.f1Present
  timing : u.acq.timing = s.acq.timing
  frame : unacquired u = unacquired s
  other : ofFeed (otherFeed f) u = ofFeed (otherFeed f) s

/-- What a decision adds to an acquisition that has begun. -/
theorem Begun.decided {f : Feed} {r : AcqRecord} {s u v : State} (h : Begun f r s u) (same : undecided v = undecided u) :
    Begun f r s v :=
  ⟨(acqOf_of_undecided same f).trans h.record, (slotOf_of_undecided same f).trans h.slot,
    (congrArg Filter.entries (filter_of_undecided same)).trans h.entries,
    Eq.trans (b := u.front) (congrArg State.front same :) h.front,
    Eq.trans (b := u.f1Present) (congrArg State.f1Present same :) h.present,
    Eq.trans (b := u.acq.timing) (congrArg (fun x : State => x.acq.timing) same :) h.timing,
    (unacquired_of_undecided same).trans h.frame, (ofFeed_of_undecided same).trans h.other⟩

theorem Begun.sameFront {f : Feed} {r : AcqRecord} {s u : State} (h : Begun f r s u) :
    usable u f = usable s f ∧ locked u f = locked s f := by
  have front : u.frontOf f = s.frontOf f := congrArg (fun x => x.get f) h.front
  have present : u.feedPresent f = s.feedPresent f := by unfold State.feedPresent; rw [h.present]
  unfold usable locked
  rw [front, present]
  exact ⟨rfl, rfl⟩

theorem clearSlot_removed (f : Feed) (s : State) :
    (clearKeySlot f (removeAcqEntries f s)).slotOf f = State.clearSlot (s.slotOf f).misses := slotOf_setSlot_same ..

/-- Steps 1 to 4 and 6 of R92, over a state behind an answer. -/
theorem begun_beginRecord {f : Feed} {s s' : State} (role : Role) (target : Option ChannelEntry) (carrier : Nat)
    (pending : PendingReply) (answered : unanswered s' = unanswered s) (frame : unacquired s' = unacquired s)
    (other : ofFeed (otherFeed f) s' = ofFeed (otherFeed f) s) :
    Begun f ((s.acqOf f).begun role target carrier pending) s
      ((beginRecord f role target carrier pending s').changeAcq f (fun r => { r with attempts := 1 })) := by
  have ne := otherFeed_ne f
  have filter : s'.filter.entries = s.filter.entries := (congrArg (fun x : State => x.filter.entries) answered :)
  have slot : s'.slotOf f = s.slotOf f := (congrArg (fun x : State => x.slotOf f) answered :)
  refine ⟨?_, (clearSlot_removed f s').trans (by rw [slot]), ?_, (congrArg State.front answered :),
    (congrArg State.f1Present answered :), (congrArg (fun x : State => x.acq.timing) answered :), ?_, ?_⟩
  · have record : { s'.acqOf f with pending := .none } = { s.acqOf f with pending := PendingReply.none } := by
      have key (x : State) : (unanswered x).acqOf f = { x.acqOf f with pending := .none } := by cases f <;> rfl
      rw [← key, ← key, answered]
    unfold beginRecord
    dsimp only
    rw [acqOf_changeAcq_same, acqOf_changeAcq_same]
    exact (congrArg (fun r : AcqRecord => r.begun role target carrier pending) record :)
  · exact (entries_removeAcqEntries f s').trans (by rw [filter])
  · simp [frame]
  · simp [other, ne]

/-- A reply that the record awaited has been answered SUPERSEDED in an entry (R89, R92). -/
def Superseded (f : Feed) (s u : State) : Prop :=
  ∀ tag code picked, (s.acqOf f).pending = .awaiting tag code picked →
    ∃ results, LocalCell.reply tag code .superseded 0 results ∈ u.command.replyQueue

theorem superseded_supersede {f : Feed} {s : State} (free : 0 < freeEntries s) : Superseded f s (supersede f s) :=
  fun _ _ _ awaits => ⟨_, mem_answerPending awaits free ..⟩

theorem Superseded.keep {f : Feed} {s u v : State} (h : Superseded f s u) (kept : KeepsReplies u v) : Superseded f s v :=
  fun tag code picked awaits => (h tag code picked awaits).imp fun _ m => kept.mem _ nofun m

theorem Superseded.pendingEnded {f : Feed} {s u : State} (h : Superseded f s u) : pendingEnded f .superseded s u :=
  fun tag code picked awaits => .inl (h tag code picked awaits)

/-- An acquisition that has begun, its filter and key slot cleared, over a front that is not there: it tunes (R92, R96). -/
theorem Begun.tunes {f : Feed} {s u : State} {role : Role} {target : Option ChannelEntry} {carrier : Nat}
    {pending : PendingReply} (h : Begun f ((s.acqOf f).begun role target carrier pending) s u) :
    let t := enterTuning f u
    tuningTo f carrier s t ∧
    (∃ state timer tunedCarrier, t.acqOf f =
      { (s.acqOf f).begun role target carrier pending with state, timer, tunedCarrier }) ∧
    t.slotOf f = State.clearSlot (s.slotOf f).misses ∧
    t.filter.entries = unexpected f (usable s f && locked s f) (withoutAcq f s.filter.entries) ∧
    t.output = u.output ∧ t.command = u.command ∧
    unacquired t = unacquired s ∧ agreeOnFeed (otherFeed f) s t := by
  intro t
  have carrier_ : (u.acqOf f).targetCarrier = some carrier := by rw [h.record]; rfl
  obtain ⟨⟨state, timer, target_, tuned, request⟩, record, entries, access, output, command⟩ := enterTuning_spec carrier_
  obtain ⟨on, held⟩ := h.sameFront
  rw [h.timing] at timer
  rw [on, h.record] at tuned
  rw [on] at request
  rw [h.record] at record
  refine ⟨⟨state, timer, target_, tuned, request⟩, ⟨_, _, _, record⟩, ?_, ?_, output, command,
    (unacquired_enterTuning f u).trans h.frame, agreeOnFeed_iff.2 ((ofFeed_enterTuning (otherFeed_ne f) u).trans h.other)⟩
  · exact (congrArg (fun a : Access => a.keySlot.get f) access).trans h.slot
  · rw [entries, on, held, h.entries]

theorem entryAt_begun {f : Feed} {r : AcqRecord} {s u : State} (h : Begun f r s u) (entry : ChannelEntry) :
    (mapStreamTaken f entry s → (∃ x, entryAt u f entry.mapStream = some x ∧ x.owner ≠ .acquisition) ∨
      (entryAt u f entry.mapStream = none ∧ 24 ≤ u.filter.entries.length)) ∧
    (¬ mapStreamTaken f entry s → entryAt u f entry.mapStream = none ∧ u.filter.entries.length < 24) := by
  have found (x : FilterEntry) (is : entryAt u f entry.mapStream = some x) :
      x ∈ withoutAcq f s.filter.entries ∧ x.feed = f ∧ x.stream = entry.mapStream :=
    ⟨h.entries ▸ List.mem_of_find?_eq_some is, isAt_of_entryAt is⟩
  have missing (none : entryAt u f entry.mapStream = none) :
      ¬ ∃ e ∈ withoutAcq f s.filter.entries, e.feed = f ∧ e.stream = entry.mapStream := by
    rintro ⟨e, mem, at_⟩
    exact List.find?_eq_none.1 none e (h.entries ▸ mem) ((isAt_iff e f _).2 at_)
  unfold mapStreamTaken
  rw [← h.entries]
  cases is : entryAt u f entry.mapStream with
  | none =>
    refine ⟨fun taken => .inr ⟨rfl, taken.resolve_left (h.entries ▸ missing is)⟩, fun free => ⟨rfl, ?_⟩⟩
    exact Nat.lt_of_not_le fun full => free (.inr full)
  | some x =>
    obtain ⟨mem, at_⟩ := found x is
    refine ⟨fun _ => .inl ⟨x, rfl, fun own => ?_⟩, fun free => absurd (.inl ⟨x, h.entries ▸ mem, at_⟩) free⟩
    have kept := of_decide_eq_true (List.mem_filter.1 mem).2
    exact kept ⟨at_.1, own⟩

/-- An acquisition of a channel that has begun over a front LOCKED on its carrier: MAPPING, or FAILED at once (R92, R98,
R104). -/
theorem Begun.maps {f : Feed} {s u : State} {role : Role} {entry : ChannelEntry} {tag code : Byte} {picked : Option Nat}
    (h : Begun f ((s.acqOf f).begun role (some entry) entry.carrier (.awaiting tag code picked)) s u)
    (superseded : Superseded f s u) :
    let t := afterSyncing f u
    (mapStreamTaken f entry s → failsAtStart f role entry tag code s t) ∧
    (¬ mapStreamTaken f entry s →
      t.acqOf f = { (s.acqOf f).begun role (some entry) entry.carrier (.awaiting tag code picked) with
        state := .mapping, timer := some (.map, s.acq.timing.map * 128) } ∧
      t.slotOf f = State.clearSlot (s.slotOf f).misses ∧
      t.filter.entries = withoutAcq f s.filter.entries ++
        [newEntry f entry.mapStream .sections .acquisition none] ∧
      t.output = u.output ∧ t.command = u.command ∧
      unacquired t = unacquired s ∧ agreeOnFeed (otherFeed f) s t) := by
  intro t
  have frame : unacquired t = unacquired s := (unacquired_afterSyncing f u).trans h.frame
  have other : agreeOnFeed (otherFeed f) s t :=
    agreeOnFeed_iff.2 ((ofFeed_afterSyncing (otherFeed_ne f) u).trans h.other)
  have run : t = enterMapping f entry u := by
    have target : (u.acqOf f).target = some entry := by rw [h.record]; rfl
    show afterSyncing f u = _
    unfold afterSyncing
    rw [target]
  obtain ⟨_, had, refused⟩ := enterMapping_spec f entry u
  obtain ⟨taken, free⟩ := entryAt_begun h entry
  refine ⟨fun full => ?_, fun room => ?_⟩
  · obtain ⟨a, _, failed⟩ := refused (taken full)
    let mapping := u.setAcq f { u.acqOf f with state := .mapping, timer := some (.map, u.acq.timing.map * 128) }
    have is : t = fail f .tableFull a mapping := run.trans failed
    have failed := failedAs_fail (endsLike_setAcq f u .mapping (some (.map, u.acq.timing.map * 128))) .tableFull a
    obtain ⟨p, ended, record⟩ := acqOf_fail f .tableFull a mapping
    rw [acqOf_setAcq_same, h.record] at record
    have kept : KeepsReplies u (fail f .tableFull a mapping) := (keepsReplies_fail f .tableFull a mapping).of_queue
    rw [← is] at failed record kept
    obtain ⟨_, _, _, _, _, _, _, entries, slot, fault, _, _, answered, shown⟩ := failed
    refine ⟨by rw [record]; rfl, by rw [record], by rw [record], by rw [record]; rfl, by rw [record]; rfl,
      by rw [record]; rfl, by rw [record], by rw [record], by rw [record]; exact ended,
      answered tag code picked (by rw [h.record]; rfl), (superseded.keep kept).pendingEnded, ?_, ?_, fault,
      fun present => shown entry (by rw [h.record]; exact present) (by rw [h.record]; rfl), frame, other⟩
    · rw [entries, h.entries]
      unfold withoutAcq
      rw [List.filter_filter]
      exact List.filter_congr fun e _ => Bool.and_self _
    · rw [slot, h.slot]
      rfl
  · obtain ⟨absent, below⟩ := free room
    have is := run.trans (had absent below)
    rw [is]
    rw [is] at frame other
    refine ⟨?_, h.slot, ?_, rfl, rfl, frame, other⟩
    · refine (acqOf_setAcq_same f _ u :).trans ?_
      rw [h.record, h.timing]
    · dsimp only
      rw [h.entries]

end Sys2Proof.Machine
end

