-- ==== Sys2Proof/Proofs/SelectAcquires.lean ====
section
/-! PROOFS. O35: SELECT, SELECT NEXT and SELECT PREVIOUS that start an acquisition (R90, R92, R93, R167). -/

namespace Sys2Proof.Machine

set_option Elab.async false

variable {K : Special → Prop}

/-! ## Starting an acquisition of a channel (R90, R92) -/

/-- The context that a SELECT finds is changing after it (R167). -/
def ContextChanging (s t : State) : Prop :=
  ∀ c, s.output.context = some c → ∃ c', t.output.context = some c' ∧
    c'.changing = true ∧ (c.changing = false → c'.decision = .deny ∧ c'.reason = .changing)

theorem contextChanging_setChanging (s : State) : ContextChanging s (setChanging s) := by
  intro c context
  unfold setChanging
  rw [context]
  dsimp only
  split
  · rename_i changing
    exact ⟨c, context, changing, fun quiet => absurd (changing.symm.trans quiet) nofun⟩
  · exact ⟨_, context_settle .., rfl, fun _ => ⟨rfl, rfl⟩⟩

theorem keepsReplies_setChanging (s : State) : KeepsReplies s (setChanging s) := by
  unfold setChanging
  split
  · exact .refl s
  · exact keepsReplies_ite (.refl s) (keepsReplies_settle ..)

/-- Steps 6 and 7 of R92: on the carrier already held the acquisition goes on at once, and else it tunes. -/
theorem Begun.proceeds {f : Feed} {s x : State} {role : Role} {target : Option ChannelEntry} {k : Nat}
    {pending : PendingReply} (h : Begun f ((s.acqOf f).begun role target k pending) s
      (x.changeAcq f (fun r => { r with attempts := 1 }))) :
    let u := x.changeAcq f (fun r => { r with attempts := 1 })
    proceed f k x = if (s.acqOf f).tunedCarrier = some k ∧ locked s f = true then afterSyncing f u
      else enterTuning f u := by
  intro u
  have same : alreadyThere x f k = alreadyThere u f k := by
    unfold alreadyThere
    rw [acqOf_changeAcq_same]
    rfl
  have there : alreadyThere x f k = true ↔ (s.acqOf f).tunedCarrier = some k ∧ locked s f = true := by
    rw [same]
    unfold alreadyThere
    rw [h.sameFront.2, h.record, Bool.and_eq_true, decide_eq_true_eq]
    rfl
  exact if_congr there rfl rfl

/-- Steps 1 to 7 of R92 for a channel: the acquisition begins, and then maps or tunes. -/
theorem startChannel_begins {f : Feed} {s : State} (taken : takesAtOnce s) (role : Role) (entry : ChannelEntry)
    (c : CommandCell) (picked : Option Nat) :
    ∃ u, Begun f ((s.acqOf f).begun role (some entry) entry.carrier (.awaiting c.tag c.code picked)) s u ∧
      Superseded f s u ∧ (role = .present → ContextChanging s u) ∧
      startChannel f role entry c picked (reserve s) =
        if (s.acqOf f).tunedCarrier = some entry.carrier ∧ locked s f = true then afterSyncing f u
        else enterTuning f u := by
  have free := free_of_taken taken
  let s1 := supersede f s
  let s2 := beginRecord f role (some entry) entry.carrier (c.awaits picked) s1
  let s3 := if role = .present then setChanging s2 else s2
  let u := s3.changeAcq f (fun r => { r with attempts := 1 })
  have begun : Begun f ((s.acqOf f).begun role (some entry) entry.carrier (.awaiting c.tag c.code picked)) s
      (s2.changeAcq f (fun r => { r with attempts := 1 })) :=
    begun_beginRecord role (some entry) entry.carrier (c.awaits picked) (unanswered_answerPending ..)
      (unacquired_supersede f s) (ofFeed_supersede (otherFeed_ne f) s)
  have decided : undecided s3 = undecided s2 := by
    by_cases present : role = .present
    · exact (congrArg undecided (if_pos present)).trans (undecided_setChanging s2)
    · exact congrArg undecided (if_neg present)
  have kept : KeepsReplies s1 u :=
    (KeepsReplies.of_queue (s' := s2) (keepsReplies_ite (keepsReplies_setChanging s2) (.refl s2))).trans
      (keepsReplies_of_eq (s := s3) rfl)
  have here : Begun f ((s.acqOf f).begun role (some entry) entry.carrier (.awaiting c.tag c.code picked)) s u :=
    begun.decided (congrArg (fun x : State => x.changeAcq f (fun r => { r with attempts := 1 })) decided :)
  refine ⟨u, here, (superseded_supersede free).keep kept, fun present context at_ => ?_, ?_⟩
  · have same : s2.output.context = s.output.context := context_answerPending ..
    have changing : s3 = setChanging s2 := if_pos present
    have moved := contextChanging_setChanging s2 context (same.trans at_)
    rwa [← changing] at moved
  · have run : startChannel f role entry c picked (reserve s) = proceed f entry.carrier s3 := by
      unfold startChannel
      rw [endReservation_reserve (reserved_of_taken taken)]
    rw [run]
    exact here.proceeds

theorem not_there {f : Feed} {k : Nat} {s : State} (h : (s.acqOf f).tunedCarrier ≠ some k ∨ locked s f = false) :
    ¬ ((s.acqOf f).tunedCarrier = some k ∧ locked s f = true) := by
  rintro ⟨tuned, held⟩
  rcases h with h | h
  · exact h tuned
  · exact absurd (h.symm.trans held) nofun

/-- Settles O35: the acquisition begins, and then tunes, fails at once or maps. (`selectAcquires` names the statements'
own word for a SELECT that starts one.) -/
theorem selectAcquires' : Obligations.SelectAcquires := by
  intro row tag code n picked entry s taken is ⟨awake, known, other, unready⟩ f begun
  obtain ⟨params, run⟩ := exec_selects taken is awake
  have start := (((selectChannel_spec (reserved_of_taken taken) ⟨tag, code, params⟩ n picked).2 awake).2 entry known).2 other
  rw [start.2 unready] at run
  obtain ⟨u, here, superseded, changing, steps⟩ :=
    startChannel_begins (f := f) taken .present entry ⟨tag, code, params⟩ picked
  rw [steps] at run
  -- What the record, the key slot, the queue and the context of u pass on.
  have begins {t : State} {state : AcqState} {timer : Option (StepTimer × Ticks)} {tunedCarrier : Option Nat}
      (record : t.acqOf f = { (s.acqOf f).begun .present (some entry) entry.carrier (.awaiting tag code picked) with
        state, timer, tunedCarrier })
      (slot : t.slotOf f = State.clearSlot (s.slotOf f).misses) (output : t.output = u.output)
      (command : t.command = u.command) : begun t := by
    have replies : KeepsReplies u t := keepsReplies_of_eq (by rw [command])
    refine ⟨by rw [record]; rfl, by rw [record]; rfl, by rw [record]; rfl, by rw [record]; rfl, by rw [record]; rfl,
      by rw [record]; rfl, by rw [record]; rfl, by rw [record]; rfl, (superseded.keep replies).pendingEnded, slot, ?_⟩
    rw [output]
    exact changing rfl
  refine ⟨fun away => ?_, fun tuned held full => ?_, fun tuned held room => ?_⟩
  · rw [if_neg (not_there away)] at run
    obtain ⟨tunes, ⟨_, _, _, record⟩, slot, entries, output, command, frame, agree⟩ := here.tunes
    exact ⟨_, run, tunes, begins record slot output command, entries, frame, agree⟩
  · rw [if_pos ⟨tuned, held⟩] at run
    exact ⟨_, run, (here.maps superseded).1 full⟩
  · rw [if_pos ⟨tuned, held⟩] at run
    obtain ⟨record, slot, entries, output, command, frame, agree⟩ := (here.maps superseded).2 room
    exact ⟨_, run, begins (tunedCarrier := (s.acqOf f).tunedCarrier) record slot output command, by rw [record],
      by rw [record], entries, frame, agree⟩

end Sys2Proof.Machine
end

