-- ==== Sys2Proof/Proofs/PretuneAndPark.lean ====
section
/-! PROOFS. O37: PRETUNE and PARK, refused, answered at once, or begun (R89, R92, R94, R95). -/

namespace Sys2Proof.Machine

set_option Elab.async false

variable {K : Special → Prop}

/-! ## PRETUNE and PARK (R94, R95) -/

theorem pretuneChannel_spec {s : State} (free : s.command.reserved = false) (c : CommandCell) (n : Nat) :
    let b := backgroundFeed s
    let feed := one (feedPosition b)
    let t := pretuneChannel c n (reserve s)
    (s.acq.standby = true → t = replied c.tag c.code .standby feed s) ∧
    (s.acq.standby = false → usable s b = false → t = replied c.tag c.code .noSecondFeed feed s) ∧
    (s.acq.standby = false → usable s b = true → entryOf s.guide n = none →
      t = replied c.tag c.code .unknownChannel feed s) ∧
    (∀ entry, s.acq.standby = false → usable s b = true → entryOf s.guide n = some entry →
      (presents s (presentationFeed s) n = true → t = replied c.tag c.code .sameChannel feed s) ∧
      (presents s (presentationFeed s) n = false →
        (readyOn s b n = true → t = replied c.tag c.code .done feed s) ∧
        (readyOn s b n = false → t = startChannel b .background entry c none (reserve s)))) := by
  intro b feed t
  have run : t = if s.acq.standby then answer c .standby feed (reserve s)
      else if !usable s b then answer c .noSecondFeed feed (reserve s)
      else match entryOf s.guide n with
        | none => answer c .unknownChannel feed (reserve s)
        | some entry =>
          if presents s (presentationFeed s) n then answer c .sameChannel feed (reserve s)
          else if readyOn s b n then answer c .done feed (reserve s)
          else startChannel b .background entry c none (reserve s) := rfl
  rw [run]
  refine ⟨fun standby => ?_, fun awake off => ?_, fun awake on unknown => ?_, fun entry awake on known =>
    ⟨fun same => ?_, fun other => ⟨fun ready => ?_, fun unready => ?_⟩⟩⟩
  · rw [standby]
    exact answer_reserve free ..
  all_goals rw [awake, if_neg nofun]
  · rw [off]
    exact answer_reserve free ..
  all_goals rw [on, if_neg nofun]
  · rw [unknown]
    exact answer_reserve free ..
  all_goals rw [known]; dsimp only
  · rw [same]
    exact answer_reserve free ..
  · rw [other, ready]
    exact answer_reserve free ..
  · rw [other, unready]
    rfl

theorem parkCarrier_spec {s : State} (free : s.command.reserved = false) (c : CommandCell) (k : Nat) :
    let b := backgroundFeed s
    let feed := one (feedPosition b)
    let t := parkCarrier c k (reserve s)
    (usable s b = false → t = replied c.tag c.code .noSecondFeed feed s) ∧
    (usable s b = true →
      ((s.acqOf b).state = .parked → (s.acqOf b).targetCarrier = some k → t = replied c.tag c.code .done feed s) ∧
      ((s.acqOf b).state ≠ .parked ∨ (s.acqOf b).targetCarrier ≠ some k → t = startPark b k c (reserve s))) := by
  intro b feed t
  have run : t = if !usable s b then answer c .noSecondFeed feed (reserve s)
      else if (s.acqOf b).state = .parked && (s.acqOf b).targetCarrier = some k then answer c .done feed (reserve s)
      else startPark b k c (reserve s) := rfl
  rw [run]
  refine ⟨fun off => ?_, fun on => ⟨fun parked carrier => ?_, fun other => ?_⟩⟩
  · rw [off]
    exact answer_reserve free ..
  all_goals rw [on, if_neg nofun]
  · rw [if_pos (by rw [parked, carrier]; simp)]
    exact answer_reserve free ..
  · exact if_neg (by rcases other with h | h <;> simp [h])

/-- A step of the record of an acquisition that has begun. -/
theorem Begun.changed {f : Feed} {r : AcqRecord} {s u : State} (h : Begun f r s u) (g : AcqRecord → AcqRecord) :
    Begun f (g r) s (u.changeAcq f g) :=
  ⟨(acqOf_changeAcq_same ..).trans (congrArg g h.record), h.slot, h.entries, h.front, h.present, h.timing, h.frame,
    (ofFeed_changeAcq (otherFeed_ne f) ..).trans h.other⟩

/-- PARK of another carrier than the front holds (R92, R95). -/
theorem startPark_tunes {f : Feed} {k : Nat} {s : State} (taken : takesAtOnce s)
    (away : (s.acqOf f).tunedCarrier ≠ some k ∨ locked s f = false) (c : CommandCell) :
    ∃ u, Begun f ((s.acqOf f).begun .background none k (.awaiting c.tag c.code none)) s u ∧ Superseded f s u ∧
      startPark f k c (reserve s) = enterTuning f u := by
  let x := beginRecord f .background none k (c.awaits none) (supersede f s)
  let u := x.changeAcq f (fun r => { r with attempts := 1 })
  have here : Begun f ((s.acqOf f).begun .background none k (.awaiting c.tag c.code none)) s u :=
    begun_beginRecord .background none k (c.awaits none) (unanswered_answerPending ..) (unacquired_supersede f s)
      (ofFeed_supersede (otherFeed_ne f) s)
  have kept : KeepsReplies (supersede f s) u := keepsReplies_of_eq rfl
  refine ⟨u, here, (superseded_supersede (free_of_taken taken)).keep kept, ?_⟩
  have off : ¬ alreadyThere (reserve s) f k = true := fun there =>
    not_there away ((Bool.and_eq_true_iff.1 there).imp_left of_decide_eq_true)
  have run : startPark f k c (reserve s) = proceed f k x := by
    unfold startPark
    rw [if_neg off, endReservation_reserve (reserved_of_taken taken)]
  rw [run, here.proceeds, if_neg (not_there away)]

/-- PARK of the carrier that the front holds: PARKED at once, and answered ahead of SUPERSEDED (R89, R95). -/
theorem startPark_parks {f : Feed} {k : Nat} {s : State} (taken : takesAtOnce s)
    (tuned : (s.acqOf f).tunedCarrier = some k) (held : locked s f = true) (c : CommandCell) :
    let t := startPark f k c (reserve s)
    (∃ p : PendingReply, p.isAwaiting = false ∧
      t.acqOf f = { (s.acqOf f).begun .background none k p with state := .parked }) ∧
    t.slotOf f = State.clearSlot (s.slotOf f).misses ∧ pendingEnded f .superseded s t ∧
    LocalCell.reply c.tag c.code .done 0 (one (feedPosition f) ++ one k) ∈ t.command.replyQueue ∧
    t.filter.entries = withoutAcq f s.filter.entries ∧ unacquired t = unacquired s ∧ agreeOnFeed (otherFeed f) s t := by
  intro t
  let x := beginRecord f .background none k (s.acqOf f).pending s
  let y := (x.changeAcq f (fun r => { r with attempts := 1 })).changeAcq f (fun r => { r with state := .parked })
  let u := placeCells [.reply c.tag c.code .done 0 (one (feedPosition f) ++ one k)] y
  have begun : Begun f { (s.acqOf f).begun .background none k (s.acqOf f).pending with state := .parked } s y :=
    (begun_beginRecord .background none k (s.acqOf f).pending rfl rfl rfl).changed (fun r => { r with state := .parked })
  have there : alreadyThere (reserve s) f k = true := Bool.and_eq_true_iff.2 ⟨decide_eq_true tuned, held⟩
  have run : t = supersede f u := by
    have ended : endReservation (reserve s) = s := endReservation_reserve (reserved_of_taken taken)
    have step : t = supersede f (placeCells [.reply c.tag c.code .done 0 (one (feedPosition f) ++ one k)]
        ((beginRecord f .background none k (s.acqOf f).pending (endReservation (reserve s))).changeAcq f
          (fun r => { r with state := .parked, attempts := 1 }))) := if_pos there
    rw [ended] at step
    have once : y = x.changeAcq f (fun r => { r with state := .parked, attempts := 1 }) := by
      show (x.changeAcq f _).changeAcq f _ = _
      unfold State.changeAcq
      rw [acqOf_setAcq_same, setAcq_setAcq]
    rw [step, show u = placeCells _ y from rfl, once]
  have record : u.acqOf f = _ := begun.record
  obtain ⟨p, ended, after⟩ := acqOf_answerPending f .superseded (pickedBytes (u.acqOf f).pending.picked) u
  have pending : (u.acqOf f).pending = (s.acqOf f).pending := by rw [record]; rfl
  rw [run]
  refine ⟨⟨p, ended, after.trans (by rw [record]; rfl)⟩, (slotOf_answerPending ..).trans begun.slot,
    pendingEnded.of_before (pendingEnded_supersede f u) pending,
    (keepsReplies_answerPending f .superseded _ u).mem _ nofun (List.mem_append_right _ (List.mem_singleton.2 rfl)),
    (congrArg Filter.entries (filter_answerPending ..)).trans begun.entries,
    (unacquired_supersede f u).trans begun.frame,
    agreeOnFeed_iff.2 ((ofFeed_supersede (otherFeed_ne f) u).trans begun.other)⟩

/-- Settles O37: each refusal in its order, and else the acquisition begun on the background feed. -/
theorem pretuneAndPark : Obligations.PretuneAndPark := by
  intro tag params s taken b feed n k begun
  have free := reserved_of_taken taken
  have begins {code : Byte} {target : Option ChannelEntry} {carrier : Nat} {t u : State} {state : AcqState}
      {timer : Option (StepTimer × Ticks)} {tunedCarrier : Option Nat}
      (record : t.acqOf b = { (s.acqOf b).begun .background target carrier (.awaiting tag code none) with
        state, timer, tunedCarrier })
      (slot : t.slotOf b = State.clearSlot (s.slotOf b).misses) (superseded : Superseded b s u)
      (command : t.command = u.command) : begun code target carrier t := by
    have replies : KeepsReplies u t := keepsReplies_of_eq (by rw [command])
    refine ⟨by rw [record]; rfl, by rw [record]; rfl, by rw [record]; rfl, by rw [record]; rfl, by rw [record]; rfl,
      by rw [record]; rfl, by rw [record]; rfl, by rw [record]; rfl, (superseded.keep replies).pendingEnded, slot⟩
  refine ⟨fun short => ?_, fun whole => ?_, fun short => ?_, fun whole => ?_⟩
  · refine exec_answered (act := actPretune) (c := ⟨tag, 0x13#8, params⟩) taken
      ((if_neg ?_).trans (badParameter_reserve free _))
    rw [carries_iff]
    exact Nat.not_le.2 short
  · have row : exec (.pretune tag params) s = .next (pretuneChannel ⟨tag, 0x13#8, params⟩ n (reserve s)) :=
      exec_answered (act := actPretune) (c := ⟨tag, 0x13#8, params⟩) taken (if_pos ((carries_iff _ 2).2 whole))
    obtain ⟨standby, off, unknown, known⟩ := pretuneChannel_spec free ⟨tag, 0x13#8, params⟩ n
    have starts {entry : ChannelEntry} (awake : s.acq.standby = false) (on : usable s b = true)
        (is : entryOf s.guide n = some entry) (other : presents s (presentationFeed s) n = false)
        (unready : readyOn s b n = false) := ((known entry awake on is).2 other).2 unready
    refine ⟨fun h => by rw [row, standby h], fun h h' => by rw [row, off h h'], fun h h' h'' => by rw [row, unknown h h' h''],
      fun entry awake on is => ⟨fun same => by rw [row, (known entry awake on is).1 same], fun other ready => by
        rw [row, ((known entry awake on is).2 other).1 ready], fun other unready away => ?_,
      fun other unready tuned held full => ?_, fun other unready tuned held room => ?_⟩⟩
    all_goals
      obtain ⟨u, here, superseded, _, steps⟩ :=
        startChannel_begins (f := b) taken .background entry ⟨tag, 0x13#8, params⟩ none
      rw [starts awake on is other unready, steps] at row
    · rw [if_neg (not_there away)] at row
      obtain ⟨tunes, ⟨_, _, _, record⟩, slot, entries, _, command, frame, agree⟩ := here.tunes
      exact ⟨_, row, tunes, begins record slot superseded command, entries, frame, agree⟩
    · rw [if_pos ⟨tuned, held⟩] at row
      exact ⟨_, row, (here.maps superseded).1 full⟩
    · rw [if_pos ⟨tuned, held⟩] at row
      obtain ⟨record, slot, entries, _, command, frame, agree⟩ := (here.maps superseded).2 room
      exact ⟨_, row, begins (tunedCarrier := (s.acqOf b).tunedCarrier) record slot superseded command, by rw [record],
        by rw [record], entries, frame, agree⟩
  · refine exec_answered (act := actPark) (c := ⟨tag, 0x14#8, params⟩) taken
      ((if_neg ?_).trans (badParameter_reserve free _))
    rw [carries_iff]
    exact Nat.not_le.2 short
  · have row : exec (.park tag params) s = .next (parkCarrier ⟨tag, 0x14#8, params⟩ k (reserve s)) :=
      exec_answered (act := actPark) (c := ⟨tag, 0x14#8, params⟩) taken (if_pos ((carries_iff _ 1).2 whole))
    obtain ⟨off, on⟩ := parkCarrier_spec free ⟨tag, 0x14#8, params⟩ k
    refine ⟨fun h => by rw [row, off h], fun h parked carrier => by rw [row, (on h).1 parked carrier], fun h other =>
      ⟨fun away => ?_, fun tuned held => ?_⟩⟩
    all_goals rw [(on h).2 other] at row
    · obtain ⟨u, here, superseded, steps⟩ := startPark_tunes (f := b) taken away ⟨tag, 0x14#8, params⟩
      rw [steps] at row
      obtain ⟨tunes, ⟨_, _, _, record⟩, slot, entries, _, command, frame, agree⟩ := here.tunes
      exact ⟨_, row, tunes, begins record slot superseded command, entries, frame, agree⟩
    · obtain ⟨⟨p, ended, record⟩, slot, superseded, reply, entries, frame, agree⟩ :=
        startPark_parks (f := b) taken tuned held ⟨tag, 0x14#8, params⟩
      exact ⟨_, row, by rw [record]; rfl, by rw [record], by rw [record]; rfl, by rw [record]; rfl, by rw [record]; rfl,
        by rw [record]; rfl, by rw [record]; rfl, by rw [record]; rfl, slot, by rw [record]; exact ended, superseded,
        reply, entries, frame, agree⟩

end Sys2Proof.Machine
end

