-- ==== Sys2Proof/Proofs/RoleSwap.lean ====
section
/-! PROOFS. O36: a SELECT of the channel on which the background feed is READY (R91). -/

namespace Sys2Proof.Machine

set_option Elab.async false

variable {K : Special → Prop}

/-! ## The role swap (R91) -/

theorem acqOf_of_ofFeed {g : Feed} {s t : State} (h : ofFeed g t = ofFeed g s) : t.acqOf g = s.acqOf g :=
  congrArg (fun x => x.2.1) h

theorem slotOf_of_ofFeed {g : Feed} {s t : State} (h : ofFeed g t = ofFeed g s) : t.slotOf g = s.slotOf g :=
  congrArg (fun x => x.2.2.1) h

/-- An answer in the reserved entry of a command, behind the steps of an acquisition. -/
theorem unacquired_answer_reserve {s x : State} (free : s.command.reserved = false)
    (h : unacquired x = unacquired (reserve s)) (c : CommandCell) (o : ReplyOutcome) (b : Bytes) :
    unacquired (answer c o b x) = unacquired s := by
  have ended (y : State) : unacquired (endReservation y) = endReservation (unacquired y) := rfl
  have step : unacquired (answer c o b x) = unacquired (endReservation x) := rfl
  rw [step, ended, h, ← ended, endReservation_reserve free]

theorem mem_answer (c : CommandCell) (o : ReplyOutcome) (b : Bytes) (s : State) :
    LocalCell.reply c.tag c.code o 0 b ∈ (answer c o b s).command.replyQueue :=
  List.mem_append_right _ (List.mem_singleton.2 rfl)

theorem presentedAs_answer {f : Feed} {e : ChannelEntry} {s : State} (h : presentedAs f e s) (c : CommandCell)
    (o : ReplyOutcome) (b : Bytes) : presentedAs f e (answer c o b s) :=
  h.of_decision rfl fun _ => rfl

theorem undecided_tells (f : Feed) (s : State) (e : ChannelEntry) (target : (s.acqOf f).target = some e) :
    presentedAs f e (tellDecision f s) := by
  rw [tellDecision_of target]
  exact presentedAs_takeContext ..

/-- Steps 2 to 4 of R91 on both records, the key slots and the filter entries. -/
theorem swapRoles_spec (p : Feed) (s : State) :
    let t := swapRoles p (otherFeed p) s
    t.acqOf (otherFeed p) = { s.acqOf (otherFeed p) with role := .present, state := .presenting } ∧
    t.acqOf p = (s.acqOf p).swappedOut (locked s p) ∧
    t.slotOf (otherFeed p) = s.slotOf (otherFeed p) ∧ t.slotOf p = State.clearSlot (s.slotOf p).misses ∧
    t.filter.entries = withoutAcq p s.filter.entries ∧ unacquired t = unacquired s := by
  intro t
  let x := (clearKeySlot p (removeAcqEntries p s)).changeAcq p (fun r => r.swappedOut (locked s p))
  have run : t = x.changeAcq (otherFeed p) AcqRecord.swappedIn := rfl
  have other : ofFeed (otherFeed p) x = ofFeed (otherFeed p) s := by simp [x, otherFeed_ne p]
  refine ⟨?_, ?_, ?_, ?_, entries_removeAcqEntries p s, rfl⟩
  · rw [run, acqOf_changeAcq_same, acqOf_of_ofFeed other]
    rfl
  · have back := ofFeed_changeAcq (f := otherFeed p) (g := p) (otherFeed_ne p).symm AcqRecord.swappedIn x
    rw [run, acqOf_of_ofFeed back]
    exact acqOf_changeAcq_same ..
  · exact (slotOf_of_ofFeed other :)
  · exact clearSlot_removed p s

theorem swappedOut_eq (r : AcqRecord) (lockedNow : Bool) : r.swappedOut lockedNow =
    let parkedOn := if lockedNow then r.tunedCarrier else none
    { r with
      role := .background, state := if parkedOn = none then .idle else .parked, cause := none,
      target := none, targetCarrier := parkedOn, attempts := if parkedOn = none then 0 else 1,
      timer := none, components := [], version := none } := by
  unfold AcqRecord.swappedOut
  cases (if lockedNow then r.tunedCarrier else none) <;> rfl

theorem readyOn_target {s : State} {f : Feed} {n : Nat} (ready : readyOn s f n = true) :
    ∃ e, (s.acqOf f).target = some e ∧ e.number = n := by
  unfold readyOn at ready
  obtain ⟨_, on⟩ := Bool.and_eq_true_iff.1 ready
  cases target : (s.acqOf f).target with
  | none => rw [target] at on; exact absurd on nofun
  | some e => rw [target] at on; exact ⟨e, rfl, of_decide_eq_true on⟩

/-- Settles O36: the swap of the records, the decision on the new feed, the answer, and SUPERSEDED for the old. -/
theorem selectSwapsRoles : Obligations.SelectSwapsRoles := by
  intro row tag code n picked entry s taken is awake known other ready p r parkedOn
  have free := reserved_of_taken taken
  obtain ⟨params, run⟩ := exec_selects taken is awake
  have swap := ((((selectChannel_spec free ⟨tag, code, params⟩ n picked).2 awake).2 entry known).2 other).1 ready
  rw [swap] at run
  obtain ⟨new, old, slotNew, slotOld, entries, frame⟩ := swapRoles_spec p (reserve s)
  let x := swapRoles p r (reserve s)
  let y := tellDecision r x
  have decided : undecided y = undecided x := undecided_tellDecision r x
  let results := flagByte true ++ contextVerdict y ++ flagByte (y.acqOf r).scrambled ++ pickedBytes picked
  let u := answer ⟨tag, code, params⟩ .done (one (feedPosition r) ++ results) y
  let t := supersede p u
  have ends : roleSwap p r ⟨tag, code, params⟩ picked (reserve s) = t := by
    have same : feedByteOf r ++ flagByte true ++ contextVerdict y ++ flagByte (y.acqOf r).scrambled ++ pickedBytes picked
        = one (feedPosition r) ++ results := by simp only [results, List.append_assoc]; rfl
    exact congrArg (fun b => supersede p (answer ⟨tag, code, params⟩ .done b y)) same
  have recordOld : u.acqOf p = (s.acqOf p).swappedOut (locked s p) := (acqOf_of_undecided decided p).trans old
  have later : ofFeed r t = ofFeed r u := ofFeed_supersede (otherFeed_ne p) u
  obtain ⟨pending, ended, after⟩ := acqOf_answerPending p .superseded (pickedBytes (u.acqOf p).pending.picked) u
  have recordNew : t.acqOf r = x.acqOf r := (acqOf_of_ofFeed later).trans (acqOf_of_undecided decided r)
  have filterU : t.filter = u.filter := filter_answerPending ..
  have filterY : u.filter = y.filter := rfl
  have filterX : y.filter = x.filter := filter_of_undecided decided
  have newRecord : x.acqOf r = { s.acqOf r with role := .present, state := .presenting } := new
  have presented (e : ChannelEntry) (target : (s.acqOf r).target = some e) : presentedAs r e t := by
    have shown : presentedAs r e y := undecided_tells r x e (by rw [newRecord]; exact target)
    exact presentedAs_answerPending (presentedAs_answer shown ..) ..
  rw [ends] at run
  refine ⟨t, run, ?_, ⟨pending, ?_, ended⟩, ?_, presented, ?_, ?_, ?_, ?_, ⟨results, ?_⟩, ?_⟩
  · exact recordNew.trans newRecord
  · refine after.trans ?_
    rw [recordOld, swappedOut_eq]
  · refine pendingEnded.of_before (pendingEnded_supersede p u) ?_
    rw [recordOld, swappedOut_eq]
  · exact (slotOf_of_ofFeed later).trans ((slotOf_of_undecided decided r).trans slotNew)
  · exact (slotOf_answerPending ..).trans ((slotOf_of_undecided decided p).trans slotOld)
  · rw [filterU, filterY, filterX]
    exact entries
  · obtain ⟨e, target, number⟩ := readyOn_target ready
    obtain ⟨c, context, feed, channel, _, quiet, _⟩ := presented e target
    exact ⟨c, context, feed, channel.trans number, quiet⟩
  · exact (keepsReplies_answerPending p .superseded _ u).mem _ nofun (mem_answer ..)
  · refine (unacquired_supersede p u).trans (unacquired_answer_reserve free ?_ ..)
    exact (unacquired_of_undecided decided).trans frame

end Sys2Proof.Machine
end

