-- ==== Sys2Proof/Proofs/PresentationEnds.lean ====
section
/-! SUPPORT. The presentation ended, and RELEASE (R70, R108, R160, R172). -/

namespace Sys2Proof.Machine

set_option Elab.async false

variable {K : Special → Prop}

/-! ## The presentation ends (R70, R160, R172) -/

theorem isProgramme_plainOut (x : OutCell) : (plainOut x).isProgramme = x.isProgramme := by
  cases x with
  | programme => rfl
  | ofPart c => cases c <;> rfl

theorem meterMayRun_of_no_context {s : State} (none : s.output.context = none) : meterMayRun s = false := by
  unfold meterMayRun
  rw [none]
  rfl

theorem presentationEnded_removeContext (s : State) : presentationEnded s (removeContext s) := by
  cases context : s.output.context with
  | none =>
    have same : removeContext s = s := by unfold removeContext; rw [context]
    exact presentationEnded_of_no_context context (by rw [same]; exact context)
  | some c =>
    let s1 := announce c.channel .deny .ended false s
    let u := unwatch { s1 with output := { s1.output with context := none } }
    have run : removeContext s = { u with limits := { u.limits with running := false } } := by
      have step : removeContext s = evaluateMeter u := by unfold removeContext; rw [context]
      rw [step]
      unfold evaluateMeter
      rw [meterMayRun_of_no_context (s := u) rfl]
      rfl
    obtain ⟨access, _, denied, _, marker⟩ := announced_announce c.channel .deny .ended s
    obtain ⟨queue, _, priming⟩ := denied rfl
    refine ⟨by rw [run]; rfl, fun c' is => ?_⟩
    obtain rfl : c = c' := Option.some.inj (context.symm.trans is)
    rw [run]
    refine ⟨rfl, rfl, priming, fun x mem => ?_, access, ?_⟩
    · have plain : plainOut x ∈ (s.output.queue.filter (fun x => !x.isProgramme)).map plainOut :=
        queue ▸ List.mem_map_of_mem mem
      obtain ⟨y, kept, same⟩ := List.mem_map.1 plain
      have no := (List.mem_filter.1 kept).2
      rw [← isProgramme_plainOut, ← same, isProgramme_plainOut]
      simpa using no
    · by_cases pending : s.output.pendingMarker = none
      · rcases (marker.2 pending).2 with ⟨_, placed⟩ | ⟨waits, _⟩
        · exact .inl placed
        · exact .inr waits
      · exact .inr (marker.1 pending).1

/-- An ended presentation stays ended while answers are given. -/
theorem presentationEnded.keep {s t u : State} (h : presentationEnded s t) (output : u.output = t.output)
    (guide : u.guide = t.guide) (limits : u.limits = t.limits) (notices : u.command.notices = t.command.notices)
    (kept : KeepsReplies t u) : presentationEnded s u := by
  refine ⟨by rw [output]; exact h.1, fun c is => ?_⟩
  obtain ⟨watched, running, priming, queue, notice, marker⟩ := h.2 c is
  rw [guide, limits, output, noticeSet_of_notices notices]
  exact ⟨watched, running, priming, queue, notice, marker.imp_left (kept.mem _ nofun)⟩

theorem presentationEnded_answerPending {s t : State} (h : presentationEnded s t) (f : Feed) (o : ReplyOutcome)
    (b : Bytes) : presentationEnded s (answerPending f o b t) :=
  have same := unanswered_answerPending f o b t
  h.keep (congrArg State.output same :) (congrArg State.guide same :) (congrArg State.limits same :)
    (congrArg (fun x : State => x.command.notices) same :) (keepsReplies_answerPending ..)

theorem presentationEnded_answer {s t : State} (h : presentationEnded s t) (c : CommandCell) (o : ReplyOutcome)
    (b : Bytes) : presentationEnded s (answer c o b t) :=
  h.keep rfl rfl rfl rfl (keepsReplies_answer ..)

/-! ## RELEASE (R108) -/

/-- Steps 1 to 3 of R108. -/
theorem releaseRecord_spec (f : Feed) (s : State) :
    let t := releaseRecord f s
    t.acqOf f = releasedRecord (s.acqOf f) (s.acqOf f).pending ∧
    t.slotOf f = State.clearSlot (s.slotOf f).misses ∧ t.filter.entries = withoutAcq f s.filter.entries ∧
    ((s.acqOf f).role = .present → presentationEnded s t) ∧ t.front = s.front ∧ t.f1Present = s.f1Present ∧
    t.acq.timing = s.acq.timing ∧ unacquired t = unacquired s ∧ ofFeed (otherFeed f) t = ofFeed (otherFeed f) s := by
  intro t
  let x := (clearKeySlot f (removeAcqEntries f s)).changeAcq f (fun r =>
    { r with role := .none, state := .idle, cause := none, target := none, targetCarrier := none,
             attempts := 0, timer := none, components := [], version := none })
  have run : t = if (s.acqOf f).role = .present then removeContext x else x := rfl
  have decided : undecided t = undecided x := by
    rw [run]
    split
    · exact undecided_removeContext x
    · rfl
  have frame : unacquired x = unacquired s := rfl
  refine ⟨(acqOf_of_undecided decided f).trans (acqOf_changeAcq_same ..),
    (slotOf_of_undecided decided f).trans (clearSlot_removed f s),
    (congrArg Filter.entries (filter_of_undecided decided)).trans (entries_removeAcqEntries f s), fun present => ?_,
    (congrArg State.front decided :), (congrArg State.f1Present decided :),
    (congrArg (fun x : State => x.acq.timing) decided :), (unacquired_of_undecided decided).trans frame,
    ofFeed_releaseRecord (otherFeed_ne f) s⟩
  rw [run, if_pos present]
  exact presentationEnded_removeContext x

/-- RELEASE of feed f (R108). -/
theorem releases {tag : Byte} {params : Bytes} {f : Feed} {s : State} (taken : takesAtOnce s)
    (whole : 1 ≤ params.length) (named : beNat (params.take 1) = feedPosition f) :
    ∃ t, exec (.release tag params) s = .next t ∧
      (∃ pending, t.acqOf f = releasedRecord (s.acqOf f) pending ∧ pending.isAwaiting = false) ∧
      t.slotOf f = State.clearSlot (s.slotOf f).misses ∧ t.filter.entries = withoutAcq f s.filter.entries ∧
      ((s.acqOf f).role = .present → presentationEnded s t) ∧ pendingEnded f .superseded s t ∧
      LocalCell.reply tag 0x15#8 .done 0 (one (feedPosition f)) ∈ t.command.replyQueue ∧
      unacquired t = unacquired s ∧ agreeOnFeed (otherFeed f) s t := by
  have free := reserved_of_taken taken
  obtain ⟨record, slot, entries, shown, _, _, _, frame, other⟩ := releaseRecord_spec f (reserve s)
  let c : CommandCell := ⟨tag, 0x15#8, params⟩
  let u := answer c .done (one (feedPosition f)) (releaseRecord f (reserve s))
  let t := supersede f u
  have run : exec (.release tag params) s = .next t := by
    refine exec_answered (act := actRelease) (c := c) taken ((if_pos ((carries_iff c 1).2 whole)).trans ?_)
    rw [show feedOfByte (c.number 0 1) = some f from (congrArg feedOfByte named).trans (feedOfByte_position f)]
    rfl
  have recordU : u.acqOf f = releasedRecord (s.acqOf f) (s.acqOf f).pending := record
  obtain ⟨pending, ended, after⟩ := acqOf_answerPending f .superseded (pickedBytes (u.acqOf f).pending.picked) u
  have filterU : t.filter = u.filter := filter_answerPending ..
  have slotU : t.slotOf f = u.slotOf f := slotOf_answerPending ..
  refine ⟨t, run, ⟨pending, after.trans (by rw [recordU]; rfl), ended⟩, slotU.trans slot,
    (congrArg Filter.entries filterU).trans entries, fun present => ?_,
    pendingEnded.of_before (pendingEnded_supersede f u) (by rw [recordU]; rfl),
    (keepsReplies_answerPending f .superseded _ u).mem _ nofun (mem_answer ..),
    (unacquired_supersede f u).trans (unacquired_answer_reserve free frame ..), agreeOnFeed_iff.2 ?_⟩
  · have ends : presentationEnded s (releaseRecord f (reserve s)) := shown present
    exact presentationEnded_answerPending (presentationEnded_answer ends ..) ..
  · exact (ofFeed_supersede (otherFeed_ne f) u).trans other

end Sys2Proof.Machine
end

