-- ==== Sys2Proof/Proofs/ReleaseStandbyWake.lean ====
section
/-! PROOFS. O38: RELEASE, STANDBY and WAKE (R108, R109). -/

namespace Sys2Proof.Machine

set_option Elab.async false

variable {K : Special → Prop}

/-! ## STANDBY and WAKE (R109) -/

theorem answerPending_idle {f : Feed} {s : State} (idle : (s.acqOf f).pending.isAwaiting = false) (o : ReplyOutcome)
    (b : Bytes) : answerPending f o b s = s := by
  unfold answerPending
  split
  · rename_i awaits
    rw [awaits] at idle
    exact absurd idle nofun
  · rfl

/-- The answer of a record that awaits one: in the queue, or formed in the record (R89). -/
theorem answerPending_awaiting {f : Feed} {tag code : Byte} {picked : Option Nat} {s : State}
    (awaits : (s.acqOf f).pending = .awaiting tag code picked) (o : ReplyOutcome) (b : Bytes) :
    let cell := LocalCell.reply tag code o 0 (one (feedPosition f) ++ b)
    cell ∈ (answerPending f o b s).command.replyQueue ∨ ((answerPending f o b s).acqOf f).pending = .formed cell := by
  unfold answerPending
  rw [awaits]
  dsimp only
  split
  · exact .inl (List.mem_append_right _ (List.mem_singleton.2 rfl))
  · exact .inr (by cases f <;> rfl)

theorem enterTuning_units (f : Feed) (s : State) :
    (enterTuning f s).guide = s.guide ∧ (enterTuning f s).limits = s.limits := by
  have tuned (x : State) : (tuneFront f x).guide = x.guide ∧ (tuneFront f x).limits = x.limits := by
    unfold tuneFront
    split <;> exact ⟨rfl, rfl⟩
  unfold enterTuning
  dsimp only
  split
  · exact tuned _
  · exact ⟨rfl, rfl⟩

/-- A step of the acquisition of b that no other unit sees. -/
structure Aside (b : Feed) (s t : State) : Prop where
  output : t.output = s.output
  guide : t.guide = s.guide
  limits : t.limits = s.limits
  command : t.command = s.command
  frame : unacquired t = unacquired s
  other : ofFeed (otherFeed b) t = ofFeed (otherFeed b) s

/-- The park that STANDBY makes (R109, step 2). -/
theorem standbyPark_spec (b : Feed) (k : Nat) (s : State) :
    let t := standbyPark b k s
    Aside b s t ∧ (t.acqOf b).role = .background ∧ (t.acqOf b).target = none ∧ (t.acqOf b).attempts = 1 ∧
    (t.acqOf b).targetCarrier = some k ∧ (t.acqOf b).pending = .none ∧
    ((s.acqOf b).tunedCarrier = some k → locked s b = true → (t.acqOf b).state = .parked) ∧
    ((s.acqOf b).tunedCarrier ≠ some k ∨ locked s b = false → tuningTo b k s t) := by
  intro t
  let x := beginRecord b .background none k .none s
  let u := x.changeAcq b (fun r => { r with attempts := 1 })
  have here : Begun b ((s.acqOf b).begun .background none k .none) s u := begun_beginRecord _ _ _ _ rfl rfl rfl
  have frame : unacquired t = unacquired s := (unacquired_proceed b k x).trans rfl
  have other : ofFeed (otherFeed b) t = ofFeed (otherFeed b) s :=
    (ofFeed_proceed (otherFeed_ne b) k x).trans (ofFeed_beginRecord (otherFeed_ne b) ..)
  by_cases there : (s.acqOf b).tunedCarrier = some k ∧ locked s b = true
  · have run : t = u.changeAcq b (fun r => { r with state := .parked, timer := none }) := by
      have park : t = afterSyncing b u := here.proceeds.trans (if_pos there)
      rw [park]
      unfold afterSyncing
      rw [here.record]
      refine answerPending_idle ?_ ..
      rw [acqOf_changeAcq_same, here.record]
      rfl
    have record : t.acqOf b = { (s.acqOf b).begun .background none k .none with state := .parked, timer := none } := by
      rw [run, acqOf_changeAcq_same, here.record]
    refine ⟨⟨by rw [run]; rfl, by rw [run]; rfl, by rw [run]; rfl, by rw [run]; rfl, frame, other⟩,
      by rw [record]; rfl, by rw [record]; rfl, by rw [record]; rfl, by rw [record]; rfl, by rw [record]; rfl,
      fun _ _ => by rw [record], fun away => absurd there (not_there away)⟩
  · have run : t = enterTuning b u := here.proceeds.trans (if_neg there)
    obtain ⟨tunes, ⟨_, _, _, record⟩, _, _, output, command, _, _⟩ := here.tunes
    obtain ⟨guide, limits⟩ := enterTuning_units b u
    rw [← run] at tunes record output command guide limits
    exact ⟨⟨output, guide, limits, command, frame, other⟩, by rw [record]; rfl, by rw [record]; rfl, by rw [record]; rfl,
      by rw [record]; rfl, by rw [record]; rfl, fun tuned held => absurd ⟨tuned, held⟩ there, fun _ => tunes⟩

theorem Aside.refl (b : Feed) (s : State) : Aside b s s := ⟨rfl, rfl, rfl, rfl, rfl, rfl⟩

/-- Step 2 of R109, where the released feed has a carrier to park on. -/
theorem standbyBackground_spec (p : Feed) (s : State) :
    let b := otherFeed p
    let t := standbyBackground p b s
    Aside b s t ∧
    (∀ k, (s.acqOf b).state = .idle → usable s b = true → (s.acqOf p).tunedCarrier = some k → t = standbyPark b k s) ∧
    ((s.acqOf b).state ≠ .idle ∨ usable s b = false ∨ (s.acqOf p).tunedCarrier = none → t = s) := by
  intro b t
  have run : t = if (s.acqOf b).state = .idle && usable s b then
      match (s.acqOf p).tunedCarrier with
      | some k => standbyPark b k s
      | none => s
    else s := rfl
  rw [run]
  refine ⟨?_, fun k idle on carrier => ?_, fun stays => ?_⟩
  · split
    · split
      · exact (standbyPark_spec b _ s).1
      · exact .refl b s
    · exact .refl b s
  · rw [if_pos (by rw [idle, on]; rfl), carrier]
  · split
    · rename_i both
      simp only [Bool.and_eq_true, decide_eq_true_eq] at both
      rcases stays with idle | off | none
      · exact absurd both.1 idle
      · exact absurd (off.symm.trans both.2) nofun
      · rw [none]
    · rfl

theorem tuningTo.of_ofFeed {b : Feed} {k : Nat} {s s' t t' : State} (h : tuningTo b k s' t')
    (same : ofFeed b t = ofFeed b t') (record : s'.acqOf b = s.acqOf b) (timing : s'.acq.timing = s.acq.timing)
    (on : usable s' b = usable s b) : tuningTo b k s t := by
  have acq : t.acqOf b = t'.acqOf b := acqOf_of_ofFeed same
  have front : t.frontOf b = t'.frontOf b := congrArg (fun x => x.1) same
  have line : t.lines.tune.get b = t'.lines.tune.get b := congrArg (fun x => x.2.2.2.2.1) same
  unfold tuningTo at h ⊢
  rw [acq, front, line, ← timing, ← on, ← record]
  exact h

/-- STANDBY out of standby (R109). -/
theorem standbys {tag : Byte} {params : Bytes} {s : State} (taken : takesAtOnce s) (awake : s.acq.standby = false) :
    let p := presentationFeed s
    let b := backgroundFeed s
    ∃ t, exec (.standby tag params) s = .next t ∧ t.acq.standby = true ∧
      (∃ pending, t.acqOf p = releasedRecord (s.acqOf p) pending ∧ pending.isAwaiting = false) ∧
      t.filter.entries.filter (fun e => e.feed = p) =
        (withoutAcq p s.filter.entries).filter (fun e => e.feed = p) ∧
      t.slotOf p = State.clearSlot (s.slotOf p).misses ∧
      ((s.acqOf p).role = .present → presentationEnded s t) ∧
      (∀ tag' code picked, (s.acqOf p).pending = .awaiting tag' code picked →
        let cell := LocalCell.reply tag' code .failed 0 (one (feedPosition p) ++ one 5 ++ pickedBytes picked)
        cell ∈ t.command.replyQueue ∨ (t.acqOf p).pending = .formed cell) ∧
      (∀ k, (s.acqOf b).state = .idle → usable s b = true → (s.acqOf p).tunedCarrier = some k →
        (t.acqOf b).role = .background ∧ (t.acqOf b).target = none ∧ (t.acqOf b).attempts = 1 ∧
        (t.acqOf b).targetCarrier = some k ∧ (t.acqOf b).pending = .none ∧
        ((s.acqOf b).tunedCarrier = some k → locked s b = true → (t.acqOf b).state = .parked) ∧
        ((s.acqOf b).tunedCarrier ≠ some k ∨ locked s b = false → tuningTo b k s t)) ∧
      ((s.acqOf b).state ≠ .idle ∨ usable s b = false ∨ (s.acqOf p).tunedCarrier = none →
        t.acqOf b = s.acqOf b) ∧
      LocalCell.reply tag 0x16#8 .done 0 (one (feedPosition p)) ∈ t.command.replyQueue ∧
      unacquired { t with acq := { t.acq with standby := false } } = unacquired s := by
  intro p b
  have free := reserved_of_taken taken
  obtain ⟨record, slot, entries, shown, front, present, timing, frame, other⟩ := releaseRecord_spec p (reserve s)
  let x := releaseRecord p (reserve s)
  obtain ⟨aside, parks, stays⟩ := standbyBackground_spec p x
  let y := standbyBackground p b x
  let z : State := { y with acq := { y.acq with standby := true } }
  let c : CommandCell := ⟨tag, 0x16#8, params⟩
  let u := answer c .done (one (feedPosition p)) z
  let results := one 5 ++ pickedBytes (u.acqOf p).pending.picked
  let t := answerPending p .failed results u
  have run : exec (.standby tag params) s = .next t :=
    exec_answered (act := actStandby) (c := c) taken (if_neg (by
      show ¬ s.acq.standby = true
      rw [awake]; nofun))
  have back : otherFeed (otherFeed p) = p := otherFeed_otherFeed p
  have ofP : ofFeed p y = ofFeed p x := by
    have same := aside.other
    rwa [back] at same
  have recordU : u.acqOf p = releasedRecord (s.acqOf p) (s.acqOf p).pending := (acqOf_of_ofFeed ofP).trans record
  have ofB : ofFeed b t = ofFeed b y := ofFeed_answerPending (otherFeed_ne p) .failed results u
  have recordB : x.acqOf b = s.acqOf b := acqOf_of_ofFeed other
  have frontX (f : Feed) : x.frontOf f = s.frontOf f := congrArg (fun g => g.get f) front
  have onX : usable x b = usable s b := by
    unfold usable State.feedPresent
    rw [frontX, show x.f1Present = s.f1Present from present]
  have heldX : locked x b = locked s b := by unfold locked; rw [frontX]
  have carrierX : (x.acqOf p).tunedCarrier = (s.acqOf p).tunedCarrier := by rw [show x.acqOf p = _ from record]; rfl
  obtain ⟨pending, ended, after⟩ := acqOf_answerPending p .failed results u
  have filterT : t.filter = y.filter := filter_answerPending p .failed results u
  have slotT : t.slotOf p = y.slotOf p := slotOf_answerPending p p .failed results u
  have standbyT : t.acq.standby = true :=
    (congrArg (fun x : State => x.acq.standby) (unanswered_answerPending p .failed results u) :)
  refine ⟨t, run, standbyT, ⟨pending, after.trans (by rw [recordU]; rfl), ended⟩, ?_, ?_, fun role => ?_,
    fun tag' code picked awaits => ?_, fun k idle on carrier => ?_, fun still => ?_, ?_, ?_⟩
  · have kept : y.filter.entries.filter (fun e => e.feed = p) = x.filter.entries.filter (fun e => e.feed = p) :=
      congrArg (fun x => x.2.2.2.1) ofP
    rw [filterT, kept, show x.filter.entries = _ from entries]
    rfl
  · rw [slotT]
    exact (slotOf_of_ofFeed ofP).trans slot
  · have ends : presentationEnded s x := shown role
    have ends : presentationEnded s z := ends.keep aside.output aside.guide aside.limits
      (congrArg (fun c : CommandUnit => c.notices) aside.command) (keepsReplies_of_eq (congrArg (fun c : CommandUnit => c.replyQueue) aside.command))
    exact presentationEnded_answerPending (presentationEnded_answer ends ..) ..
  · have waits : (u.acqOf p).pending = .awaiting tag' code picked := by rw [recordU]; exact awaits
    have answered := answerPending_awaiting waits .failed results
    have bytes : one (feedPosition p) ++ results = one (feedPosition p) ++ one 5 ++ pickedBytes picked := by
      simp only [results, waits, PendingReply.picked, List.append_assoc]
    rwa [bytes] at answered
  · have parked := parks k (show (x.acqOf b).state = .idle by rw [recordB]; exact idle) (onX.trans on) (carrierX.trans carrier)
    obtain ⟨_, role, target, attempts, targetCarrier, none, there, away⟩ := standbyPark_spec b k x
    have sameB : ofFeed b t = ofFeed b (standbyPark b k x) := ofB.trans (congrArg (ofFeed b) parked)
    rw [recordB, heldX] at there away
    rw [acqOf_of_ofFeed sameB]
    exact ⟨role, target, attempts, targetCarrier, none, there, fun h => (away h).of_ofFeed sameB recordB timing onX⟩
  · have same := stays (show (x.acqOf b).state ≠ .idle ∨ usable x b = false ∨ (x.acqOf p).tunedCarrier = none by
      rw [recordB, onX, carrierX]; exact still)
    rw [acqOf_of_ofFeed ofB, show y = x from same]
    exact recordB
  · exact (keepsReplies_answerPending p .failed results u).mem _ nofun (mem_answer ..)
  · let wake (v : State) : State := { v with acq := { v.acq with standby := false } }
    have asleep : unacquired t = endReservation
        { unacquired y with acq := { (unacquired y).acq with standby := true } } :=
      unacquired_answerPending p .failed results u
    have behind : unacquired y = unacquired (reserve s) := aside.frame.trans frame
    have awoken : wake s = s := by
      show { s with acq := { s.acq with standby := false } } = s
      rw [← awake]
    calc unacquired (wake t) = wake (unacquired t) := rfl
      _ = wake (endReservation { unacquired (reserve s) with
            acq := { (unacquired (reserve s)).acq with standby := true } }) := by rw [asleep, behind]
      _ = unacquired (wake (endReservation (reserve s))) := rfl
      _ = unacquired s := by rw [endReservation_reserve free, awoken]

/-- Settles O38: the RELEASE of a feed named, the presentation feed put in standby, and the waking. -/
theorem releaseStandbyAndWake : Obligations.ReleaseStandbyAndWake := by
  intro tag params s taken p b
  have free := reserved_of_taken taken
  refine ⟨fun bad => ?_, fun f whole named => releases taken whole named, fun asleep => ?_,
    fun awake => standbys taken awake, ?_⟩
  · refine exec_answered (act := actRelease) (c := ⟨tag, 0x15#8, params⟩) taken
      (Eq.trans ?_ (badParameter_reserve free ⟨tag, 0x15#8, params⟩))
    unfold actRelease
    rcases bad with short | high
    · exact if_neg (by rw [carries_iff]; exact Nat.not_le.2 short)
    · have none : feedOfByte (CommandCell.number ⟨tag, 0x15#8, params⟩ 0 1) = none := feedOfByte_high high
      rw [none]
      exact ite_self _
  · refine exec_answered (act := actStandby) (c := ⟨tag, 0x16#8, params⟩) taken ((if_pos asleep).trans ?_)
    exact answer_reserve free ..
  · exact exec_answered (act := actWake) (c := ⟨tag, 0x17#8, params⟩) taken
      (answer_reserve (s := { s with acq := { s.acq with standby := false } }) free ..)

end Sys2Proof.Machine
end

