-- ==== Sys2Proof/Proofs/KeysAndDescrambler.lean ====
section
/-! PROOFS. O13: PROGRAMME KEY sections, the descrambler and the output gate (R121 to R125, R174, R175, R177). -/

namespace Sys2Proof.Machine

set_option Elab.async false

variable {K : Special → Prop}

/-! ## The output gate (R174, R175, R177) -/

theorem programmeCount_queued (s : State) (c : Cell) :
    programmeCount { s with output := { s.output with queue := s.output.queue ++ [.programme c] } }
      = programmeCount s + 1 := by
  unfold programmeCount
  simp [OutCell.isProgramme]

/-- A programme cell at the output gate, in the words of the statements. -/
theorem outputGate_spec (f : Feed) (c : Cell) (s : State) :
    let o := s.output
    let gate : Prop := (s.acqOf f).state = .presenting ∧
      ∃ x, o.context = some x ∧ x.feed = f ∧ x.changing = false ∧ x.decision ≠ .deny
    (¬ gate → outputGate f c s = { s with output := { o with blanked := o.blanked.modify f bump } }) ∧
    (gate → programmeCount s < 60 → o.queue.length < 64 → outputGate f c s = { s with output := { o with
      queue := o.queue ++ [.programme c]
      priming := if o.threshold ≤ programmeCount s + 1 then none else o.priming } }) ∧
    (gate → 60 ≤ programmeCount s ∨ 64 ≤ o.queue.length →
      outputGate f c s = { s with output := { o with overflows := bump o.overflows } }) := by
  intro o gate
  have opens : gateOpen s f = true ↔ gate := gateOpen_iff
  refine ⟨fun shut => if_neg fun h => shut (opens.1 h), fun open_ few room => ?_, fun open_ full => ?_⟩
  · refine (if_pos (opens.2 open_)).trans ?_
    unfold enqueueProgramme
    rw [if_pos (by simp [few, o] at room ⊢; exact room)]
    dsimp only
    rw [programmeCount_queued]
    by_cases enough : o.threshold ≤ programmeCount s + 1
    · rw [if_pos enough]
      cases priming : o.priming with
      | none =>
        have off : s.output.priming = none := priming
        exact (if_neg (by simp)).trans (by rw [← off])
      | some n =>
        have on : s.output.priming = some n := priming
        have reached : s.output.threshold ≤ programmeCount s + 1 := enough
        exact if_pos (by simp [reached])
    · rw [if_neg enough]
      exact if_neg (by simp only [Bool.and_eq_true, decide_eq_true_eq]; exact fun h => enough h.2)
  · refine (if_pos (opens.2 open_)).trans (if_neg ?_)
    simp only [Bool.and_eq_true, decide_eq_true_eq]
    rintro ⟨few, room⟩
    rcases full with h | h
    · omega
    · exact absurd room (Nat.not_lt.2 h)

/-! ## A valid word (R122) -/

theorem setSlot_setSlot (f : Feed) (k l : KeySlot) (s : State) : (s.setSlot f k).setSlot f l = s.setSlot f l := by
  cases f <;> rfl

theorem setSlot_slotOf (f : Feed) (s : State) : s.setSlot f (s.slotOf f) = s := by cases f <;> rfl

theorem presentedAs_trigger {f : Feed} {e : ChannelEntry} {s : State} (h : presentedAs f e s) :
    presentedAs f e (trigger s) := by
  obtain ⟨c, context, feed, channel, entry, quiet, _, _⟩ := h
  obtain ⟨after, _⟩ := redecided_trigger s c context quiet
  have same (d : Decision) (r : Reason) (p i : Option Nat) :
      decideOn (trigger s) { c with decision := d, reason := r, previewEnd := p, eventId := i } = decideOn (trigger s) c :=
    decideOn_congr rfl rfl rfl
  exact ⟨_, after, feed, channel, entry, quiet, (congrArg Verdict.decision (same ..)).symm,
    (congrArg Verdict.reason (same ..)).symm⟩

theorem passesDecision_trigger {f : Feed} {s t : State} (h : passesDecision f s t) : passesDecision f s (trigger t) := by
  obtain ⟨state, timer, role, target, pending, ended, shown⟩ := h
  have record := acqOf_of_undecided (undecided_trigger t) f
  refine ⟨?_, ?_, ?_, ?_, ?_, ended.keep (keepsReplies_trigger t) (congrArg AcqRecord.pending record),
    fun e present is => presentedAs_trigger (shown e present is)⟩ <;> rw [record] <;> assumption

/-- The three things of R122, over a slot that has been given its word or phase. -/
theorem validWord_spec (f : Feed) (k : KeySlot) (s : State) (misses : k.misses = (s.slotOf f).misses) :
    let now := s.setSlot f { k with wait := .stopped }
    let t := validWord f (s.setSlot f k)
    ((s.acqOf f).state ≠ .keying → t = if (s.acqOf f).state = .presenting ∧ k.wait = .expired then trigger now else now) ∧
    ((s.acqOf f).state = .keying → passesDecision f s t ∧ t.slotOf f = { k with wait := .stopped } ∧
      unacquired t = unacquired s ∧ agreeOnFeed (otherFeed f) s t) := by
  intro now t
  have stop : stopKeyWait f (s.setSlot f k) = now := by
    unfold stopKeyWait
    rw [slotOf_setSlot_same, setSlot_setSlot]
  let u := if (s.acqOf f).state = .keying then decisionStep f now else now
  have run : t = if (k.wait = .expired && (u.acqOf f).state = .presenting) then trigger u else u := by
    show validWord f (s.setSlot f k) = _
    unfold validWord
    rw [stop, slotOf_setSlot_same]
    rfl
  refine ⟨fun other => ?_, fun keying => ?_⟩
  · have still : u = now := if_neg other
    rw [run, still]
    exact if_congr (by simp only [Bool.and_eq_true, decide_eq_true_eq]; exact and_comm) rfl rfl
  · have step : u = decisionStep f now := if_pos keying
    have passes : passesDecision f s u := by
      rw [step]
      exact passesDecision_decisionStep (endsLike_setSlot f _ s misses)
    have slot : u.slotOf f = { k with wait := .stopped } := by
      rw [step, slotOf_decisionStep, slotOf_setSlot_same]
    have frame : unacquired u = unacquired s := by rw [step, unacquired_decisionStep]; rfl
    have other : ofFeed (otherFeed f) u = ofFeed (otherFeed f) s := by
      rw [step, ofFeed_decisionStep (otherFeed_ne f)]
      exact ofFeed_setSlot (otherFeed_ne f) ..
    rw [run]
    split
    · exact ⟨passesDecision_trigger passes, (slotOf_of_undecided (undecided_trigger u) f).trans slot,
        (unacquired_trigger u).trans frame, agreeOnFeed_iff.2 ((ofFeed_trigger _ u).trans other)⟩
    · exact ⟨passes, slot, frame, agreeOnFeed_iff.2 other⟩

/-! ## PROGRAMME KEY sections (R121) -/

theorem heldGeneration_none {a : Access} {n : Nat}
    (misses : ∀ g, a.slot1 = some g ∨ a.slot2 = some g → g.number ≠ n) : heldGeneration a n = none := by
  unfold heldGeneration
  cases one : a.slot1 with
  | none => cases two : a.slot2 with
    | none => rfl
    | some h => simp [misses h (.inr two)]
  | some g => cases two : a.slot2 with
    | none => simp [misses g (.inl one)]
    | some h => simp [misses g (.inl one), misses h (.inr two)]

theorem heldGeneration_some {a : Access} {n : Nat} {g : Generation} (number : g.number = n)
    (held : a.slot1 = some g ∨ (a.slot2 = some g ∧ ∀ g', a.slot1 = some g' → g'.number ≠ n)) :
    heldGeneration a n = some g := by
  unfold heldGeneration
  rcases held with one | ⟨two, other⟩
  · simp [one, number]
  · cases one : a.slot1 with
    | none => simp [two, number]
    | some g' => simp [other g' one, two, number]

/-- The phase that a section's code names (R121). -/
theorem storeWord_spec (f : Feed) (p : Phase) (w : Bytes) (s : State) :
    let k := s.slotOf f
    let stored := k.setWord p (some w)
    (k.word p ≠ none ∨ ¬ (k.lastPhase = none ∨ k.lastPhase = some p) → storeWord f p w s = s.setSlot f stored) ∧
    (k.word p = none → (k.lastPhase = none ∨ k.lastPhase = some p) →
      storeWord f p w s = validWord f (s.setSlot f stored)) := by
  intro k stored
  have run : storeWord f p w s = if (k.word p).isNone && k.awaits p then validWord f (s.setSlot f stored)
    else s.setSlot f stored := rfl
  have awaits : k.awaits p = true ↔ (k.lastPhase = none ∨ k.lastPhase = some p) := by simp [KeySlot.awaits]
  rw [run]
  refine ⟨fun off => if_neg ?_, fun fresh awaited => if_pos ?_⟩
  · rw [Bool.and_eq_true, awaits, Option.isNone_iff_eq_none]
    rintro ⟨fresh, awaited⟩
    exact off.elim (fun h => h fresh) (fun h => h awaited)
  · rw [Bool.and_eq_true, awaits, Option.isNone_iff_eq_none]
    exact ⟨fresh, awaited⟩

theorem setWord_eq (k : KeySlot) (phase : Nat) (p : Phase) (w : Option Bytes) (is : phaseOfCode phase = some p) :
    k.setWord p w = (if phase = 1 then { k with wordA := w } else { k with wordB := w }) ∧
    k.word p = (if phase = 1 then k.wordA else k.wordB) ∧ p = (if phase = 1 then .a else .b) ∧
    (phase = 1 ∨ phase = 2) := by
  rw [phaseOfCode_eq] at is
  by_cases one : phase = 1
  · rw [if_pos one] at is
    obtain rfl : Phase.a = p := Option.some.inj is
    simp only [if_pos one]
    exact ⟨rfl, rfl, trivial, .inl one⟩
  · by_cases two : phase = 2
    · rw [if_neg one, if_pos two] at is
      obtain rfl : Phase.b = p := Option.some.inj is
      simp only [if_neg one]
      exact ⟨rfl, rfl, trivial, .inr two⟩
    · rw [if_neg one, if_neg two] at is
      exact absurd is nofun

/-- A PROGRAMME KEY section, in the words of the statements (R121, R122). -/
theorem programmeKeySection_spec (f : Feed) (key : Nat) (body : Bytes) (s : State) :
    let a := s.access
    let k := s.slotOf f
    let phase := (byteAt body 1).toNat
    let number := (byteAt body 0).toNat
    let t := programmeKeySection f key body s
    let well := body.length = 18 ∧ (phase = 1 ∨ phase = 2)
    (¬ well → t = { s with access := { a with malformedKeys := bump a.malformedKeys } }) ∧
    (well → k.keyStream ≠ some key → t = { s with access := { a with unmatchedKeys := bump a.unmatchedKeys } }) ∧
    (well → k.keyStream = some key → (∀ g, a.slot1 = some g ∨ a.slot2 = some g → g.number ≠ number) →
      t = { s with access := { a with generationMisses := bump a.generationMisses } }) ∧
    (∀ g, well → k.keyStream = some key → g.number = number →
      a.slot1 = some g ∨ (a.slot2 = some g ∧ ∀ g', a.slot1 = some g' → g'.number ≠ number) →
      ∃ p, phaseOfCode phase = some p ∧ t = storeWord f p (Config.openWord g.material (body.drop 2)) s) := by
  intro a k phase number t well
  have phases : well → ∃ p, phaseOfCode phase = some p := by
    rintro ⟨_, one | two⟩
    · exact ⟨.a, by rw [one]; rfl⟩
    · exact ⟨.b, by rw [two]; rfl⟩
  have run (is : well) : ∃ p, phaseOfCode phase = some p ∧ t = if k.keyStream ≠ some key then
        { s with access := { a with unmatchedKeys := bump a.unmatchedKeys } }
      else match heldGeneration a number with
        | none => { s with access := { a with generationMisses := bump a.generationMisses } }
        | some g => storeWord f p (Config.openWord g.material (body.drop 2)) s := by
    obtain ⟨p, named⟩ := phases is
    refine ⟨p, named, (if_neg (not_not.2 is.1)).trans ?_⟩
    rw [show phaseOfCode (byteAt body 1).toNat = some p from named] <;> rfl
  refine ⟨fun bad => ?_, fun is other => ?_, fun is same missing => ?_, fun g is same named held => ?_⟩
  · by_cases length : body.length = 18
    · have none : phaseOfCode phase = none := by
        rw [phaseOfCode_eq, if_neg fun h => bad ⟨length, .inl h⟩, if_neg fun h => bad ⟨length, .inr h⟩]
      refine (if_neg (not_not.2 length)).trans ?_
      rw [show phaseOfCode (byteAt body 1).toNat = Option.none from none]
    · exact if_pos length
  · obtain ⟨p, _, run⟩ := run is
    rw [run, if_pos other]
  · obtain ⟨p, _, run⟩ := run is
    rw [run, if_neg (not_not.2 same), heldGeneration_none missing]
  · obtain ⟨p, phase_, run⟩ := run is
    refine ⟨p, phase_, ?_⟩
    rw [run, if_neg (not_not.2 same), heldGeneration_some named held]

/-! ## The descrambler (R123, R124, R125) -/

theorem seePhase_eq (k : KeySlot) (p : Phase) :
    let other : Bool := k.lastPhase ≠ none ∧ k.lastPhase ≠ some p
    k.seePhase p = { k with
      lastPhase := some p
      wordA := if other ∧ p = .b then none else k.wordA
      wordB := if other ∧ p = .a then none else k.wordB } ∧
    (k.seePhase p).word p = k.word p := by
  unfold KeySlot.seePhase
  cases last : k.lastPhase with
  | none => cases p <;> simp [KeySlot.word]
  | some q => cases p <;> cases q <;> simp [KeySlot.word, KeySlot.setWord]

theorem keyMiss_eq (f : Feed) (k : KeySlot) (s : State) : keyMiss f (s.setSlot f k) = s.setSlot f { k with
    misses := bump k.misses
    wait := if (s.acqOf f).state = .presenting ∧ k.wait = .stopped then .running (s.acq.timing.key * 128) else k.wait } := by
  unfold keyMiss
  rw [slotOf_setSlot_same, setSlot_setSlot]
  dsimp only
  by_cases starts : (s.acqOf f).state = .presenting ∧ k.wait = .stopped
  · rw [if_pos starts]
    refine (if_pos ?_).trans ?_
    · rw [slotOf_setSlot_same, Bool.and_eq_true, decide_eq_true_eq, decide_eq_true_eq]
      exact starts
    · unfold startKeyWait
      rw [slotOf_setSlot_same, setSlot_setSlot]
      rfl
  · rw [if_neg starts]
    refine if_neg ?_
    rw [slotOf_setSlot_same, Bool.and_eq_true, decide_eq_true_eq, decide_eq_true_eq]
    exact starts

/-- The phase change, over a slot that shows phase p now (R124). -/
theorem phaseChange_spec (f : Feed) (p : Phase) (s : State) :
    let k := s.slotOf f
    let seen := s.setSlot f (k.seePhase p)
    (k.word p = none → phaseChange f p s = seen) ∧
    (k.lastPhase = some p → phaseChange f p s = s) ∧
    (k.lastPhase ≠ some p → k.word p ≠ none → phaseChange f p s = validWord f seen) := by
  intro k seen
  have word : (k.seePhase p).word p = k.word p := (seePhase_eq k p).2
  have run : phaseChange f p s = if k.lastPhase ≠ some p && ((k.seePhase p).word p).isSome then validWord f seen
    else seen := rfl
  rw [run, word]
  refine ⟨fun none => if_neg (by simp [none]), fun same => ?_, fun other has => if_pos ?_⟩
  · have kept : k.seePhase p = k := by
      unfold KeySlot.seePhase
      rw [same]
      simp [← same]
    have back : seen = s := by
      show s.setSlot f (k.seePhase p) = s
      rw [kept]
      exact setSlot_slotOf f s
    rw [if_neg (by simp [same]), back]
  · rw [Bool.and_eq_true, decide_eq_true_eq]
    exact ⟨other, Option.isSome_iff_ne_none.2 has⟩

/-- Settles O13: the section on its way to the slot, the cell on its way to the gate, and the gate. -/
theorem keySectionsDescramblerAndGate : Obligations.KeySectionsDescramblerAndGate := by
  refine ⟨fun f key body s => ?_, fun f c s => ?_, outputGate_spec⟩
  · intro a k phase number t well
    obtain ⟨malformed, unmatched, missing, stores⟩ := programmeKeySection_spec f key body s
    refine ⟨malformed, unmatched, missing, fun g is same named held => ?_⟩
    intro word stored was awaited
    obtain ⟨p, code, run⟩ := stores g is same named held
    obtain ⟨set, get, named, _⟩ := setWord_eq k phase p word code
    obtain ⟨kept, fresh⟩ := storeWord_spec f p (Config.openWord g.material (body.drop 2)) s
    rw [show (s.slotOf f).setWord p (some _) = stored from set, show (s.slotOf f).word p = was from get, named] at kept fresh
    rw [show t = _ from run, named]
    refine ⟨fun off => kept (off.imp_left Option.isSome_iff_ne_none.1), fun new awaits => ?_⟩
    intro known
    have misses : stored.misses = (s.slotOf f).misses := by
      show (if phase = 1 then _ else _ : KeySlot).misses = _
      split <;> rfl
    have wait : stored.wait = k.wait := by
      show (if phase = 1 then _ else _ : KeySlot).wait = _
      split <;> rfl
    obtain ⟨others, keying⟩ := validWord_spec f stored s misses
    rw [wait] at others
    rw [fresh new awaits]
    refine ⟨fun no calm => (others no).trans (if_neg ?_), fun presenting expired => (others ?_).trans (if_pos ⟨presenting, expired⟩),
      keying⟩
    · rintro ⟨presenting, expired⟩
      exact calm.elim (fun h => h presenting) (fun h => h expired)
    · rw [presenting]; decide
  · intro k missed
    refine ⟨fun clear => ?_, fun p scrambled => ?_⟩
    · unfold descramble
      rw [clear]
    · intro other turned word
      obtain ⟨seen, sees⟩ := seePhase_eq k p
      have word_ : word = k.word p := by cases p <;> rfl
      have turned_ : k.seePhase p = turned := seen
      have run : descramble f c s = match ((phaseChange f p s).slotOf f).word p with
          | some w => outputGate f { c with phase := none, payload := descrambled w c.payload } (phaseChange f p s)
          | none => keyMiss f (phaseChange f p s) := by
        unfold descramble
        rw [scrambled] <;> rfl
      obtain ⟨unworded, same, turns⟩ := phaseChange_spec f p s
      rw [turned_] at unworded turns
      rw [turned_] at sees
      refine ⟨fun none => ?_, fun w has => ⟨fun still => ?_, fun moved calm => ?_, fun moved keying => ?_⟩⟩
      · rw [run, unworded (word_.symm.trans none), slotOf_setSlot_same, sees, ← word_, none]
        exact keyMiss_eq f turned s
      · rw [run, same still, show (s.slotOf f).word p = some w from word_.symm.trans has]
        rfl
      all_goals
        have valid := turns moved (by rw [← word_, has]; nofun)
        obtain ⟨others, keyed⟩ := validWord_spec f turned s rfl
        rw [valid] at run
      · let now := s.setSlot f { turned with wait := .stopped }
        have after : ((if (s.acqOf f).state = .presenting ∧ k.wait = .expired then trigger now else now).slotOf f).word p
            = some w := by
          have slot : State.slotOf (if (s.acqOf f).state = .presenting ∧ k.wait = .expired then trigger now else now) f
              = { turned with wait := .stopped } := by
            split
            · exact (slotOf_of_undecided (undecided_trigger now) f).trans (slotOf_setSlot_same ..)
            · exact slotOf_setSlot_same ..
          rw [slot]
          exact (by cases p <;> rfl : KeySlot.word { turned with wait := .stopped } p = turned.word p).trans
            (sees.trans (word_.symm.trans has))
        rw [run, others calm, after]
        rfl
      · obtain ⟨passes, slot, frame, agree⟩ := keyed keying
        refine ⟨_, ?_, passes, slot, frame, agree⟩
        have after : KeySlot.word { turned with wait := .stopped } p = some w :=
          (by cases p <;> rfl : KeySlot.word { turned with wait := .stopped } p = turned.word p).trans
            (sees.trans (word_.symm.trans has))
        rw [run, slot, after]
        rfl

end Sys2Proof.Machine
end

