-- ==== Sys2Proof/Proofs/GuideSections.lean ====
section
/-! PROOFS. O11: upsert and eviction, event records and GUIDE EVENTS sections (R61 to R67, R71). -/

namespace Sys2Proof.Machine

set_option Elab.async false

variable {K : Special → Prop}

/-! ## Upsert and eviction (R63, R66) -/

/-- The records that an upsert of e leaves standing, in the words of the statements. -/
theorem clearPlace_eq (e : EventRecord) (es : List EventRecord) : clearPlace e es =
    es.filter (fun x => ¬ (x.id = e.id ∨
      (x.channel = e.channel ∧ x.start < e.start + e.duration ∧ e.start < x.start + x.duration))) := by
  refine List.filter_congr fun x _ => ?_
  have meets : x.overlaps e = true ↔ x.start < e.start + e.duration ∧ e.start < x.start + x.duration := by
    unfold EventRecord.overlaps
    rw [Bool.and_eq_true, decide_eq_true_eq, decide_eq_true_eq]
    rfl
  rw [Bool.eq_iff_iff, decide_eq_true_eq, Bool.and_eq_true, decide_eq_true_eq, Bool.not_eq_true', Bool.eq_false_iff,
    not_or]
  show _ ∧ ¬ _ ↔ _
  rw [Bool.and_eq_true, decide_eq_true_eq, meets]

theorem hasEnded_iff (x : EventRecord) (now : Option Nat) :
    x.hasEnded now = true ↔ ∃ t, now = some t ∧ x.start + x.duration ≤ t := by
  unfold EventRecord.hasEnded EventRecord.ends
  cases now <;> simp

/-- The ended record that goes first (R66, step 1). -/
theorem earliestEnded_spec {now : Option Nat} {es : List EventRecord} (some_ : ∃ x ∈ es, x.hasEnded now = true) :
    ∃ out, earliestEnded now es = some out ∧ out ∈ es ∧ out.hasEnded now = true ∧
      (∀ x ∈ es, x.hasEnded now = true → out.ends ≤ x.ends) ∧
      (es.Pairwise (fun x y => x.channel ≤ y.channel) → ∀ x ∈ es, x.hasEnded now = true → x.ends = out.ends →
        out.channel ≤ x.channel) := by
  let ended := es.filter (fun e => e.hasEnded now)
  have picks : earliestEnded now es = ended.foldl (pickBest fun e b => e.ends < b.ends) none := by
    unfold earliestEnded
    congr 1
    funext best e
    cases best with
    | none => rfl
    | some b => simp [pickBest]
  have nonempty : ended ≠ [] := by
    obtain ⟨x, mem, past⟩ := some_
    exact List.ne_nil_of_mem (List.mem_filter.2 ⟨mem, past⟩)
  obtain ⟨out, found, mem, first⟩ := best_exists (better := fun e b : EventRecord => e.ends < b.ends)
    (before := fun _ _ => True) (atLeast := fun x y => x.ends ≤ y.ends) (fun _ => Nat.le_refl _)
    (fun _ _ _ => Nat.le_trans) (fun e b _ h => Nat.le_of_lt (of_decide_eq_true h))
    (fun e b _ h => Nat.le_of_not_lt (of_decide_eq_false h)) nonempty (List.pairwise_of_forall fun _ _ => trivial)
  obtain ⟨held, past⟩ := List.mem_filter.1 mem
  refine ⟨out, picks.trans found, held, past, fun x hx h => first x (List.mem_filter.2 ⟨hx, h⟩),
    fun order x hx h same => ?_⟩
  obtain ⟨out', found', _, first'⟩ := best_exists (better := fun e b : EventRecord => e.ends < b.ends)
    (before := fun x y => x.channel ≤ y.channel)
    (atLeast := fun x y => x.ends < y.ends ∨ (x.ends = y.ends ∧ x.channel ≤ y.channel)) (fun _ => .inr ⟨rfl, Nat.le_refl _⟩)
    (fun _ _ _ h k => by omega) (fun e b _ h => .inl (of_decide_eq_true h))
    (fun e b h k => by have := of_decide_eq_false k; omega) nonempty (order.filter _)
  obtain rfl : out = out' := Option.some.inj (found.symm.trans found')
  have better := first' x (List.mem_filter.2 ⟨hx, h⟩)
  omega

theorem earliestEnded_none {now : Option Nat} {es : List EventRecord} (none_ : ∀ x ∈ es, ¬ x.hasEnded now = true) :
    earliestEnded now es = none := by
  unfold earliestEnded
  rw [List.filter_eq_nil_iff.2 none_]
  rfl

/-- The record that starts latest (R66, step 2). -/
theorem latestStarting_spec {es : List EventRecord} (some_ : es ≠ []) :
    ∃ out, latestStarting es = some out ∧ out ∈ es ∧ (∀ x ∈ es, x.start ≤ out.start) ∧
      (es.Pairwise (fun x y => x.channel ≤ y.channel) → ∀ x ∈ es, x.start = out.start → x.channel ≤ out.channel) := by
  have picks : latestStarting es = es.foldl (pickBest fun e b => b.start ≤ e.start) none := by
    unfold latestStarting
    congr 1
    funext best e
    cases best with
    | none => rfl
    | some b => simp [pickBest]
  obtain ⟨out, found, mem, last⟩ := best_exists (better := fun e b : EventRecord => b.start ≤ e.start)
    (before := fun _ _ => True) (atLeast := fun x y => y.start ≤ x.start) (fun _ => Nat.le_refl _)
    (fun _ _ _ h k => Nat.le_trans k h) (fun e b _ h => of_decide_eq_true h)
    (fun e b _ h => Nat.le_of_not_le (of_decide_eq_false h)) some_ (List.pairwise_of_forall fun _ _ => trivial)
  refine ⟨out, picks.trans found, mem, last, fun order x hx same => ?_⟩
  obtain ⟨out', found', _, last'⟩ := best_exists (better := fun e b : EventRecord => b.start ≤ e.start)
    (before := fun x y => x.channel ≤ y.channel)
    (atLeast := fun x y => y.start < x.start ∨ (x.start = y.start ∧ y.channel ≤ x.channel)) (fun _ => .inr ⟨rfl, Nat.le_refl _⟩)
    (fun _ _ _ h k => by omega) (fun e b h k => by have := of_decide_eq_true k; omega)
    (fun e b _ k => .inl (Nat.lt_of_not_le (of_decide_eq_false k))) some_ order
  obtain rfl : out = out' := Option.some.inj (found.symm.trans found')
  have better := last' x hx
  omega

theorem mem_insertEvent {e x : EventRecord} {es : List EventRecord} : x ∈ insertEvent e es ↔ x = e ∨ x ∈ es :=
  (insertEvent_perm e es).mem_iff.trans List.mem_cons

/-- What an upsert does to the records, by room, by what has ended and by what starts later (R63, R66). -/
theorem upsert_spec (now : Option Nat) (g : Guide) (e : EventRecord) :
    let left := g.events.filter (fun x => ¬ (x.id = e.id ∨
      (x.channel = e.channel ∧ x.start < e.start + e.duration ∧ e.start < x.start + x.duration)))
    let ended (x : EventRecord) : Prop := ∃ t, now = some t ∧ x.start + x.duration ≤ t
    let t := upsert now g e
    (left.length < 1024 → (∀ x, x ∈ t.events ↔ x = e ∨ x ∈ left) ∧
      t.evictedEvents = g.evictedEvents ∧ t.refusedEvents = g.refusedEvents) ∧
    (1024 ≤ left.length → (∃ x ∈ left, ended x) →
      ∃ out ∈ left, ended out ∧
        (∀ x ∈ left, ended x → out.start + out.duration ≤ x.start + x.duration) ∧
        (g.events.Pairwise (fun x y => x.channel ≤ y.channel) → ∀ x ∈ left,
          x.start + x.duration = out.start + out.duration → out.channel ≤ x.channel) ∧
        (∀ x, x ∈ t.events ↔ x = e ∨ (x ∈ left ∧ x.id ≠ out.id)) ∧
        t.evictedEvents = bump g.evictedEvents ∧ t.refusedEvents = g.refusedEvents) ∧
    (1024 ≤ left.length → (∀ x ∈ left, ¬ ended x) → (∀ x ∈ left, x.start ≤ e.start) →
      t.events = left ∧ t.refusedEvents = bump g.refusedEvents ∧ t.evictedEvents = g.evictedEvents) ∧
    (1024 ≤ left.length → (∀ x ∈ left, ¬ ended x) → (∃ x ∈ left, e.start < x.start) →
      ∃ out ∈ left, (∀ x ∈ left, x.start ≤ out.start) ∧
        (g.events.Pairwise (fun x y => x.channel ≤ y.channel) → ∀ x ∈ left,
          x.start = out.start → x.channel ≤ out.channel) ∧
        (∀ x, x ∈ t.events ↔ x = e ∨ (x ∈ left ∧ x.id ≠ out.id)) ∧
        t.evictedEvents = bump g.evictedEvents ∧ t.refusedEvents = g.refusedEvents) ∧
    t.channels = g.channels ∧ t.watched = g.watched ∧ t.lastEvent = g.lastEvent := by
  intro left ended t
  have run : t = if left.length < 1024 then { g with events := insertEvent e left }
      else match evicted now e left with
        | some x => { g with events := insertEvent e (dropEvent x.id left), evictedEvents := bump g.evictedEvents }
        | none => { g with events := left, refusedEvents := bump g.refusedEvents } := by
    have cleared : clearPlace e g.events = left := clearPlace_eq e g.events
    show upsert now g e = _
    unfold upsert
    rw [cleared] <;> rfl
  have past (x : EventRecord) : x.hasEnded now = true ↔ ended x := hasEnded_iff x now
  have evicts {out : EventRecord} (full : 1024 ≤ left.length) (goes : evicted now e left = some out) :
      (∀ x, x ∈ t.events ↔ x = e ∨ (x ∈ left ∧ x.id ≠ out.id)) ∧
      t.evictedEvents = bump g.evictedEvents ∧ t.refusedEvents = g.refusedEvents := by
    rw [run, if_neg (Nat.not_lt.2 full), goes]
    refine ⟨fun x => mem_insertEvent.trans (or_congr_right (List.mem_filter.trans (and_congr_right fun _ => ?_))), rfl, rfl⟩
    exact decide_eq_true_iff
  have latest (full : 1024 ≤ left.length) := latestStarting_spec (es := left) (by rintro nil; rw [nil] at full; cases full)
  have unended (none_ : ∀ x ∈ left, ¬ ended x) : earliestEnded now left = none :=
    earliestEnded_none fun x hx h => none_ x hx ((past x).1 h)
  have ordered (order : g.events.Pairwise (fun x y => x.channel ≤ y.channel)) :
      left.Pairwise (fun x y => x.channel ≤ y.channel) := order.filter _
  refine ⟨fun room => ?_, fun full some_ => ?_, fun full none_ early => ?_, fun full none_ later => ?_, ?_, ?_, ?_⟩
  · rw [run, if_pos room]
    exact ⟨fun x => mem_insertEvent, rfl, rfl⟩
  · obtain ⟨x, hx, ends⟩ := some_
    obtain ⟨out, found, mem, gone, first, ties⟩ := earliestEnded_spec ⟨x, hx, (past x).2 ends⟩
    have goes : evicted now e left = some out := by unfold evicted; rw [found]
    refine ⟨out, mem, (past out).1 gone, fun y hy h => first y hy ((past y).2 h), fun order y hy same => ?_, evicts full goes⟩
    refine ties (ordered order) y hy ((past y).2 ?_) same
    obtain ⟨n, is, le⟩ := (past out).1 gone
    exact ⟨n, is, same ▸ le⟩
  · obtain ⟨out, found, mem, _⟩ := latest full
    have goes : evicted now e left = none := by
      unfold evicted
      rw [unended none_, found]
      exact if_pos (early out mem)
    rw [run, if_neg (Nat.not_lt.2 full), goes]
    exact ⟨rfl, rfl, rfl⟩
  · obtain ⟨x, hx, after⟩ := later
    obtain ⟨out, found, mem, last, ties⟩ := latest full
    have goes : evicted now e left = some out := by
      unfold evicted
      rw [unended none_, found]
      exact if_neg (Nat.not_le.2 (Nat.lt_of_lt_of_le after (last x hx)))
    exact ⟨out, mem, last, fun order => ties (ordered order), evicts full goes⟩
  · rw [run]
    split
    · rfl
    · split <;> rfl
  · exact (upsert_frame now g e).1
  · exact (upsert_frame now g e).2

/-! ## Event records (R61, R62) -/

theorem byteAt_append {b rest : Bytes} {i : Nat} (inside : i < b.length) : byteAt (b ++ rest) i = byteAt b i := by
  unfold byteAt
  rw [List.getD_eq_getElem?_getD, List.getD_eq_getElem?_getD, List.getElem?_append_left inside]

theorem field_append {b rest : Bytes} {i k : Nat} (inside : i + k ≤ b.length) :
    ((b ++ rest).drop i).take k = (b.drop i).take k := by
  rw [List.drop_append_of_le_length (by omega), List.take_append_of_le_length (by rw [List.length_drop]; omega)]

/-- The event record that bytes begin, whatever follows them (R62). -/
theorem readEvent_append (key : Nat) (b rest : Bytes) (length : b.length = 21 + 2 * (byteAt b 20).toNat) :
    let codes := (byteAt b 20).toNat
    readEvent key (b ++ rest) =
      { id := beNat (b.take 2), channel := key, start := beNat ((b.drop 2).take 4),
        duration := max 60 (min 43200 (beNat ((b.drop 6).take 2))), rating := min (byteAt b 8).toNat 14,
        genre := (byteAt b 9).toNat,
        tier := if (byteAt b 10).getLsbD 1 then some (byteAt b 11).toNat else none,
        price := if beNat ((b.drop 12).take 2) = 0 then none else some (beNat ((b.drop 12).take 2)),
        cancelMinutes := min (byteAt b 14).toNat 30, previewMinutes := min (byteAt b 15).toNat 15,
        blackout := (List.range (min codes 8)).map (fun i => beNat ((b.drop (21 + 2 * i)).take 2)),
        truncated := 8 < codes, title := beNat ((b.drop 16).take 4),
        withdrawn := (byteAt b 10).getLsbD 0 } := by
  intro codes
  have byte (i : Nat) (h : i ≤ 20) : byteAt (b ++ rest) i = byteAt b i := byteAt_append (by omega)
  have field (i k : Nat) (h : i + k ≤ 21) : ((b ++ rest).drop i).take k = (b.drop i).take k := field_append (by omega)
  have id_ : (b ++ rest).take 2 = b.take 2 := field 0 2 (by decide)
  have regions : readCodes ((b ++ rest).drop 21) (min codes 8)
      = (List.range (min codes 8)).map (fun i => beNat ((b.drop (21 + 2 * i)).take 2)) := by
    refine List.map_congr_left fun i hi => ?_
    have below : i < codes := Nat.lt_of_lt_of_le (List.mem_range.1 hi) (Nat.min_le_left _ _)
    rw [List.drop_drop, field_append (by omega)]
  unfold readEvent
  dsimp only
  rw [byte 8 (by decide), byte 9 (by decide), byte 10 (by decide), byte 11 (by decide), byte 14 (by decide),
    byte 15 (by decide), byte 20 (by decide), id_, field 2 4 (by decide), field 6 2 (by decide), field 12 2 (by decide),
    field 16 4 (by decide), show (byteAt b 20).toNat = codes from rfl, regions]
  rfl

theorem readEvents_append (key : Nat) (b rest : Bytes) (length : b.length = 21 + 2 * (byteAt b 20).toNat) (k : Nat) :
    readEvents key (k + 1) (b ++ rest) = (readEvents key k rest).map (fun es => readEvent key (b ++ rest) :: es) := by
  have takes : eventLength (b ++ rest) = b.length := by
    unfold eventLength
    rw [byteAt_append (by omega), length]
  have rest_ : (b ++ rest).drop b.length = rest := List.drop_left
  rw [readEvents, takes, rest_]
  have fits : (21 ≤ (b ++ rest).length && b.length ≤ (b ++ rest).length) = true := by
    rw [List.length_append]
    simp
    omega
  exact if_pos fits

/-! ## GUIDE EVENTS sections (R61, R67, R71) -/

theorem upserts_channels (now : Option Nat) (es : List EventRecord) (g : Guide) :
    (es.foldl (upsert now) g).channels = g.channels := by
  induction es generalizing g with
  | nil => rfl
  | cons e es ih => exact (ih _).trans (upsert_spec now g e).2.2.2.2.1

theorem guideEventsSection_spec (key : Nat) (body : Bytes) (s : State) :
    let count := (byteAt body 0).toNat
    let t := guideEventsSection key body s
    let g := s.guide
    (key = 0 ∨ 9999 < key ∨ count = 0 ∨ 8 < count ∨ readEvents key count (body.drop 1) = none →
      t = { s with guide := { g with malformedGuides := bump g.malformedGuides } }) ∧
    (∀ es, 1 ≤ key → key ≤ 9999 → 1 ≤ count → count ≤ 8 → readEvents key count (body.drop 1) = some es →
      let placed := es.foldl (upsert s.now) g
      t.guide.events = placed.events ∧ t.guide.refusedEvents = placed.refusedEvents ∧
      t.guide.evictedEvents = placed.evictedEvents ∧ t.guide.channels = g.channels ∧
      t.guide.watched = g.watched ∧
      (placed.events ≠ g.events → noticeSet .guideChanged t = true) ∧
      (∀ w, g.watched = some w → t.guide.lastEvent = currentEvent t w ∧
        (currentEvent t w ≠ g.lastEvent → noticeSet .eventChanged t = true ∧ redecided s t)) ∧
      untriggered { t with guide := g } = untriggered s) := by
  intro count t g
  refine ⟨fun bad => ?_, fun es low high one eight read => ?_⟩
  · have none : readGuideEvents key body = none := by
      unfold readGuideEvents
      by_cases whole : (1 ≤ key && key ≤ 9999 && 1 ≤ count && count ≤ 8) = true
      · simp only [Bool.and_eq_true, decide_eq_true_eq] at whole
        refine (if_pos (by simp only [Bool.and_eq_true, decide_eq_true_eq]; exact whole)).trans ?_
        rcases bad with h | h | h | h | h
        · omega
        · omega
        · omega
        · omega
        · exact h
      · exact if_neg whole
    show guideEventsSection key body s = _
    unfold guideEventsSection
    rw [none]
  · intro placed
    have some_ : readGuideEvents key body = some es :=
      (if_pos (by simp only [Bool.and_eq_true, decide_eq_true_eq]; exact ⟨⟨⟨low, high⟩, one⟩, eight⟩)).trans read
    let s1 : State := { s with guide := placed }
    let u := if placed.events = g.events then s1 else raise .guideChanged s1
    have run : t = compareWatched u := by
      show guideEventsSection key body s = _
      unfold guideEventsSection
      rw [some_]
    have behind : untriggered u = untriggered s1 := by
      show untriggered (if placed.events = g.events then s1 else raise .guideChanged s1) = _
      split
      · rfl
      · exact untriggered_raise ..
    have context : u.output.context = s.output.context := by
      show (if placed.events = g.events then s1 else raise .guideChanged s1).output.context = _
      split
      · rfl
      · exact context_raise ..
    have guideU : u.guide = placed := guide_of_untriggered behind
    have behindT : untriggered t = untriggered (withFound u) := by rw [run]; exact untriggered_compareWatched u
    have guideT : t.guide = { placed with lastEvent := foundEvent u } := by
      rw [guide_of_untriggered behindT]
      show { u.guide with lastEvent := foundEvent u } = _
      rw [guideU]
    obtain ⟨watched, last⟩ := upserts_frame s.now es g
    have now : t.now = u.now := (congrArg (fun x : State => x.now) behindT :)
    refine ⟨by rw [guideT], by rw [guideT], by rw [guideT], ?_, ?_, fun changed => ?_, fun w is => ?_, ?_⟩
    · rw [guideT]; exact upserts_channels s.now es g
    · rw [guideT]; exact watched
    · have raised : noticeSet .guideChanged u = true := by
        show noticeSet .guideChanged (if placed.events = g.events then s1 else raise .guideChanged s1) = true
        rw [if_neg changed]
        exact noticeSet_raise ..
      rw [run]
      exact (stage_compareWatched u).notices _ raised
    · have found : foundEvent u = currentEvent u w := by
        unfold foundEvent
        rw [guideU, show placed.watched = some w from watched.trans is]
      have current : currentEvent t w = currentEvent u w := by
        unfold currentEvent
        rw [now, guideT, guideU]
        rfl
      refine ⟨by rw [guideT, current, ← found], fun moved => ?_⟩
      have changed : foundEvent u ≠ u.guide.lastEvent := by
        rw [guideU, show placed.lastEvent = g.lastEvent from last, found, ← current]
        exact moved
      refine ⟨by rw [run]; exact noticeSet_compareWatched changed, redecided_of_context (u := u) ?_ context⟩
      rw [run, compareWatched_eq, if_pos changed]
      exact redecided_of_context (redecided_trigger _) (context_raise ..)
    · have through (x : State) : untriggered { x with guide := g } = { untriggered x with guide := g } := rfl
      rw [through, behindT]
      have back : { untriggered (withFound u) with guide := g } = { untriggered u with guide := g } := rfl
      rw [back, behind]
      rfl

end Sys2Proof.Machine
end

