-- ==== Sys2Proof/Proofs/ChannelMapRecords.lean ====
section
/-! PROOFS. O11: the records of a CHANNEL MAP section and their two passes (R57 to R60). -/

namespace Sys2Proof.Machine

set_option Elab.async false

variable {K : Special → Prop}

/-! ## CHANNEL MAP sections (R57 to R60) -/

theorem entryOf_putEntry (e : ChannelEntry) (xs : List ChannelEntry) (n : Nat) :
    (putEntry e xs).find? (fun x => x.number = n) =
      if n = e.number then some e else xs.find? (fun x => x.number = n) := by
  induction xs with
  | nil => by_cases h : n = e.number <;> simp [putEntry, h, eq_comm]
  | cons x xs ih =>
    unfold putEntry
    split_ifs with below same
    all_goals simp only [List.find?_cons]
    all_goals grind

theorem entryOf_withdrawn (m : Nat) (xs : List ChannelEntry) (n : Nat) :
    (xs.filter (fun e => e.number ≠ m)).find? (fun x => x.number = n) =
      if n = m then none else xs.find? (fun x => x.number = n) := by
  induction xs with
  | nil => simp
  | cons x xs ih => grind

theorem length_putEntry (e : ChannelEntry) (xs : List ChannelEntry) : (putEntry e xs).length ≤ xs.length + 1 := by
  induction xs with
  | nil => exact Nat.le_refl _
  | cons x xs ih =>
    unfold putEntry
    split_ifs <;> simp only [List.length_cons] <;> omega

/-- A record that withdraws, checked and applied (R58, R59). -/
theorem takeChannelRecord_withdraws {r : ChannelRecord} (withdraws : r.withdraws = true) (g : Guide) :
    let t := takeChannelRecord g r
    (∀ n, entryOf t n = if r.good = true ∧ r.number = n then none else entryOf g n) ∧
    t.badRecords = bump^[if r.good then 0 else 1] g.badRecords ∧ t.mapFull = g.mapFull ∧
    t.channels.length ≤ g.channels.length := by
  intro t
  have run : t = if r.good then { g with channels := g.channels.filter (fun e => e.number ≠ r.number) }
      else { g with badRecords := bump g.badRecords } := by
    show takeChannelRecord g r = _
    unfold takeChannelRecord applyChannelRecord
    rw [if_pos withdraws]
  rw [run]
  by_cases good : r.good = true
  · rw [if_pos good]
    refine ⟨fun n => ?_, by rw [if_pos good]; rfl, rfl, List.length_filter_le ..⟩
    refine (entryOf_withdrawn r.number g.channels n).trans ?_
    simp only [good, true_and]
    exact if_congr eq_comm rfl rfl
  · rw [if_neg good]
    exact ⟨fun n => (if_neg fun h => good h.1).symm, by rw [if_neg good]; rfl, rfl, Nat.le_refl _⟩

/-- A record that writes an entry, checked and applied where the map has room (R58, R59). -/
theorem takeChannelRecord_writes {r : ChannelRecord} (writes : r.withdraws = false) {g : Guide}
    (room : g.channels.length < 512) :
    let t := takeChannelRecord g r
    (∀ n, entryOf t n = if r.good = true ∧ r.number = n then some r.entry else entryOf g n) ∧
    t.badRecords = bump^[if r.good then 0 else 1] g.badRecords ∧ t.mapFull = g.mapFull ∧
    t.channels.length ≤ g.channels.length + 1 := by
  intro t
  have run : t = if r.good then { g with channels := putEntry r.entry g.channels }
      else { g with badRecords := bump g.badRecords } := by
    show takeChannelRecord g r = _
    unfold takeChannelRecord applyChannelRecord
    simp [writes, room]
  rw [run]
  by_cases good : r.good = true
  · rw [if_pos good]
    refine ⟨fun n => ?_, by rw [if_pos good]; rfl, rfl, length_putEntry ..⟩
    refine (entryOf_putEntry r.entry g.channels n).trans ?_
    simp only [good, true_and]
    exact if_congr eq_comm rfl rfl
  · rw [if_neg good]
    exact ⟨fun n => (if_neg fun h => good h.1).symm, by rw [if_neg good]; rfl, rfl, Nat.le_succ _⟩

/-- The pass of the withdrawals (R57). -/
theorem withdrawals (rs : List ChannelRecord) (all : ∀ r ∈ rs, r.withdraws = true) (g : Guide) :
    let t := rs.foldl takeChannelRecord g
    (∀ n, entryOf t n = if rs.any (fun r => r.good && r.number = n) then none else entryOf g n) ∧
    t.badRecords = bump^[rs.countP (fun r => !r.good)] g.badRecords ∧ t.mapFull = g.mapFull ∧
    t.channels.length ≤ g.channels.length := by
  induction rs generalizing g with
  | nil => exact ⟨fun _ => rfl, rfl, rfl, Nat.le_refl _⟩
  | cons r rs ih =>
    obtain ⟨first, rest⟩ := List.forall_mem_cons.1 all
    obtain ⟨entry, bad, full, length⟩ := takeChannelRecord_withdraws first g
    obtain ⟨entries, bads, fulls, lengths⟩ := ih rest (takeChannelRecord g r)
    refine ⟨fun n => ?_, ?_, fulls.trans full, lengths.trans length⟩
    · rw [List.foldl_cons, entries, entry, List.any_cons]
      by_cases here : r.good = true ∧ r.number = n
      · simp [here]
      · rw [if_neg here]
        congr 1
        simp only [Bool.or_eq_true, Bool.and_eq_true, decide_eq_true_eq, here, false_or]
    · rw [List.foldl_cons, bads, bad, ← Function.iterate_add_apply, List.countP_cons]
      congr 2
      cases r.good <;> rfl

/-- The pass of the other records (R57), where the map has room for them all. -/
theorem writings (rs : List ChannelRecord) (all : ∀ r ∈ rs, r.withdraws = false) (g : Guide)
    (room : g.channels.length + rs.length ≤ 512) :
    let t := rs.foldl takeChannelRecord g
    (∀ n, entryOf t n = match (rs.filter (fun r => r.good && r.number = n)).getLast? with
      | some r => some r.entry
      | none => entryOf g n) ∧
    t.mapFull = g.mapFull := by
  induction rs generalizing g with
  | nil => exact ⟨fun _ => rfl, rfl⟩
  | cons r rs ih =>
    obtain ⟨first, rest⟩ := List.forall_mem_cons.1 all
    rw [List.length_cons] at room
    obtain ⟨entry, _, full, length⟩ := takeChannelRecord_writes first (g := g) (by omega)
    obtain ⟨entries, fulls⟩ := ih rest (takeChannelRecord g r) (by omega)
    refine ⟨fun n => ?_, fulls.trans full⟩
    rw [List.foldl_cons, entries, entry]
    by_cases here : r.good = true ∧ r.number = n
    · rw [List.filter_cons_of_pos (by simp [here]), List.getLast?_cons]
      cases (rs.filter (fun r => r.good && r.number = n)).getLast? with
      | none => simp [here]
      | some x => rfl
    · rw [List.filter_cons_of_neg (by simpa using here), if_neg here]

theorem badRecords_take (g : Guide) (r : ChannelRecord) :
    (takeChannelRecord g r).badRecords = bump^[if r.good then 0 else 1] g.badRecords := by
  unfold takeChannelRecord applyChannelRecord
  split
  · split
    · rfl
    · split <;> rfl
  · rfl

theorem badRecords_foldl (rs : List ChannelRecord) (g : Guide) :
    (rs.foldl takeChannelRecord g).badRecords = bump^[rs.countP (fun r => !r.good)] g.badRecords := by
  induction rs generalizing g with
  | nil => rfl
  | cons r rs ih =>
    rw [List.foldl_cons, ih, badRecords_take, ← Function.iterate_add_apply, List.countP_cons]
    congr 2
    cases r.good <;> rfl

/-- The records that R58 lets through, in the words of the statements. -/
theorem good_eq (r : ChannelRecord) : r.good = decide (1 ≤ r.number ∧ r.number ≤ 9999 ∧
    (r.flags.getLsbD 0 = true ∨ (16 ≤ r.mapStream ∧ r.mapStream ≤ 4093))) := by
  unfold ChannelRecord.good ChannelRecord.withdraws
  rw [Bool.eq_iff_iff]
  simp [and_assoc]

theorem badRecords_takeChannelRecords (rs : List ChannelRecord) (g : Guide) :
    (takeChannelRecords rs g).badRecords = bump^[rs.countP (fun r => !r.good)] g.badRecords := by
  have split := List.countP_eq_countP_filter_add rs (fun r => !r.good) ChannelRecord.withdraws
  unfold takeChannelRecords
  rw [badRecords_foldl, badRecords_foldl, ← Function.iterate_add_apply, split, Nat.add_comm]

/-- The two passes where the map has room for every record (R57, R59). -/
theorem takeChannelRecords_spec (rs : List ChannelRecord) (g : Guide) (room : g.channels.length + rs.length ≤ 512) :
    let t := takeChannelRecords rs g
    t.mapFull = g.mapFull ∧ ∀ n, entryOf t n =
      match (rs.filter (fun r => r.good && !r.withdraws && r.number = n)).getLast? with
      | some r => some r.entry
      | none => if rs.any (fun r => r.good && r.withdraws && r.number = n) then none else entryOf g n := by
  have writesAll : ∀ r ∈ rs.filter (fun r => !r.withdraws), r.withdraws = false := fun r h => by
    simpa using (List.mem_filter.1 h).2
  obtain ⟨gone, _, full, length⟩ := withdrawals (rs.filter ChannelRecord.withdraws)
    (fun r h => (List.mem_filter.1 h).2) g
  have fewer := List.length_filter_le (fun r : ChannelRecord => !r.withdraws) rs
  obtain ⟨entries, fulls⟩ := writings (rs.filter (fun r => !r.withdraws)) writesAll
    ((rs.filter ChannelRecord.withdraws).foldl takeChannelRecord g) (by omega)
  refine ⟨fulls.trans full, fun n => (entries n).trans ?_⟩
  have kept : (rs.filter (fun r => !r.withdraws)).filter (fun r => r.good && r.number = n)
      = rs.filter (fun r => r.good && !r.withdraws && r.number = n) := by
    rw [List.filter_filter]
    exact List.filter_congr fun r _ => Bool.and_right_comm ..
  have away : (rs.filter ChannelRecord.withdraws).any (fun r => r.good && r.number = n)
      = rs.any (fun r => r.good && r.withdraws && r.number = n) := by
    rw [List.any_filter]
    congr 1
    funext r
    rw [← Bool.and_assoc, Bool.and_comm r.withdraws]
  rw [kept, gone, away]

/-- A record of a channel not held does not go into a full map (R59). -/
theorem takeChannelRecords_full {r : ChannelRecord} {g : Guide} (good : r.good = true) (writes : r.withdraws = false)
    (full : 512 ≤ g.channels.length) (new : entryOf g r.number = none) :
    takeChannelRecords [r] g = { g with mapFull := bump g.mapFull } := by
  have run : takeChannelRecords [r] g = takeChannelRecord g r := by
    unfold takeChannelRecords
    simp only [List.filter, writes]
    rfl
  rw [run]
  unfold takeChannelRecord applyChannelRecord
  rw [if_pos good, if_neg (by rw [writes]; exact nofun), if_neg (by simp [new, full])]

/-- What the records of a section leave unchanged of the guide. -/
def SameBeside (g t : Guide) : Prop :=
  t.events = g.events ∧ t.malformedMaps = g.malformedMaps ∧ t.watched = g.watched

theorem sameBeside_take (g : Guide) (r : ChannelRecord) : SameBeside g (takeChannelRecord g r) := by
  unfold takeChannelRecord applyChannelRecord
  split
  · split
    · exact ⟨rfl, rfl, rfl⟩
    · split <;> exact ⟨rfl, rfl, rfl⟩
  · exact ⟨rfl, rfl, rfl⟩

theorem sameBeside_foldl (rs : List ChannelRecord) (g : Guide) : SameBeside g (rs.foldl takeChannelRecord g) := by
  induction rs generalizing g with
  | nil => exact ⟨rfl, rfl, rfl⟩
  | cons r rs ih =>
    obtain ⟨events, maps, watched⟩ := ih (takeChannelRecord g r)
    obtain ⟨events', maps', watched'⟩ := sameBeside_take g r
    exact ⟨events.trans events', maps.trans maps', watched.trans watched'⟩

theorem sameBeside_takeChannelRecords (rs : List ChannelRecord) (g : Guide) :
    SameBeside g (takeChannelRecords rs g) := by
  obtain ⟨events, maps, watched⟩ := sameBeside_foldl (rs.filter ChannelRecord.withdraws) g
  obtain ⟨events', maps', watched'⟩ := sameBeside_foldl (rs.filter (fun r => !r.withdraws))
    ((rs.filter ChannelRecord.withdraws).foldl takeChannelRecord g)
  exact ⟨events'.trans events, maps'.trans maps, watched'.trans watched⟩

/-- The fields of the record that stands at place i of a section (R57). -/
theorem readChannelRecord_fields (body : Bytes) (i : Nat) :
    let r := readChannelRecord ((body.drop (1 + 8 * i)).take 8)
    r.number = beNat ((body.drop (1 + 8 * i)).take 2) ∧
      r.carrier = (byteAt body (3 + 8 * i)).toNat ∧ r.mapStream = beNat ((body.drop (4 + 8 * i)).take 2) ∧
      r.flags = byteAt body (6 + 8 * i) ∧ r.tier = (byteAt body (7 + 8 * i)).toNat ∧
      r.rating = (byteAt body (8 + 8 * i)).toNat := by
  have byte (k : Nat) (h : k < 8) : byteAt ((body.drop (1 + 8 * i)).take 8) k = byteAt body (k + 1 + 8 * i) := by
    unfold byteAt
    rw [List.getD_eq_getElem?_getD, List.getD_eq_getElem?_getD, List.getElem?_take_of_lt h, List.getElem?_drop,
      show 1 + 8 * i + k = k + 1 + 8 * i by omega]
  refine ⟨?_, congrArg BitVec.toNat (byte 2 (by decide)), ?_, byte 5 (by decide),
    congrArg BitVec.toNat (byte 6 (by decide)), congrArg BitVec.toNat (byte 7 (by decide))⟩
  · show beNat (((body.drop (1 + 8 * i)).take 8).take 2) = _
    rw [List.take_take]
    rfl
  · show beNat ((((body.drop (1 + 8 * i)).take 8).drop 3).take 2) = _
    rw [List.drop_take, List.take_take, List.drop_drop, show 1 + 8 * i + 3 = 4 + 8 * i by omega]
    rfl

/-! ## The effects of a taken CHANNEL MAP section (R60) -/

/-- The state once a refreshed entry stands in the context and before the decision that follows. -/
def State.withEntry (e : ChannelEntry) (s : State) : State :=
  { s with output := { s.output with context := s.output.context.map (fun c => { c with entry := e }) } }

theorem refreshEntry_eq (e : ChannelEntry) (s : State) : refreshEntry e s = trigger (s.withEntry e) := by
  unfold refreshEntry
  cases context : s.output.context with
  | none =>
    have same : s.withEntry e = s := by
      have still : s.output.context.map (fun c => { c with entry := e }) = s.output.context := by rw [context]; rfl
      unfold State.withEntry
      rw [still]
    rw [same]
    unfold trigger
    rw [context]
  | some c => unfold State.withEntry; rw [context]; rfl

theorem untriggered_refreshEntry (e : ChannelEntry) (s : State) : untriggered (refreshEntry e s) = untriggered s := by
  rw [refreshEntry_eq, untriggered_trigger]
  rfl

theorem noticeSet_refreshEntry {n : Notice} {s : State} (set : noticeSet n s = true) (e : ChannelEntry) :
    noticeSet n (refreshEntry e s) = true := by
  rw [refreshEntry_eq]
  exact noticeSet_trigger_of_set set

/-- A refreshed entry in the context, decided again unless the context is changing (R166). -/
theorem refreshEntry_spec {s : State} {c : Context} (context : s.output.context = some c) (e : ChannelEntry) :
    let t := refreshEntry e s
    (∃ c', t.output.context = some c' ∧ c'.entry = e ∧ (c.changing = true → c' = { c with entry := e })) ∧
    redecided { s with output := { s.output with context := some { c with entry := e } } } t := by
  have run : refreshEntry e s = trigger { s with output := { s.output with context := some { c with entry := e } } } := by
    unfold refreshEntry
    rw [context]
  intro t
  have again : redecided { s with output := { s.output with context := some { c with entry := e } } } t := by
    show redecided _ (refreshEntry e s)
    rw [run]
    exact redecided_trigger _
  refine ⟨?_, again⟩
  cases changing : c.changing with
  | false => exact ⟨_, (again _ rfl changing).1, rfl, nofun⟩
  | true =>
    refine ⟨{ c with entry := e }, ?_, rfl, fun _ => by rw [← changing]⟩
    show (refreshEntry e s).output.context = _
    rw [run]
    unfold trigger
    simp [changing]

end Sys2Proof.Machine
end

