-- ==== Sys2Proof/Proofs/ChannelMapSection.lean ====
section
/-! PROOFS. O11: a CHANNEL MAP section as a whole (R57 to R60). -/

namespace Sys2Proof.Machine

set_option Elab.async false

variable {K : Special → Prop}
/-! ## A CHANNEL MAP section as a whole (R57 to R60) -/

/-- The records that a CHANNEL MAP body lists (R57). -/
def mapRecords (body : Bytes) : List ChannelRecord :=
  (List.range (byteAt body 0).toNat).map (fun i => readChannelRecord ((body.drop (1 + 8 * i)).take 8))

theorem channelMapSection_malformed {body : Bytes}
    (bad : (byteAt body 0).toNat = 0 ∨ body.length ≠ 1 + 8 * (byteAt body 0).toNat) (s : State) :
    channelMapSection body s =
      { s with guide := { s.guide with malformedMaps := bump s.guide.malformedMaps } } := by
  have none_ : readChannelMap body = none := by
    unfold readChannelMap
    refine if_neg fun whole => ?_
    simp only [Bool.and_eq_true, decide_eq_true_eq] at whole
    exact bad.elim whole.1 (fun h => h whole.2)
  unfold channelMapSection
  rw [none_]

theorem channelMapSection_taken {body : Bytes} (some_ : (byteAt body 0).toNat ≠ 0)
    (length : body.length = 1 + 8 * (byteAt body 0).toNat) (s : State) :
    channelMapSection body s =
      channelMapEffects s.guide { s with guide := takeChannelRecords (mapRecords body) s.guide } := by
  have read : readChannelMap body = some (mapRecords body) :=
    if_pos (by simp only [Bool.and_eq_true, decide_eq_true_eq]; exact ⟨some_, length⟩)
  unfold channelMapSection
  rw [read]

theorem untriggered_channelMapEffects (g : Guide) (s : State) : untriggered (channelMapEffects g s) = untriggered s := by
  have noticed : untriggered (if s.guide.channels = g.channels then s else raise .guideChanged s) = untriggered s := by
    split
    · rfl
    · exact untriggered_raise ..
  unfold channelMapEffects
  extract_lets s1
  split
  · exact (untriggered_refreshEntry _ s1).trans noticed
  · exact noticed

theorem channelMapEffects_changed {g : Guide} {s : State} (changed : s.guide.channels ≠ g.channels) :
    noticeSet .guideChanged (channelMapEffects g s) = true := by
  have raised := noticeSet_raise .guideChanged s
  unfold channelMapEffects
  rw [if_neg changed]
  dsimp only
  split
  · exact noticeSet_refreshEntry raised _
  · exact raised

theorem channelMapEffects_same {g : Guide} {s : State} (same : s.guide.channels = g.channels) :
    channelMapEffects g s = s := by
  have still : refreshedEntry g s.guide = none := by
    unfold refreshedEntry entryOf
    rw [same]
    split
    · rfl
    · split
      · rfl
      · next e is => exact if_pos is
  unfold channelMapEffects
  rw [still, if_pos same]

theorem channelMapEffects_refreshes {g : Guide} {s : State} {w : Nat} {e : ChannelEntry}
    (watched : s.guide.watched = some w) (held : entryOf s.guide w = some e) (new : entryOf g w ≠ some e) :
    ∃ u, channelMapEffects g s = refreshEntry e u ∧ u.output.context = s.output.context := by
  have refreshed : refreshedEntry g s.guide = some e := by
    unfold refreshedEntry
    rw [watched]
    dsimp only
    rw [held]
    exact if_neg new
  refine ⟨if s.guide.channels = g.channels then s else raise .guideChanged s, ?_, ?_⟩
  · unfold channelMapEffects
    rw [refreshed]
  · split
    · rfl
    · exact context_raise ..

/-- What a taken CHANNEL MAP section leaves, whatever its records did to the map (R60). -/
theorem channelMapEffects_spec (s : State) {placed : Guide} (watched : placed.watched = s.guide.watched) :
    let g := s.guide
    let t := channelMapEffects g { s with guide := placed }
    t.guide = placed ∧
    (t.guide.channels ≠ g.channels → noticeSet .guideChanged t = true) ∧
    (t.guide.channels = g.channels → t = { s with guide := t.guide }) ∧
    (∀ w c e, g.watched = some w → s.output.context = some c → entryOf t.guide w = some e →
      entryOf g w ≠ some e → ∃ c', t.output.context = some c' ∧ c'.entry = e ∧
      (c.changing = true → c' = { c with entry := e }) ∧
      redecided { s with output := { s.output with context := some { c with entry := e } } } t) ∧
    untriggered { t with guide := g } = untriggered s := by
  intro g t
  have behind : untriggered t = untriggered { s with guide := placed } := untriggered_channelMapEffects ..
  have guide : t.guide = placed := guide_of_untriggered behind
  rw [guide]
  refine ⟨rfl, fun changed => channelMapEffects_changed changed, fun same => channelMapEffects_same same,
    fun w c e is context held new => ?_, ?_⟩
  · obtain ⟨u, run, still⟩ := channelMapEffects_refreshes (s := { s with guide := placed }) (watched.trans is) held new
    obtain ⟨⟨c', now, entry, changing⟩, again⟩ := refreshEntry_spec (s := u) (still.trans context) e
    have runs : t = refreshEntry e u := run
    rw [runs]
    exact ⟨c', now, entry, changing, redecided_of_context again rfl⟩
  · exact (congrArg (fun x : State => { x with guide := g }) behind :)

theorem channelMapSection_spec (body : Bytes) (s : State) :
    let count := (byteAt body 0).toNat
    let t := channelMapSection body s
    let g := s.guide
    let rs := (List.range count).map (fun i => readChannelRecord ((body.drop (1 + 8 * i)).take 8))
    let fits (r : ChannelRecord) : Bool := 1 ≤ r.number ∧ r.number ≤ 9999 ∧
      (r.flags.getLsbD 0 = true ∨ (16 ≤ r.mapStream ∧ r.mapStream ≤ 4093))
    let withdrawn (n : Nat) : Bool := rs.any (fun r => fits r && r.flags.getLsbD 0 && r.number = n)
    let written (n : Nat) : Option ChannelRecord :=
      (rs.filter (fun r => fits r && !r.flags.getLsbD 0 && r.number = n)).getLast?
    (count = 0 ∨ body.length ≠ 1 + 8 * count →
      t = { s with guide := { g with malformedMaps := bump g.malformedMaps } }) ∧
    (count ≠ 0 → body.length = 1 + 8 * count →
      (∀ i r, rs[i]? = some r → r.number = beNat ((body.drop (1 + 8 * i)).take 2) ∧
        r.carrier = (byteAt body (3 + 8 * i)).toNat ∧ r.mapStream = beNat ((body.drop (4 + 8 * i)).take 2) ∧
        r.flags = byteAt body (6 + 8 * i) ∧ r.tier = (byteAt body (7 + 8 * i)).toNat ∧
        r.rating = (byteAt body (8 + 8 * i)).toNat) ∧
      t.guide.badRecords = bump^[rs.countP (fun r => !fits r)] g.badRecords ∧
      t.guide.events = g.events ∧ t.guide.malformedMaps = g.malformedMaps ∧
      (g.channels.length + count ≤ 512 → t.guide.mapFull = g.mapFull ∧
        ∀ n, entryOf t.guide n =
          match written n with
          | some r => some ⟨n, r.carrier, r.mapStream, if r.flags.getLsbD 2 then none else some r.tier,
              min r.rating 14, r.flags.getLsbD 1⟩
          | none => if withdrawn n then none else entryOf g n) ∧
      (∀ r, rs = [r] → fits r = true → r.flags.getLsbD 0 = false → 512 ≤ g.channels.length →
        entryOf g r.number = none →
        t.guide.mapFull = bump g.mapFull ∧ t.guide.channels = g.channels) ∧
      (t.guide.channels ≠ g.channels → noticeSet .guideChanged t = true) ∧
      (t.guide.channels = g.channels → t = { s with guide := t.guide }) ∧
      (∀ w c e, g.watched = some w → s.output.context = some c → entryOf t.guide w = some e →
        entryOf g w ≠ some e → ∃ c', t.output.context = some c' ∧ c'.entry = e ∧
        (c.changing = true → c' = { c with entry := e }) ∧
        redecided { s with output := { s.output with context := some { c with entry := e } } } t) ∧
      untriggered { t with guide := g } = untriggered s) := by
  intro count t g rs fits withdrawn written
  refine ⟨fun bad => channelMapSection_malformed bad s, fun some_ length => ?_⟩
  have same : fits = ChannelRecord.good := funext fun r => (good_eq r).symm
  obtain ⟨events, maps, watched⟩ := sameBeside_takeChannelRecords rs g
  have run : t = channelMapEffects g { s with guide := takeChannelRecords rs g } :=
    channelMapSection_taken some_ length s
  obtain ⟨guide, effects⟩ := channelMapEffects_spec s watched
  rw [← run] at guide effects
  refine ⟨fun i r at_ => ?_, ?_, ?_, ?_, fun room => ?_, fun r one good writes full new => ?_, effects⟩
  · rw [List.getElem?_map, Option.map_eq_some_iff] at at_
    obtain ⟨j, here, rfl⟩ := at_
    obtain ⟨_, rfl⟩ := List.getElem?_eq_some_iff.1 here
    rw [List.getElem_range]
    exact readChannelRecord_fields body i
  · rw [guide, same]
    exact badRecords_takeChannelRecords rs g
  · rw [guide]; exact events
  · rw [guide]; exact maps
  · have fewer : rs.length = count := by rw [List.length_map, List.length_range]
    obtain ⟨full, entries⟩ := takeChannelRecords_spec rs g (by rw [fewer]; exact room)
    rw [guide]
    refine ⟨full, fun n => (entries n).trans ?_⟩
    have gone : withdrawn n = rs.any (fun r => r.good && r.withdraws && r.number = n) := by
      rw [← same]; rfl
    have wrote : written n = (rs.filter (fun r => r.good && !r.withdraws && r.number = n)).getLast? := by
      rw [← same]; rfl
    rw [gone, ← wrote]
    cases last : written n with
    | none => rfl
    | some r =>
      have mem := (List.mem_filter.1 (List.mem_of_getLast? last)).2
      rw [Bool.and_eq_true, decide_eq_true_eq] at mem
      obtain ⟨_, rfl⟩ := mem
      rfl
  · rw [same] at good
    rw [guide, one, takeChannelRecords_full good writes full new]
    exact ⟨rfl, rfl⟩

/-- Settles O11. -/
theorem channelMapAndGuideSections : Obligations.ChannelMapAndGuideSections := by
  unfold Obligations.ChannelMapAndGuideSections
  refine ⟨channelMapSection_spec, guideEventsSection_spec, fun key b rest length => ?_, upsert_spec⟩
  intro codes k
  rw [readEvents_append key b rest length k, readEvent_append key b rest length]

end Sys2Proof.Machine
end

