-- ==== Sys2Proof/Proofs/MapBody.lean ====
section
/-! PROOFS. O12: the body of a PROGRAMME MAP section (R99). -/

namespace Sys2Proof.Machine

set_option Elab.async false

variable {K : Special → Prop}

/-! ## The body of a PROGRAMME MAP section (R99) -/

/-- The kind that a good kind byte names. -/
def kindNamed (n : Nat) : ComponentKind :=
  if n = 1 then .video else if n = 2 then .audio else if n = 3 then .data else .key

/-- The component at place i of the bytes that follow the count. -/
def componentIn (b : Bytes) (i : Nat) : Component :=
  ⟨kindNamed (byteAt b (3 * i)).toNat, beNat ((b.drop (1 + 3 * i)).take 2)⟩

theorem componentKindOf_eq (n : Nat) :
    componentKindOf n = if 1 ≤ n ∧ n ≤ 4 then some (kindNamed n) else none := by
  rcases n with _ | _ | _ | _ | _ | n
  · rfl
  · rfl
  · rfl
  · rfl
  · rfl
  · exact (if_neg fun h => by omega).symm

theorem kindNamed_eq_key {n : Nat} (low : 1 ≤ n) (high : n ≤ 4) : kindNamed n = .key ↔ n = 4 := by
  unfold kindNamed
  split_ifs <;> simp <;> omega

theorem componentIn_succ (k h l : Byte) (rest : Bytes) (i : Nat) :
    componentIn (k :: h :: l :: rest) (i + 1) = componentIn rest i := by
  unfold componentIn byteAt
  rw [show 3 * (i + 1) = 3 * i + 3 by omega, show 1 + (3 * i + 3) = (1 + 3 * i) + 3 by omega]
  rfl

/-- The components that bytes of 3 each spell, or none. -/
theorem readComponents_eq (n : Nat) (b : Bytes) (length : b.length = 3 * n) : readComponents b =
    if ∀ i < n, 1 ≤ (byteAt b (3 * i)).toNat ∧ (byteAt b (3 * i)).toNat ≤ 4
    then some ((List.range n).map (componentIn b)) else none := by
  induction n generalizing b with
  | zero =>
    obtain rfl := List.eq_nil_of_length_eq_zero length
    exact (if_pos fun i h => absurd h (Nat.not_lt_zero i)).symm
  | succ n ih =>
    match b, length with
    | k :: h :: l :: rest, length =>
      have shorter : rest.length = 3 * n := by simp only [List.length_cons] at length; omega
      have first : byteAt (k :: h :: l :: rest) (3 * 0) = k := rfl
      have next (i : Nat) : byteAt (k :: h :: l :: rest) (3 * (i + 1)) = byteAt rest (3 * i) := by
        unfold byteAt
        rw [show 3 * (i + 1) = 3 * i + 3 by omega]
        rfl
      have places : (List.range (n + 1)).map (componentIn (k :: h :: l :: rest))
          = ⟨kindNamed k.toNat, beNat [h, l]⟩ :: (List.range n).map (componentIn rest) := by
        rw [List.range_succ_eq_map, List.map_cons, List.map_map]
        exact congrArg _ (List.map_congr_left fun i _ => componentIn_succ ..)
      have all : (∀ i < n + 1, 1 ≤ (byteAt (k :: h :: l :: rest) (3 * i)).toNat ∧
          (byteAt (k :: h :: l :: rest) (3 * i)).toNat ≤ 4) ↔
          (1 ≤ k.toNat ∧ k.toNat ≤ 4) ∧
          ∀ i < n, 1 ≤ (byteAt rest (3 * i)).toNat ∧ (byteAt rest (3 * i)).toNat ≤ 4 := by
        refine ⟨fun h => ⟨h 0 (Nat.succ_pos n), fun i hi => next i ▸ h (i + 1) (Nat.succ_lt_succ hi)⟩,
          fun h i hi => ?_⟩
        cases i with
        | zero => exact h.1
        | succ i => exact (next i).symm ▸ h.2 i (Nat.lt_of_succ_lt_succ hi)
      rw [readComponents, componentKindOf_eq, ih rest shorter, places]
      by_cases kind : 1 ≤ k.toNat ∧ k.toNat ≤ 4
      · by_cases rests : ∀ i < n, 1 ≤ (byteAt rest (3 * i)).toNat ∧ (byteAt rest (3 * i)).toNat ≤ 4
        · rw [if_pos kind, if_pos rests, if_pos (all.2 ⟨kind, rests⟩)]
        · rw [if_pos kind, if_neg rests, if_neg fun h => rests (all.1 h).2]
      · rw [if_neg kind, if_neg fun h => kind (all.1 h).1]

theorem distinctStreams_iff (cs : List Component) :
    distinctStreams cs = true ↔ cs.Pairwise (fun c d => c.stream ≠ d.stream) := by
  induction cs with
  | nil => simp [distinctStreams]
  | cons c cs ih =>
    rw [distinctStreams, Bool.and_eq_true, ih, List.pairwise_cons, Bool.not_eq_true', List.any_eq_false]
    refine and_congr_left fun _ => forall₂_congr fun d _ => ?_
    rw [decide_eq_true_eq]
    exact ne_comm

/-- At most one element has a property when no two have it. -/
theorem countP_le_one_iff {α : Type} (p : α → Bool) (xs : List α) :
    xs.countP p ≤ 1 ↔ xs.Pairwise (fun x y => ¬ (p x = true ∧ p y = true)) := by
  induction xs with
  | nil => simp
  | cons x xs ih =>
    rw [List.countP_cons, List.pairwise_cons]
    cases h : p x with
    | false => simp [ih]
    | true =>
      have none_ : xs.countP p + 1 ≤ 1 ↔ ∀ y ∈ xs, ¬ p y = true := by
        rw [← List.countP_eq_zero]
        omega
      simp only [if_true, true_and, none_]
      refine ⟨fun h => ⟨h, ?_⟩, And.left⟩
      exact List.pairwise_of_forall_mem_list fun y hy _ _ both => h y hy both.1

/-- A symmetric relation over the places of a list. -/
theorem pairwise_range_map {α : Type} {R : α → α → Prop} (symm : ∀ x y, R x y → R y x) (g : Nat → α) (n : Nat) :
    ((List.range n).map g).Pairwise R ↔ ∀ i < n, ∀ j < n, i ≠ j → R (g i) (g j) := by
  rw [List.pairwise_iff_getElem]
  simp only [List.length_map, List.length_range, List.getElem_map, List.getElem_range]
  refine ⟨fun h i hi j hj apart => ?_, fun h i j hi hj before => h i hi j hj (Nat.ne_of_lt before)⟩
  rcases Nat.lt_or_gt_of_ne apart with before | after
  · exact h i j hi hj before
  · exact symm _ _ (h j i hj hi after)

/-- The body of a PROGRAMME MAP section in the words of the statements: its shape, and the list it gives. -/
theorem programmeMap_spec (key : Nat) (body : Bytes) :
    let count := (byteAt body 0).toNat
    let kindAt (i : Nat) := (byteAt body (1 + 3 * i)).toNat
    let streamAt (i : Nat) := beNat ((body.drop (2 + 3 * i)).take 2)
    let shape : Prop := 1 ≤ count ∧ count ≤ 8 ∧ body.length = 1 + 3 * count ∧
      (∀ i < count, 1 ≤ kindAt i ∧ kindAt i ≤ 4 ∧ 16 ≤ streamAt i ∧ streamAt i ≤ 4093 ∧ streamAt i ≠ key) ∧
      (∀ i < count, ∀ j < count, i ≠ j → streamAt i ≠ streamAt j ∧ ¬ (kindAt i = 4 ∧ kindAt j = 4))
    let new : List Component := (List.range count).map (fun i => ⟨kindNamed (kindAt i), streamAt i⟩)
    (¬ shape → programmeMap key body = none) ∧
    (shape → programmeMap key body = some new ∧ new.Pairwise (fun c d => c.stream ≠ d.stream)) := by
  intro count kindAt streamAt shape new
  have streams : new.Pairwise (fun c d => c.stream ≠ d.stream) ↔
      ∀ i < count, ∀ j < count, i ≠ j → streamAt i ≠ streamAt j :=
    pairwise_range_map (R := fun c d : Component => c.stream ≠ d.stream) (fun _ _ h => h.symm) _ count
  have keys : new.countP (fun c => c.kind = .key) ≤ 1 ↔
      ∀ i < count, ∀ j < count, i ≠ j → ¬ (kindNamed (kindAt i) = .key ∧ kindNamed (kindAt j) = .key) := by
    rw [countP_le_one_iff]
    simp only [decide_eq_true_eq]
    exact pairwise_range_map (R := fun c d : Component => ¬ (c.kind = .key ∧ d.kind = .key))
      (fun _ _ h k => h k.symm) _ count
  have fits : new.all (fun c => 16 ≤ c.stream && c.stream ≤ 4093 && c.stream ≠ key) = true ↔
      ∀ i < count, 16 ≤ streamAt i ∧ streamAt i ≤ 4093 ∧ streamAt i ≠ key := by
    simp only [new, List.all_map, List.all_eq_true, List.mem_range, Function.comp_apply, Bool.and_eq_true,
      decide_eq_true_eq, and_assoc]
  have decides : Decidable shape := Classical.propDecidable shape
  have read : programmeMap key body = if shape then some new else none := by
    rcases (show body = [] ∨ ∃ first rest, body = first :: rest by cases body <;> simp) with is | ⟨first, rest, is⟩
    · have zero : count = 0 := by rw [show count = (byteAt body 0).toNat from rfl, is]; rfl
      rw [if_neg fun h => absurd h.1 (by rw [zero]; decide), is]
      rfl
    · have counted : first.toNat = count := by rw [show count = (byteAt body 0).toNat from rfl, is]; rfl
      have length : body.length = rest.length + 1 := by rw [is]; rfl
      have kinds (i : Nat) : (byteAt rest (3 * i)).toNat = kindAt i := by
        rw [show kindAt i = (byteAt body (1 + 3 * i)).toNat from rfl, is, Nat.add_comm 1]
        rfl
      have places : (List.range count).map (componentIn rest) = new := by
        refine List.map_congr_left fun i _ => ?_
        unfold componentIn
        rw [kinds, show streamAt i = beNat ((body.drop (2 + 3 * i)).take 2) from rfl, is,
          show 2 + 3 * i = (1 + 3 * i) + 1 by omega, List.drop_succ_cons]
      rw [is, programmeMap, counted]
      by_cases whole : 1 ≤ count ∧ count ≤ 8 ∧ rest.length = 3 * count
      · obtain ⟨one, eight, triples⟩ := whole
        rw [if_pos (by simp [one, eight, triples]), readComponents_eq count rest triples, places]
        simp only [kinds]
        by_cases named : ∀ i < count, 1 ≤ kindAt i ∧ kindAt i ≤ 4
        · rw [if_pos named]
          refine if_congr ?_ rfl rfl
          rw [Bool.and_eq_true, Bool.and_eq_true, fits, distinctStreams_iff, streams, decide_eq_true_eq, keys]
          have key_ (i : Nat) (hi : i < count) : kindNamed (kindAt i) = .key ↔ kindAt i = 4 :=
            kindNamed_eq_key (named i hi).1 (named i hi).2
          refine ⟨fun ⟨⟨good, apart⟩, single⟩ => ⟨one, eight, by omega, fun i hi => ?_, fun i hi j hj ne => ?_⟩,
            fun ⟨_, _, _, good, apart⟩ => ⟨⟨fun i hi => (good i hi).2.2, fun i hi j hj ne => (apart i hi j hj ne).1⟩,
              fun i hi j hj ne both => ?_⟩⟩
          · exact ⟨(named i hi).1, (named i hi).2, good i hi⟩
          · exact ⟨apart i hi j hj ne, fun both => single i hi j hj ne
              ⟨(key_ i hi).2 both.1, (key_ j hj).2 both.2⟩⟩
          · exact (apart i hi j hj ne).2 ⟨(key_ i hi).1 both.1, (key_ j hj).1 both.2⟩
        · rw [if_neg named]
          exact (if_neg fun ⟨_, _, _, good, _⟩ => named fun i hi => ⟨(good i hi).1, (good i hi).2.1⟩).symm
      · rw [if_neg (by simp only [Bool.and_eq_true, decide_eq_true_eq]; exact fun h => whole ⟨h.1.1, h.1.2, h.2⟩)]
        exact (if_neg fun ⟨one, eight, triples, _⟩ => whole ⟨one, eight, by omega⟩).symm
  refine ⟨fun bad => read.trans (if_neg bad), fun good => ⟨read.trans (if_pos good), streams.2 fun i hi j hj ne => ?_⟩⟩
  obtain ⟨_, _, _, _, apart⟩ := good
  exact (apart i hi j hj ne).1

end Sys2Proof.Machine
end

