-- ==== Sys2Proof/Proofs/MapInstall.lean ====
section
/-! PROOFS. O12: a set of entries requested, and components installed (R21, R100). -/

namespace Sys2Proof.Machine

set_option Elab.async false

variable {K : Special → Prop}

/-! ## A set of entries requested (R21) -/

theorem distinctPairs_of_apart {ps : List (Nat × Consumer)} (apart : ps.Pairwise (fun p q => p.1 ≠ q.1)) :
    distinctPairs ps = ps := by
  induction ps with
  | nil => rfl
  | cons p ps ih =>
    obtain ⟨first, rest⟩ := List.pairwise_cons.1 apart
    rw [distinctPairs, ih rest, List.filter_eq_self.2 fun q hq => decide_eq_true (first q hq).symm]

theorem entryAt_eq_none {f : Feed} {stream : Nat} {s : State} :
    entryAt s f stream = none ↔ ∀ e ∈ s.filter.entries, ¬ (e.feed = f ∧ e.stream = stream) := by
  unfold entryAt
  rw [List.find?_eq_none]
  refine forall₂_congr fun e _ => not_congr ?_
  rw [FilterEntry.isAt, Bool.and_eq_true, decide_eq_true_eq, decide_eq_true_eq]

/-- A set of pairs on streams that are free is installed where the table has room. -/
theorem requestEntries_installs {f : Feed} {ps : List (Nat × Consumer)} {s : State}
    (apart : ps.Pairwise (fun p q => p.1 ≠ q.1))
    (free : ∀ p ∈ ps, ∀ e ∈ s.filter.entries, ¬ (e.feed = f ∧ e.stream = p.1))
    (room : ps.length ≤ 24 - s.filter.entries.length) :
    requestEntries f ps s = (.installed, { s with filter := { s.filter with
      entries := s.filter.entries ++ ps.map (fun p => newEntry f p.1 p.2 .acquisition none) } }) := by
  have absent : ps.any (fun p => (entryAt s f p.1).isSome) = false := by
    refine List.any_eq_false.2 fun p hp => ?_
    rw [entryAt_eq_none.2 (free p hp)]
    exact nofun
  have answer : filterAnswer f ps s = .installed := by
    unfold filterAnswer
    rw [absent, if_neg nofun]
    exact if_neg (Nat.not_lt.2 room)
  have added : addEntries (ps.map (fun p => newEntry f p.1 p.2 .acquisition none)) s = { s with filter := { s.filter with
      entries := s.filter.entries ++ ps.map (fun p => newEntry f p.1 p.2 .acquisition none) } } := by
    by_cases empty : ps = []
    · simp [empty, addEntries]
    · have some_ : 0 < ps.length := List.length_pos_iff.2 empty
      refine addEntries_new _ s (by rw [List.length_map]; omega) (fun e he held => ?_) ?_
      · obtain ⟨p, hp, rfl⟩ := List.mem_map.1 he
        obtain ⟨x, hx, same⟩ := List.mem_map.1 held
        exact free p hp x hx ⟨congrArg Prod.fst same, congrArg Prod.snd same⟩
      · rw [List.map_map]
        exact List.pairwise_map.2 (apart.imp fun ne same => ne (congrArg Prod.snd same))
  unfold requestEntries
  dsimp only
  rw [distinctPairs_of_apart apart, answer]
  exact congrArg _ added

/-- It is refused where a stream is held or the table has no room. -/
theorem requestEntries_refuses {f : Feed} {ps : List (Nat × Consumer)} {s : State}
    (apart : ps.Pairwise (fun p q => p.1 ≠ q.1))
    (taken : ¬ ((∀ p ∈ ps, ∀ e ∈ s.filter.entries, ¬ (e.feed = f ∧ e.stream = p.1)) ∧
      ps.length ≤ 24 - s.filter.entries.length)) :
    ∃ refusal, refusal ≠ .installed ∧ requestEntries f ps s = (refusal, s) := by
  have refused : filterAnswer f ps s ≠ .installed := by
    unfold filterAnswer
    split_ifs with held full
    · nofun
    · nofun
    · refine absurd ⟨fun p hp => entryAt_eq_none.1 ?_, Nat.not_lt.1 full⟩ taken
      have absent := List.any_eq_false.1 (Bool.eq_false_of_not_eq_true held) p hp
      simpa using absent
  refine ⟨filterAnswer f ps s, refused, ?_⟩
  unfold requestEntries
  dsimp only
  rw [distinctPairs_of_apart apart]
  cases answer : filterAnswer f ps s with
  | installed => exact absurd answer refused
  | duplicate => rfl
  | tableFull => rfl

/-! ## Components installed (R100) -/

/-- The entries that stand once the components that do not stand in the new list are dropped, in the words of the
statements. -/
def keptEntries (f : Feed) (new : List Component) (s : State) : List FilterEntry :=
  s.filter.entries.filter (fun e => ¬ (e.feed = f ∧ e.owner = .acquisition ∧
    ∃ c ∈ (s.acqOf f).components, c.stream = e.stream ∧
      ∀ d ∈ new, ¬ (d.stream = c.stream ∧ d.kind.consumer = c.kind.consumer)))

/-- An entry of the acquisition stands for a component. -/
def heldComponent (f : Feed) (entries : List FilterEntry) (c : Component) : Prop :=
  ∃ e, entries.find? (fun e => e.feed = f && e.stream = c.stream) = some e ∧ e.owner = .acquisition ∧
    e.consumer = c.kind.consumer

theorem entries_dropComponents (f : Feed) (new : List Component) (s : State) :
    (dropComponents f new s).filter.entries = keptEntries f new s := by
  unfold keptEntries
  refine List.filter_congr fun e _ => ?_
  rw [Bool.eq_iff_iff, Bool.not_eq_true', ← Bool.not_eq_true, decide_eq_true_eq, Bool.and_eq_true, Bool.and_eq_true,
    decide_eq_true_eq, decide_eq_true_eq, List.any_filter, List.any_eq_true]
  refine not_congr (and_congr_right fun _ => and_congr_right fun _ => exists_congr fun c => and_congr_right fun _ => ?_)
  have stands : (new.map Component.pair).contains c.pair = true ↔
      ∃ d ∈ new, d.stream = c.stream ∧ d.kind.consumer = c.kind.consumer := by
    rw [List.contains_iff_mem, List.mem_map]
    refine exists_congr fun d => and_congr_right fun _ => ?_
    exact Prod.ext_iff
  rw [Bool.and_eq_true, decide_eq_true_eq, Bool.not_eq_true', ← Bool.not_eq_true, stands, and_comm]
  simp only [not_exists, not_and]

theorem holdsPair_iff (f : Feed) (c : Component) (s : State) :
    holdsPair s f c.pair = true ↔ heldComponent f s.filter.entries c := by
  unfold holdsPair heldComponent
  rw [Option.any_eq_true]
  refine exists_congr fun e => and_congr_right fun _ => ?_
  rw [Bool.and_eq_true, decide_eq_true_eq, decide_eq_true_eq]
  rfl

/-- A part of a list without repetition is told by its members. -/
theorem eq_filter_of_sublist {α : Type} {xs ys : List α} {p : α → Bool} (sub : xs.Sublist ys) (nodup : ys.Nodup)
    (mem : ∀ x, x ∈ xs ↔ x ∈ ys ∧ p x = true) : xs = ys.filter p := by
  have part : xs.Sublist (ys.filter p) := by
    have kept := sub.filter p
    rwa [List.filter_eq_self.2 fun x hx => ((mem x).1 hx).2] at kept
  refine part.eq_of_length_le ?_
  exact ((nodup.filter p).subperm fun x hx => (mem x).2 (List.mem_filter.1 hx)).length_le

/-- The pairs that R100 asks for: those of the components that no entry stands for. -/
theorem wanted_eq {f : Feed} {new added : List Component} {s : State}
    (apart : new.Pairwise (fun c d => c.stream ≠ d.stream)) (sub : added.Sublist new)
    (mem : ∀ c, c ∈ added ↔ c ∈ new ∧ ¬ heldComponent f (keptEntries f new s) c) :
    (new.map Component.pair).filter (fun p => !holdsPair (dropComponents f new s) f p) = added.map Component.pair := by
  have nodup : new.Nodup := apart.imp fun ne same => ne (congrArg Component.stream same)
  rw [List.filter_map, eq_filter_of_sublist (p := fun c => !holdsPair (dropComponents f new s) f c.pair) sub nodup]
  · rfl
  · intro c
    rw [mem, Bool.not_eq_true', ← Bool.not_eq_true, holdsPair_iff, entries_dropComponents]

/-- The entries that are added for components. -/
def componentEntries (f : Feed) (added : List Component) : List FilterEntry :=
  added.map (fun c => newEntry f c.stream c.kind.consumer .acquisition none)

/-- The state in which the new components stand installed (R100). -/
def installed (f : Feed) (new added : List Component) (version : Nat) (s : State) : State :=
  let s1 := dropComponents f new s
  takeComponents f new version { s1 with filter := { s1.filter with
    entries := keptEntries f new s ++ componentEntries f added } }

/-- The streams of the added components can be had. -/
def StreamsFree (f : Feed) (kept : List FilterEntry) (added : List Component) : Prop :=
  (∀ c ∈ added, ∀ e ∈ kept, ¬ (e.feed = f ∧ e.stream = c.stream)) ∧ added.length ≤ 24 - kept.length

theorem installComponents_spec {f : Feed} {new added : List Component} {s : State}
    (apart : new.Pairwise (fun c d => c.stream ≠ d.stream)) (sub : added.Sublist new)
    (mem : ∀ c, c ∈ added ↔ c ∈ new ∧ ¬ heldComponent f (keptEntries f new s) c) (version : Nat) :
    (StreamsFree f (keptEntries f new s) added →
      installComponents f new version s = (true, installed f new added version s)) ∧
    (¬ StreamsFree f (keptEntries f new s) added → ∃ refusal,
      installComponents f new version s = (false, fail f .tableFull refusal (dropComponents f new s))) := by
  have entries := entries_dropComponents f new s
  have wanted := wanted_eq apart sub mem
  have apartPairs : (added.map Component.pair).Pairwise (fun p q => p.1 ≠ q.1) := List.pairwise_map.2 (apart.sublist sub)
  have free : ((∀ p ∈ added.map Component.pair, ∀ e ∈ (dropComponents f new s).filter.entries,
        ¬ (e.feed = f ∧ e.stream = p.1)) ∧
      (added.map Component.pair).length ≤ 24 - (dropComponents f new s).filter.entries.length) ↔
      StreamsFree f (keptEntries f new s) added := by
    rw [entries, List.length_map]
    exact and_congr_left fun _ => List.forall_mem_map
  refine ⟨fun h => ?_, fun h => ?_⟩
  · obtain ⟨streams, room⟩ := free.2 h
    unfold installComponents
    dsimp only
    rw [wanted, requestEntries_installs apartPairs streams room, List.map_map, entries]
    rfl
  · obtain ⟨refusal, refused, run⟩ := requestEntries_refuses apartPairs (fun k => h (free.1 k))
    refine ⟨refusal, ?_⟩
    unfold installComponents
    dsimp only
    rw [wanted, run]
    cases refusal with
    | installed => exact absurd rfl refused
    | duplicate => rfl
    | tableFull => rfl

/-! ## What dropping and installing leave of the acquisition -/

theorem endsLike_dropComponents (f : Feed) (new : List Component) (s : State) :
    EndsLike f s (dropComponents f new s) := by
  refine ⟨rfl, rfl, rfl, rfl, rfl, rfl, ?_⟩
  rw [entries_dropComponents]
  unfold withoutAcq keptEntries
  rw [List.filter_filter]
  refine List.filter_congr fun e _ => ?_
  rw [← Bool.decide_and]
  exact decide_eq_decide.2 ⟨fun h => h.1, fun h => ⟨h, fun k => h ⟨k.1, k.2.1⟩⟩⟩

theorem withoutAcq_componentEntries (f : Feed) (added : List Component) :
    withoutAcq f (componentEntries f added) = [] := by
  unfold withoutAcq componentEntries
  refine List.filter_eq_nil_iff.2 fun e he => ?_
  obtain ⟨c, _, rfl⟩ := List.mem_map.1 he
  simp [newEntry]

/-- What stands once the components are installed (R100). -/
theorem installed_spec (f : Feed) (new added : List Component) (version : Nat) (s : State) :
    let u := installed f new added version s
    let r := s.acqOf f
    let k := s.slotOf f
    EndsLike f s u ∧ u.filter.entries = keptEntries f new s ++ componentEntries f added ∧
    u.acqOf f = { r with components := new, version := some version, scrambled := (keyStreamOf new).isSome } ∧
    u.slotOf f = { if keyStreamOf new = keyStreamOf r.components then k else State.clearSlot k.misses with
      mapStream := r.target.map ChannelEntry.mapStream, keyStream := keyStreamOf new } ∧
    u.acq.timing = s.acq.timing := by
  intro u r k
  let v : State := { dropComponents f new s with filter := { (dropComponents f new s).filter with
    entries := keptEntries f new s ++ componentEntries f added } }
  let w := v.changeAcq f (fun r =>
    { r with components := new, version := some version, scrambled := (keyStreamOf new).isSome })
  have run : u = giveStreams f new (if keyStreamOf new = keyStreamOf r.components then w else clearKeySlot f w) := rfl
  have recordW : w.acqOf f =
      { r with components := new, version := some version, scrambled := (keyStreamOf new).isSome } :=
    acqOf_changeAcq_same ..
  have slotW : w.slotOf f = k := by cases f <;> rfl
  have through (x : State) : (giveStreams f new x).acqOf f = x.acqOf f ∧
      (giveStreams f new x).filter = x.filter ∧ (giveStreams f new x).acq.timing = x.acq.timing ∧
      freeEntries (giveStreams f new x) = freeEntries x ∧
      (giveStreams f new x).slotOf f = { x.slotOf f with
        mapStream := (x.acqOf f).target.map ChannelEntry.mapStream, keyStream := keyStreamOf new } :=
    ⟨by cases f <;> rfl, rfl, rfl, rfl, slotOf_setSlot_same ..⟩
  have cleared : (clearKeySlot f w).acqOf f = w.acqOf f ∧ (clearKeySlot f w).filter = w.filter ∧
      (clearKeySlot f w).acq.timing = w.acq.timing ∧ freeEntries (clearKeySlot f w) = freeEntries w ∧
      (clearKeySlot f w).slotOf f = State.clearSlot k.misses :=
    ⟨by cases f <;> rfl, rfl, rfl, rfl, (slotOf_setSlot_same ..).trans (by rw [slotW])⟩
  have all : u.acqOf f = w.acqOf f ∧ u.filter = v.filter ∧ u.acq.timing = s.acq.timing ∧
      freeEntries u = freeEntries s ∧ u.slotOf f =
        { if keyStreamOf new = keyStreamOf r.components then k else State.clearSlot k.misses with
          mapStream := r.target.map ChannelEntry.mapStream, keyStream := keyStreamOf new } := by
    rw [run]
    by_cases same : keyStreamOf new = keyStreamOf r.components
    · rw [if_pos same, if_pos same]
      obtain ⟨record, filter, timing, free, slot⟩ := through w
      refine ⟨record, filter, timing, free, slot.trans ?_⟩
      rw [slotW, recordW]
    · rw [if_neg same, if_neg same]
      obtain ⟨record, filter, timing, free, slot⟩ := through (clearKeySlot f w)
      obtain ⟨record', filter', timing', free', slot'⟩ := cleared
      refine ⟨record.trans record', filter.trans filter', timing.trans timing', free.trans free', slot.trans ?_⟩
      rw [slot', record', recordW]
  obtain ⟨record, filter, timing, free, slot⟩ := all
  rw [recordW] at record
  refine ⟨⟨?_, ?_, ?_, ?_, free, ?_, ?_⟩, by rw [filter], record, slot, timing⟩
  · rw [record]
  · rw [record]
  · rw [record]
  · rw [record]
  · rw [slot]; show _ = k.misses; split <;> rfl
  · rw [filter]
    show withoutAcq f (keptEntries f new s ++ componentEntries f added) = _
    have drop := (endsLike_dropComponents f new s).entries
    rw [entries_dropComponents] at drop
    rw [← drop]
    unfold withoutAcq
    rw [List.filter_append]
    exact (congrArg _ (withoutAcq_componentEntries f added)).trans (List.append_nil _)

end Sys2Proof.Machine
end

