-- ==== Sys2Proof/Proofs/MapStep.lean ====
section
/-! PROOFS. O12: the step that follows an installed map (R101, R102, R107). -/

namespace Sys2Proof.Machine

set_option Elab.async false

variable {K : Special → Prop}

/-! ## The step that follows an installed map (R101, R102, R107) -/

/-- What the steps after a map keep of it: the components, version, scrambled flag, role and target of the record, the
filter table, and the words and streams of the key slot. -/
structure KeepsMap (f : Feed) (u t : State) : Prop where
  filter : t.filter = u.filter
  record : ∃ state timer pending, t.acqOf f = { u.acqOf f with state, timer, pending }
  slot : ∃ wait, t.slotOf f = { u.slotOf f with wait }

theorem KeepsMap.refl (f : Feed) (u : State) : KeepsMap f u u := ⟨rfl, ⟨_, _, _, rfl⟩, ⟨_, rfl⟩⟩

theorem keepsMap_of_undecided {f : Feed} {u t : State} (h : undecided t = undecided u) : KeepsMap f u t :=
  ⟨filter_of_undecided h, ⟨_, _, _, acqOf_of_undecided h f⟩, ⟨_, slotOf_of_undecided h f⟩⟩

theorem slotOf_changeAcq (f : Feed) (h : AcqRecord → AcqRecord) (s : State) :
    (s.changeAcq f h).slotOf f = s.slotOf f := by cases f <;> rfl

theorem filter_decisionStep (f : Feed) (s : State) : (decisionStep f s).filter = s.filter := by
  unfold decisionStep
  dsimp only
  split
  · exact (filter_answerPending ..).trans (filter_of_undecided (s := s.changeAcq f _) (undecided_tellDecision ..))
  · exact filter_answerPending ..

theorem keepsMap_decisionStep (f : Feed) (u : State) : KeepsMap f u (decisionStep f u) := by
  refine ⟨filter_decisionStep f u, ?_, ⟨_, slotOf_decisionStep f f u⟩⟩
  have record (state : AcqState) : (u.changeAcq f (fun r => { r with state, timer := none })).acqOf f
      = { u.acqOf f with state, timer := none } := acqOf_changeAcq_same ..
  unfold decisionStep
  dsimp only
  split
  · obtain ⟨p, _, after⟩ := acqOf_answerPending f .done _
      (tellDecision f (u.changeAcq f (fun r => { r with state := .presenting, timer := none })))
    rw [acqOf_of_undecided (undecided_tellDecision ..), record] at after
    exact ⟨_, _, p, after⟩
  · obtain ⟨p, _, after⟩ := acqOf_answerPending f .done _
      (u.changeAcq f (fun r => { r with state := .ready, timer := none }))
    rw [record] at after
    exact ⟨_, _, p, after⟩

/-- The key wait once KEYING waits for a word (R102, R107). -/
def waitStarted (key : Nat) (k : KeySlot) : KeyWait := if k.wait = .stopped then .running (key * 128) else k.wait

/-- The record of f waits in KEYING. -/
def Waiting (f : Feed) (s t : State) : Prop :=
  (t.acqOf f).state = .keying ∧ (t.acqOf f).timer = none ∧ (t.acqOf f).pending = (s.acqOf f).pending ∧
  (t.slotOf f).wait = waitStarted s.acq.timing.key (s.slotOf f)

/-- KEYING is entered, and passed where a word is held or the wait has run out (R102). -/
def AtKeying (f : Feed) (s t : State) : Prop :=
  let k := s.slotOf f
  let done := k.wordA.isSome = true ∨ k.wordB.isSome = true ∨ k.wait = .expired
  (done → passesDecision f s t ∧ (t.slotOf f).wait = k.wait) ∧ (¬ done → Waiting f s t)

/-- The key wait of f as KEYING leaves it (R102, R107). -/
def startedWait (f : Feed) (u : State) : State :=
  u.setSlot f { u.slotOf f with wait := waitStarted u.acq.timing.key (u.slotOf f) }

theorem startedWait_eq (f : Feed) (u : State) :
    (if (u.slotOf f).wait = .stopped then startKeyWait f u else u) = startedWait f u := by
  unfold startedWait waitStarted
  split
  · rfl
  · exact (setSlot_slotOf f u).symm

theorem enterKeying_eq (f : Feed) (u : State) :
    let v := u.changeAcq f (fun r => { r with state := .keying, timer := none })
    enterKeying f u = if (u.slotOf f).wordA.isSome = true ∨ (u.slotOf f).wordB.isSome = true ∨
      (u.slotOf f).wait = .expired then decisionStep f v else startedWait f v := by
  intro v
  have slot : v.slotOf f = u.slotOf f := slotOf_changeAcq ..
  have started := startedWait_eq f v
  rw [slot] at started
  rw [← started]
  refine if_congr ?_ rfl rfl
  rw [Bool.or_eq_true, KeySlot.hasWord, Bool.or_eq_true, decide_eq_true_eq, or_assoc]

theorem startedWait_spec (f : Feed) (u : State) :
    (startedWait f u).filter = u.filter ∧ (startedWait f u).acqOf f = u.acqOf f ∧
    (startedWait f u).slotOf f = { u.slotOf f with wait := waitStarted u.acq.timing.key (u.slotOf f) } :=
  ⟨rfl, by cases f <;> rfl, slotOf_setSlot_same ..⟩

theorem keepsMap_startedWait (f : Feed) (u : State) : KeepsMap f u (startedWait f u) := by
  obtain ⟨filter, record, slot⟩ := startedWait_spec f u
  exact ⟨filter, ⟨_, _, _, record⟩, ⟨_, slot⟩⟩

theorem KeepsMap.after_step {f : Feed} {u t : State} {state : AcqState} {timer : Option (StepTimer × Ticks)}
    (h : KeepsMap f (u.changeAcq f (fun r => { r with state, timer })) t) : KeepsMap f u t := by
  obtain ⟨filter, ⟨_, _, _, record⟩, ⟨_, slot⟩⟩ := h
  rw [acqOf_changeAcq_same] at record
  rw [slotOf_changeAcq] at slot
  exact ⟨filter, ⟨_, _, _, record⟩, ⟨_, slot⟩⟩

theorem keepsMap_enterKeying (f : Feed) (u : State) : KeepsMap f u (enterKeying f u) := by
  rw [enterKeying_eq]
  split
  · exact (keepsMap_decisionStep f _).after_step
  · exact (keepsMap_startedWait f _).after_step

/-- KEYING is entered over the state that holds the map, whose key slot holds the words and the wait of s. -/
theorem atKeying_enterKeying {f : Feed} {s u : State} (same : EndsLike f s u)
    (timing : u.acq.timing = s.acq.timing) (wordA : (u.slotOf f).wordA = (s.slotOf f).wordA)
    (wordB : (u.slotOf f).wordB = (s.slotOf f).wordB) (wait : (u.slotOf f).wait = (s.slotOf f).wait) :
    AtKeying f s (enterKeying f u) := by
  let v := u.changeAcq f (fun r => { r with state := .keying, timer := none })
  have slot : v.slotOf f = u.slotOf f := slotOf_changeAcq ..
  have record : v.acqOf f = { u.acqOf f with state := .keying, timer := none } := acqOf_changeAcq_same ..
  have like : EndsLike f s v := by
    obtain ⟨role, target, attempts, pending, free, misses, entries⟩ := same
    refine ⟨?_, ?_, ?_, ?_, free, by rw [slot, misses], entries⟩ <;> rw [record] <;> assumption
  have run := enterKeying_eq f u
  dsimp only at run
  rw [wordA, wordB, wait] at run
  refine ⟨fun done => ?_, fun undone => ?_⟩
  · rw [run, if_pos done]
    exact ⟨passesDecision_decisionStep like, by rw [slotOf_decisionStep, slot, wait]⟩
  · rw [run, if_neg undone]
    obtain ⟨_, acq, waits⟩ := startedWait_spec f v
    refine ⟨?_, ?_, ?_, ?_⟩
    · rw [acq, record]
    · rw [acq, record]
    · rw [acq]; exact like.pending
    · rw [waits, slot, waitStarted, wait]
      unfold waitStarted
      rw [show v.acq.timing = s.acq.timing from timing]

/-- KEYING is entered with an empty key slot (R102). -/
theorem enterKeying_cleared {f : Feed} {s u : State} (same : EndsLike f s u)
    (timing : u.acq.timing = s.acq.timing) (wordA : (u.slotOf f).wordA = none) (wordB : (u.slotOf f).wordB = none)
    (wait : (u.slotOf f).wait = .stopped) :
    let t := enterKeying f u
    (t.acqOf f).state = .keying ∧ (t.slotOf f).wait = .running (s.acq.timing.key * 128) ∧
    (t.acqOf f).pending = (s.acqOf f).pending := by
  intro t
  let v := u.changeAcq f (fun r => { r with state := .keying, timer := none })
  have slot : v.slotOf f = u.slotOf f := slotOf_changeAcq ..
  have record : v.acqOf f = { u.acqOf f with state := .keying, timer := none } := acqOf_changeAcq_same ..
  have run : t = startedWait f v := (enterKeying_eq f u).trans (if_neg (by simp [wordA, wordB, wait]))
  obtain ⟨_, acq, waits⟩ := startedWait_spec f v
  rw [run]
  refine ⟨?_, ?_, ?_⟩
  · rw [acq, record]
  · rw [waits, slot, waitStarted, if_pos wait, show v.acq.timing = s.acq.timing from timing]
  · rw [acq, record]; exact same.pending

theorem keepsMap_mapStands (f : Feed) (u : State) : KeepsMap f u (mapStands f u) := by
  unfold mapStands
  split
  · exact keepsMap_enterKeying f u
  · exact keepsMap_decisionStep f u

theorem keepsMap_afterNewVersion (f : Feed) (state : AcqState) (u : State) : KeepsMap f u (afterNewVersion f state u) := by
  unfold afterNewVersion
  split
  · exact keepsMap_of_undecided (undecided_trigger u)
  · split
    · rw [startedWait_eq]
      exact keepsMap_startedWait f u
    · exact keepsMap_decisionStep f u
  · exact .refl f u

end Sys2Proof.Machine
end

