-- ==== Sys2Proof/Proofs/MapSection.lean ====
section
/-! PROOFS. O12: a PROGRAMME MAP section as a whole (R99 to R101, R107). -/

namespace Sys2Proof.Machine

set_option Elab.async false

variable {K : Special → Prop}

/-! ## A PROGRAMME MAP section as a whole (R99 to R101, R107) -/

theorem mapMatches_iff (r : AcqRecord) (key : Nat) : mapMatches r key = true ↔
    (r.state = .mapping ∨ r.state = .keying ∨ r.state = .presenting ∨ r.state = .ready) ∧
      ∃ e, r.target = some e ∧ e.mapStream = key := by
  unfold mapMatches
  rw [Bool.and_eq_true, Option.any_eq_true]
  refine and_congr ?_ (exists_congr fun e => and_congr_right fun _ => decide_eq_true_iff)
  cases r.state <;> simp

/-- A map taken (R101, R107). -/
def mapTaken (f : Feed) (new : List Component) (version : Nat) (s : State) : State :=
  if (s.acqOf f).state = .mapping then mapInMapping f new version s else newMapVersion f new version s

theorem programmeMapSection_none {key : Nat} {body : Bytes} (bad : programmeMap key body = none) (f : Feed)
    (version : Nat) (s : State) : programmeMapSection f version key body s =
      { s with acq := { s.acq with malformedMaps := s.acq.malformedMaps.modify f bump } } := by
  unfold programmeMapSection
  rw [bad]

theorem programmeMapSection_some {key : Nat} {body : Bytes} {new : List Component}
    (good : programmeMap key body = some new) (f : Feed) (version : Nat) (s : State) :
    programmeMapSection f version key body s = if mapMatches (s.acqOf f) key then mapTaken f new version s
      else { s with acq := { s.acq with unmatchedMaps := s.acq.unmatchedMaps.modify f bump } } := by
  unfold programmeMapSection
  rw [good]
  rfl

theorem mapTaken_frame (f : Feed) (new : List Component) (version : Nat) (s : State) :
    unacquired (mapTaken f new version s) = unacquired s ∧ agreeOnFeed (otherFeed f) s (mapTaken f new version s) := by
  unfold mapTaken
  split
  · exact ⟨unacquired_mapInMapping .., agreeOnFeed_iff.2 (ofFeed_mapInMapping (otherFeed_ne f) ..)⟩
  · exact ⟨unacquired_newMapVersion .., agreeOnFeed_iff.2 (ofFeed_newMapVersion (otherFeed_ne f) ..)⟩

/-- The version that stands is not taken again (R101, R107). -/
theorem mapTaken_old {f : Feed} {version : Nat} {s : State} (same : (s.acqOf f).version = some version)
    (listed : (s.acqOf f).state = .mapping → (s.acqOf f).components ≠ []) (new : List Component) :
    mapTaken f new version s = if (s.acqOf f).state = .mapping then mapStands f s else s := by
  unfold mapTaken
  split
  · next mapping => exact if_neg (by simp [same, listed mapping])
  · exact if_pos same

/-- Any other version is installed, or the acquisition has failed (R100). -/
theorem mapTaken_new {f : Feed} {version : Nat} {s : State}
    (isNew : (s.acqOf f).version ≠ some version ∨ ((s.acqOf f).state = .mapping ∧ (s.acqOf f).components = []))
    (new : List Component) (success : Bool) (u : State) (run : installComponents f new version s = (success, u)) :
    mapTaken f new version s = if success then
      if (s.acqOf f).state = .mapping then mapStands f u else afterNewVersion f (s.acqOf f).state u else u := by
  unfold mapTaken
  by_cases mapping : (s.acqOf f).state = .mapping
  · rw [if_pos mapping, if_pos mapping]
    have goes : (decide ((s.acqOf f).components = []) || decide ((s.acqOf f).version ≠ some version)) = true := by
      rcases isNew with h | ⟨_, h⟩ <;> simp [h]
    unfold mapInMapping
    rw [if_pos goes, run]
    cases success <;> rfl
  · rw [if_neg mapping, if_neg mapping]
    have other : ¬ (s.acqOf f).version = some version := isNew.resolve_right fun h => mapping h.1
    unfold newMapVersion
    rw [if_neg other, run]
    cases success <;> rfl

/-- The step taken once the new components stand. -/
def nextStep (f : Feed) (state : AcqState) (u : State) : State :=
  if state = .mapping then mapStands f u else afterNewVersion f state u

theorem keepsMap_nextStep (f : Feed) (state : AcqState) (u : State) : KeepsMap f u (nextStep f state u) := by
  unfold nextStep
  split
  · exact keepsMap_mapStands f u
  · exact keepsMap_afterNewVersion f state u

theorem nextStep_stays {f : Feed} {state : AcqState} {u : State} (stands : (u.acqOf f).state = state)
    (shown : state = .presenting ∨ state = .ready) : ((nextStep f state u).acqOf f).state = state := by
  rcases shown with rfl | rfl
  · exact (congrArg AcqRecord.state (acqOf_of_undecided (undecided_trigger u) f)).trans stands
  · exact stands

/-- An unscrambled programme passes its decision step (R101, R107). -/
theorem nextStep_clear {f : Feed} {s u : State} {state : AcqState} (same : EndsLike f s u)
    (clear : (u.acqOf f).scrambled = false) (before : state = .mapping ∨ state = .keying) :
    passesDecision f s (nextStep f state u) := by
  have not_scrambled : ¬ (u.acqOf f).scrambled = true := by rw [clear]; exact nofun
  have run : nextStep f state u = decisionStep f u := by
    rcases before with rfl | rfl <;> exact if_neg not_scrambled
  rw [run]
  exact passesDecision_decisionStep same

theorem nextStep_mapping {f : Feed} {u : State} (scrambled : (u.acqOf f).scrambled = true) :
    nextStep f .mapping u = enterKeying f u := if_pos scrambled

theorem nextStep_keying {f : Feed} {u : State} (scrambled : (u.acqOf f).scrambled = true) :
    nextStep f .keying u = startedWait f u := (if_pos scrambled).trans (startedWait_eq f u)

/-- In KEYING a scrambled programme goes on waiting, with the wait started where it was stopped (R107). -/
theorem nextStep_keying_spec {f : Feed} {s u : State} (scrambled : (u.acqOf f).scrambled = true)
    (state : (u.acqOf f).state = .keying) (pending : (u.acqOf f).pending = (s.acqOf f).pending)
    (timing : u.acq.timing = s.acq.timing) :
    let t := nextStep f .keying u
    (t.acqOf f).state = .keying ∧ (t.acqOf f).pending = (s.acqOf f).pending ∧
    (t.slotOf f).wait = waitStarted s.acq.timing.key (u.slotOf f) := by
  intro t
  obtain ⟨_, record, slot⟩ := startedWait_spec f u
  have run : t = startedWait f u := nextStep_keying scrambled
  rw [run]
  exact ⟨by rw [record, state], by rw [record, pending], by rw [slot, timing]⟩

/-- Where the components could not be installed the acquisition has FAILED (R100, R104). -/
theorem failedAs_dropped (f : Feed) (new : List Component) (refusal : FilterAnswer) (s : State) :
    failedAs f .tableFull s (fail f .tableFull refusal (dropComponents f new s)) :=
  failedAs_fail (endsLike_dropComponents f new s) .tableFull refusal

/-- What the section of an installed new version leaves, in the words of the statements. -/
theorem installed_nextStep (f : Feed) (new added : List Component) (version key : Nat) (s : State)
    (target : ∃ e, (s.acqOf f).target = some e ∧ e.mapStream = key) :
    let r := s.acqOf f
    let k := s.slotOf f
    let t := nextStep f r.state (installed f new added version s)
    t.filter.entries = keptEntries f new s ++ componentEntries f added ∧
      (t.acqOf f).components = new ∧ (t.acqOf f).version = some version ∧
      (t.acqOf f).scrambled = (keyStreamOf new).isSome ∧ (t.acqOf f).role = r.role ∧ (t.acqOf f).target = r.target ∧
      (t.slotOf f).mapStream = some key ∧ (t.slotOf f).keyStream = keyStreamOf new ∧
      (keyStreamOf new = keyStreamOf r.components → (t.slotOf f).wordA = k.wordA ∧ (t.slotOf f).wordB = k.wordB ∧
        (t.slotOf f).lastPhase = k.lastPhase) ∧
      (keyStreamOf new ≠ keyStreamOf r.components → (t.slotOf f).wordA = none ∧ (t.slotOf f).wordB = none ∧
        (t.slotOf f).lastPhase = none) ∧
      (r.state = .presenting → (t.acqOf f).state = .presenting) ∧
      (r.state = .ready → (t.acqOf f).state = .ready) ∧
      (r.state = .mapping ∨ r.state = .keying → keyStreamOf new = none → passesDecision f s t) ∧
      (keyStreamOf new ≠ none → keyStreamOf new = keyStreamOf r.components →
        (r.state = .mapping → AtKeying f s t) ∧
        (r.state = .keying → (t.acqOf f).state = .keying ∧ (t.acqOf f).pending = r.pending ∧
          (t.slotOf f).wait = waitStarted s.acq.timing.key k)) ∧
      (r.state = .mapping ∨ r.state = .keying → keyStreamOf new ≠ none → keyStreamOf new ≠ keyStreamOf r.components →
        (t.acqOf f).state = .keying ∧ (t.slotOf f).wait = .running (s.acq.timing.key * 128) ∧
        (t.acqOf f).pending = r.pending) := by
  intro r k t
  obtain ⟨like, entries, record, slot, timing⟩ := installed_spec f new added version s
  have keeps : KeepsMap f (installed f new added version s) t := keepsMap_nextStep ..
  obtain ⟨filter, ⟨state, timer, pending, recordT⟩, ⟨wait, slotT⟩⟩ := keeps
  have stays : ((installed f new added version s).acqOf f).state = r.state := by rw [record]
  have clear (none_ : keyStreamOf new = none) : ((installed f new added version s).acqOf f).scrambled = false := by
    rw [record, none_]; rfl
  have scrambled (some_ : keyStreamOf new ≠ none) : ((installed f new added version s).acqOf f).scrambled = true := by
    rw [record]; exact Option.isSome_iff_ne_none.2 some_
  have sameSlot (same : keyStreamOf new = keyStreamOf r.components) : (installed f new added version s).slotOf f =
      { k with mapStream := r.target.map ChannelEntry.mapStream, keyStream := keyStreamOf new } := by
    rw [slot, if_pos same]
  have newSlot (other : keyStreamOf new ≠ keyStreamOf r.components) : (installed f new added version s).slotOf f =
      { State.clearSlot k.misses with
        mapStream := r.target.map ChannelEntry.mapStream, keyStream := keyStreamOf new } := by
    rw [slot, if_neg other]
  refine ⟨by rw [filter, entries], by rw [recordT, record], by rw [recordT, record], by rw [recordT, record],
    by rw [recordT, record], by rw [recordT, record], ?_, by rw [slotT, slot], fun same => ?_, fun other => ?_,
    fun is => ?_, fun is => ?_, fun before none_ => nextStep_clear like (clear none_) before,
    fun some_ same => ⟨fun is => ?_, fun is => ?_⟩, fun before some_ other => ?_⟩
  · obtain ⟨e, at_, stream⟩ := target
    rw [slotT, slot]
    show (s.acqOf f).target.map ChannelEntry.mapStream = _
    rw [at_, ← stream]
    rfl
  · rw [slotT, sameSlot same]
    exact ⟨rfl, rfl, rfl⟩
  · rw [slotT, newSlot other]
    exact ⟨rfl, rfl, rfl⟩
  · exact (nextStep_stays stays (.inl is)).trans is
  · exact (nextStep_stays stays (.inr is)).trans is
  · have run : t = enterKeying f (installed f new added version s) := by
      show nextStep f r.state _ = _
      rw [is, nextStep_mapping (scrambled some_)]
    rw [run]
    exact atKeying_enterKeying like timing (by rw [sameSlot same]) (by rw [sameSlot same]) (by rw [sameSlot same])
  · obtain ⟨keying, awaits, waits⟩ := nextStep_keying_spec (scrambled some_) (stays.trans is) like.pending timing
    rw [show t = nextStep f .keying (installed f new added version s) by rw [← is]]
    exact ⟨keying, awaits, by rw [waits, sameSlot same]; rfl⟩
  · rcases before with is | is
    · have run : t = enterKeying f (installed f new added version s) := by
        show nextStep f r.state _ = _
        rw [is, nextStep_mapping (scrambled some_)]
      rw [run]
      exact enterKeying_cleared like timing (by rw [newSlot other]; rfl) (by rw [newSlot other]; rfl)
        (by rw [newSlot other]; rfl)
    · obtain ⟨keying, awaits, waits⟩ := nextStep_keying_spec (scrambled some_) (stays.trans is) like.pending timing
      rw [show t = nextStep f .keying (installed f new added version s) by rw [← is]]
      exact ⟨keying, by rw [waits, newSlot other]; rfl, awaits⟩

/-- A map that stands already, taken in MAPPING (R101). -/
theorem mapStands_spec (f : Feed) (s : State) :
    let t := mapStands f s
    (t.acqOf f).components = (s.acqOf f).components ∧ t.filter = s.filter ∧
    ((s.acqOf f).scrambled = false → passesDecision f s t) ∧ ((s.acqOf f).scrambled = true → AtKeying f s t) := by
  intro t
  obtain ⟨filter, ⟨_, _, _, record⟩, _⟩ := keepsMap_mapStands f s
  refine ⟨(congrArg AcqRecord.components record).trans rfl, filter, fun clear => ?_, fun scrambled => ?_⟩
  · have run : t = decisionStep f s := if_neg (by rw [clear]; exact nofun)
    rw [run]
    exact passesDecision_decisionStep (.refl f s)
  · have run : t = enterKeying f s := if_pos scrambled
    rw [run]
    exact atKeying_enterKeying (.refl f s) rfl rfl rfl rfl

/-- Settles O12. -/
theorem programmeMapSections : Obligations.ProgrammeMapSections := by
  unfold Obligations.ProgrammeMapSections
  intro f version key body s count kindAt streamAt shape new consumerOf keyOf r k t waiting atKeying awaited isNew kept
    held installs free
  obtain ⟨unshaped, shaped⟩ := programmeMap_spec key body
  have consumer : consumerOf = fun c => c.kind.consumer := by
    funext c
    show (if c.kind = .key then Consumer.sections else Consumer.present) = _
    cases c.kind <;> rfl
  have keptIs : kept = keptEntries f new s :=
    List.filter_congr fun e _ => decide_eq_decide.2 (by simp only [consumer]; rfl)
  have heldIs : held = heldComponent f (keptEntries f new s) := by
    funext c
    show (∃ e, kept.find? _ = some e ∧ e.owner = .acquisition ∧ e.consumer = consumerOf c) = _
    rw [keptIs, consumer]
    rfl
  have freeIs (added : List Component) : free added ↔ StreamsFree f (keptEntries f new s) added := by
    rw [← keptIs]
    exact Iff.rfl
  have takes (good : shape) (matched : awaited) : t = mapTaken f new version s :=
    (programmeMapSection_some (shaped good).1 f version s).trans (if_pos ((mapMatches_iff ..).2 matched))
  refine ⟨fun bad => programmeMapSection_none (unshaped bad) f version s, fun good unmatched => ?_,
    fun good matched => ?_, fun good matched old => ?_, fun added good matched fresh installs_ free_ => ?_,
    fun added good matched fresh installs_ taken => ?_⟩
  · exact (programmeMapSection_some (shaped good).1 f version s).trans
      (if_neg fun h => unmatched ((mapMatches_iff ..).1 h))
  · rw [takes good matched]
    exact mapTaken_frame f new version s
  · have same : (s.acqOf f).version = some version := not_not.1 fun h => old (.inl h)
    have run := (takes good matched).trans
      (mapTaken_old same (fun mapping empty => old (.inr ⟨mapping, empty⟩)) new)
    refine ⟨fun other => run.trans (if_neg other), fun mapping => ?_⟩
    have stands := mapStands_spec f s
    dsimp only at stands
    rw [← run.trans (if_pos mapping)] at stands
    exact stands
  · obtain ⟨mem, sub⟩ := installs_
    rw [heldIs] at mem
    have run := (takes good matched).trans (mapTaken_new fresh new true _
      ((installComponents_spec (shaped good).2 sub mem version).1 ((freeIs added).1 free_)))
    have all := installed_nextStep f new added version key s matched.2
    dsimp only at all
    rw [show nextStep f (s.acqOf f).state (installed f new added version s) = t from run.symm, ← keptIs] at all
    rw [consumer]
    exact all
  · obtain ⟨mem, sub⟩ := installs_
    rw [heldIs] at mem
    obtain ⟨refusal, failed⟩ :=
      (installComponents_spec (shaped good).2 sub mem version).2 fun h => taken ((freeIs added).2 h)
    rw [(takes good matched).trans (mapTaken_new fresh new false _ failed)]
    exact failedAs_dropped f new refusal s

end Sys2Proof.Machine
end

