-- ==== Sys2Proof/Proofs/ConfigureFeedField.lean ====
section
/-! PROOFS. O32: one feed field of CONFIGURE, and feed lock worked out again (R2, R3, R189). -/

namespace Sys2Proof.Machine

set_option Elab.async false

variable {K : Special → Prop}

/-! ## One feed field of CONFIGURE (R189) -/

/-- The values that a CONFIGURE of field i alone marks. -/
def markedAlone (i : Nat) (v : Byte) : List (Option Nat) := (List.replicate 16 none).set i (some (beNat [v]))

/-- The mask byte of the enable of a feed. -/
def enableBit : Feed → Byte
  | .f0 => 1#8
  | .f1 => 4#8

/-- The field of a feed's enable; that of its lock source follows it. -/
def enableField : Feed → Nat
  | .f0 => 0
  | .f1 => 2

theorem configureValues_enable (f : Feed) (v : Byte) :
    configureValues [0#8, enableBit f, v]
      = some (markedAlone (enableField f) v) := by
  cases f <;> simp (decide := true) [configureValues, readFields, fieldSizes, markedAlone, beNat, enableBit, enableField]

theorem configureValues_source (f : Feed) (v : Byte) :
    configureValues [0#8, enableBit f <<< 1, v]
      = some (markedAlone (enableField f + 1) v) := by
  cases f <;> simp (decide := true) [configureValues, readFields, fieldSizes, markedAlone, beNat, enableBit, enableField]

theorem beNat_byte (v : Byte) : beNat [v] = v.toNat := by simp [beNat]

theorem applyFields_enable (f : Feed) (v : Byte) (s : State) :
    applyFields (markedAlone (enableField f) v) s = configureEnable f (decide (v ≠ 0#8)) s := by
  have asked : (beNat [v] != 0) = decide (v ≠ 0#8) := by
    rw [beNat_byte, Bool.eq_iff_iff, bne_iff_ne, decide_eq_true_eq]
    exact not_congr (BitVec.toNat_inj (x := v) (y := 0#8))
  rw [← asked]
  cases f <;> rfl

theorem applyFields_source (f : Feed) (v : Byte) (s : State) :
    applyFields (markedAlone (enableField f + 1) v) s =
      relock f (setSource f (if v = 0#8 then .tuner else if v = 1#8 then .sync else if v = 2#8 then .forced else .off))
        s := by
  have named : lockSourceOf (beNat [v])
      = if v = 0#8 then .tuner else if v = 1#8 then .sync else if v = 2#8 then .forced else .off := by
    have is (n : Byte) : v = n ↔ v.toNat = n.toNat := BitVec.toNat_inj.symm
    rw [beNat_byte]
    simp only [is]
    rcases v.toNat with _ | _ | _ | n <;> rfl
  rw [← named]
  cases f <;> rfl

/-- A feed that is not newly disabled has no answer SUPERSEDED (R189). -/
theorem supersedeDisabled_kept {before : State} {f : Feed} {t : State}
    (kept : (before.frontOf f).enabled = true → (t.frontOf f).enabled = true) : supersedeDisabled before f t = t := by
  unfold supersedeDisabled
  refine if_neg ?_
  rw [Bool.and_eq_true, Bool.not_eq_true']
  exact fun h => absurd (kept h.1) (by rw [h.2]; exact nofun)

theorem supersedeDisabled_disabled {before : State} {f : Feed} {t : State}
    (was : (before.frontOf f).enabled = true) (is : (t.frontOf f).enabled = false) :
    supersedeDisabled before f t = supersede f t :=
  if_pos (by rw [was, is]; rfl)

section
variable {tag : Byte} {params : Bytes} {vs : List (Option Nat)} {s u : State} (taken : takesAtOnce s)
  (marked : configureValues params = some vs) (applied : applyFields vs (reserve s) = u)
include taken marked applied

/-- A CONFIGURE whose values leave no feed newly disabled is answered DONE. -/
theorem exec_configure_kept (kept : ∀ g, (s.frontOf g).enabled = true → (u.frontOf g).enabled = true) :
    exec (.configure tag params) s = .next (answer ⟨tag, 0x03#8, params⟩ .done (configurationBytes u) u) := by
  refine exec_answered taken (act := actConfigure) (c := ⟨tag, 0x03#8, params⟩) ?_
  unfold actConfigure
  rw [marked]
  dsimp only
  rw [applied]
  let a := answer ⟨tag, 0x03#8, params⟩ .done (configurationBytes u) u
  have first : supersedeDisabled (reserve s) .f0 a = a := supersedeDisabled_kept (kept .f0)
  have second : supersedeDisabled (reserve s) .f1 a = a := supersedeDisabled_kept (kept .f1)
  exact (congrArg _ first).trans second

/-- The same over the reserved entry of the command. -/
theorem exec_configure_done {t : State} (is : u = reserve t) (free : t.command.reserved = false)
    (kept : ∀ g, (s.frontOf g).enabled = true → (t.frontOf g).enabled = true) :
    exec (.configure tag params) s = .next (replied tag 0x03#8 .done (configurationBytes t) t) := by
  rw [exec_configure_kept taken marked applied (by rw [is]; exact kept), is, answer_reserve free]
  rfl

/-- A CONFIGURE that disables feed f answers SUPERSEDED after its own reply. -/
theorem exec_configure_disabled {f : Feed} (was : (s.frontOf f).enabled = true) (is : (u.frontOf f).enabled = false)
    (other : u.frontOf (otherFeed f) = s.frontOf (otherFeed f)) :
    exec (.configure tag params) s =
      .next (supersede f (answer ⟨tag, 0x03#8, params⟩ .done (configurationBytes u) u)) := by
  refine exec_answered taken (act := actConfigure) (c := ⟨tag, 0x03#8, params⟩) ?_
  unfold actConfigure
  rw [marked]
  dsimp only
  rw [applied]
  let a := answer ⟨tag, 0x03#8, params⟩ .done (configurationBytes u) u
  have front (g : Feed) : (supersede g a).frontOf f = u.frontOf f :=
    (congrArg (fun x : State => x.frontOf f) (unanswered_answerPending g .superseded _ a) :)
  have front' (g : Feed) : (supersede g a).frontOf (otherFeed f) = u.frontOf (otherFeed f) :=
    (congrArg (fun x : State => x.frontOf (otherFeed f)) (unanswered_answerPending g .superseded _ a) :)
  have disabled : supersedeDisabled (reserve s) f a = supersede f a := supersedeDisabled_disabled was is
  have stays : supersedeDisabled (reserve s) (otherFeed f) a = a :=
    supersedeDisabled_kept fun h => by rw [show a.frontOf (otherFeed f) = _ from other]; exact h
  have stays' : supersedeDisabled (reserve s) (otherFeed f) (supersede f a) = supersede f a :=
    supersedeDisabled_kept fun h => by rw [front', other]; exact h
  cases f with
  | f0 => exact (congrArg _ disabled).trans stays'
  | f1 => exact (congrArg _ stays).trans disabled
end

/-! ## Feed lock worked out again (R2, R3) -/

theorem feedLock_iff (s : State) (f : Feed) : feedLock s f = true ↔ usable s f = true ∧
    (((s.frontOf f).source = .tuner ∧ s.lines.lock.get f = true) ∨ (s.frontOf f).source = .sync ∨
      (s.frontOf f).source = .forced) := by
  unfold feedLock
  rw [Bool.and_eq_true]
  cases (s.frontOf f).source <;> simp

theorem lockIndication_of_feedLock {s : State} {f : Feed} (lock : feedLock s f = true) :
    lockIndication s f = true ↔ ((s.frontOf f).source = .sync → locked s f = true) := by
  unfold feedLock at lock
  unfold lockIndication
  rw [Bool.and_eq_true] at lock
  rw [lock.1]
  cases source : (s.frontOf f).source <;> simp_all

theorem lockIndication_of_no_feedLock {s : State} {f : Feed} (off : feedLock s f = false) :
    lockIndication s f = false := by
  unfold feedLock at off
  unfold lockIndication
  rw [Bool.and_eq_false_iff] at off ⊢
  refine off.imp_right fun h => ?_
  cases source : (s.frontOf f).source <;> simp_all

theorem feedLock_setFront {s : State} {f : Feed} {y : Front} (enabled : y.enabled = (s.frontOf f).enabled)
    (source : y.source = (s.frontOf f).source) : feedLock (s.setFront f y) f = feedLock s f := by
  unfold feedLock usable
  rw [frontOf_setFront_same, enabled, source]
  rfl

/-- The record of f in SYNCING, with its timer. -/
def inSyncing (f : Feed) (s : State) : State :=
  s.setAcq f { s.acqOf f with state := .syncing, timer := some (.sync, s.acq.timing.sync * 128) }

/-- A front in DOWN, its alignment given up. -/
def Front.downed (x : Front) : Front := { x with sync := .down, position := 0, slot := none, held := [] }

/-- Feed lock and lock indication after a change, by what they give and the sync state they meet (R2, R3, R12). -/
theorem relock_spec (f : Feed) (change : State → State) (s : State) :
    let u := change s
    let x := u.frontOf f
    let before := lockIndication s f
    let t := relock f change s
    (feedLock u f = true → x.sync = .down →
      let passes := before = false ∧ x.source ≠ .sync ∧ (u.acqOf f).state = .locking
      (¬ passes → t = u.setFront f x.rehunt) ∧ (passes → t = inSyncing f (u.setFront f x.rehunt))) ∧
    (feedLock u f = true → x.sync ≠ .down →
      let passes := before = false ∧ (x.source = .sync → x.sync.isLocked = true) ∧ (u.acqOf f).state = .locking
      (¬ passes → t = u) ∧ (passes → x.sync.isLocked = false → t = inSyncing f u) ∧
      (passes → x.sync.isLocked = true → t = afterSyncing f (inSyncing f u))) ∧
    (feedLock u f = false → x.sync = .down → t = u) ∧
    (feedLock u f = false → x.sync ≠ .down → x.sync.isLocked = false → t = u.setFront f x.downed) ∧
    (feedLock u f = false → x.sync.isLocked = true →
      t = deliverIndication f before (leftLocked f .lock (u.setFront f x.downed))) := by
  intro u x before t
  have lockedIs : locked u f = x.sync.isLocked := rfl
  -- The record passes exactly when the indication has risen over a LOCKING step.
  have delivers {v : State} (record : v.acqOf f = u.acqOf f) (still : ¬ (before = false ∧ lockIndication v f = true ∧
      (u.acqOf f).state = .locking)) : deliverIndication f before v = v := by
    by_cases locking : (u.acqOf f).state = .locking
    · refine deliverIndication_still ?_
      cases was : before with
      | true => exact .inl rfl
      | false => exact .inr (Bool.eq_false_iff.2 fun high => still ⟨was, high, locking⟩)
    · exact deliverIndication_other (by rw [record]; exact locking)
  have passes_ {v : State} (record : v.acqOf f = u.acqOf f) (was : before = false) (high : lockIndication v f = true)
      (locking : (u.acqOf f).state = .locking) : deliverIndication f before v = enterSyncing f v := by
    rw [was, deliverIndication_risen high, record, if_pos locking]
  refine ⟨fun lock down => ?_, fun lock up => ?_, fun off down => ?_, fun off up unlocked => ?_, fun off held => ?_⟩
  · have hunts : reworkLock f u = u.setFront f x.rehunt := (if_pos lock).trans (if_pos down)
    have run : t = deliverIndication f before (u.setFront f x.rehunt) := congrArg (deliverIndication f before) hunts
    have front : (u.setFront f x.rehunt).frontOf f = x.rehunt := frontOf_setFront_same ..
    have unlocked : locked (u.setFront f x.rehunt) f = false := by unfold locked; rw [front]; rfl
    have lockH : feedLock (u.setFront f x.rehunt) f = true :=
      (feedLock_setFront (y := x.rehunt) rfl rfl).trans lock
    have record : (u.setFront f x.rehunt).acqOf f = u.acqOf f := rfl
    have indication : lockIndication (u.setFront f x.rehunt) f = true ↔ x.source ≠ .sync := by
      rw [lockIndication_of_feedLock lockH, front, unlocked]
      exact ⟨fun h is => absurd (h is) nofun, fun h is => absurd is h⟩
    refine ⟨fun no => ?_, fun ⟨was, other, locking⟩ => ?_⟩
    · rw [run]
      exact delivers record fun ⟨was, high, locking⟩ => no ⟨was, indication.1 high, locking⟩
    · rw [run, passes_ record was (indication.2 other) locking, enterSyncing_eq]
      exact if_neg (by rw [unlocked]; exact nofun)
  · have stays : reworkLock f u = u := (if_pos lock).trans (if_neg up)
    have run : t = deliverIndication f before u := congrArg (deliverIndication f before) stays
    have indication := lockIndication_of_feedLock lock
    refine ⟨fun no => ?_, fun ⟨was, high, locking⟩ unlocked => ?_, fun ⟨was, high, locking⟩ held => ?_⟩
    · rw [run]
      exact delivers rfl fun ⟨was, high, locking⟩ => no ⟨was, indication.1 high, locking⟩
    · rw [run, passes_ rfl was (indication.2 high) locking, enterSyncing_eq]
      exact if_neg (by rw [lockedIs, unlocked]; exact nofun)
    · rw [run, passes_ rfl was (indication.2 high) locking, enterSyncing_eq]
      exact if_pos held
  · have stays : reworkLock f u = u := (if_neg (by rw [off]; exact nofun)).trans (if_pos down)
    have run : t = deliverIndication f before u := congrArg (deliverIndication f before) stays
    rw [run]
    exact deliverIndication_still (.inr (lockIndication_of_no_feedLock off))
  · have falls : reworkLock f u = u.setFront f x.downed :=
      (if_neg (by rw [off]; exact nofun)).trans ((if_neg up).trans
        (if_neg (show ¬ x.sync.isLocked = true by rw [unlocked]; exact nofun)))
    have run : t = deliverIndication f before (u.setFront f x.downed) := congrArg (deliverIndication f before) falls
    rw [run]
    exact deliverIndication_still (.inr (lockIndication_of_no_feedLock ((feedLock_setFront (y := x.downed) rfl rfl).trans off)))
  · have up : x.sync ≠ .down := fun down => by rw [down] at held; exact absurd held nofun
    have falls : reworkLock f u = leftLocked f .lock (u.setFront f x.downed) :=
      (if_neg (by rw [off]; exact nofun)).trans ((if_neg up).trans (if_pos held))
    exact congrArg (deliverIndication f before) falls

end Sys2Proof.Machine
end

