-- ==== Sys2Proof/Proofs/FeedDisabled.lean ====
section
/-! PROOFS. O32: a feed disabled (R15). -/

namespace Sys2Proof.Machine

set_option Elab.async false

variable {K : Special → Prop}

/-! ## A feed disabled (R15) -/

/-- The front of a feed just disabled. -/
def Front.disabled (x : Front) : Front :=
  { x with enabled := false, sync := .down, position := 0, slot := none, held := [], up := false, down := false }

theorem goDown_disable (f : Feed) (s : State) : goDown f .disable s =
    if (s.frontOf f).sync.isLocked then leaveLocked f (s.setFront f (s.frontOf f).downed)
    else s.setFront f (s.frontOf f).downed := rfl

/-- The front of a feed being disabled goes to DOWN, and nothing but it, the filter table and the assemblies moves. -/
theorem goDown_disable_spec (f : Feed) (s : State) :
    let x := s.frontOf f
    let t := goDown f .disable s
    (∃ down, t.frontOf f = { x.downed with down }) ∧ t.filter.entries = unexpected f x.sync.isLocked s.filter.entries ∧
    t.acqOf f = s.acqOf f ∧ t.slotOf f = s.slotOf f ∧ t.output = s.output := by
  intro x t
  have run : t = if x.sync.isLocked then leaveLocked f (s.setFront f x.downed) else s.setFront f x.downed :=
    goDown_disable f s
  have front : (s.setFront f x.downed).frontOf f = x.downed := frontOf_setFront_same ..
  cases left : x.sync.isLocked with
  | true =>
    have leaves : t = leaveLocked f (s.setFront f x.downed) := by rw [run, left]; rfl
    obtain ⟨entries, _, frontL⟩ := leaveLocked_spec f (s.setFront f x.downed)
    rw [leaves]
    exact ⟨⟨true, by rw [frontL, front]⟩, entries, rfl, rfl, rfl⟩
  | false =>
    have stays : t = s.setFront f x.downed := by rw [run, left]; rfl
    rw [stays]
    refine ⟨⟨x.down, front⟩, ?_, rfl, rfl, rfl⟩
    unfold unexpected
    simp

/-- The entries that a feed being disabled loses: its FIXED and ACQUISITION entries (R15). -/
theorem disabled_entries (f : Feed) (left : Bool) (entries : List FilterEntry) :
    (withoutAcq f (unexpected f left entries)).filter (fun e => !(e.feed = f && decide (e.owner = .fixed))) =
      unexpected f left (entries.filter (fun e => ¬ (e.feed = f ∧ e.owner ≠ .tap))) := by
  unfold withoutAcq unexpected
  rw [List.filter_filter, List.filter_map]
  refine congrArg _ (List.filter_congr fun e _ => ?_)
  have feed : (if left = true ∧ e.feed = f then { e with expected := none } else e).feed = e.feed := by split <;> rfl
  have owner : (if left = true ∧ e.feed = f then { e with expected := none } else e).owner = e.owner := by
    split <;> rfl
  simp only [Function.comp, feed, owner]
  by_cases at_ : e.feed = f
  · cases own : e.owner <;> simp [at_]
  · simp [at_]

/-- Steps 1 to 4 of R15 but the answer SUPERSEDED. -/
theorem disableFeed_spec (f : Feed) (s : State) :
    let x := s.frontOf f
    let t := disableFeed f s
    t.frontOf f = x.disabled ∧
    t.filter.entries = unexpected f x.sync.isLocked
      (s.filter.entries.filter (fun e => ¬ (e.feed = f ∧ e.owner ≠ .tap))) ∧
    t.acqOf f = releasedRecord (s.acqOf f) (s.acqOf f).pending ∧
    t.slotOf f = State.clearSlot (s.slotOf f).misses ∧ t.lines.tune.get f = none ∧
    ((s.acqOf f).role = .present → presentationEnded s t) ∧
    unacquired t = unacquired (s.setFront f { x with enabled := false }) ∧
    ofFeed (otherFeed f) t = ofFeed (otherFeed f) s := by
  intro x t
  let off := s.setFront f { x with enabled := false }
  have frontOff : off.frontOf f = { x with enabled := false } := frontOf_setFront_same ..
  let down := goDown f .disable off
  obtain ⟨⟨flag, front⟩, entries, record, slot, output⟩ := goDown_disable_spec f off
  rw [frontOff] at front entries
  let freed := releaseRecord f down
  obtain ⟨recordR, slotR, entriesR, shown, frontR, _, _, frame, other⟩ := releaseRecord_spec f down
  let bare := removeEntries f (fun e => e.owner = .fixed) freed
  have frontB : bare.frontOf f = down.frontOf f := congrArg (fun y => y.get f) frontR
  let quiet := bare.setFront f { bare.frontOf f with up := false, down := false }
  have run : t = { quiet with lines := { quiet.lines with tune := quiet.lines.tune.set f none } } := rfl
  have frontQ : quiet.frontOf f = { bare.frontOf f with up := false, down := false } := frontOf_setFront_same ..
  refine ⟨?_, ?_, ?_, ?_, PerFeed.get_set_same .., fun present => ?_, ?_, ?_⟩
  · exact frontQ.trans (by rw [frontB, front]; rfl)
  · have kept : t.filter.entries = freed.filter.entries.filter (fun e => !(e.feed = f && decide (e.owner = .fixed))) := rfl
    rw [kept, entriesR, entries]
    exact disabled_entries f x.sync.isLocked s.filter.entries
  · exact recordR.trans (by rw [record]; rfl)
  · exact slotR.trans (by rw [slot]; rfl)
  · have ends : presentationEnded down freed := shown (by rw [record]; exact present)
    have context : down.output.context = s.output.context := congrArg Output.context output
    exact ⟨ends.1, fun c is => ends.2 c (context.trans is)⟩
  · have flags : unacquired quiet = unacquired bare := unacquired_setFront rfl
    have line : unacquired t = unacquired quiet := rfl
    have freed_ : unacquired bare = unacquired freed := rfl
    exact line.trans (flags.trans (freed_.trans (frame.trans (unacquired_goDown ..))))
  · have apart := otherFeed_ne f
    have line : ofFeed (otherFeed f) t = ofFeed (otherFeed f) quiet := ofFeed_tune apart none quiet
    rw [line]
    refine (ofFeed_setFront apart ..).trans ((ofFeed_removeEntries apart _ freed).trans (other.trans ?_))
    exact (ofFeed_goDown apart ..).trans (ofFeed_setFront apart ..)

/-- What a configuration reads stays through an answer of a record. -/
theorem configurationBytes_supersede (f : Feed) (s : State) :
    configurationBytes (supersede f s) = configurationBytes s :=
  (congrArg configurationBytes (unanswered_answerPending f .superseded _ s) :)

/-- A CONFIGURE that disables feed f (R15, R189). -/
theorem disables {tag v : Byte} {f : Feed} {s : State} (taken : takesAtOnce s)
    (on : (s.frontOf f).enabled = true) (asked : v = 0#8 ∨ s.feedPresent f = false) :
    ∃ t, exec (.configure tag [0#8, enableBit f, v]) s = .next t ∧
      t.frontOf f = (s.frontOf f).disabled ∧
      t.filter.entries = unexpected f (s.frontOf f).sync.isLocked
        (s.filter.entries.filter (fun e => ¬ (e.feed = f ∧ e.owner ≠ .tap))) ∧
      (∃ pending, t.acqOf f = releasedRecord (s.acqOf f) pending ∧ pending.isAwaiting = false) ∧
      t.slotOf f = State.clearSlot (s.slotOf f).misses ∧ t.lines.tune.get f = none ∧
      ((s.acqOf f).role = .present → presentationEnded s t) ∧ pendingEnded f .superseded s t ∧
      LocalCell.reply tag 0x03#8 .done 0 (configurationBytes t) ∈ t.command.replyQueue ∧
      unacquired t = unacquired (s.setFront f { s.frontOf f with enabled := false }) ∧
      agreeOnFeed (otherFeed f) s t := by
  have free := reserved_of_taken taken
  obtain ⟨front, entries, record, slot, line, shown, frame, other⟩ := disableFeed_spec f (reserve s)
  let d := disableFeed f (reserve s)
  have applied : applyFields (markedAlone (enableField f) v) (reserve s) = d := by
    rw [applyFields_enable]
    have off : enableTaken (reserve s) f (decide (v ≠ 0#8)) = false := by
      rcases asked with rfl | absent
      · rfl
      · exact Bool.and_eq_false_iff.2 (.inr absent)
    unfold configureEnable
    rw [show ((reserve s).frontOf f).enabled = true from on, off]
  have otherFront : d.frontOf (otherFeed f) = s.frontOf (otherFeed f) :=
    congrArg (fun x => x.1) other
  let c : CommandCell := ⟨tag, 0x03#8, [0#8, enableBit f, v]⟩
  let a := answer c .done (configurationBytes d) d
  let t := supersede f a
  have run : exec (.configure tag [0#8, enableBit f, v]) s = .next t :=
    exec_configure_disabled taken (configureValues_enable f v) applied on
      ((congrArg Front.enabled front).trans rfl) otherFront
  have recordA : a.acqOf f = releasedRecord (s.acqOf f) (s.acqOf f).pending := record
  obtain ⟨pending, ended, after⟩ := acqOf_answerPending f .superseded (pickedBytes (a.acqOf f).pending.picked) a
  have same : unanswered t = unanswered a := unanswered_answerPending ..
  have frontT : t.frontOf f = d.frontOf f := (congrArg (fun x : State => x.frontOf f) same :)
  have lineT : t.lines.tune.get f = d.lines.tune.get f := (congrArg (fun x : State => x.lines.tune.get f) same :)
  have filterT : t.filter = d.filter := filter_answerPending ..
  have slotT : t.slotOf f = d.slotOf f := slotOf_answerPending ..
  have bytes : configurationBytes t = configurationBytes d := configurationBytes_supersede f a
  refine ⟨t, run, frontT.trans front, (congrArg Filter.entries filterT).trans entries,
    ⟨pending, after.trans (by rw [recordA]; rfl), ended⟩, slotT.trans slot, lineT.trans line, fun present => ?_,
    pendingEnded.of_before (pendingEnded_supersede f a) (by rw [recordA]; rfl), ?_, ?_, agreeOnFeed_iff.2 ?_⟩
  · have ends : presentationEnded s d := shown present
    exact presentationEnded_answerPending (presentationEnded_answer ends ..) ..
  · rw [bytes]
    exact (keepsReplies_answerPending f .superseded _ a).mem _ nofun (mem_answer ..)
  · refine (unacquired_supersede f a).trans ?_
    exact unacquired_answer_reserve (s := s.setFront f { s.frontOf f with enabled := false }) free frame ..
  · exact (ofFeed_supersede (otherFeed_ne f) a).trans other

end Sys2Proof.Machine
end

