-- ==== Sys2Proof/Proofs/FeedFields.lean ====
section
/-! PROOFS. O32: a feed enabled, and a lock source stored (R11, R16, R189). -/

namespace Sys2Proof.Machine

set_option Elab.async false

variable {K : Special → Prop}

/-! ## A feed enabled, and a lock source stored (R11, R16) -/

theorem enabled_setFront {s : State} {f g : Feed} {y : Front} (kept : (s.frontOf f).enabled = true → y.enabled = true)
    (on : (s.frontOf g).enabled = true) : ((s.setFront f y).frontOf g).enabled = true := by
  cases f <;> cases g <;> first | exact kept on | exact on

/-- An enable that asks for nothing new changes nothing (R15, R16). -/
theorem enable_idle {tag v : Byte} {f : Feed} {s : State} (taken : takesAtOnce s)
    (same : ((s.frontOf f).enabled = true ∧ v ≠ 0#8 ∧ s.feedPresent f = true) ∨
      ((s.frontOf f).enabled = false ∧ (v = 0#8 ∨ s.feedPresent f = false))) :
    exec (.configure tag [0#8, enableBit f, v]) s = .next (replied tag 0x03#8 .done (configurationBytes s) s) := by
  have asks : enableTaken (reserve s) f (decide (v ≠ 0#8)) = (s.frontOf f).enabled := by
    rcases same with ⟨on, asked, present⟩ | ⟨off, not⟩
    · rw [on]
      exact Bool.and_eq_true_iff.2 ⟨decide_eq_true asked, present⟩
    · rw [off]
      exact Bool.and_eq_false_iff.2 (not.imp (fun h => decide_eq_false (not_not.2 h)) id)
  have applied : applyFields (markedAlone (enableField f) v) (reserve s) = reserve s := by
    rw [applyFields_enable]
    unfold configureEnable
    rw [asks, show ((reserve s).frontOf f).enabled = (s.frontOf f).enabled from rfl]
    cases (s.frontOf f).enabled <;> rfl
  exact exec_configure_done taken (configureValues_enable f v) applied rfl (reserved_of_taken taken) fun _ => id

/-- A feed enabled gets its three FIXED entries, and its front hunts when feed lock is true (R16). -/
theorem enables {tag v : Byte} {f : Feed} {s : State} (taken : takesAtOnce s) (off : (s.frontOf f).enabled = false)
    (asked : v ≠ 0#8) (present : s.feedPresent f = true) (down : (s.frontOf f).sync = .down)
    (room : s.filter.entries.length ≤ 21) (new : ∀ e ∈ s.filter.entries, e.feed = f → 3 < e.stream) :
    let x := s.frontOf f
    let lock := (x.source = .tuner ∧ s.lines.lock.get f = true) ∨ x.source = .sync ∨ x.source = .forced
    let entered : State := { s with filter := { s.filter with entries := s.filter.entries ++ fixedEntries f } }
    let hunting := entered.setFront f ({ x with enabled := true } : Front).rehunt
    let done (t : State) := exec (.configure tag [0#8, enableBit f, v]) s =
      .next (replied tag 0x03#8 .done (configurationBytes t) t)
    (¬ lock → done (entered.setFront f { x with enabled := true })) ∧
    (lock → x.source = .sync ∨ (s.acqOf f).state ≠ .locking → done hunting) ∧
    (lock → x.source ≠ .sync → (s.acqOf f).state = .locking → done (inSyncing f hunting)) := by
  intro x lock entered hunting done
  have free := reserved_of_taken taken
  let u := (reserve entered).setFront f { x with enabled := true }
  have frontU : u.frontOf f = { x with enabled := true } := frontOf_setFront_same ..
  have change : setEnable f true (addEntries (fixedEntries f) (reserve s)) = u := by
    have added : addEntries (fixedEntries f) (reserve s) = reserve entered := addEntries_fixed f (reserve s) room new
    rw [added]
    rfl
  have asks : enableTaken (reserve s) f (decide (v ≠ 0#8)) = true :=
    Bool.and_eq_true_iff.2 ⟨decide_eq_true asked, present⟩
  have applied : applyFields (markedAlone (enableField f) v) (reserve s) =
      relock f (fun s => setEnable f true (addEntries (fixedEntries f) s)) (reserve s) := by
    rw [applyFields_enable]
    unfold configureEnable
    rw [asks, show ((reserve s).frontOf f).enabled = false from off]
    rfl
  have before : lockIndication (reserve s) f = false := by
    rw [lockIndication_eq, show usable (reserve s) f = false from Bool.and_eq_false_iff.2 (.inl off), Bool.false_and]
  have on : usable u f = true := Bool.and_eq_true_iff.2 ⟨by rw [frontU], present⟩
  have lockIs : feedLock u f = true ↔ lock := by
    rw [feedLock_iff, frontU]
    exact ⟨And.right, fun h => ⟨on, h⟩⟩
  obtain ⟨rises, _, stays, _⟩ := relock_spec f (fun s => setEnable f true (addEntries (fixedEntries f) s)) (reserve s)
  dsimp only at rises stays
  rw [change, frontU, before] at rises
  rw [change, frontU] at stays
  have hunts : u.setFront f ({ x with enabled := true } : Front).rehunt = reserve hunting := setFront_setFront ..
  have finish {t : State} (is : relock f (fun s => setEnable f true (addEntries (fixedEntries f) s)) (reserve s) = reserve t)
      (command : t.command = s.command) (kept : ∀ g, (s.frontOf g).enabled = true → (t.frontOf g).enabled = true) : done t :=
    exec_configure_done taken (configureValues_enable f v) (applied.trans is) rfl (by rw [command]; exact free) kept
  have kept {y : Front} (enabled : y.enabled = true) (g : Feed) (was : (s.frontOf g).enabled = true) :
      ((entered.setFront f y).frontOf g).enabled = true := enabled_setFront (s := entered) (fun _ => enabled) was
  refine ⟨fun no => ?_, fun yes other => ?_, fun yes source locking => ?_⟩
  · exact finish (stays (Bool.eq_false_iff.2 fun h => no (lockIs.1 h)) down) rfl (kept rfl)
  · refine finish (((rises (lockIs.2 yes) down).1 ?_).trans hunts) rfl (kept rfl)
    rintro ⟨_, source, locking⟩
    exact other.elim (fun h => source h) (fun h => h locking)
  · exact finish (((rises (lockIs.2 yes) down).2 ⟨rfl, source, locking⟩).trans (congrArg (inSyncing f) hunts)) rfl
      (kept rfl)

/-- A reply changes nothing of what a front that left LOCKED leaves. -/
theorem leavesLocked_answer {f : Feed} {s t : State} (h : leavesLocked f s t) (c : CommandCell) (o : ReplyOutcome)
    (b : Bytes) : leavesLocked f s (answer c o b t) := h

/-- A lock source stored, and what feed lock makes of the front and of a LOCKING step (R2, R3, R11). -/
theorem stores_source {tag v : Byte} {f : Feed} {s : State} (taken : takesAtOnce s) {source : LockSource}
    (named : source = if v = 0#8 then .tuner else if v = 1#8 then .sync else if v = 2#8 then .forced else .off) :
    let x := s.frontOf f
    let lock := usable s f = true ∧ ((source = .tuner ∧ s.lines.lock.get f = true) ∨ source = .sync ∨ source = .forced)
    let before := lockIndication s f
    let y : Front := { x with source }
    let moved := s.setFront f y
    let done (t : State) := exec (.configure tag [0#8, enableBit f <<< 1, v]) s =
      .next (replied tag 0x03#8 .done (configurationBytes t) t)
    (lock → x.sync = .down →
      let passes := before = false ∧ source ≠ .sync ∧ (s.acqOf f).state = .locking
      (¬ passes → done (s.setFront f y.rehunt)) ∧ (passes → done (inSyncing f (s.setFront f y.rehunt)))) ∧
    (lock → x.sync ≠ .down →
      let passes := before = false ∧ (source = .sync → x.sync.isLocked = true) ∧ (s.acqOf f).state = .locking
      (¬ passes → done moved) ∧ (passes → x.sync.isLocked = false → done (inSyncing f moved)) ∧
      (passes → x.sync.isLocked = true → ∃ t, passesSync f (reserve moved) t ∧
        exec (.configure tag [0#8, enableBit f <<< 1, v]) s =
          .next (replied tag 0x03#8 .done (configurationBytes t) (endReservation t)))) ∧
    (¬ lock → x.sync = .down → done moved) ∧
    (¬ lock → x.sync ≠ .down → x.sync.isLocked = false → done (s.setFront f y.downed)) ∧
    (¬ lock → x.sync.isLocked = true → ∃ t, exec (.configure tag [0#8, enableBit f <<< 1, v]) s = .next t ∧
      t.frontOf f = { y.downed with down := true } ∧
      leavesLocked f s t ∧ LocalCell.reply tag 0x03#8 .done 0 (configurationBytes t) ∈ t.command.replyQueue ∧
      unacquired t = unacquired moved ∧ agreeOnFeed (otherFeed f) s t) := by
  intro x lock before y moved done
  have free := reserved_of_taken taken
  let u := (reserve s).setFront f y
  have frontU : u.frontOf f = y := frontOf_setFront_same ..
  have on : usable u f = usable s f := by
    unfold usable
    rw [frontU]
    rfl
  have lockIs : feedLock u f = true ↔ lock := by
    rw [feedLock_iff, frontU, on]
    exact Iff.rfl
  have lockOff (no : ¬ lock) : feedLock u f = false := Bool.eq_false_iff.2 fun h => no (lockIs.1 h)
  have applied : applyFields (markedAlone (enableField f + 1) v) (reserve s) =
      relock f (setSource f source) (reserve s) := by
    rw [applyFields_source, named]
  obtain ⟨rises, holds, stays, falls, leaves⟩ := relock_spec f (setSource f source) (reserve s)
  dsimp only at rises holds stays falls leaves
  rw [show setSource f source (reserve s) = u from rfl, frontU] at rises holds stays falls leaves
  have again (z : Front) : u.setFront f z = reserve (s.setFront f z) := setFront_setFront ..
  have finish {t : State} (is : relock f (setSource f source) (reserve s) = reserve t)
      (command : t.command = s.command) (kept : ∀ g, (s.frontOf g).enabled = true → (t.frontOf g).enabled = true) : done t :=
    exec_configure_done taken (configureValues_source f v) (applied.trans is) rfl (by rw [command]; exact free) kept
  have kept {z : Front} (same : z.enabled = x.enabled) (g : Feed) (was : (s.frontOf g).enabled = true) :
      ((s.setFront f z).frontOf g).enabled = true := enabled_setFront (fun h => same.trans h) was
  refine ⟨fun yes down => ⟨fun no => ?_, fun passes => ?_⟩,
    fun yes up => ⟨fun no => ?_, fun passes unlocked => ?_, fun passes locked => ?_⟩, fun no down => ?_,
    fun no up unlocked => ?_, fun no locked => ?_⟩
  · exact finish (((rises (lockIs.2 yes) down).1 no).trans (again _)) rfl (kept rfl)
  · exact finish (((rises (lockIs.2 yes) down).2 passes).trans (congrArg (inSyncing f) (again _))) rfl (kept rfl)
  · exact finish ((holds (lockIs.2 yes) up).1 no) rfl (kept rfl)
  · exact finish ((holds (lockIs.2 yes) up).2.1 passes unlocked) rfl (kept rfl)
  · have ends := (holds (lockIs.2 yes) up).2.2 passes locked
    have front : (afterSyncing f (inSyncing f u)).front = u.front := (afterSyncing_ends f (inSyncing f u)).1
    refine ⟨afterSyncing f (inSyncing f u), passesSync_afterSyncing f _ _ u, ?_⟩
    refine (exec_configure_kept taken (configureValues_source f v) (applied.trans ends) fun g was => ?_).trans rfl
    rw [show (afterSyncing f (inSyncing f u)).frontOf g = u.frontOf g from congrArg (fun z => z.get g) front]
    exact kept (z := y) rfl g was
  · exact finish (stays (lockOff no) down) rfl (kept rfl)
  · exact finish ((falls (lockOff no) up unlocked).trans (again _)) rfl (kept rfl)
  · let downed := u.setFront f y.downed
    have unlocked : Machine.locked downed f = false := by unfold Machine.locked; rw [frontOf_setFront_same]; rfl
    have off : feedLock downed f = false :=
      (feedLock_setFront (y := y.downed) (by rw [frontU]; rfl) (by rw [frontU]; rfl)).trans (lockOff no)
    obtain ⟨left, front, same⟩ := leftLocked_spec (s := reserve s) (f := f) (.inr rfl) unlocked rfl
    let t := leftLocked f .lock downed
    have ends : relock f (setSource f source) (reserve s) = t :=
      (leaves (lockOff no) locked).trans
        (deliverIndication_still (.inr (same.trans (lockIndication_of_no_feedLock off))))
    have frontT : t.frontOf f = { y.downed with down := true } :=
      front.trans (by rw [frontOf_setFront_same])
    have other : ofFeed (otherFeed f) t = ofFeed (otherFeed f) s :=
      (ofFeed_leftLocked (otherFeed_ne f) ..).trans ((ofFeed_setFront (otherFeed_ne f) ..).trans
        (ofFeed_setFront (otherFeed_ne f) y (reserve s)))
    have frame : unacquired t = unacquired (reserve moved) :=
      (unacquired_leftLocked ..).trans (unacquired_setFront (by rw [frontU]; rfl))
    refine ⟨_, exec_configure_kept taken (configureValues_source f v) (applied.trans ends) fun g was => ?_, frontT,
      leavesLocked_answer left .., mem_answer (s := t) .., unacquired_answer_reserve (s := moved) free frame ..,
      agreeOnFeed_iff.2 other⟩
    by_cases at_ : g = f
    · rw [at_] at was ⊢
      rw [frontT]
      exact was
    · have is : g = otherFeed f := by cases f <;> cases g <;> first | rfl | exact absurd rfl at_
      rw [is, show t.frontOf (otherFeed f) = s.frontOf (otherFeed f) from congrArg (fun z => z.1) other, ← is]
      exact was

/-- Settles O32. -/
theorem configureFeedFields : Obligations.ConfigureFeedFields := by
  intro tag f s taken bit x hunt syncing done
  have bitIs : bit = enableBit f := by cases f <;> rfl
  have doneIs : done = fun v t => exec (.configure tag [0#8, enableBit f, v]) s =
      .next (replied tag 0x03#8 .done (configurationBytes t) t) := by rw [← bitIs]
  refine ⟨fun v on asked => ?_, fun v off asked present down room new => ?_, fun v same => ?_, fun v => ?_⟩
  · rw [bitIs]
    exact disables taken on asked
  · rw [doneIs]
    exact enables taken off asked present down room new
  · rw [doneIs]
    exact enable_idle taken same
  · intro source line lock before y moved doneSource
    have doneIs : doneSource = fun t => exec (.configure tag [0#8, enableBit f <<< 1, v]) s =
        .next (replied tag 0x03#8 .done (configurationBytes t) t) := by rw [← bitIs]
    rw [doneIs, bitIs]
    exact stores_source taken rfl

end Sys2Proof.Machine
end
